-- ==== Sys2Proof/Word.lean ====
section
/-! DEFINITION. Words of the Pyrrok module: bytes, 32-bit and 64-bit words, lane masks and labels (R5, R130, R174). -/
namespace Sys2Proof

/-- A byte. -/
abbrev Byte := BitVec 8
/-- A 32-bit register value. -/
abbrev Word := BitVec 32
/-- A 64-bit value: an instruction word, an address, a register pair. -/
abbrev DWord := BitVec 64
/-- A lane mask: bit l stands for lane l (R20). -/
abbrev Mask := BitVec 32
/-- A label: bit i stands for principal i (R174). -/
abbrev Label := BitVec 32

end Sys2Proof
end

