-- ==== Sys2Proof/Syntax.lean ====
section
/-! DEFINITION. The syntax of the 232 steps of the opcode table: 139 instruction words, the commands of a command stream, and the machine's other steps. -/
namespace Sys2Proof

/-- Rate codes 0 to 6 (R42). In a draw program 0 is SAMPLE, 4 OBJECT, 5 FRAME; in a compute program 0 is LANE, 4 BLOCK, 5 LAUNCH. -/
inductive Rate | fine | coarse | vertex | cluster | group | whole | ray
  deriving DecidableEq, Repr

/-- The common fields of an instruction word: RATE, FSEL, GUARD and GNEG (R222). -/
structure Ctl where
  rate : Rate
  fsel : Bool
  guard : Fin 8
  gneg : Bool
  deriving DecidableEq, Repr

/-- The sixteen inline constants, operand codes 328 to 343 (R228). -/
inductive Const
  | zero | one | two | four | minusOne
  | fHalf | fOne | fTwo | fFour | fMinusHalf | fMinusOne | fMinusTwo | fMinusFour
  | fInf | fNan | intMin
  deriving DecidableEq, Repr

/-- An operand code below 344 (R228). -/
inductive Opr
  | v (n : Fin 192) | h (n : Fin 64) | s (n : Fin 64) | p (n : Fin 8) | c (k : Const)
  deriving DecidableEq, Repr

/-- The second source of a form that has an R and an I variant (R263, R265, R268). -/
inductive Src | reg (o : Opr) | imm (i : BitVec 20)
  deriving DecidableEq, Repr

inductive Width | w32 | w64
  deriving DecidableEq, Repr

/-- Saturation of IADD, ISUB and IMAD (R263). -/
inductive Sat | wrap | ss | us
  deriving DecidableEq, Repr

/-- Integer types (R130). -/
inductive IType | i32 | n32 | i64 | n64 | i16 | n16 | i8 | n8
  deriving DecidableEq, Repr

/-- IMAD variants (R263). -/
inductive MadV | b32 | b64 | i32ss | n32us
  deriving DecidableEq, Repr

/-- Two-input bit functions of BCOND and PCOND, codes 0 to 15 (R267). -/
inductive Fn2
  | zero | and | or | xor | x | y | nx | ny | nand | nor | xnor | bic | bicr | orn | ornr | one
  deriving DecidableEq, Repr

/-- Integer compares (R268). -/
inductive Cmp | eq | ne | lt | le | gt | ge
  deriving DecidableEq, Repr

/-- Combine of ICMP and FCMP (R268). -/
inductive Comb | none | and | or | xor
  deriving DecidableEq, Repr

/-- Rounding modes 0 to 5 (R137). -/
inductive Rm | rne | rz | ru | rd | rna | sr
  deriving DecidableEq, Repr

/-- Variants of group 0x4 (R283). -/
inductive FTy | f32 | f16x2 | bf16x2
  deriving DecidableEq, Repr

/-- Floating compares (R286). -/
inductive FCmpOp | eq | ne | lt | le | gt | ge | un | ord
  deriving DecidableEq, Repr

/-- Half selection of FCMP (R286). -/
inductive HalfSel | lo | hi | both
  deriving DecidableEq, Repr

/-- The rounding conversions and exact conversions of FCVT, indices 23 to 38 (R292). -/
inductive CvtV
  | f32f16 | f32bf16 | f32e4m3 | f32e5m2 | f32e2m1
  | f16f32 | bf16f32 | e4m3f32 | e5m2f32 | e2m1f32 | e8m0f32
  | f16bf16 | bf16f16 | f16e4m3 | f16e5m2 | bf16e4m3
  deriving DecidableEq, Repr

/-- PACK and UNPACK element kinds (R293, R294). -/
inductive PackV | f16 | bf16 | e4m3 | e5m2
  deriving DecidableEq, Repr

/-- Lane choice of LPERM (R273). -/
inductive PermV | lane | back | fwd | xmask
  deriving DecidableEq, Repr

/-- Compare of PGATH `.cnt` with a predicate destination (R274). -/
inductive CntCmp | some | every | none | notevery
  deriving DecidableEq, Repr

/-- SRD variants (R276). -/
inductive SrdV | addB32 | addB64 | minI32 | maxI32 | minN32 | maxN32 | and | or | xor
  deriving DecidableEq, Repr

/-- DRED variants (R277). -/
inductive DredV | addF32 | minF32 | maxF32 | addI32 | minI32 | maxI32
  deriving DecidableEq, Repr

/-- SCAN variants (R278). -/
inductive ScanV
  | addI32Incl | addI32Excl | addF32Incl | addF32Excl | minI32Incl | maxI32Incl | minF32Incl | maxF32Incl
  deriving DecidableEq, Repr

/-- Access widths of LD and LDS (R296, R300). -/
inductive LdW | i8 | n8 | i16 | n16 | b32 | b64 | b128
  deriving DecidableEq, Repr

/-- Access widths of ST and STS (R300). -/
inductive StW | b8 | b16 | b32 | b64 | b128
  deriving DecidableEq, Repr

/-- Access widths of LDC (R300). -/
inductive LdcW | b32 | b64 | b128 | n16
  deriving DecidableEq, Repr

inductive Order | rlx | acq | rel | acqrel
  deriving DecidableEq, Repr

/-- Scopes 0 to 6 (R19). -/
inductive Scope | wave | core | quad | die | pkg | pod | sys
  deriving DecidableEq, Repr

/-- Cache hints (R93). -/
inductive Hint | dflt | strm | byp | keep
  deriving DecidableEq, Repr

/-- The fields base, x, off12, order, scope and hint of the M format (R225). -/
structure MemArg where
  base : Opr
  x : Opr
  off : BitVec 12
  order : Order
  scope : Scope
  hint : Hint
  deriving DecidableEq, Repr

/-- Integer operations of ATOM, ATOMS and RED (R304, R305). -/
inductive IAOp | add | minI | maxI | minN | maxN | and | or | xor | exch
  deriving DecidableEq, Repr

/-- ATOM variants, indices 0 to 23 (R304). -/
inductive AtomV | int (op : IAOp) (w : Width) | addF32 | minF32 | maxF32 | addF16x2 | addBf16x2 | incN32
  deriving DecidableEq, Repr

/-- ATOMS variants, indices 24 to 35 (R307). -/
inductive AtomsV | int (op : IAOp) | incN32 | addF32 | cas
  deriving DecidableEq, Repr

/-- CAS variants (R308). -/
inductive CasV | b32 | b64 | b32nr
  deriving DecidableEq, Repr

/-- RED variants, indices 40 to 53 (R309). -/
inductive RedV
  | addB32 | addB64 | minI32 | maxI32 | minN32 | maxN32 | orB32
  | addF32 | addF16 | addBf16 | addE4m3 | addE5m2 | minF32 | maxF32
  deriving DecidableEq, Repr

/-- CPY variants (R315). -/
inductive CpyV | g2g | g2s | s2g | s2s
  deriving DecidableEq, Repr

/-- Scopes of a transaction (R322). -/
inductive TxScope | core | die | pkg
  deriving DecidableEq, Repr

/-- Scopes of a barrier (R324). -/
inductive BarScope | core | quad | die | pkg | pod
  deriving DecidableEq, Repr

/-- WAITC variants, indices 7 to 12 (R327). -/
inductive WaitV | eqB32 | neB32 | geN32 | ltN32 | eqB64 | neB64
  deriving DecidableEq, Repr

/-- AST variants, indices 11 to 18 (R345). -/
inductive AstV | b32 | bf16 | f16 | e4m3 | e5m2 | i8 | n8 | i16
  deriving DecidableEq, Repr

/-- IPA modes (R348, R53). -/
inductive IpaV | persp | lin | flat
  deriving DecidableEq, Repr

/-- TEX filters (R351). -/
inductive TexV | near | bil | tri
  deriving DecidableEq, Repr

/-- Targets of OUTS (R355). -/
inductive OutT | colour (n : Fin 4) | vis
  deriving DecidableEq, Repr

/-- TRET modes (R361). -/
inductive TretV | replay | next | finish
  deriving DecidableEq, Repr

/-- CMP codes 0 to 3 of IF and WAIT (R191). -/
inductive CCmp | eq | ne | lt | ge
  deriving DecidableEq, Repr

/-- A packet that arrives from another package on a plane (R179, R126, R127). -/
inductive PacketKind | write (data : List Byte) | addSignal (v : DWord) | setSignal (v : DWord) | read (len : Nat)
  deriving DecidableEq, Repr

structure Packet where
  src : Nat
  plane : Nat
  seq : Nat
  label : Label
  pa : Nat
  kind : PacketKind
  deriving DecidableEq, Repr

/-- An egress window (R181). -/
structure Window where
  kind : Nat
  target : Nat
  reserved : Nat
  size : Nat
  base : Nat
  deriving DecidableEq, Repr

/-- An entry of the network interface's tenant table (R197). -/
structure Tenant where
  key : List Byte
  part : Nat
  rateLimit : Nat
  lastSeq : Option Nat
  identities : List (List Byte)
  deriving DecidableEq, Repr

/-- The signed configuration record in package flash (R13): the bytes that are signed, their signature, and what they say: identity, serial number, architecture level, and the composition of R11 as counts in its table's order. -/
structure ConfigRecord where
  body : List Byte
  sig : List Byte
  pkgNum : Nat
  serialNum : Nat
  archLevel : Nat
  composition : List Nat
  deriving DecidableEq, Repr

/-- A master of R218. -/
inductive Master | part (p : Nat) | command | security | network | cxl (f : Nat) | slices | context
  deriving DecidableEq, Repr

/-- A range of a per-master access table (R218): lines of device memory that the HBM controllers and L2 slices check, or with `csr` bytes of a CSR block, and the masters that may read and write there. A master in neither list has no permission there. -/
structure AccessRow where
  csr : Bool
  first : Nat
  size : Nat
  read : List Master
  write : List Master
  deriving DecidableEq, Repr

/-- What a step of the start sequence is given by the outside world (R220, R445): whether it succeeds, the configuration record that step 1 reads, the label sets, frame labels, access tables and keys that step 3 writes, the firmware image that steps 2 and 5 measure. -/
structure StartArg where
  step : Nat
  ok : Bool
  unit : Nat
  record : ConfigRecord
  labelSets : List (Nat × Label)
  frameLabels : List (Nat × Byte)
  access : List AccessRow
  memKeys : List (Nat × List Byte)
  linkKeys : List (Nat × List Byte)
  image : List Byte
  deriving DecidableEq, Repr

/-- A quote: measurement, nonce, package identity, configuration digest (R219). -/
structure Quote where
  m : List Byte
  nonce : List Byte
  identity : List Byte
  config : List Byte
  deriving DecidableEq, Repr

/-- Power states (R217). -/
inductive Power | quadrantGate | coreRetention | dieIdle | packageSleep
  deriving DecidableEq, Repr

/-- One constructor for each row of the opcode table, in its order. -/
inductive Instr
  -- group 0x0 (R255 to R262)
  | nop (h : Ctl) | region (h : Ctl)
  | bra (h : Ctl) (tgt : BitVec 20)
  | brc (h : Ctl) (tgt rcv : BitVec 20) (hb : BitVec 6)
  | brx (h : Ctl) (a b : Opr)
  | call (h : Ctl) (tgt : BitVec 20) (link : BitVec 6)
  | callx (h : Ctl) (d a : Opr)
  | ret (h : Ctl) (a : Opr)
  | exit (h : Ctl)
  | trap (h : Ctl) (code : BitVec 20)
  | bkpt (h : Ctl) (code : BitVec 20)
  -- group 0x1 (R263, R264)
  | iadd (h : Ctl) (w : Width) (sat : Sat) (d a : Opr) (b : Src)
  | isub (h : Ctl) (w : Width) (sat : Sat) (d a b : Opr)
  | iaddw (h : Ctl) (signed : Bool) (d a b : Opr)
  | imul (h : Ctl) (w : Width) (d a : Opr) (b : Src)
  | imulhi (h : Ctl) (signed : Bool) (d a b : Opr)
  | imad (h : Ctl) (v : MadV) (d a b c : Opr)
  | imadw (h : Ctl) (signed : Bool) (d a b c : Opr)
  | idiv (h : Ctl) (w : Width) (signed : Bool) (d a b : Opr)
  | irem (h : Ctl) (w : Width) (signed : Bool) (d a b : Opr)
  | imin (h : Ctl) (w : Width) (signed : Bool) (d a b : Opr)
  | imax (h : Ctl) (w : Width) (signed : Bool) (d a b : Opr)
  | iabs (h : Ctl) (w : Width) (ss : Bool) (d a : Opr)
  -- group 0x2 (R265, R266)
  | and (h : Ctl) (w : Width) (d a : Opr) (b : Src)
  | or (h : Ctl) (w : Width) (d a : Opr) (b : Src)
  | xor (h : Ctl) (w : Width) (d a : Opr) (b : Src)
  | bcond (h : Ctl) (w : Width) (g1 g0 : Fn2) (d a b c : Opr)
  | shl (h : Ctl) (w : Width) (d a : Opr) (b : Src)
  | shr (h : Ctl) (w : Width) (d a : Opr) (b : Src)
  | sar (h : Ctl) (w : Width) (d a : Opr) (b : Src)
  | rotl (h : Ctl) (w : Width) (d a : Opr) (b : Src)
  | bfe (h : Ctl) (w : Width) (signed : Bool) (d a b c : Opr)
  | bfi (h : Ctl) (w : Width) (d a b c : Opr)
  | popc (h : Ctl) (w : Width) (d a : Opr)
  | clz (h : Ctl) (w : Width) (d a : Opr)
  | brev (h : Ctl) (w : Width) (d a : Opr)
  -- group 0x3 (R268 to R270)
  | icmp (h : Ctl) (t : IType) (cmp : Cmp) (comb : Comb) (d a : Opr) (b : Src) (pc : Opr)
  | sel (h : Ctl) (w : Width) (d a b pc : Opr)
  | mov (h : Ctl) (w : Width) (d a : Opr)
  | movi (h : Ctl) (wide : Bool) (d : Opr) (imm : Word)
  | movhi (h : Ctl) (d : Opr) (imm : BitVec 20)
  | addpc (h : Ctl) (d : Opr) (imm : BitVec 20)
  -- group 0x4 (R283 to R289)
  | fadd (h : Ctl) (t : FTy) (rm : Rm) (sat : Bool) (d a b c : Opr)
  | fmul (h : Ctl) (t : FTy) (rm : Rm) (sat : Bool) (d a b c : Opr)
  | ffma (h : Ctl) (t : FTy) (rm : Rm) (sat : Bool) (d a b c : Opr)
  | fscale (h : Ctl) (t : FTy) (rm : Rm) (sat : Bool) (d a b c : Opr)
  | fmin (h : Ctl) (t : FTy) (d a b : Opr)
  | fmax (h : Ctl) (t : FTy) (d a b : Opr)
  | fcmp (h : Ctl) (t : FTy) (cmp : FCmpOp) (comb : Comb) (half : HalfSel) (d a b pc : Opr)
  | fclass (h : Ctl) (t : FTy) (test : BitVec 9) (hi : Bool) (d a : Opr)
  | frnd (h : Ctl) (t : FTy) (rm : Rm) (d a : Opr)
  | ffrac (h : Ctl) (d a : Opr)
  | fdot2 (h : Ctl) (bf : Bool) (sat : Bool) (d a b c : Opr)
  | fdot4 (h : Ctl) (e5 : Bool) (sat : Bool) (d a b c : Opr)
  -- group 0x5 (R290 to R295)
  | frcp (h : Ctl) (rm : Rm) (d a : Opr)
  | frsq (h : Ctl) (rm : Rm) (d a : Opr)
  | fsqrt (h : Ctl) (rm : Rm) (d a : Opr)
  | fexp2 (h : Ctl) (rm : Rm) (d a : Opr)
  | flog2 (h : Ctl) (rm : Rm) (d a : Opr)
  | fsinpi (h : Ctl) (rm : Rm) (d a : Opr)
  | fcospi (h : Ctl) (rm : Rm) (d a : Opr)
  | f2i (h : Ctl) (t : IType) (rm : Rm) (d a : Opr)
  | i2f (h : Ctl) (t : IType) (rm : Rm) (d a b : Opr)
  | fcvt (h : Ctl) (v : CvtV) (rm : Rm) (sat : Bool) (d a b : Opr)
  | pack (h : Ctl) (v : PackV) (rm : Rm) (sat hi : Bool) (d a b c : Opr)
  | unpack (h : Ctl) (v : PackV) (k : Fin 4) (d a : Opr)
  | gqdec (h : Ctl) (f16 : Bool) (n : Fin 8) (rm : Rm) (sat : Bool) (d a b c : Opr)
  -- group 0x6 (R271 to R278)
  | lperm (h : Ctl) (v : PermV) (grp : Fin 6) (d a b : Opr)
  | pgathCnt (h : Ctl) (cmp : CntCmp) (d a : Opr)
  | pgathRank (h : Ctl) (d a : Opr)
  | pgathMask (h : Ctl) (d a : Opr)
  | lfirst (h : Ctl) (d : Opr)
  | lkin (h : Ctl) (w : Width) (d a : Opr)
  | lread (h : Ctl) (w : Width) (d a b : Opr)
  | srd (h : Ctl) (v : SrdV) (d a : Opr)
  | dred (h : Ctl) (v : DredV) (d a : Opr)
  | scan (h : Ctl) (v : ScanV) (d a : Opr)
  | pcond (h : Ctl) (g1 g0 : Fn2) (d a b c : Opr)
  | pmovGet (h : Ctl) (d : Opr)
  | pmovSet (h : Ctl) (mask : BitVec 8) (a : Opr)
  -- group 0x7 (R300 to R303)
  | ld (h : Ctl) (w : LdW) (d : Opr) (m : MemArg)
  | st (h : Ctl) (w : StW) (d : Opr) (m : MemArg)
  | lds (h : Ctl) (w : LdW) (d : Opr) (m : MemArg)
  | sts (h : Ctl) (w : StW) (d : Opr) (m : MemArg)
  | ldc (h : Ctl) (w : LdcW) (d : Opr) (m : MemArg)
  | pref (h : Ctl) (m : MemArg)
  | cinv (h : Ctl) (m : MemArg)
  -- group 0x8 (R304 to R310)
  | atom (h : Ctl) (v : AtomV) (d : Opr) (m : MemArg)
  | atoms (h : Ctl) (v : AtomsV) (d : Opr) (m : MemArg)
  | cas (h : Ctl) (v : CasV) (d : Opr) (m : MemArg)
  | casx (h : Ctl) (d : Opr) (m : MemArg)
  | red (h : Ctl) (v : RedV) (d : Opr) (m : MemArg)
  | fence (h : Ctl) (order : Order) (scope : Scope)
  | fencex (h : Ctl)
  -- group 0x9 (R313 to R321)
  | cpy (h : Ctl) (v : CpyV) (d a b c : Opr)
  | cpyp (h : Ctl) (bench : Bool) (d a b c : Opr)
  | cpyc (h : Ctl) (d a b c : Opr)
  | cpysig (h : Ctl) (set : Bool) (d a b c : Opr)
  | cseal (h : Ctl) (d : Opr)
  | cwait (h : Ctl) (a : Opr)
  | cwaitSt (h : Ctl) (d a : Opr)
  | ctest (h : Ctl) (d a b : Opr)
  -- group 0xA (R322 to R330)
  | txb (h : Ctl) (alt : Option (BitVec 20)) (scope : TxScope)
  | txe (h : Ctl) | retry (h : Ctl) | txx (h : Ctl)
  | bar (h : Ctl) (scope : BarScope) (k : Fin 16) (a : Opr)
  | bara (h : Ctl) (scope : BarScope) (k : Fin 16) (a : Opr)
  | barw (h : Ctl) (scope : BarScope) (k : Fin 16)
  | waitc (h : Ctl) (v : WaitV) (d : Opr) (m : MemArg)
  | spawn (h : Ctl) (entry : Byte) (a b : Opr)
  | join (h : Ctl) (m : MemArg)
  | spfl (h : Ctl)
  -- group 0xB (R331 to R345)
  | bclaim (h : Ctl) (a : Opr)
  | brel (h : Ctl) (a : Opr)
  | bst (h : Ctl) (d : Opr) (m : MemArg)
  | brd (h : Ctl) (d : Opr) (m : MemArg)
  | mma (h : Ctl) (sat neg clr : Bool) (t : Fin 8) (a b : Fin 32)
  | aclr (h : Ctl) (t : Fin 8)
  | ard (h : Ctl) (bf : Bool) (t g : Fin 8) (rm : Rm) (sat : Bool) (d : Opr)
  | awr (h : Ctl) (bf : Bool) (t g : Fin 8) (a : Opr)
  | ast (h : Ctl) (v : AstV) (d : Opr) (m : MemArg)
  -- group 0xC (R346 to R356)
  | hfree (h : Ctl) (a : Opr)
  | ipa (h : Ctl) (v : IpaV) (d a : Opr)
  | emitv (h : Ctl) (a : Opr)
  | emitp (h : Ctl) (a : Opr)
  | tex (h : Ctl) (v : TexV) (d a b c : Opr)
  | tld (h : Ctl) (d a b c : Opr)
  | trace (h : Ctl) (slot : Fin 8) (cullback first : Bool) (a b : Opr)
  | rret (h : Ctl) (a : Opr)
  | mboxTry (h : Ctl) (slot : Fin 8) (d c : Opr)
  | mboxWait (h : Ctl) (slot : Fin 8) (d c : Opr)
  | outs (h : Ctl) (t : OutT) (a : Opr)
  | kill (h : Ctl)
  -- groups 0xD and 0xE (R357 to R361)
  | lblrd (h : Ctl) (d a : Opr)
  | grel (h : Ctl) (scr : Bool) (w : Fin 8) (d a b c : Opr)
  | csrr (h : Ctl) (d : Opr) (csr : BitVec 16)
  | csrw (h : Ctl) (csr : BitVec 16) (a : Opr)
  | tret (h : Ctl) (mode : TretV) (a : Opr)
  -- doorbell and commands (R190, R191, R383)
  | tail (part q : Nat) (v : DWord)
  | cmdNop (fence : Bool)
  | launch (fence : Bool) (addr : DWord)
  | launchIndirect (fence : Bool) (addr counts : DWord)
  | cmdLoop (fence : Bool) (body : BitVec 16) (count : Word)
  | cmdIf (fence : Bool) (skip : BitVec 16) (cmp : CCmp) (addr val : DWord)
  | cmdWait (fence : Bool) (cmp : CCmp) (addr val : DWord)
  | cmdWaitWake (part q : Nat)
  | signal (fence add : Bool) (addr val : DWord)
  | invxl (fence : Bool) (base size : DWord)
  | invxlComplete (part q : Nat)
  | cmdIllegal (info : Word)
  -- launches, placement, gathers (R192 to R203, R44, R45, R55, R163 to R173, R424, R425)
  | launchHeldWaysStart (part q : Nat)
  | launchEnd (lid : Nat)
  | networkLaunchPacket (tenant : Byte) (seq : DWord) (rec tag : List Byte)
  | clusterPlace (part die : Nat)
  | rateGatherSeal (die g : Nat)
  | rateWavePlace (die : Nat)
  | heldRecordAllocate (die : Nat)
  | holdExhausted (lid die : Nat)
  | spawnSlotSeal (core slot : Nat)
  | taskWavePlace (die : Nat)
  | spawnOverflowReturn (core : Nat)
  | spawnDeadlock (lid die : Nat)
  -- the ordering machine (R32, R100, R104 to R128, R39, R153, R157)
  | completionEvent (wave op : Nat)
  | tableWalkComplete (wave split : Nat)
  | loadPerform (wave entry lane : Nat) (fill : Bool)
  | storePerform (wave entry lane : Nat)
  | atomicPerform (wave entry lane : Nat)
  | fencePerform (wave entry : Nat)
  | homeQueueEnqueue (wave entry lane : Nat)
  | homeQueueApply (queue idx : Nat)
  | wakeRestart (wave split : Nat)
  | l1LineDrop (core line : Nat)
  | transactionAbort (wave : Nat)
  | serialTokenGrant
  | copyRead (copy unit : Nat)
  | copyWrite (copy unit : Nat)
  | flushMarkerGathered (wave pkg plane : Nat)
  | fabricPacket (p : Packet)
  | gateAccept
  | traversalEnd (ray : Nat)
  | parcelLinkTraversal (ray : Nat)
  -- faults and their resolution (R371 to R390)
  | trapWaveStart (part : Nat)
  | faultRecordWrite (part idx : Nat)
  | watchdog (lid : Nat)
  | fqcons (part : Nat) (v : DWord)
  | fqresolveReplay (part : Nat) (handle : Word)
  | fqresolveNext (part : Nat) (handle : Word)
  | fqresolveEnd (part : Nat) (handle : Word)
  | fqresolveStep (part : Nat) (handle : Word)
  | fqresolveStepWave (part : Nat) (handle : Word)
  -- partitions, pre-emption, spilling (R160, R208 to R213, R385 to R388, R436, R437)
  | suspendByDraining (part : Nat)
  | drainComplete (part : Nat)
  | drainLimitExpiry (part : Nat)
  | suspendAtOnce (part : Nat)
  | resume (part : Nat)
  | waveSpill (wave : Nat)
  | waveReplace (wave : Nat)
  | registerWrite (pf : Bool) (part off : Nat) (v : DWord)
  | vfDisable (part : Option Nat)
  -- host and security processor (R94, R128, R174, R180, R184 to R189, R216, R219, R246, R103)
  | cxlMemRead (vf pa len : Nat)
  | cxlMemWrite (vf pa : Nat) (data : List Byte)
  | policyInstall (body : List Byte) (sigs : List (List Byte))
  | policyWithdraw (lmask : Label) (principal : Nat) (sig : List Byte)
  | packageTimeRead
  | gateLogSign
  | gateLogAck (n : Nat)
  | quoteRequest (nonce : List Byte)
  | codeObjectSubmit (part : Nat) (base : DWord) (bytes : List Byte)
  | frameLabelChange (frame : Nat) (idx : Byte)
  | peerAdmit (pkg : Nat) (q : Quote) (sig key : List Byte) (keys : List (Nat × List Byte))
  -- pod fabric and host link (R439 to R441)
  | flitRetryLimit (plane : Nat)
  | flushMarkerTimeout (wave pkg plane : Nat) (answered : Bool)
  | planeRetirementAnnounce (plane : Nat)
  | hostLinkFailed
  | hostLinkRecovered
  -- power, start, reset, unused encodings (R15, R217, R220, R187, R396)
  | powerStateEntry (st : Power) (unit : Nat)
  | powerStateExit (st : Power) (unit : Nat)
  | startSequence (arg : StartArg)
  | moduleReset
  | illegalOp (header : Bool) (w : DWord)
  | powerMonitorWithhold (level : Nat)
  | vfEnable (part : Nat)
  | hostLinkDown
  | hostLinkRetrained
  | flitCrcFailure (plane : Nat)
  | cxlCacheSnoop (die line : Nat) (downgrade : Bool)
  | cxlCompletion (id : Nat)
  | principalRegistration (n : Nat) (key : List Byte)
  | egressWindowRegistration (principal idx : Nat) (w : Window)
  | tenantTableWrite (idx : Nat) (t : Tenant)
  | boundMaskSet (part : Nat) (mask : Label)
  deriving DecidableEq, Repr

end Sys2Proof
end

