-- ==== Sys2Proof/Decode.lean ====
section
/-! DEFINITION. Decoding: the fields of instruction words, the operand classes of every form, the checks that depend on a word alone, the decoder of words and of commands, and the encoder (R222 to R247, R191). -/
namespace Sys2Proof

/-- The code of each Rate (R42). -/
def Rate.num : Rate → Nat
  | .fine => 0 | .coarse => 1 | .vertex => 2 | .cluster => 3 | .group => 4 | .whole => 5 | .ray => 6
/-- The Rate that a code stands for. -/
def Rate.of : Nat → Rate
  | 0 => .fine | 1 => .coarse | 2 => .vertex | 3 => .cluster | 4 => .group | 5 => .whole | _ => .ray
/-- The code of each Const (R228, counted from 328). -/
def Const.num : Const → Nat
  | .zero => 0 | .one => 1 | .two => 2 | .four => 3 | .minusOne => 4 | .fHalf => 5 | .fOne => 6 | .fTwo => 7
  | .fFour => 8 | .fMinusHalf => 9 | .fMinusOne => 10 | .fMinusTwo => 11 | .fMinusFour => 12 | .fInf => 13
  | .fNan => 14 | .intMin => 15
/-- The Const that a code stands for. -/
def Const.of : Nat → Const
  | 0 => .zero | 1 => .one | 2 => .two | 3 => .four | 4 => .minusOne | 5 => .fHalf | 6 => .fOne | 7 => .fTwo
  | 8 => .fFour | 9 => .fMinusHalf | 10 => .fMinusOne | 11 => .fMinusTwo | 12 => .fMinusFour | 13 => .fInf
  | 14 => .fNan | _ => .intMin
/-- The code of each Width (the order of the variants). -/
def Width.num : Width → Nat
  | .w32 => 0 | .w64 => 1
/-- The Width that a code stands for. -/
def Width.of : Nat → Width
  | 0 => .w32 | _ => .w64
/-- The code of each Sat (R263). -/
def Sat.num : Sat → Nat
  | .wrap => 0 | .ss => 1 | .us => 2
/-- The Sat that a code stands for. -/
def Sat.of : Nat → Sat
  | 0 => .wrap | 1 => .ss | _ => .us
/-- The code of each IType (R268, R291). -/
def IType.num : IType → Nat
  | .i32 => 0 | .n32 => 1 | .i64 => 2 | .n64 => 3 | .i16 => 4 | .n16 => 5 | .i8 => 6 | .n8 => 7
/-- The IType that a code stands for. -/
def IType.of : Nat → IType
  | 0 => .i32 | 1 => .n32 | 2 => .i64 | 3 => .n64 | 4 => .i16 | 5 => .n16 | 6 => .i8 | _ => .n8
/-- The code of each MadV (R263). -/
def MadV.num : MadV → Nat
  | .b32 => 0 | .b64 => 1 | .i32ss => 2 | .n32us => 3
/-- The MadV that a code stands for. -/
def MadV.of : Nat → MadV
  | 0 => .b32 | 1 => .b64 | 2 => .i32ss | _ => .n32us
/-- The code of each Fn2 (R267). -/
def Fn2.num : Fn2 → Nat
  | .zero => 0 | .and => 1 | .or => 2 | .xor => 3 | .x => 4 | .y => 5 | .nx => 6 | .ny => 7 | .nand => 8 | .nor => 9
  | .xnor => 10 | .bic => 11 | .bicr => 12 | .orn => 13 | .ornr => 14 | .one => 15
/-- The Fn2 that a code stands for. -/
def Fn2.of : Nat → Fn2
  | 0 => .zero | 1 => .and | 2 => .or | 3 => .xor | 4 => .x | 5 => .y | 6 => .nx | 7 => .ny | 8 => .nand | 9 => .nor
  | 10 => .xnor | 11 => .bic | 12 => .bicr | 13 => .orn | 14 => .ornr | _ => .one
/-- The code of each Cmp (R268). -/
def Cmp.num : Cmp → Nat
  | .eq => 0 | .ne => 1 | .lt => 2 | .le => 3 | .gt => 4 | .ge => 5
/-- The Cmp that a code stands for. -/
def Cmp.of : Nat → Cmp
  | 0 => .eq | 1 => .ne | 2 => .lt | 3 => .le | 4 => .gt | _ => .ge
/-- The code of each Comb (R268). -/
def Comb.num : Comb → Nat
  | .none => 0 | .and => 1 | .or => 2 | .xor => 3
/-- The Comb that a code stands for. -/
def Comb.of : Nat → Comb
  | 0 => .none | 1 => .and | 2 => .or | _ => .xor
/-- The code of each Rm (R280). -/
def Rm.num : Rm → Nat
  | .rne => 0 | .rz => 1 | .ru => 2 | .rd => 3 | .rna => 4 | .sr => 5
/-- The Rm that a code stands for. -/
def Rm.of : Nat → Rm
  | 1 => .rz | 2 => .ru | 3 => .rd | 4 => .rna | 5 => .sr | _ => .rne
/-- The code of each FTy (R283). -/
def FTy.num : FTy → Nat
  | .f32 => 0 | .f16x2 => 1 | .bf16x2 => 2
/-- The FTy that a code stands for. -/
def FTy.of : Nat → FTy
  | 0 => .f32 | 1 => .f16x2 | _ => .bf16x2
/-- The code of each FCmpOp (R286). -/
def FCmpOp.num : FCmpOp → Nat
  | .eq => 0 | .ne => 1 | .lt => 2 | .le => 3 | .gt => 4 | .ge => 5 | .un => 6 | .ord => 7
/-- The FCmpOp that a code stands for. -/
def FCmpOp.of : Nat → FCmpOp
  | 0 => .eq | 1 => .ne | 2 => .lt | 3 => .le | 4 => .gt | 5 => .ge | 6 => .un | _ => .ord
/-- The code of each HalfSel (R286). -/
def HalfSel.num : HalfSel → Nat
  | .lo => 0 | .hi => 1 | .both => 2
/-- The HalfSel that a code stands for. -/
def HalfSel.of : Nat → HalfSel
  | 0 => .lo | 1 => .hi | _ => .both
/-- The code of each CvtV (R292, counted from 23). -/
def CvtV.num : CvtV → Nat
  | .f32f16 => 0 | .f32bf16 => 1 | .f32e4m3 => 2 | .f32e5m2 => 3 | .f32e2m1 => 4 | .f16f32 => 5 | .bf16f32 => 6
  | .e4m3f32 => 7 | .e5m2f32 => 8 | .e2m1f32 => 9 | .e8m0f32 => 10 | .f16bf16 => 11 | .bf16f16 => 12 | .f16e4m3 => 13
  | .f16e5m2 => 14 | .bf16e4m3 => 15
/-- The CvtV that a code stands for. -/
def CvtV.of : Nat → CvtV
  | 0 => .f32f16 | 1 => .f32bf16 | 2 => .f32e4m3 | 3 => .f32e5m2 | 4 => .f32e2m1 | 5 => .f16f32 | 6 => .bf16f32
  | 7 => .e4m3f32 | 8 => .e5m2f32 | 9 => .e2m1f32 | 10 => .e8m0f32 | 11 => .f16bf16 | 12 => .bf16f16 | 13 => .f16e4m3
  | 14 => .f16e5m2 | _ => .bf16e4m3
/-- The code of each PackV (R293, R294). -/
def PackV.num : PackV → Nat
  | .f16 => 0 | .bf16 => 1 | .e4m3 => 2 | .e5m2 => 3
/-- The PackV that a code stands for. -/
def PackV.of : Nat → PackV
  | 0 => .f16 | 1 => .bf16 | 2 => .e4m3 | _ => .e5m2
/-- The code of each PermV (R273). -/
def PermV.num : PermV → Nat
  | .lane => 0 | .back => 1 | .fwd => 2 | .xmask => 3
/-- The PermV that a code stands for. -/
def PermV.of : Nat → PermV
  | 0 => .lane | 1 => .back | 2 => .fwd | _ => .xmask
/-- The code of each CntCmp (R274). -/
def CntCmp.num : CntCmp → Nat
  | .some => 0 | .every => 1 | .none => 2 | .notevery => 3
/-- The CntCmp that a code stands for. -/
def CntCmp.of : Nat → CntCmp
  | 0 => .some | 1 => .every | 2 => .none | _ => .notevery
/-- The code of each DredV (R277, counted from 12). -/
def DredV.num : DredV → Nat
  | .addF32 => 0 | .minF32 => 1 | .maxF32 => 2 | .addI32 => 3 | .minI32 => 4 | .maxI32 => 5
/-- The DredV that a code stands for. -/
def DredV.of : Nat → DredV
  | 0 => .addF32 | 1 => .minF32 | 2 => .maxF32 | 3 => .addI32 | 4 => .minI32 | _ => .maxI32
/-- The code of each ScanV (R278, counted from 18). -/
def ScanV.num : ScanV → Nat
  | .addI32Incl => 0 | .addI32Excl => 1 | .addF32Incl => 2 | .addF32Excl => 3 | .minI32Incl => 4 | .maxI32Incl => 5
  | .minF32Incl => 6 | .maxF32Incl => 7
/-- The ScanV that a code stands for. -/
def ScanV.of : Nat → ScanV
  | 0 => .addI32Incl | 1 => .addI32Excl | 2 => .addF32Incl | 3 => .addF32Excl | 4 => .minI32Incl | 5 => .maxI32Incl
  | 6 => .minF32Incl | _ => .maxF32Incl
/-- The code of each LdW (R300). -/
def LdW.num : LdW → Nat
  | .i8 => 0 | .n8 => 1 | .i16 => 2 | .n16 => 3 | .b32 => 4 | .b64 => 5 | .b128 => 6
/-- The LdW that a code stands for. -/
def LdW.of : Nat → LdW
  | 0 => .i8 | 1 => .n8 | 2 => .i16 | 3 => .n16 | 4 => .b32 | 5 => .b64 | _ => .b128
/-- The code of each StW (R300). -/
def StW.num : StW → Nat
  | .b8 => 0 | .b16 => 1 | .b32 => 2 | .b64 => 3 | .b128 => 4
/-- The StW that a code stands for. -/
def StW.of : Nat → StW
  | 0 => .b8 | 1 => .b16 | 2 => .b32 | 3 => .b64 | _ => .b128
/-- The code of each LdcW (R300). -/
def LdcW.num : LdcW → Nat
  | .b32 => 0 | .b64 => 1 | .b128 => 2 | .n16 => 3
/-- The LdcW that a code stands for. -/
def LdcW.of : Nat → LdcW
  | 0 => .b32 | 1 => .b64 | 2 => .b128 | _ => .n16
/-- The code of each Order (R298). -/
def Order.num : Order → Nat
  | .rlx => 0 | .acq => 1 | .rel => 2 | .acqrel => 3
/-- The Order that a code stands for. -/
def Order.of : Nat → Order
  | 0 => .rlx | 1 => .acq | 2 => .rel | _ => .acqrel
/-- The code of each Scope (R19). -/
def Scope.num : Scope → Nat
  | .wave => 0 | .core => 1 | .quad => 2 | .die => 3 | .pkg => 4 | .pod => 5 | .sys => 6
/-- The Scope that a code stands for. -/
def Scope.of : Nat → Scope
  | 0 => .wave | 1 => .core | 2 => .quad | 3 => .die | 4 => .pkg | 5 => .pod | _ => .sys
/-- The code of each Hint (R298). -/
def Hint.num : Hint → Nat
  | .dflt => 0 | .strm => 1 | .byp => 2 | .keep => 3
/-- The Hint that a code stands for. -/
def Hint.of : Nat → Hint
  | 0 => .dflt | 1 => .strm | 2 => .byp | _ => .keep
/-- The code of each IAOp (R304). -/
def IAOp.num : IAOp → Nat
  | .add => 0 | .minI => 1 | .maxI => 2 | .minN => 3 | .maxN => 4 | .and => 5 | .or => 6 | .xor => 7 | .exch => 8
/-- The IAOp that a code stands for. -/
def IAOp.of : Nat → IAOp
  | 0 => .add | 1 => .minI | 2 => .maxI | 3 => .minN | 4 => .maxN | 5 => .and | 6 => .or | 7 => .xor | _ => .exch
/-- The code of each CasV (R308). -/
def CasV.num : CasV → Nat
  | .b32 => 0 | .b64 => 1 | .b32nr => 2
/-- The CasV that a code stands for. -/
def CasV.of : Nat → CasV
  | 0 => .b32 | 1 => .b64 | _ => .b32nr
/-- The code of each RedV (R309, counted from 40). -/
def RedV.num : RedV → Nat
  | .addB32 => 0 | .addB64 => 1 | .minI32 => 2 | .maxI32 => 3 | .minN32 => 4 | .maxN32 => 5 | .orB32 => 6
  | .addF32 => 7 | .addF16 => 8 | .addBf16 => 9 | .addE4m3 => 10 | .addE5m2 => 11 | .minF32 => 12 | .maxF32 => 13
/-- The RedV that a code stands for. -/
def RedV.of : Nat → RedV
  | 0 => .addB32 | 1 => .addB64 | 2 => .minI32 | 3 => .maxI32 | 4 => .minN32 | 5 => .maxN32 | 6 => .orB32
  | 7 => .addF32 | 8 => .addF16 | 9 => .addBf16 | 10 => .addE4m3 | 11 => .addE5m2 | 12 => .minF32 | _ => .maxF32
/-- The code of each CpyV (R315). -/
def CpyV.num : CpyV → Nat
  | .g2g => 0 | .g2s => 1 | .s2g => 2 | .s2s => 3
/-- The CpyV that a code stands for. -/
def CpyV.of : Nat → CpyV
  | 0 => .g2g | 1 => .g2s | 2 => .s2g | _ => .s2s
/-- The code of each TxScope (R322). -/
def TxScope.num : TxScope → Nat
  | .core => 0 | .die => 1 | .pkg => 2
/-- The TxScope that a code stands for. -/
def TxScope.of : Nat → TxScope
  | 0 => .core | 1 => .die | _ => .pkg
/-- The code of each BarScope (R324, counted from 1). -/
def BarScope.num : BarScope → Nat
  | .core => 0 | .quad => 1 | .die => 2 | .pkg => 3 | .pod => 4
/-- The BarScope that a code stands for. -/
def BarScope.of : Nat → BarScope
  | 0 => .core | 1 => .quad | 2 => .die | 3 => .pkg | _ => .pod
/-- The code of each WaitV (R327, counted from 7). -/
def WaitV.num : WaitV → Nat
  | .eqB32 => 0 | .neB32 => 1 | .geN32 => 2 | .ltN32 => 3 | .eqB64 => 4 | .neB64 => 5
/-- The WaitV that a code stands for. -/
def WaitV.of : Nat → WaitV
  | 0 => .eqB32 | 1 => .neB32 | 2 => .geN32 | 3 => .ltN32 | 4 => .eqB64 | _ => .neB64
/-- The code of each AstV (R345, counted from 11). -/
def AstV.num : AstV → Nat
  | .b32 => 0 | .bf16 => 1 | .f16 => 2 | .e4m3 => 3 | .e5m2 => 4 | .i8 => 5 | .n8 => 6 | .i16 => 7
/-- The AstV that a code stands for. -/
def AstV.of : Nat → AstV
  | 0 => .b32 | 1 => .bf16 | 2 => .f16 | 3 => .e4m3 | 4 => .e5m2 | 5 => .i8 | 6 => .n8 | _ => .i16
/-- The code of each IpaV (R346). -/
def IpaV.num : IpaV → Nat
  | .persp => 0 | .lin => 1 | .flat => 2
/-- The IpaV that a code stands for. -/
def IpaV.of : Nat → IpaV
  | 0 => .persp | 1 => .lin | _ => .flat
/-- The code of each TexV (R346). -/
def TexV.num : TexV → Nat
  | .near => 0 | .bil => 1 | .tri => 2
/-- The TexV that a code stands for. -/
def TexV.of : Nat → TexV
  | 0 => .near | 1 => .bil | _ => .tri
/-- The code of each TretV (R361). -/
def TretV.num : TretV → Nat
  | .replay => 0 | .next => 1 | .finish => 2
/-- The TretV that a code stands for. -/
def TretV.of : Nat → TretV
  | 0 => .replay | 1 => .next | _ => .finish

/-- The operand code of an operand (R228). -/
def Opr.code : Opr → Nat
  | .v n => n.val
  | .h n => 192 + n.val
  | .s n => 256 + n.val
  | .p n => 320 + n.val
  | .c k => 328 + k.num

/-- The operand that a code below 344 names (R228). -/
def Opr.of (n : Nat) : Opr :=
  if h : n < 192 then .v ⟨n, h⟩
  else if n < 256 then .h (Fin.ofNat 64 (n - 192))
  else if n < 320 then .s (Fin.ofNat 64 (n - 256))
  else if n < 328 then .p (Fin.ofNat 8 (n - 320))
  else .c (Const.of (n - 328))

/-- The operation that an ATOM index names, counted in the order of R304. -/
def AtomV.of (k : Nat) : AtomV :=
  if k < 9 then .int (IAOp.of k) .w32
  else if k < 18 then .int (IAOp.of (k - 9)) .w64
  else if k = 18 then .addF32
  else if k = 19 then .minF32
  else if k = 20 then .maxF32
  else if k = 21 then .addF16x2
  else if k = 22 then .addBf16x2
  else .incN32

/-- The index of an ATOM variant (R304). -/
def AtomV.num : AtomV → Nat
  | .int op .w32 => op.num
  | .int op .w64 => 9 + op.num
  | .addF32 => 18 | .minF32 => 19 | .maxF32 => 20 | .addF16x2 => 21 | .addBf16x2 => 22 | .incN32 => 23

/-- The operation that an ATOMS index names, counted from 24 (R307). -/
def AtomsV.of (k : Nat) : AtomsV :=
  if k < 9 then .int (IAOp.of k) else if k = 9 then .incN32 else if k = 10 then .addF32 else .cas

/-- The index of an ATOMS variant, counted from 24 (R307). -/
def AtomsV.num : AtomsV → Nat
  | .int op => op.num
  | .incN32 => 9 | .addF32 => 10 | .cas => 11

/-- The variant of SRD that an index and m name (R276). -/
def SrdV.of (k m : Nat) : SrdV :=
  if k = 8 then .addB32
  else if k = 9 then .addB64
  else if k = 10 then
    (match m % 4 with | 0 => .minI32 | 1 => .maxI32 | 2 => .minN32 | _ => .maxN32)
  else (match m % 4 with | 0 => .and | 1 => .or | _ => .xor)

/-- The index of an SRD variant (R276). -/
def SrdV.num : SrdV → Nat
  | .addB32 => 8 | .addB64 => 9
  | .minI32 => 10 | .maxI32 => 10 | .minN32 => 10 | .maxN32 => 10
  | .and => 11 | .or => 11 | .xor => 11

/-- The m bits of an SRD variant (R276). -/
def SrdV.m : SrdV → Nat
  | .addB32 => 0 | .addB64 => 0
  | .minI32 => 0 | .maxI32 => 1 | .minN32 => 2 | .maxN32 => 3
  | .and => 0 | .or => 1 | .xor => 2

/-- The target that m names in OUTS (R355); the reserved codes 4 to 6 are refused elsewhere. -/
def OutT.of (m : Nat) : OutT := if m % 8 = 7 then .vis else .colour (Fin.ofNat 4 m)

/-- The m bits of an OUTS target (R355). -/
def OutT.num : OutT → Nat
  | .colour n => n.val
  | .vis => 7

/-- 1 for true. -/
def b1 (b : Bool) : Nat := if b then 1 else 0

/-- Bit `k` of a number. -/
def tb (n k : Nat) : Bool := n / 2 ^ k % 2 == 1

/-- The formats of R224. -/
inductive Fmt | r | i | l | m | b | x | s
  deriving DecidableEq, Repr

/-! The fields of bits [45:0] (R224). -/

def fd (n : Nat) : Nat := n / 137438953472 % 512
def fa (n : Nat) : Nat := n / 268435456 % 512
def fb (n : Nat) : Nat := n / 524288 % 512
def fc (n : Nat) : Nat := n / 1024 % 512
def fm (n : Nat) : Nat := n % 1024
def fImm20 (n : Nat) : Nat := n / 256 % 1048576
def fM8 (n : Nat) : Nat := n % 256
def fImm32 (n : Nat) : Nat := n / 32 % 4294967296
def fM5 (n : Nat) : Nat := n % 32
def fOff (n : Nat) : Nat := n / 128 % 4096
def fOrder (n : Nat) : Nat := n / 32 % 4
def fScope (n : Nat) : Nat := n / 4 % 8
def fHint (n : Nat) : Nat := n % 4
def fTgt (n : Nat) : Nat := n / 67108864 % 1048576
def fRcv (n : Nat) : Nat := n / 64 % 1048576
def fM6 (n : Nat) : Nat := n % 64
def fTile (n : Nat) : Nat := n / 8796093022208 % 8
def fSlotA (n : Nat) : Nat := n / 274877906944 % 32
def fSlotB (n : Nat) : Nat := n / 8589934592 % 32
def fCsr (n : Nat) : Nat := n / 4096 % 65536
def fM12 (n : Nat) : Nat := n % 4096

/-- Bits [45:0] of an R word (R224). -/
def packR (d a b c m : Nat) : Nat := d * 137438953472 + a * 268435456 + b * 524288 + c * 1024 + m
/-- Bits [45:0] of an I word (R224). -/
def packI (d a imm m : Nat) : Nat := d * 137438953472 + a * 268435456 + imm * 256 + m
/-- Bits [45:0] of an L word (R224). -/
def packL (d imm m : Nat) : Nat := d * 137438953472 + imm * 32 + m
/-- Bits [45:0] of an M word (R224, R225). -/
def packM (d : Nat) (m : MemArg) : Nat :=
  d * 137438953472 + m.base.code * 268435456 + m.x.code * 524288 + m.off.toNat * 128 + m.order.num * 32
    + m.scope.num * 4 + m.hint.num
/-- Bits [45:0] of a B word (R224). -/
def packB (tgt rcv m : Nat) : Nat := tgt * 67108864 + rcv * 64 + m
/-- Bits [45:0] of an X word (R224). -/
def packX (t a b neg clr : Nat) : Nat :=
  t * 8796093022208 + a * 274877906944 + b * 8589934592 + neg * 4294967296 + clr * 2147483648
/-- Bits [45:0] of an S word (R224). -/
def packS (d a csr m : Nat) : Nat := d * 137438953472 + a * 268435456 + csr * 4096 + m

def od (n : Nat) : Opr := Opr.of (fd n)
def oa (n : Nat) : Opr := Opr.of (fa n)
def ob (n : Nat) : Opr := Opr.of (fb n)
def oc (n : Nat) : Opr := Opr.of (fc n)

/-- The M-format fields of a word (R225). -/
def memArg (n : Nat) : MemArg :=
  { base := oa n, x := ob n, off := BitVec.ofNat 12 (fOff n), order := Order.of (fOrder n),
    scope := Scope.of (fScope n), hint := Hint.of (fHint n) }

/-- The second source of an R or I variant: the I variant when the flag is 1. -/
def srcOf (imm : Nat) (n : Nat) : Src := if imm % 2 = 1 then .imm (BitVec.ofNat 20 (fImm20 n)) else .reg (ob n)

/-- 1 for the I variant. -/
def Src.isImm : Src → Nat
  | .reg _ => 0
  | .imm _ => 1

/-- The I variant's bits, or the R variant's, of a form with m bits `m`. -/
def packSrc (d a : Nat) (b : Src) (c m : Nat) : Nat :=
  match b with
  | .reg o => packR d a o.code c m
  | .imm i => packI d a i.toNat m

/-! The instruction that an index of each group names (R233), with the fields of bits [45:0]; none for an unassigned index. -/

/-- Group 0x0, control. -/
def build0 (k : Nat) (h : Ctl) (n : Nat) : Option Instr :=
  match k with
  | 0 => some (.nop h)
  | 1 => some (.region h)
  | 2 => some (.bra h (BitVec.ofNat 20 (fTgt n)))
  | 3 => some (.brc h (BitVec.ofNat 20 (fTgt n)) (BitVec.ofNat 20 (fRcv n)) (BitVec.ofNat 6 (fM6 n)))
  | 4 => some (.brx h (oa n) (ob n))
  | 5 => some (.call h (BitVec.ofNat 20 (fTgt n)) (BitVec.ofNat 6 (fM6 n)))
  | 6 => some (.callx h (od n) (oa n))
  | 7 => some (.ret h (oa n))
  | 8 => some (.exit h)
  | 9 => some (.trap h (BitVec.ofNat 20 (fImm20 n)))
  | 10 => some (.bkpt h (BitVec.ofNat 20 (fImm20 n)))
  | _ => none

/-- Group 0x1, integer (R263). -/
def build1 (k : Nat) (h : Ctl) (n : Nat) : Option Instr :=
  if k < 4 then some (.iadd h (Width.of (k / 2)) (Sat.of (n % 4)) (od n) (oa n) (srcOf k n))
  else if k < 6 then some (.isub h (Width.of (k - 4)) (Sat.of (n % 4)) (od n) (oa n) (ob n))
  else if k < 8 then some (.iaddw h (k == 6) (od n) (oa n) (ob n))
  else if k < 12 then some (.imul h (Width.of ((k - 8) / 2)) (od n) (oa n) (srcOf k n))
  else if k < 14 then some (.imulhi h (k == 12) (od n) (oa n) (ob n))
  else if k < 18 then some (.imad h (MadV.of (k - 14)) (od n) (oa n) (ob n) (oc n))
  else if k < 20 then some (.imadw h (k == 18) (od n) (oa n) (ob n) (oc n))
  else if k < 24 then some (.idiv h (Width.of ((k - 20) / 2)) (k % 2 == 0) (od n) (oa n) (ob n))
  else if k < 28 then some (.irem h (Width.of ((k - 24) / 2)) (k % 2 == 0) (od n) (oa n) (ob n))
  else if k < 32 then some (.imin h (Width.of ((k - 28) / 2)) (k % 2 == 0) (od n) (oa n) (ob n))
  else if k < 36 then some (.imax h (Width.of ((k - 32) / 2)) (k % 2 == 0) (od n) (oa n) (ob n))
  else if k < 38 then some (.iabs h (Width.of (k - 36)) (tb n 0) (od n) (oa n))
  else none

/-- Group 0x2, bit and logic (R265). -/
def build2 (k : Nat) (h : Ctl) (n : Nat) : Option Instr :=
  if k < 4 then some (.and h (Width.of (k / 2)) (od n) (oa n) (srcOf k n))
  else if k < 8 then some (.or h (Width.of ((k - 4) / 2)) (od n) (oa n) (srcOf k n))
  else if k < 12 then some (.xor h (Width.of ((k - 8) / 2)) (od n) (oa n) (srcOf k n))
  else if k < 14 then
    some (.bcond h (Width.of (k - 12)) (Fn2.of (n / 16 % 16)) (Fn2.of (n % 16)) (od n) (oa n) (ob n) (oc n))
  else if k < 18 then some (.shl h (Width.of ((k - 14) / 2)) (od n) (oa n) (srcOf k n))
  else if k < 22 then some (.shr h (Width.of ((k - 18) / 2)) (od n) (oa n) (srcOf k n))
  else if k < 26 then some (.sar h (Width.of ((k - 22) / 2)) (od n) (oa n) (srcOf k n))
  else if k < 30 then some (.rotl h (Width.of ((k - 26) / 2)) (od n) (oa n) (srcOf k n))
  else if k < 34 then some (.bfe h (Width.of ((k - 30) / 2)) (k % 2 == 1) (od n) (oa n) (ob n) (oc n))
  else if k < 36 then some (.bfi h (Width.of (k - 34)) (od n) (oa n) (ob n) (oc n))
  else if k < 38 then some (.popc h (Width.of (k - 36)) (od n) (oa n))
  else if k < 40 then some (.clz h (Width.of (k - 38)) (od n) (oa n))
  else if k < 42 then some (.brev h (Width.of (k - 40)) (od n) (oa n))
  else none

/-- Group 0x3, compare, select, move (R268 to R270). -/
def build3 (k : Nat) (h : Ctl) (n : Nat) : Option Instr :=
  if k < 12 then
    some (if k % 2 = 1 then .icmp h (IType.of (k / 2)) (Cmp.of (n % 8)) .none (od n) (oa n) (srcOf 1 n) (.v 0)
      else .icmp h (IType.of (k / 2)) (Cmp.of (n % 8)) (Comb.of (n / 8 % 4)) (od n) (oa n) (srcOf 0 n) (oc n))
  else if k < 14 then some (.sel h (Width.of (k - 12)) (od n) (oa n) (ob n) (oc n))
  else if k < 16 then some (.mov h (Width.of (k - 14)) (od n) (oa n))
  else if k = 16 then some (.movi h (tb n 0) (od n) (BitVec.ofNat 32 (fImm32 n)))
  else if k = 17 then some (.movhi h (od n) (BitVec.ofNat 20 (fImm20 n)))
  else if k = 18 then some (.addpc h (od n) (BitVec.ofNat 20 (fImm20 n)))
  else none

/-- Group 0x4, float arithmetic (R283). -/
def build4 (k : Nat) (h : Ctl) (n : Nat) : Option Instr :=
  if k < 3 then some (.fadd h (FTy.of k) (Rm.of (n % 8)) (tb n 3) (od n) (oa n) (ob n) (oc n))
  else if k < 6 then some (.fmul h (FTy.of (k - 3)) (Rm.of (n % 8)) (tb n 3) (od n) (oa n) (ob n) (oc n))
  else if k < 9 then some (.ffma h (FTy.of (k - 6)) (Rm.of (n % 8)) (tb n 3) (od n) (oa n) (ob n) (oc n))
  else if k < 12 then some (.fmin h (FTy.of (k - 9)) (od n) (oa n) (ob n))
  else if k < 15 then some (.fmax h (FTy.of (k - 12)) (od n) (oa n) (ob n))
  else if k < 18 then
    some (.fcmp h (FTy.of (k - 15)) (FCmpOp.of (n % 8)) (Comb.of (n / 8 % 4)) (HalfSel.of (n / 32 % 4)) (od n) (oa n)
      (ob n) (oc n))
  else if k < 21 then some (.fclass h (FTy.of (k - 18)) (BitVec.ofNat 9 n) (tb n 9) (od n) (oa n))
  else if k < 24 then some (.fscale h (FTy.of (k - 21)) (Rm.of (n % 8)) (tb n 3) (od n) (oa n) (ob n) (oc n))
  else if k = 24 then some (.ffrac h (od n) (oa n))
  else if k < 28 then some (.frnd h (FTy.of (k - 25)) (Rm.of (n % 8)) (od n) (oa n))
  else if k < 30 then some (.fdot2 h (k == 29) (tb n 0) (od n) (oa n) (ob n) (oc n))
  else if k < 32 then some (.fdot4 h (k == 31) (tb n 0) (od n) (oa n) (ob n) (oc n))
  else none

/-- Group 0x5, float special and conversions (R290 to R295). -/
def build5 (k : Nat) (h : Ctl) (n : Nat) : Option Instr :=
  if k < 7 then
    (match k with
    | 0 => some (.frcp h (Rm.of (n % 8)) (od n) (oa n))
    | 1 => some (.frsq h (Rm.of (n % 8)) (od n) (oa n))
    | 2 => some (.fsqrt h (Rm.of (n % 8)) (od n) (oa n))
    | 3 => some (.fexp2 h (Rm.of (n % 8)) (od n) (oa n))
    | 4 => some (.flog2 h (Rm.of (n % 8)) (od n) (oa n))
    | 5 => some (.fsinpi h (Rm.of (n % 8)) (od n) (oa n))
    | _ => some (.fcospi h (Rm.of (n % 8)) (od n) (oa n)))
  else if k < 15 then some (.f2i h (IType.of (k - 7)) (Rm.of (n % 8)) (od n) (oa n))
  else if k < 23 then some (.i2f h (IType.of (k - 15)) (Rm.of (n % 8)) (od n) (oa n) (ob n))
  else if k < 39 then some (.fcvt h (CvtV.of (k - 23)) (Rm.of (n % 8)) (tb n 3) (od n) (oa n) (ob n))
  else if k < 43 then
    some (.pack h (PackV.of (k - 39)) (Rm.of (n % 8)) (tb n 3) (tb n 4) (od n) (oa n) (ob n) (oc n))
  else if k < 47 then some (.unpack h (PackV.of (k - 43)) (Fin.ofNat 4 n) (od n) (oa n))
  else if k < 49 then
    some (.gqdec h (k == 48) (Fin.ofNat 8 n) (Rm.of (n / 8 % 8)) (tb n 6) (od n) (oa n) (ob n) (oc n))
  else none

/-- Group 0x6, lane and predicate (R271 to R278). -/
def build6 (k : Nat) (h : Ctl) (n : Nat) : Option Instr :=
  if k < 4 then some (.lperm h (PermV.of k) (Fin.ofNat 6 (if n % 8 < 6 then n % 8 else 0)) (od n) (oa n) (ob n))
  else if k = 4 then some (.pgathCnt h (CntCmp.of (n % 4)) (od n) (oa n))
  else if k = 5 then some (.pgathRank h (od n) (oa n))
  else if k = 6 then some (.pgathMask h (od n) (oa n))
  else if k = 7 then some (.lfirst h (od n))
  else if k < 12 then some (.srd h (SrdV.of k n) (od n) (oa n))
  else if k < 18 then some (.dred h (DredV.of (k - 12)) (od n) (oa n))
  else if k < 26 then some (.scan h (ScanV.of (k - 18)) (od n) (oa n))
  else if k < 28 then some (.lread h (Width.of (k - 26)) (od n) (oa n) (ob n))
  else if k < 30 then some (.lkin h (Width.of (k - 28)) (od n) (oa n))
  else if k = 30 then some (.pcond h (Fn2.of (n / 16 % 16)) (Fn2.of (n % 16)) (od n) (oa n) (ob n) (oc n))
  else if k = 31 then some (.pmovGet h (od n))
  else if k = 32 then some (.pmovSet h (BitVec.ofNat 8 n) (oa n))
  else none

/-- Group 0x7, load and store (R300). -/
def build7 (k : Nat) (h : Ctl) (n : Nat) : Option Instr :=
  if k < 7 then some (.ld h (LdW.of k) (od n) (memArg n))
  else if k < 12 then some (.st h (StW.of (k - 7)) (od n) (memArg n))
  else if k < 19 then some (.lds h (LdW.of (k - 12)) (od n) (memArg n))
  else if k < 24 then some (.sts h (StW.of (k - 19)) (od n) (memArg n))
  else if k < 28 then some (.ldc h (LdcW.of (k - 24)) (od n) (memArg n))
  else if k = 28 then some (.pref h (memArg n))
  else if k = 29 then some (.cinv h (memArg n))
  else none

/-- Group 0x8, atomics and fences (R304 to R310). -/
def build8 (k : Nat) (h : Ctl) (n : Nat) : Option Instr :=
  if k < 24 then some (.atom h (AtomV.of k) (od n) (memArg n))
  else if k < 36 then some (.atoms h (AtomsV.of (k - 24)) (od n) (memArg n))
  else if k < 39 then some (.cas h (CasV.of (k - 36)) (od n) (memArg n))
  else if k = 39 then some (.casx h (od n) (memArg n))
  else if k < 54 then some (.red h (RedV.of (k - 40)) (od n) (memArg n))
  else if k = 54 then some (.fence h (Order.of (fOrder n)) (Scope.of (fScope n)))
  else if k = 55 then some (.fencex h)
  else none

/-- Group 0x9, copies (R313 to R321). -/
def build9 (k : Nat) (h : Ctl) (n : Nat) : Option Instr :=
  if k < 4 then some (.cpy h (CpyV.of k) (od n) (oa n) (ob n) (oc n))
  else if k < 6 then some (.cpyp h (k == 5) (od n) (oa n) (ob n) (oc n))
  else if k = 6 then some (.cpyc h (od n) (oa n) (ob n) (oc n))
  else if k = 7 then some (.cpysig h (tb n 0) (od n) (oa n) (ob n) (oc n))
  else if k = 8 then some (.cseal h (od n))
  else if k = 9 then some (.cwait h (oa n))
  else if k = 10 then some (.cwaitSt h (od n) (oa n))
  else if k = 11 then some (.ctest h (od n) (oa n) (ob n))
  else none

/-- The barrier scope of m[2:0] (R324). -/
def barScope (n : Nat) : BarScope := BarScope.of (n % 8 - 1)

/-- Group 0xA, transactions, barriers, waits, tasks (R322 to R330). -/
def buildA (k : Nat) (h : Ctl) (n : Nat) : Option Instr :=
  if k = 0 then
    some (.txb h (if tb n 0 then some (BitVec.ofNat 20 (fTgt n)) else none) (TxScope.of (n / 2 % 4)))
  else if k = 1 then some (.txe h)
  else if k = 2 then some (.retry h)
  else if k = 3 then some (.txx h)
  else if k = 4 then some (.bar h (barScope n) (Fin.ofNat 16 (n / 8)) (oa n))
  else if k = 5 then some (.bara h (barScope n) (Fin.ofNat 16 (n / 8)) (oa n))
  else if k = 6 then some (.barw h (barScope n) (Fin.ofNat 16 (n / 8)))
  else if k < 13 then some (.waitc h (WaitV.of (k - 7)) (od n) (memArg n))
  else if k = 13 then some (.spawn h (BitVec.ofNat 8 n) (oa n) (ob n))
  else if k = 14 then some (.join h (memArg n))
  else if k = 15 then some (.spfl h)
  else none

/-- Group 0xB, matrix (R335 to R345). -/
def buildB (k : Nat) (h : Ctl) (n : Nat) : Option Instr :=
  if k = 0 then some (.bclaim h (oa n))
  else if k = 1 then some (.brel h (oa n))
  else if k = 2 then some (.bst h (od n) (memArg n))
  else if k = 3 then some (.brd h (od n) (memArg n))
  else if k < 6 then
    some (.mma h (k == 5) (tb n 32) (tb n 31) (Fin.ofNat 8 (fTile n)) (Fin.ofNat 32 (fSlotA n))
      (Fin.ofNat 32 (fSlotB n)))
  else if k = 6 then some (.aclr h (Fin.ofNat 8 (fTile n)))
  else if k = 7 then some (.ard h false (Fin.ofNat 8 n) (Fin.ofNat 8 (n / 8)) .rne false (od n))
  else if k = 8 then
    some (.ard h true (Fin.ofNat 8 n) (Fin.ofNat 8 (n / 8)) (Rm.of (n / 64 % 8)) (tb n 9) (od n))
  else if k = 9 then some (.awr h false (Fin.ofNat 8 n) (Fin.ofNat 8 (n / 8)) (oa n))
  else if k = 10 then some (.awr h true (Fin.ofNat 8 n) (Fin.ofNat 8 (n / 8)) (oa n))
  else if k < 19 then some (.ast h (AstV.of (k - 11)) (od n) (memArg n))
  else none

/-- Group 0xC, draw, ray, texture (R346). -/
def buildC (k : Nat) (h : Ctl) (n : Nat) : Option Instr :=
  if k = 0 then some (.hfree h (oa n))
  else if k < 4 then some (.ipa h (IpaV.of (k - 1)) (od n) (oa n))
  else if k = 4 then some (.emitv h (oa n))
  else if k = 5 then some (.emitp h (oa n))
  else if k < 9 then some (.tex h (TexV.of (k - 6)) (od n) (oa n) (ob n) (oc n))
  else if k = 9 then some (.tld h (od n) (oa n) (ob n) (oc n))
  else if k = 10 then some (.trace h (Fin.ofNat 8 n) (tb n 3) (tb n 4) (oa n) (ob n))
  else if k = 11 then some (.rret h (oa n))
  else if k = 12 then some (.mboxTry h (Fin.ofNat 8 n) (od n) (oc n))
  else if k = 13 then some (.mboxWait h (Fin.ofNat 8 n) (od n) (oc n))
  else if k = 14 then some (.outs h (OutT.of n) (oa n))
  else if k = 15 then some (.kill h)
  else none

/-- Groups 0xD and 0xE, labels, gate and system (R357 to R361). -/
def buildDE (g k : Nat) (h : Ctl) (n : Nat) : Option Instr :=
  if g = 13 then
    (if k = 0 then some (.lblrd h (od n) (oa n))
    else if k = 1 then some (.grel h (tb n 0) (Fin.ofNat 8 (n / 2)) (od n) (oa n) (ob n) (oc n))
    else none)
  else if k = 0 then some (.csrr h (od n) (BitVec.ofNat 16 (fCsr n)))
  else if k = 1 then some (.csrw h (BitVec.ofNat 16 (fCsr n)) (oa n))
  else if k = 2 then some (.tret h (TretV.of (n % 4)) (oa n))
  else none

/-- The instruction that an opcode and bits [45:0] name (R233); none for an opcode in no span. -/
def build (op : Nat) (h : Ctl) (n : Nat) : Option Instr :=
  match op / 64 with
  | 0 => build0 (op % 64) h n
  | 1 => build1 (op % 64) h n
  | 2 => build2 (op % 64) h n
  | 3 => build3 (op % 64) h n
  | 4 => build4 (op % 64) h n
  | 5 => build5 (op % 64) h n
  | 6 => build6 (op % 64) h n
  | 7 => build7 (op % 64) h n
  | 8 => build8 (op % 64) h n
  | 9 => build9 (op % 64) h n
  | 10 => buildA (op % 64) h n
  | 11 => buildB (op % 64) h n
  | 12 => buildC (op % 64) h n
  | 13 => buildDE 13 (op % 64) h n
  | 14 => buildDE 14 (op % 64) h n
  | _ => none

/-- The opcode, common fields and bits [45:0] of an instruction word; none for a constructor that is no word. -/
def Instr.parts : Instr → Option (Nat × Ctl × Nat)
  | .nop h => some (0, h, 0)
  | .region h => some (1, h, 0)
  | .bra h t => some (2, h, packB t.toNat 0 0)
  | .brc h t r b => some (3, h, packB t.toNat r.toNat b.toNat)
  | .brx h a b => some (4, h, packR 0 a.code b.code 0 0)
  | .call h t l => some (5, h, packB t.toNat 0 l.toNat)
  | .callx h d a => some (6, h, packR d.code a.code 0 0 0)
  | .ret h a => some (7, h, packR 0 a.code 0 0 0)
  | .exit h => some (8, h, 0)
  | .trap h c => some (9, h, packI 0 0 c.toNat 0)
  | .bkpt h c => some (10, h, packI 0 0 c.toNat 0)
  | .iadd h w s d a b => some (64 + 2 * w.num + b.isImm, h, packSrc d.code a.code b 0 s.num)
  | .isub h w s d a b => some (68 + w.num, h, packR d.code a.code b.code 0 s.num)
  | .iaddw h sg d a b => some (71 - b1 sg, h, packR d.code a.code b.code 0 0)
  | .imul h w d a b => some (72 + 2 * w.num + b.isImm, h, packSrc d.code a.code b 0 0)
  | .imulhi h sg d a b => some (77 - b1 sg, h, packR d.code a.code b.code 0 0)
  | .imad h v d a b c => some (78 + v.num, h, packR d.code a.code b.code c.code 0)
  | .imadw h sg d a b c => some (83 - b1 sg, h, packR d.code a.code b.code c.code 0)
  | .idiv h w sg d a b => some (85 + 2 * w.num - b1 sg, h, packR d.code a.code b.code 0 0)
  | .irem h w sg d a b => some (89 + 2 * w.num - b1 sg, h, packR d.code a.code b.code 0 0)
  | .imin h w sg d a b => some (93 + 2 * w.num - b1 sg, h, packR d.code a.code b.code 0 0)
  | .imax h w sg d a b => some (97 + 2 * w.num - b1 sg, h, packR d.code a.code b.code 0 0)
  | .iabs h w ss d a => some (100 + w.num, h, packR d.code a.code 0 0 (b1 ss))
  | .and h w d a b => some (128 + 2 * w.num + b.isImm, h, packSrc d.code a.code b 0 0)
  | .or h w d a b => some (132 + 2 * w.num + b.isImm, h, packSrc d.code a.code b 0 0)
  | .xor h w d a b => some (136 + 2 * w.num + b.isImm, h, packSrc d.code a.code b 0 0)
  | .bcond h w g1 g0 d a b c =>
    some (140 + w.num, h, packR d.code a.code b.code c.code (g1.num * 16 + g0.num))
  | .shl h w d a b => some (142 + 2 * w.num + b.isImm, h, packSrc d.code a.code b 0 0)
  | .shr h w d a b => some (146 + 2 * w.num + b.isImm, h, packSrc d.code a.code b 0 0)
  | .sar h w d a b => some (150 + 2 * w.num + b.isImm, h, packSrc d.code a.code b 0 0)
  | .rotl h w d a b => some (154 + 2 * w.num + b.isImm, h, packSrc d.code a.code b 0 0)
  | .bfe h w sg d a b c => some (158 + 2 * w.num + b1 sg, h, packR d.code a.code b.code c.code 0)
  | .bfi h w d a b c => some (162 + w.num, h, packR d.code a.code b.code c.code 0)
  | .popc h w d a => some (164 + w.num, h, packR d.code a.code 0 0 0)
  | .clz h w d a => some (166 + w.num, h, packR d.code a.code 0 0 0)
  | .brev h w d a => some (168 + w.num, h, packR d.code a.code 0 0 0)
  | .icmp h t c cb d a b p =>
    some (192 + 2 * t.num + b.isImm, h, packSrc d.code a.code b p.code
      (match b with | .reg _ => cb.num * 8 + c.num | .imm _ => c.num))
  | .sel h w d a b p => some (204 + w.num, h, packR d.code a.code b.code p.code 0)
  | .mov h w d a => some (206 + w.num, h, packR d.code a.code 0 0 0)
  | .movi h w d i => some (208, h, packL d.code i.toNat (b1 w))
  | .movhi h d i => some (209, h, packI d.code 0 i.toNat 0)
  | .addpc h d i => some (210, h, packI d.code 0 i.toNat 0)
  | .fadd h t r s d a b c => some (256 + t.num, h, packR d.code a.code b.code c.code (r.num + 8 * b1 s))
  | .fmul h t r s d a b c => some (259 + t.num, h, packR d.code a.code b.code c.code (r.num + 8 * b1 s))
  | .ffma h t r s d a b c => some (262 + t.num, h, packR d.code a.code b.code c.code (r.num + 8 * b1 s))
  | .fscale h t r s d a b c => some (277 + t.num, h, packR d.code a.code b.code c.code (r.num + 8 * b1 s))
  | .fmin h t d a b => some (265 + t.num, h, packR d.code a.code b.code 0 0)
  | .fmax h t d a b => some (268 + t.num, h, packR d.code a.code b.code 0 0)
  | .fcmp h t c cb hs d a b p =>
    some (271 + t.num, h, packR d.code a.code b.code p.code (c.num + 8 * cb.num + 32 * hs.num))
  | .fclass h t m hi d a => some (274 + t.num, h, packR d.code a.code 0 0 (m.toNat + 512 * b1 hi))
  | .frnd h t r d a => some (281 + t.num, h, packR d.code a.code 0 0 r.num)
  | .ffrac h d a => some (280, h, packR d.code a.code 0 0 0)
  | .fdot2 h bf s d a b c => some (284 + b1 bf, h, packR d.code a.code b.code c.code (b1 s))
  | .fdot4 h e5 s d a b c => some (286 + b1 e5, h, packR d.code a.code b.code c.code (b1 s))
  | .frcp h r d a => some (320, h, packR d.code a.code 0 0 r.num)
  | .frsq h r d a => some (321, h, packR d.code a.code 0 0 r.num)
  | .fsqrt h r d a => some (322, h, packR d.code a.code 0 0 r.num)
  | .fexp2 h r d a => some (323, h, packR d.code a.code 0 0 r.num)
  | .flog2 h r d a => some (324, h, packR d.code a.code 0 0 r.num)
  | .fsinpi h r d a => some (325, h, packR d.code a.code 0 0 r.num)
  | .fcospi h r d a => some (326, h, packR d.code a.code 0 0 r.num)
  | .f2i h t r d a => some (327 + t.num, h, packR d.code a.code 0 0 r.num)
  | .i2f h t r d a b => some (335 + t.num, h, packR d.code a.code b.code 0 r.num)
  | .fcvt h v r s d a b => some (343 + v.num, h, packR d.code a.code b.code 0 (r.num + 8 * b1 s))
  | .pack h v r s hi d a b c =>
    some (359 + v.num, h, packR d.code a.code b.code c.code (r.num + 8 * b1 s + 16 * b1 hi))
  | .unpack h v k d a => some (363 + v.num, h, packR d.code a.code 0 0 k.val)
  | .gqdec h f n r s d a b c =>
    some (367 + b1 f, h, packR d.code a.code b.code c.code (n.val + 8 * r.num + 64 * b1 s))
  | .lperm h v g d a b => some (384 + v.num, h, packR d.code a.code b.code 0 g.val)
  | .pgathCnt h c d a => some (388, h, packR d.code a.code 0 0 c.num)
  | .pgathRank h d a => some (389, h, packR d.code a.code 0 0 0)
  | .pgathMask h d a => some (390, h, packR d.code a.code 0 0 0)
  | .lfirst h d => some (391, h, packR d.code 0 0 0 0)
  | .lkin h w d a => some (412 + w.num, h, packR d.code a.code 0 0 0)
  | .lread h w d a b => some (410 + w.num, h, packR d.code a.code b.code 0 0)
  | .srd h v d a => some (384 + v.num, h, packR d.code a.code 0 0 v.m)
  | .dred h v d a => some (396 + v.num, h, packR d.code a.code 0 0 0)
  | .scan h v d a => some (402 + v.num, h, packR d.code a.code 0 0 0)
  | .pcond h g1 g0 d a b c => some (414, h, packR d.code a.code b.code c.code (g1.num * 16 + g0.num))
  | .pmovGet h d => some (415, h, packR d.code 0 0 0 0)
  | .pmovSet h m a => some (416, h, packR 0 a.code 0 0 m.toNat)
  | .ld h w d m => some (448 + w.num, h, packM d.code m)
  | .st h w d m => some (455 + w.num, h, packM d.code m)
  | .lds h w d m => some (460 + w.num, h, packM d.code m)
  | .sts h w d m => some (467 + w.num, h, packM d.code m)
  | .ldc h w d m => some (472 + w.num, h, packM d.code m)
  | .pref h m => some (476, h, packM 0 m)
  | .cinv h m => some (477, h, packM 0 m)
  | .atom h v d m => some (512 + v.num, h, packM d.code m)
  | .atoms h v d m => some (536 + v.num, h, packM d.code m)
  | .cas h v d m => some (548 + v.num, h, packM d.code m)
  | .casx h d m => some (551, h, packM d.code m)
  | .red h v d m => some (552 + v.num, h, packM d.code m)
  | .fence h o s => some (566, h, o.num * 32 + s.num * 4)
  | .fencex h => some (567, h, 0)
  | .cpy h v d a b c => some (576 + v.num, h, packR d.code a.code b.code c.code 0)
  | .cpyp h bn d a b c => some (580 + b1 bn, h, packR d.code a.code b.code c.code 0)
  | .cpyc h d a b c => some (582, h, packR d.code a.code b.code c.code 0)
  | .cpysig h s d a b c => some (583, h, packR d.code a.code b.code c.code (b1 s))
  | .cseal h d => some (584, h, packR d.code 0 0 0 0)
  | .cwait h a => some (585, h, packR 0 a.code 0 0 0)
  | .cwaitSt h d a => some (586, h, packR d.code a.code 0 0 0)
  | .ctest h d a b => some (587, h, packR d.code a.code b.code 0 0)
  | .txb h alt s =>
    some (640, h, match alt with
      | some t => packB t.toNat 0 (1 + 2 * s.num)
      | none => packB 0 0 (2 * s.num))
  | .txe h => some (641, h, 0)
  | .retry h => some (642, h, 0)
  | .txx h => some (643, h, 0)
  | .bar h s k a => some (644, h, packR 0 a.code 0 0 (s.num + 1 + 8 * k.val))
  | .bara h s k a => some (645, h, packR 0 a.code 0 0 (s.num + 1 + 8 * k.val))
  | .barw h s k => some (646, h, packR 0 0 0 0 (s.num + 1 + 8 * k.val))
  | .waitc h v d m => some (647 + v.num, h, packM d.code m)
  | .spawn h e a b => some (653, h, packR 0 a.code b.code 0 e.toNat)
  | .join h m => some (654, h, packM 0 m)
  | .spfl h => some (655, h, 0)
  | .bclaim h a => some (704, h, packR 0 a.code 0 0 0)
  | .brel h a => some (705, h, packR 0 a.code 0 0 0)
  | .bst h d m => some (706, h, packM d.code m)
  | .brd h d m => some (707, h, packM d.code m)
  | .mma h sa ng cl t a b => some (708 + b1 sa, h, packX t.val a.val b.val (b1 ng) (b1 cl))
  | .aclr h t => some (710, h, packX t.val 0 0 0 0)
  | .ard h bf t g r s d =>
    some (711 + b1 bf, h, packR d.code 0 0 0
      (t.val + 8 * g.val + if bf then 64 * r.num + 512 * b1 s else 0))
  | .awr h bf t g a => some (713 + b1 bf, h, packR 0 a.code 0 0 (t.val + 8 * g.val))
  | .ast h v d m => some (715 + v.num, h, packM d.code m)
  | .hfree h a => some (768, h, packR 0 a.code 0 0 0)
  | .ipa h v d a => some (769 + v.num, h, packR d.code a.code 0 0 0)
  | .emitv h a => some (772, h, packR 0 a.code 0 0 0)
  | .emitp h a => some (773, h, packR 0 a.code 0 0 0)
  | .tex h v d a b c => some (774 + v.num, h, packR d.code a.code b.code c.code 0)
  | .tld h d a b c => some (777, h, packR d.code a.code b.code c.code 0)
  | .trace h k cb fh a b => some (778, h, packR 0 a.code b.code 0 (k.val + 8 * b1 cb + 16 * b1 fh))
  | .rret h a => some (779, h, packR 0 a.code 0 0 0)
  | .mboxTry h k d c => some (780, h, packR d.code 0 0 c.code k.val)
  | .mboxWait h k d c => some (781, h, packR d.code 0 0 c.code k.val)
  | .outs h t a => some (782, h, packR 0 a.code 0 0 t.num)
  | .kill h => some (783, h, 0)
  | .lblrd h d a => some (832, h, packR d.code a.code 0 0 0)
  | .grel h s w d a b c => some (833, h, packR d.code a.code b.code c.code (b1 s + 2 * w.val))
  | .csrr h d n => some (896, h, packS d.code 0 n.toNat 0)
  | .csrw h n a => some (897, h, packS 0 a.code n.toNat 0)
  | .tret h m a => some (898, h, packR 0 a.code 0 0 m.num)
  | _ => none

/-- The format of an opcode (R233). -/
def fmtOf (op : Nat) : Fmt :=
  let g := op / 64
  let k := op % 64
  if g = 0 then (if k = 2 ∨ k = 3 ∨ k = 5 then .b else if k = 9 ∨ k = 10 then .i else .r)
  else if g = 1 then (if (k < 4 ∨ (8 ≤ k ∧ k < 12)) ∧ k % 2 = 1 then .i else .r)
  else if g = 2 then (if (k < 12 ∨ (14 ≤ k ∧ k < 30)) ∧ k % 2 = 1 then .i else .r)
  else if g = 3 then (if k < 12 ∧ k % 2 = 1 then .i else if k = 16 then .l else if k = 17 ∨ k = 18 then .i else .r)
  else if g = 7 then .m
  else if g = 8 then (if k = 55 then .r else .m)
  else if g = 10 then (if k = 0 then .b else if (7 ≤ k ∧ k < 13) ∨ k = 14 then .m else .r)
  else if g = 11 then
    (if k = 2 ∨ k = 3 then .m else if 4 ≤ k ∧ k < 7 then .x else if 11 ≤ k ∧ k < 19 then .m else .r)
  else if g = 14 then (if k < 2 then .s else .r)
  else .r

/-- An instruction word: OPCODE, RATE, FSEL, GUARD, GNEG and bits [45:0] (R222). -/
def packWord (op : Nat) (h : Ctl) (body : Nat) : Nat :=
  op * 18014398509481984 + h.rate.num * 2251799813685248 + b1 h.fsel * 1125899906842624
    + h.guard.val * 140737488355328 + b1 h.gneg * 70368744177664 + body

/-- OPCODE, bits [63:54]. -/
def wOp (w : Nat) : Nat := w / 18014398509481984 % 1024
/-- RATE, bits [53:51]. -/
def wRate (w : Nat) : Nat := w / 2251799813685248 % 8
/-- FSEL, bit 50. -/
def wFsel (w : Nat) : Nat := w / 1125899906842624 % 2
/-- GUARD, bits [49:47]. -/
def wGuard (w : Nat) : Nat := w / 140737488355328 % 8
/-- GNEG, bit 46. -/
def wGneg (w : Nat) : Nat := w / 70368744177664 % 2
/-- Bits [45:0]. -/
def wBody (w : Nat) : Nat := w % 70368744177664

/-- The common fields of a word (R222). (DEDUCED: log 8) -/
def ctlOf (w : Nat) : Ctl :=
  { rate := Rate.of (wRate w), fsel := wFsel w == 1, guard := Fin.ofNat 8 (wGuard w), gneg := wGneg w == 1 }

/-! ## Operand classes -/

/-- Operand classes (R250, R296). `reg` lists the kinds allowed (vector, held, scalar, inline constant) and the number of registers, on whose multiple the first must stand. -/
inductive Cls
  | reg (v h s c : Bool) (n : Nat)
  | psrc | pdst
  /-- a predicate destination, or a 32-bit register of the kinds vector, held, scalar -/
  | pdstOr (v h s : Bool)
  /-- a Pair, vector or scalar, or constant 0 (R329) -/
  | pairOr0
  /-- five scalars from sk, k at most 59 (R316) -/
  | origin
  /-- any register code (R357) -/
  | anyReg
  /-- a field that the instruction does not read -/
  | unread
  deriving DecidableEq, Repr

/-- A Value of one or two registers. -/
def Cls.value (n : Nat) : Cls := .reg true true true true n
/-- A Destination of one or two registers. -/
def Cls.dest (n : Nat) : Cls := .reg true true true false n
/-- A vector or scalar register group. -/
def Cls.vs (n : Nat) : Cls := .reg true false true false n
/-- A vector register group. -/
def Cls.vec (n : Nat) : Cls := .reg true false false false n
/-- A scalar register group. -/
def Cls.scal (n : Nat) : Cls := .reg false false true false n
/-- A uniform value: scalar registers or an inline constant. -/
def Cls.unif (n : Nat) : Cls := .reg false false true true n

/-- Whether an operand lies in a class. -/
def Cls.ok : Cls → Opr → Bool
  | .reg v _ _ _ n, .v k => v && k.val % n == 0
  | .reg _ h _ _ n, .h k => h && k.val % n == 0
  | .reg _ _ s _ n, .s k => s && k.val % n == 0
  | .reg _ _ _ _ _, .p _ => false
  | .reg _ _ _ c _, .c _ => c
  | .psrc, .p _ => true
  | .psrc, .c k => k == .zero || k == .minusOne
  | .psrc, _ => false
  | .pdst, .p k => k != 0
  | .pdst, _ => false
  | .pdstOr _ _ _, .p k => k != 0
  | .pdstOr v _ _, .v _ => v
  | .pdstOr _ h _, .h _ => h
  | .pdstOr _ _ s, .s _ => s
  | .pdstOr _ _ _, .c _ => false
  | .pairOr0, .v k => k.val % 2 == 0
  | .pairOr0, .s k => k.val % 2 == 0
  | .pairOr0, .c k => k == .zero
  | .pairOr0, _ => false
  | .origin, .s k => decide (k.val ≤ 59)
  | .origin, _ => false
  | .anyReg, .c _ => false
  | .anyReg, _ => true
  | .unread, o => o == .v 0

/-- How many registers an operand of a class names. -/
def Cls.span : Cls → Nat
  | .reg _ _ _ _ n => n
  | .pairOr0 => 2
  | .origin => 5
  | .unread => 0
  | _ => 1

/-- What the footprint checks need of the executing entry and its code object (R230, R242, R403, R405). -/
structure Footprint where
  vregs : Nat
  scalars : Nat
  held : List (Nat × Nat × Nat)
  tasks : List Nat

/-- The producing rate code of a held register, if the entry declares it. -/
def Footprint.producer (fp : Footprint) (k : Nat) : Option Nat := (fp.held.find? fun e => e.1 == k).map fun e => e.2.1

/-- Whether `n` registers from an operand's lie within the footprint (R230). -/
def Footprint.has (fp : Footprint) (o : Opr) (n : Nat) : Bool :=
  match o with
  | .v k => decide (k.val + n ≤ fp.vregs)
  | .s k => decide (k.val + n ≤ fp.scalars)
  | .h k => (List.range n).all fun i => (fp.producer (k.val + i)).isSome
  | _ => true

/-- Registers that a width takes. -/
def Width.regs : Width → Nat
  | .w32 => 1
  | .w64 => 2

/-- Registers that an integer type takes (R250, R268, R291). -/
def IType.regs : IType → Nat
  | .i64 => 2 | .n64 => 2 | _ => 1

def LdW.regs : LdW → Nat
  | .b64 => 2 | .b128 => 4 | _ => 1

def StW.regs : StW → Nat
  | .b64 => 2 | .b128 => 4 | _ => 1

def LdcW.regs : LdcW → Nat
  | .b64 => 2 | .b128 => 4 | _ => 1

def MadV.regs : MadV → Nat
  | .b64 => 2 | _ => 1

def AtomV.regs : AtomV → Nat
  | .int _ .w64 => 2 | _ => 1

def RedV.regs : RedV → Nat
  | .addB64 => 2 | _ => 1

def WaitV.regs : WaitV → Nat
  | .eqB64 => 2 | .neB64 => 2 | _ => 1

/-- The register group of loads and stores of a width: a Quad excludes held registers and constants (R296). -/
def dataCls (dst : Bool) (n : Nat) : Cls := if n = 4 then .vs 4 else .reg true true true (!dst) n

/-- The class of the random operand: read only under `.sr` (R280). -/
def rndCls (r : Rm) : Cls := if r = .sr then .value 1 else .unread

/-- The class of the predicate that a combine reads (R268, R286). -/
def combCls (c : Comb) : Cls := if c = .none then .unread else .psrc

/-- One operand field: its number (R394), its class and its operand. -/
abbrev Use := Nat × Cls × Opr

/-- The address fields of a global access (R225). (DEDUCED: log 7) -/
def useMem (m : MemArg) : List Use := [(4, Cls.value 2, m.base), (5, Cls.value 1, m.x)]
/-- The address fields of a scratchpad access (R225). (DEDUCED: log 7) -/
def useScr (m : MemArg) : List Use := [(4, Cls.dest 1, m.base), (5, Cls.value 1, m.x)]
/-- The address fields of a uniform global access (R327, R328). -/
def useUni (m : MemArg) : List Use := [(4, Cls.unif 2, m.base), (5, Cls.unif 1, m.x)]

/-- The operand of a second source of `n` registers. -/
def useSrc (n : Nat) : Src → List Use
  | .reg o => [(2, Cls.value n, o)]
  | .imm _ => []

/-- The operand fields that an instruction reads or writes, with their classes (R250 to R361): of a 64-bit variant, those that its entry gives 64-bit values are pairs. A field of its format that the list leaves out holds 0 (R227). -/
def Instr.uses : Instr → List Use
  | .brx _ a b => [(1, .vs 2, a), (2, .scal 2, b)]
  | .callx _ d a => [(0, .vec 2, d), (1, .vs 2, a)]
  | .ret _ a => [(1, .vec 2, a)]
  | .iadd _ w _ d a b => [(0, .dest w.regs, d), (1, .value w.regs, a)] ++ useSrc w.regs b
  | .isub _ w _ d a b => [(0, .dest w.regs, d), (1, .value w.regs, a), (2, .value w.regs, b)]
  | .iaddw _ _ d a b => [(0, .dest 2, d), (1, .value 1, a), (2, .value 1, b)]
  | .imul _ w d a b => [(0, .dest w.regs, d), (1, .value w.regs, a)] ++ useSrc w.regs b
  | .imulhi _ _ d a b => [(0, .dest 1, d), (1, .value 1, a), (2, .value 1, b)]
  | .imad _ v d a b c =>
    [(0, .dest v.regs, d), (1, .value v.regs, a), (2, .value v.regs, b), (3, .value v.regs, c)]
  | .imadw _ _ d a b c => [(0, .dest 2, d), (1, .value 1, a), (2, .value 1, b), (3, .value 2, c)]
  | .idiv _ w _ d a b => [(0, .dest w.regs, d), (1, .value w.regs, a), (2, .value w.regs, b)]
  | .irem _ w _ d a b => [(0, .dest w.regs, d), (1, .value w.regs, a), (2, .value w.regs, b)]
  | .imin _ w _ d a b => [(0, .dest w.regs, d), (1, .value w.regs, a), (2, .value w.regs, b)]
  | .imax _ w _ d a b => [(0, .dest w.regs, d), (1, .value w.regs, a), (2, .value w.regs, b)]
  | .iabs _ w _ d a => [(0, .dest w.regs, d), (1, .value w.regs, a)]
  | .and _ w d a b => [(0, .dest w.regs, d), (1, .value w.regs, a)] ++ useSrc w.regs b
  | .or _ w d a b => [(0, .dest w.regs, d), (1, .value w.regs, a)] ++ useSrc w.regs b
  | .xor _ w d a b => [(0, .dest w.regs, d), (1, .value w.regs, a)] ++ useSrc w.regs b
  | .bcond _ w _ _ d a b c =>
    [(0, .dest w.regs, d), (1, .value w.regs, a), (2, .value w.regs, b), (3, .value w.regs, c)]
  | .shl _ w d a b => [(0, .dest w.regs, d), (1, .value w.regs, a)] ++ useSrc 1 b
  | .shr _ w d a b => [(0, .dest w.regs, d), (1, .value w.regs, a)] ++ useSrc 1 b
  | .sar _ w d a b => [(0, .dest w.regs, d), (1, .value w.regs, a)] ++ useSrc 1 b
  | .rotl _ w d a b => [(0, .dest w.regs, d), (1, .value w.regs, a)] ++ useSrc 1 b
  | .bfe _ w _ d a b c => [(0, .dest w.regs, d), (1, .value w.regs, a), (2, .value w.regs, b), (3, .value w.regs, c)]
  | .bfi _ w d a b c => [(0, .dest w.regs, d), (1, .value w.regs, a), (2, .value w.regs, b), (3, .value w.regs, c)]
  | .popc _ w d a => [(0, .dest 1, d), (1, .value w.regs, a)]
  | .clz _ w d a => [(0, .dest 1, d), (1, .value w.regs, a)]
  | .brev _ w d a => [(0, .dest w.regs, d), (1, .value w.regs, a)]
  | .icmp _ t _ cb d a b p =>
    [(0, .pdstOr true true true, d), (1, .value t.regs, a)] ++ useSrc t.regs b ++
      (match b with | .reg _ => [(3, combCls cb, p)] | .imm _ => [])
  | .sel _ w d a b p => [(0, .dest w.regs, d), (1, .value w.regs, a), (2, .value w.regs, b), (3, .psrc, p)]
  | .mov _ w d a => [(0, .dest w.regs, d), (1, .value w.regs, a)]
  | .movi _ w d _ => [(0, .dest (if w then 2 else 1), d)]
  | .movhi _ d _ => [(0, .vs 2, d)]
  | .addpc _ d _ => [(0, .vs 2, d)]
  | .fadd _ _ r _ d a b c => [(0, .dest 1, d), (1, .value 1, a), (2, .value 1, b), (3, rndCls r, c)]
  | .fmul _ _ r _ d a b c => [(0, .dest 1, d), (1, .value 1, a), (2, .value 1, b), (3, rndCls r, c)]
  | .ffma _ _ _ _ d a b c => [(0, .dest 1, d), (1, .value 1, a), (2, .value 1, b), (3, .value 1, c)]
  | .fscale _ _ r _ d a b c => [(0, .dest 1, d), (1, .value 1, a), (2, .value 1, b), (3, rndCls r, c)]
  | .fmin _ _ d a b => [(0, .dest 1, d), (1, .value 1, a), (2, .value 1, b)]
  | .fmax _ _ d a b => [(0, .dest 1, d), (1, .value 1, a), (2, .value 1, b)]
  | .fcmp _ _ _ cb _ d a b p =>
    [(0, .pdstOr true true true, d), (1, .value 1, a), (2, .value 1, b), (3, combCls cb, p)]
  | .fclass _ _ _ _ d a => [(0, .pdstOr true true true, d), (1, .value 1, a)]
  | .frnd _ _ _ d a => [(0, .dest 1, d), (1, .value 1, a)]
  | .ffrac _ d a => [(0, .dest 1, d), (1, .value 1, a)]
  | .fdot2 _ _ _ d a b c => [(0, .dest 1, d), (1, .value 1, a), (2, .value 1, b), (3, .value 1, c)]
  | .fdot4 _ _ _ d a b c => [(0, .dest 1, d), (1, .value 1, a), (2, .value 1, b), (3, .value 1, c)]
  | .frcp _ _ d a => [(0, .dest 1, d), (1, .value 1, a)]
  | .frsq _ _ d a => [(0, .dest 1, d), (1, .value 1, a)]
  | .fsqrt _ _ d a => [(0, .dest 1, d), (1, .value 1, a)]
  | .fexp2 _ _ d a => [(0, .dest 1, d), (1, .value 1, a)]
  | .flog2 _ _ d a => [(0, .dest 1, d), (1, .value 1, a)]
  | .fsinpi _ _ d a => [(0, .dest 1, d), (1, .value 1, a)]
  | .fcospi _ _ d a => [(0, .dest 1, d), (1, .value 1, a)]
  | .f2i _ t _ d a => [(0, .dest t.regs, d), (1, .value 1, a)]
  | .i2f _ t r d a b => [(0, .dest 1, d), (1, .value t.regs, a), (2, rndCls r, b)]
  | .fcvt _ _ r _ d a b => [(0, .dest 1, d), (1, .value 1, a), (2, rndCls r, b)]
  | .pack _ _ r _ _ d a b c => [(0, .dest 1, d), (1, .value 1, a), (2, .value 1, b), (3, rndCls r, c)]
  | .unpack _ _ _ d a => [(0, .dest 1, d), (1, .value 1, a)]
  | .gqdec _ _ _ _ _ d a b c => [(0, .dest 1, d), (1, .value 1, a), (2, .value 1, b), (3, .value 1, c)]
  | .lperm _ _ _ d a b => [(0, .dest 1, d), (1, .value 1, a), (2, .value 1, b)]
  | .pgathCnt _ _ d a => [(0, .pdstOr true false true, d), (1, .psrc, a)]
  | .pgathRank _ d a => [(0, .vec 1, d), (1, .psrc, a)]
  | .pgathMask _ d a => [(0, .vs 1, d), (1, .psrc, a)]
  | .lfirst _ d => [(0, .pdstOr false false true, d)]
  | .lkin _ w d a => [(0, .vec w.regs, d), (1, .value w.regs, a)]
  | .lread _ w d a b => [(0, .vs w.regs, d), (1, .value w.regs, a), (2, .unif w.regs, b)]
  | .srd _ v d a =>
    [(0, .scal (if v = .addB64 then 2 else 1), d), (1, .value (if v = .addB64 then 2 else 1), a)]
  | .dred _ _ d a => [(0, .vs 1, d), (1, .value 1, a)]
  | .scan _ _ d a => [(0, .vec 1, d), (1, .value 1, a)]
  | .pcond _ _ _ d a b c => [(0, .pdst, d), (1, .psrc, a), (2, .psrc, b), (3, .psrc, c)]
  | .pmovGet _ d => [(0, .vec 1, d)]
  | .pmovSet _ _ a => [(1, .value 1, a)]
  | .ld _ w d m => (0, dataCls true w.regs, d) :: useMem m
  | .st _ w d m => (0, dataCls false w.regs, d) :: useMem m
  | .lds _ w d m => (0, dataCls true w.regs, d) :: useScr m
  | .sts _ w d m => (0, dataCls false w.regs, d) :: useScr m
  | .ldc _ w d m => (0, dataCls true w.regs, d) :: useMem m
  | .pref _ m => useMem m
  | .cinv _ m => useMem m
  | .atom _ v d m => (0, .value v.regs, d) :: useMem m
  | .atoms _ v d m => (0, if v = .cas then .dest 2 else .value 1, d) :: useScr m
  | .cas _ v d m => (0, (match v with | .b32 => .dest 2 | .b64 => .vs 4 | .b32nr => .value 2), d) :: useMem m
  | .casx _ d m => (0, .vs 8, d) :: useMem m
  | .red _ v d m => (0, .value v.regs, d) :: useMem m
  | .cpy _ v d a b c =>
    [(0, .scal 1, d), (1, .unif (if v = .g2g ∨ v = .s2g then 2 else 1), a),
      (2, .unif (if v = .g2g ∨ v = .g2s then 2 else 1), b), (3, .unif 1, c)]
  | .cpyp _ _ d a b c => [(0, .scal 1, d), (1, .unif 2, a), (2, .origin, b), (3, .unif 1, c)]
  | .cpyc _ d a b c => [(0, .scal 1, d), (1, .unif 2, a), (2, .origin, b), (3, .unif 1, c)]
  | .cpysig _ _ d a b c => [(0, .scal 1, d), (1, .scal 4, a), (2, .unif 2, b), (3, .unif 2, c)]
  | .cseal _ d => [(0, .scal 1, d)]
  | .cwait _ a => [(1, .unif 1, a)]
  | .cwaitSt _ d a => [(0, .scal 1, d), (1, .unif 1, a)]
  | .ctest _ d a b => [(0, .pdst, d), (1, .unif 1, a), (2, .unif 2, b)]
  | .bar _ _ _ a => [(1, .unif 1, a)]
  | .bara _ _ _ a => [(1, .unif 1, a)]
  | .waitc _ v d m => (0, .unif v.regs, d) :: useUni m
  | .spawn _ _ a b => [(1, .vs 4, a), (2, .pairOr0, b)]
  | .join _ m => useUni m
  | .bclaim _ a => [(1, .unif 2, a)]
  | .brel _ a => [(1, .unif 1, a)]
  | .bst _ d m => [(0, .value 1, d), (4, .value 1, m.base), (5, .value 1, m.x)]
  | .brd _ d m => [(0, .dest 1, d), (4, .value 1, m.base), (5, .value 1, m.x)]
  | .ard _ _ _ _ _ _ d => [(0, .vs 8, d)]
  | .awr _ _ _ _ a => [(1, .vs 8, a)]
  | .ast _ _ d m => [(0, .unif 1, d), (4, .value 2, m.base), (5, .unif 1, m.x)]
  | .hfree _ a => [(1, .reg false true false false 1, a)]
  | .ipa _ _ d a => [(0, .dest 1, d), (1, .reg false true false false 1, a)]
  | .emitv _ a => [(1, .value 1, a)]
  | .emitp _ a => [(1, .value 1, a)]
  | .tex _ _ d a b c => [(0, .vs 4, d), (1, .value 2, a), (2, .value 2, b), (3, .value 1, c)]
  | .tld _ d a b c => [(0, .vs 4, d), (1, .value 2, a), (2, .value 2, b), (3, .value 1, c)]
  | .trace _ _ _ _ a b => [(1, .vs 8, a), (2, .value 1, b)]
  | .rret _ a => [(1, .vs 4, a)]
  | .mboxTry _ _ d c => [(0, .vs 4, d), (3, .vec 1, c)]
  | .mboxWait _ _ d c => [(0, .vs 4, d), (3, .vec 1, c)]
  | .outs _ _ a => [(1, .vs 4, a)]
  | .lblrd _ d a => [(0, .scal 1, d), (1, .anyReg, a)]
  | .grel _ s _ d a b c =>
    [(0, .scal 1, d), (1, .unif (if s then 1 else 2), a), (2, .unif 2, b), (3, .unif 1, c)]
  | .csrr _ d n => [(0, if n = 0 then .scal 2 else if n = 0x10 then .vec 1 else .scal 1, d)]
  | .csrw _ _ a => [(1, .unif 1, a)]
  | .tret _ _ a => [(1, .unif 1, a)]
  | _ => []

/-- The instructions to which R251's rule on scalar destinations applies; the others have their own (R273 to R278, R297, R313, R357), or no source (R354). -/
def Instr.scalarRule : Instr → Bool
  | .pgathCnt .. => false | .pgathRank .. => false | .pgathMask .. => false | .lfirst .. => false
  | .lkin .. => false | .lread .. => false | .srd .. => false | .dred .. => false
  | .ld .. => false | .st .. => false | .lds .. => false | .sts .. => false | .ldc .. => false
  | .atom .. => false | .atoms .. => false | .cas .. => false | .casx .. => false | .red .. => false
  | .waitc .. => false | .bst .. => false | .ast .. => false | .lblrd .. => false
  | .mboxTry .. => false | .mboxWait .. => false
  | _ => true

/-- The data and address operands to which R297's rule applies, and whether the instruction has a result. -/
def Instr.dataRule : Instr → Option (Opr × MemArg × Bool)
  | .ld _ _ d m => some (d, m, true)
  | .lds _ _ d m => some (d, m, true)
  | .ldc _ _ d m => some (d, m, true)
  | .st _ _ d m => some (d, m, false)
  | .sts _ _ d m => some (d, m, false)
  | .atom _ _ d m => some (d, m, true)
  | .atoms _ _ d m => some (d, m, true)
  | .cas _ v d m => some (d, m, v != .b32nr)
  | .casx _ d m => some (d, m, true)
  | .red _ _ d m => some (d, m, false)
  | _ => none

def Opr.isScalar : Opr → Bool
  | .s _ => true
  | _ => false

def Opr.isVector : Opr → Bool
  | .v _ => true
  | _ => false

def Opr.isHeld : Opr → Bool
  | .h _ => true
  | _ => false

def Opr.isPred : Opr → Bool
  | .p _ => true
  | _ => false

def Opr.isConst : Opr → Bool
  | .c _ => true
  | _ => false

/-- Scalar register or inline constant. -/
def Opr.isUniform (o : Opr) : Bool := o.isScalar || o.isConst

/-- The operand fields of a format (R224), with the raw code that each holds. -/
def rawFields (f : Fmt) (n : Nat) : List (Nat × Nat) :=
  match f with
  | .r => [(0, fd n), (1, fa n), (2, fb n), (3, fc n)]
  | .i => [(0, fd n), (1, fa n)]
  | .l => [(0, fd n)]
  | .m => [(0, fd n), (4, fa n), (5, fb n)]
  | .s => [(0, fd n), (1, fa n)]
  | .b => []
  | .x => []

/-- The raw code that a field of the word holds. -/
def rawCode (f : Nat) (n : Nat) : Nat :=
  match f with
  | 0 => fd n
  | 1 => fa n
  | 2 => fb n
  | 3 => fc n
  | 4 => fa n
  | _ => fb n

/-- Failures of the operand fields: codes outside their class, reserved or outside the footprint, and fields that the instruction does not read (R228, R230, R250, R396). -/
def operandErrs (fp : Option Footprint) (f : Fmt) (i : Instr) (n : Nat) : List (Nat × Nat) :=
  (rawFields f n).filter fun rf =>
    match i.uses.find? fun u => u.1 == rf.1 with
    | none => rf.2 != 0
    | some (_, c, o) =>
      if rf.2 ≥ 344 then true
      else if !c.ok o then true
      else match fp with
        | none => false
        | some p => !p.has o c.span

/-- Failures of R251's and R297's rules on scalar data registers. -/
def scalarErrs (i : Instr) : List (Nat × Nat) :=
  (match i.uses with
   | (0, _, .s k) :: rest =>
     if i.scalarRule then
       (match rest.find? fun u => u.2.1 != .unread && !u.2.2.isUniform with
        | some u => [(u.1, u.2.2.code)]
        | none => [])
     else
       (match i.dataRule with
        | some (_, m, res) =>
          if m.base.isVector || m.x.isVector || (res && !(m.base.isUniform && m.x.isUniform)) then
            [(0, 256 + k.val)] else []
        | none => [])
   | _ => [])

/-- Bits of a field of `w` bits at bit `lo` of the word that are set though the entry leaves them undefined. -/
def undef (n lo w : Nat) (defined : Nat) : List Nat :=
  ((List.range w).filter fun k => tb n (lo + k) && !tb defined k).map fun k => lo + k

/-- The lowest bit of a field, when the field holds a reserved code. -/
def resv (n lo w : Nat) (codes : List Nat) : List Nat := if (n / 2 ^ lo % 2 ^ w) ∈ codes then [lo] else []

/-- The M-format checks of R298: allowed orders, whether the scope must be 0, the greatest hint. -/
def mErrs (n : Nat) (orders : List Nat) (scope0 : Bool) (hintMax : Nat) : List Nat :=
  (if fOrder n ∈ orders then [] else [5]) ++
  (if fScope n = 7 ∨ (scope0 ∧ fScope n ≠ 0) then [2] else []) ++
  (if fHint n ≤ hintMax then [] else [0])

/-- The CSR numbers of R360. -/
def csrListed (n : Nat) : Bool :=
  n == 0 || (2 ≤ n && n ≤ 7) || (0x10 ≤ n && n ≤ 0x15) || (0x20 ≤ n && n ≤ 0x27) || (0x30 ≤ n && n ≤ 0x3F)

/-- Failures of field 6: bits of [45:0] outside the operand fields that the entry leaves undefined, requires zero, or gives a reserved code (R396, R398 to R407). `k` is the number of m bits of the format. -/
def bitErrs (fp : Option Footprint) (i : Instr) (n : Nat) : List Nat :=
  match i with
  | .bra .. => undef n 0 26 0
  | .brc h _ _ _ => if h.rate = .fine ∨ h.rate = .ray then undef n 0 6 0 else []
  | .call _ _ l =>
    undef n 6 20 0 ++ (match fp with | some p => if 2 * l.toNat + 1 < p.vregs then [] else [0] | none => [])
  | .trap .. => undef n 0 8 0
  | .bkpt .. => undef n 0 8 0
  | .iadd _ _ _ _ _ b => undef n 0 (if b.isImm = 1 then 8 else 10) 3 ++ resv n 0 2 [3]
  | .isub .. => undef n 0 10 3 ++ resv n 0 2 [3]
  | .imul _ _ _ _ b => undef n 0 (if b.isImm = 1 then 8 else 10) 0
  | .iabs .. => undef n 0 10 1
  | .and _ _ _ _ b => undef n 0 (if b.isImm = 1 then 8 else 10) 0
  | .or _ _ _ _ b => undef n 0 (if b.isImm = 1 then 8 else 10) 0
  | .xor _ _ _ _ b => undef n 0 (if b.isImm = 1 then 8 else 10) 0
  | .bcond .. => undef n 0 10 0xFF
  | .shl _ _ _ _ b => undef n 0 (if b.isImm = 1 then 8 else 10) 0
  | .shr _ _ _ _ b => undef n 0 (if b.isImm = 1 then 8 else 10) 0
  | .sar _ _ _ _ b => undef n 0 (if b.isImm = 1 then 8 else 10) 0
  | .rotl _ _ _ _ b => undef n 0 (if b.isImm = 1 then 8 else 10) 0
  | .icmp _ _ _ _ _ _ b _ => undef n 0 (if b.isImm = 1 then 8 else 10) (if b.isImm = 1 then 7 else 31) ++ resv n 0 3 [6, 7]
  | .movi .. => undef n 0 5 1
  | .movhi .. => undef n 0 8 0
  | .addpc .. => undef n 0 8 0
  | .fadd .. => undef n 0 10 15 ++ resv n 0 3 [6, 7]
  | .fmul .. => undef n 0 10 15 ++ resv n 0 3 [6, 7]
  | .ffma .. => undef n 0 10 15 ++ resv n 0 3 [5, 6, 7]
  | .fscale .. => undef n 0 10 15 ++ resv n 0 3 [6, 7]
  | .fcmp _ t _ _ _ d _ _ _ =>
    undef n 0 10 0x7F ++
      (if d.isPred && t != .f32 then resv n 5 2 [3] else resv n 5 2 [1, 2, 3])
  | .fclass _ t _ _ d _ =>
    if d.isPred then (if t = .f32 then undef n 0 10 0x1FF else []) else undef n 0 10 0
  | .frnd .. => undef n 0 10 7 ++ resv n 0 3 [5, 6, 7]
  | .fdot2 .. => undef n 0 10 1
  | .fdot4 .. => undef n 0 10 1
  | .frcp .. => undef n 0 10 7 ++ resv n 0 3 [5, 6, 7]
  | .frsq .. => undef n 0 10 7 ++ resv n 0 3 [5, 6, 7]
  | .fsqrt .. => undef n 0 10 7 ++ resv n 0 3 [5, 6, 7]
  | .fexp2 .. => undef n 0 10 7 ++ resv n 0 3 [5, 6, 7]
  | .flog2 .. => undef n 0 10 7 ++ resv n 0 3 [5, 6, 7]
  | .fsinpi .. => undef n 0 10 7 ++ resv n 0 3 [5, 6, 7]
  | .fcospi .. => undef n 0 10 7 ++ resv n 0 3 [5, 6, 7]
  | .f2i .. => undef n 0 10 7 ++ resv n 0 3 [5, 6, 7]
  | .i2f .. => undef n 0 10 7 ++ resv n 0 3 [6, 7]
  | .fcvt _ v _ _ _ _ _ =>
    if 5 ≤ v.num ∧ v.num ≤ 10 then undef n 0 10 0
    else undef n 0 10 (if v = .f32e2m1 then 7 else 15) ++ resv n 0 3 [6, 7]
  | .pack _ v _ _ _ _ _ _ _ =>
    undef n 0 10 (if v = .f16 ∨ v = .bf16 then 15 else 31) ++ resv n 0 3 [6, 7]
  | .unpack _ v _ _ _ => undef n 0 10 (if v = .f16 ∨ v = .bf16 then 1 else 3)
  | .gqdec _ f _ _ _ _ _ _ _ => undef n 0 10 (if f then 0x7B else 0x7F) ++ resv n 3 3 [6, 7]
  | .lperm .. => undef n 0 10 7 ++ resv n 0 3 [6, 7]
  | .pgathCnt _ _ d _ => undef n 0 10 (if d.isPred then 3 else 0)
  | .srd _ v _ _ =>
    (match v with
     | .addB32 => undef n 0 10 0
     | .addB64 => undef n 0 10 0
     | .minI32 => undef n 0 10 3
     | .maxI32 => undef n 0 10 3
     | .minN32 => undef n 0 10 3
     | .maxN32 => undef n 0 10 3
     | _ => undef n 0 10 3 ++ resv n 0 2 [3])
  | .pcond .. => undef n 0 10 0xFF
  | .pmovSet .. => undef n 0 10 0xFE
  | .ld .. => mErrs n [0, 1] false 3
  | .st .. => mErrs n [0, 2] false 3
  | .lds .. => mErrs n [0, 1] false 0
  | .sts .. => mErrs n [0, 2] false 0
  | .ldc .. => mErrs n [0] true 0
  | .pref .. => mErrs n [0] true 1
  | .cinv .. => mErrs n [0] true 0
  | .atom .. => mErrs n [0, 1, 2, 3] false 3
  | .atoms .. => mErrs n [0, 1, 2, 3] false 0
  | .cas .. => mErrs n [0, 1, 2, 3] false 3
  | .casx .. => mErrs n [0, 1, 2, 3] false 3
  | .red .. => mErrs n [0, 2] false 3
  | .fence .. => mErrs n [0, 1, 2, 3] false 0 ++ undef n 7 12 0
  | .cpysig .. => undef n 0 10 1
  | .txb _ alt _ => undef n 6 20 0 ++ undef n 0 6 7 ++ (if alt.isNone then undef n 26 20 0 else []) ++ resv n 1 2 [3]
  | .bar .. => undef n 0 10 0x7F ++ resv n 0 3 [0, 6, 7]
  | .bara .. => undef n 0 10 0x7F ++ resv n 0 3 [0, 6, 7]
  | .barw .. => undef n 0 10 0x7F ++ resv n 0 3 [0, 6, 7]
  | .waitc .. => mErrs n [0, 1] false 0
  | .spawn _ e _ _ =>
    undef n 0 10 0xFF ++ (match fp with | some p => if e.toNat ∈ p.tasks then [] else [0] | none => [])
  | .join .. => mErrs n [0] true 0
  | .bst .. => mErrs n [0] true 0
  | .brd .. => mErrs n [0] true 0
  | .mma .. => undef n 0 31 0
  | .aclr .. => undef n 0 43 0
  | .ard _ bf _ _ _ _ _ => if bf then undef n 0 10 0x3DF ++ resv n 6 3 [5, 6, 7] else undef n 0 10 0x3F
  | .awr _ bf _ _ _ => undef n 0 10 (if bf then 0x1F else 0x3F)
  | .ast .. => mErrs n [0, 2] false 3
  | .trace .. => undef n 0 10 0x1F
  | .mboxTry .. => undef n 0 10 7
  | .mboxWait .. => undef n 0 10 7
  | .outs .. => undef n 0 10 7 ++ resv n 0 3 [4, 5, 6]
  | .grel .. => undef n 0 10 0xF
  | .csrr _ _ c => undef n 0 12 0 ++ (if csrListed c.toNat then [] else [12])
  | .csrw _ c _ => undef n 0 12 0 ++ (if c = 0x12 then [] else [12])
  | .tret .. => undef n 0 10 3 ++ resv n 0 2 [3]
  | _ => undef n 0 10 0

/-- Failures of field 7: GUARD 0 with GNEG 1, and a guard where the entry requires none (R396, R398, R403). -/
def guardErrs (i : Instr) (h : Ctl) : List (Nat × Nat) :=
  let code := (if h.gneg then 8 else 0) + h.guard.val
  let bad := match i with
    | .bra .. => code != 0
    | .call .. => code != 0
    | .txb .. => code != 0
    | .txe .. => code != 0
    | _ => code == 8
  if bad then [(7, code)] else []

/-- Failures of the classes that name a held register of a given producing rate (R405). -/
def heldErrs (fp : Option Footprint) (i : Instr) : List (Nat × Nat) :=
  match fp, i with
  | some p, .hfree h (.h k) => if p.producer k.val = some h.rate.num then [] else [(1, 192 + k.val)]
  | some p, .ipa _ _ _ (.h k) => if p.producer k.val = some 2 then [] else [(1, 192 + k.val)]
  | _, _ => []

/-- Every failure of fields 0 to 7 of a word (R394), as (field, code or bit). Without a footprint, those that depend on the word alone. -/
def fieldErrs (fp : Option Footprint) (op : Nat) (i : Instr) (h : Ctl) (n : Nat) : List (Nat × Nat) :=
  operandErrs fp (fmtOf op) i n ++ scalarErrs i ++ heldErrs fp i ++ (bitErrs fp i n).map (fun b => (6, b)) ++
    guardErrs i h

/-- The failure to report: the lowest field, and within field 6 the lowest bit (R393). (DESIGN CHOICE: log 42) -/
def lowestErr : List (Nat × Nat) → Option (Nat × Nat)
  | [] => none
  | e :: es =>
    match lowestErr es with
    | none => some e
    | some f => if e.1 < f.1 ∨ (e.1 = f.1 ∧ e.2 ≤ f.2) then some e else some f

/-- Why a word is no instruction: OPCODE in no span, RATE 7, or an OPERAND failure (R396). -/
inductive Reject | illegalOp | illegalRate | operand (field code : Nat)
  deriving DecidableEq, Repr

/-- The instruction that a word stands for, or why it is none (R222, R233, R234). (DEDUCED: log 8) -/
def decode (word : DWord) : Except Reject Instr :=
  let w := word.toNat
  match build (wOp w) (ctlOf w) (wBody w) with
  | none => .error .illegalOp
  | some i =>
    if wRate w = 7 then .error .illegalRate
    else match lowestErr (fieldErrs none (wOp w) i (ctlOf w) (wBody w)) with
      | some e => .error (.operand e.1 e.2)
      | none => .ok i

/-- The common fields of an instruction word. -/
def Instr.ctl (i : Instr) : Ctl :=
  match i.parts with
  | some (_, h, _) => h
  | none => ⟨.fine, false, 0, false⟩

/-- The word of an instruction (R222); 0 for a constructor that is no word. -/
def Instr.word (i : Instr) : DWord :=
  match i.parts with
  | some (op, h, n) => BitVec.ofNat 64 (packWord op h n)
  | none => 0

/-! ## Commands (R191) -/

/-- The CMP code of IF and WAIT. -/
def CCmp.num : CCmp → Nat
  | .eq => 0 | .ne => 1 | .lt => 2 | .ge => 3

def CCmp.of : Nat → CCmp
  | 0 => .eq | 1 => .ne | 2 => .lt | _ => .ge

/-- The header word of a command (R191). -/
def cmdHeader (op len : Nat) (fence : Bool) (args : Nat) : DWord :=
  BitVec.ofNat 64 (op * 2 ^ 56 + len * 2 ^ 51 + b1 fence * 2 ^ 50 + args)

/-- The words of a command (R191); empty for a constructor that is no command. -/
def Instr.command : Instr → List DWord
  | .cmdNop f => [cmdHeader 0 0 f 0]
  | .launch f a => [cmdHeader 1 1 f 0, a]
  | .launchIndirect f a c => [cmdHeader 2 2 f 0, a, c]
  | .cmdLoop f b c => [cmdHeader 3 0 f (b.toNat * 2 ^ 32 + c.toNat)]
  | .cmdIf f k c a v => [cmdHeader 4 2 f (k.toNat * 2 ^ 32 + c.num), a, v]
  | .cmdWait f c a v => [cmdHeader 5 2 f c.num, a, v]
  | .signal f add a v => [cmdHeader 6 2 f (b1 add), a, v]
  | .invxl f b s => [cmdHeader 7 2 f 0, b, s]
  | _ => []

/-- The length in words that a command's header gives (R191). -/
def cmdLen (hd : DWord) : Nat := hd.toNat / 2 ^ 51 % 32 + 1

/-- The command that words stand for (R191). An unassigned opcode, a length that the table does not give, and CMP codes 4 to 7 are CMD_ILLEGAL (R383), with the INFO of R371. -/
def decodeCommand (ws : List DWord) : Instr :=
  match ws with
  | [] => .cmdIllegal 0
  | hd :: rest =>
    let n := hd.toNat
    let op := n / 2 ^ 56
    let f := tb n 50
    let cmp := n % 8
    let bad := Instr.cmdIllegal (BitVec.ofNat 32 op)
    let badCmp := Instr.cmdIllegal (BitVec.ofNat 32 (op + 256))
    if op = 0 then .cmdNop f
    else match op, rest with
      | 1, [a] => .launch f a
      | 2, [a, c] => .launchIndirect f a c
      | 3, [] => .cmdLoop f (BitVec.ofNat 16 (n / 2 ^ 32)) (BitVec.ofNat 32 n)
      | 4, [a, v] => if cmp < 4 then .cmdIf f (BitVec.ofNat 16 (n / 2 ^ 32)) (CCmp.of cmp) a v else badCmp
      | 5, [a, v] => if cmp < 4 then .cmdWait f (CCmp.of cmp) a v else badCmp
      | 6, [a, v] => .signal f (tb n 0) a v
      | 7, [b, s] => .invxl f b s
      | _, _ => bad

/-! ## Clause headers and the host's entry point -/

/-- COUNT plus 1: the instruction words of a clause (R231). -/
def hdrCount (hd : Nat) : Nat := hd / 2 ^ 61 + 1
/-- The wait mask, bit k for flag fk (R231). -/
def hdrWait (hd : Nat) : Nat := hd / 2 ^ 49 % 4096
/-- AVALID and AFLAG (R231). -/
def hdrA (hd : Nat) : Option Nat := if tb hd 48 then some (hd / 2 ^ 44 % 16) else none
/-- BVALID and BFLAG (R231). -/
def hdrB (hd : Nat) : Option Nat := if tb hd 43 then some (hd / 2 ^ 39 % 16) else none
/-- LANDING (R231). -/
def hdrLanding (hd : Nat) : Bool := tb hd 38

/-- The lowest offending bit of a clause header (R391 stage 1, R396). -/
def headerErr (hd : Nat) : Option Nat :=
  let a := hd / 2 ^ 44 % 16
  let b := hd / 2 ^ 39 % 16
  if hd % 2 ^ 37 ≠ 0 then (List.range 37).find? fun k => tb hd k
  else if (if tb hd 43 then b ≥ 12 else b ≠ 0) then some 39
  else if (if tb hd 48 then a ≥ 12 else a ≠ 0) then some 44
  else none

/-- The instruction that the decoder reads from an instruction word numbered as the opcode table numbers it: the eight bytes of the word, the first at the lowest address (R5, R221), give the word itself. -/
def decodeTableWord (_nbits w : Nat) : Option Instr :=
  match decode (BitVec.ofNat 64 w) with
  | .ok i => some i
  | .error _ => none

/-- The encoder: the one word of an instruction word, the words of a command, nothing for any other step. -/
def encode (i : Instr) : List DWord :=
  match i.parts with
  | some _ => [i.word]
  | none => i.command

end Sys2Proof
end

