-- ==== Sys2Proof/Machine/Forms.lean ====
section
/-! DEFINITION. What each form of instruction word is: long-latency, closing, unguarded, last in its clause, forbidden in a transaction, its own rates (R32, R35, R150, R223, R232, R346). -/
namespace Sys2Proof

/-- Instructions without a guard: every lane of the split is active (R223, R322, R323). -/
def Instr.unguarded : Instr → Bool
  | .brc .. => true
  | .txb .. => true
  | .txe .. => true
  | _ => false

/-- The rates that an entry allows beyond those of the program kind (R346, R405). -/
def Instr.rateOk (draw : Bool) : Instr → Bool
  | .ipa h _ _ _ => h.rate == .coarse || (draw && h.rate == .fine)
  | .emitv h _ => h.rate == .cluster
  | .emitp h _ => h.rate == .cluster
  | .trace h _ _ _ _ _ => h.rate == .fine || h.rate == .coarse || h.rate == .ray
  | .rret h _ => h.rate == .ray
  | .mboxTry h _ _ _ => h.rate == .fine || h.rate == .coarse || h.rate == .ray
  | .mboxWait h _ _ _ => h.rate == .fine || h.rate == .coarse || h.rate == .ray
  | .outs h _ _ => h.rate == .coarse || (draw && h.rate == .fine)
  | .kill h => h.rate == .coarse || (draw && h.rate == .fine)
  | _ => true

/-- Long-latency instructions (R32). -/
def Instr.isLong : Instr → Bool
  | .ld .. => true | .st .. => true | .lds .. => true | .sts .. => true | .ldc .. => true
  | .atom .. => true | .atoms .. => true | .cas .. => true | .casx .. => true | .red .. => true
  | .cpy .. => true | .cpyp .. => true | .cpyc .. => true | .cpysig .. => true
  | .bst .. => true | .brd .. => true | .mma .. => true | .ard .. => true | .awr .. => true | .ast .. => true
  | .tex .. => true | .tld .. => true | .trace .. => true | .mboxTry .. => true | .lblrd .. => true
  | _ => false

/-- Closing instructions (R35). -/
def Instr.closes : Instr → Bool
  | .atom .. => true | .atoms .. => true | .cas .. => true | .casx .. => true | .red .. => true
  | .cpy .. => true | .cpyp .. => true | .cpyc .. => true | .cpysig .. => true
  | .spawn .. => true | .txe .. => true | .retry .. => true | .grel .. => true | .trace .. => true
  | .rret .. => true | .outs .. => true | .exit .. => true | .csrw .. => true
  | .mma _ _ _ clr _ _ _ => !clr
  | _ => false

/-- Instructions that R150 forbids inside a transaction: LDC is one of them, and EXIT, TRAP, BKPT, NOP and REGION are not. (DEDUCED: log 64) -/
def Instr.txForbidden : Instr → Bool
  | .ldc .. => true | .pref .. => true | .cinv .. => true | .red .. => true | .fence .. => true | .fencex .. => true
  | .cpy .. => true | .cpyp .. => true | .cpyc .. => true | .cpysig .. => true | .cseal .. => true | .ctest .. => true
  | .bar .. => true | .bara .. => true | .spawn .. => true | .spfl .. => true
  | .bclaim .. => true | .brel .. => true | .bst .. => true | .brd .. => true | .mma .. => true | .aclr .. => true
  | .ard .. => true | .awr .. => true | .ast .. => true
  | .hfree .. => true | .ipa .. => true | .emitv .. => true | .emitp .. => true | .tex .. => true | .tld .. => true
  | .trace .. => true | .rret .. => true | .mboxTry .. => true | .outs .. => true | .kill .. => true
  | .lblrd .. => true | .grel .. => true | .csrr .. => true | .csrw .. => true | .tret .. => true
  | _ => false

/-- Branches of group 0x0, RET and RETRY stand last in their clause; BRX, CALLX and RET alone (R232). -/
def Instr.lastOnly : Instr → Bool
  | .bra .. => true | .brc .. => true | .brx .. => true | .call .. => true | .callx .. => true | .ret .. => true
  | .retry .. => true
  | _ => false

def Instr.aloneOnly : Instr → Bool
  | .brx .. => true | .callx .. => true | .ret .. => true
  | _ => false

/-- Whether d is a destination of the instruction (for R52). -/
def Instr.writesD : Instr → Bool
  | .st .. => false | .sts .. => false | .red .. => false | .bst .. => false | .waitc .. => false | .ast .. => false
  | .cas _ v _ _ => v != .b32nr
  | _ => true

/-- Whether d is read: the data of stores and of atomics, the control word of AST, and the half that the byte form of PACK keeps (R293, R302, R306, R345). -/
def Instr.readsD : Instr → Bool
  | .atom .. => true | .atoms .. => true | .cas .. => true | .casx .. => true
  | .pack _ .e4m3 .. => true
  | .pack _ .e5m2 .. => true
  | i => !i.writesD

/-- The barrier scope and count operand of a barrier instruction. -/
def Instr.barrierUse : Instr → Option (BarScope × Option Opr)
  | .bar _ sc _ a => some (sc, some a)
  | .bara _ sc _ a => some (sc, some a)
  | .barw _ sc _ => some (sc, none)
  | _ => none

/-- The operand of a wait on a batch. -/
def Instr.batchUse : Instr → Option Opr
  | .cwait _ a => some a
  | .cwaitSt _ _ a => some a
  | _ => none

end Sys2Proof
end

