-- ==== Sys2Proof/Config.lean ====
section
/-! DEFINITION. What an implementation fixes and the manual does not write out: signing keys, the layout of the configuration record, and values that the manual leaves to it. No proof can see a value of an opaque constant. -/
namespace Sys2Proof.Config

/-- Clocks of the 1.1 GHz arithmetic clock in a microsecond (R4). -/
def clocksPerMicrosecond : Nat := 1100
/-- Clocks in a millisecond (R4). -/
def clocksPerMillisecond : Nat := 1100000
/-- Clocks in a second (R4). -/
def clocksPerSecond : Nat := 1100000000

/-- The public key against which the security processor's ROM verifies the configuration record (R13, R220). (DESIGN CHOICE: log 5) -/
opaque recordKey : List Byte

/-- What the body of a configuration record says: the package number, the serial number, the architecture level and the composition (R13). The manual gives the body no layout. (DESIGN CHOICE: log 21) -/
opaque recordOf (body : List Byte) : Nat × Nat × Nat × List Nat

/-- The XMSS signature of this package's identity key over a message (R188, R219). The serial is the package's. (DESIGN CHOICE: log 5) -/
opaque xmssSign (serial : Nat) (message : List Byte) : List Byte

/-- The package's identity, its public key (R219). (DESIGN CHOICE: log 5) -/
opaque identityKey (serial : Nat) : List Byte

/-- BOOTSTAT [15:8] after a failure of start steps 1 to 3 (R220, R445), by step and failing unit. (DEDUCED: log 22) -/
opaque bootStatUnit (step unit : Nat) : Byte

end Sys2Proof.Config
end

