-- ==== Sys2Proof/Machine/State.lean ====
section
/-! DEFINITION. The state of the module as plain data: every register, table, queue and record that the manual gives it, and what a step can end in. -/
namespace Sys2Proof.Machine

/-- A finite map from numbers, as a list of pairs with rising keys. A map with a default lists no pair whose value is the default. -/
abbrev Map (α : Type) := List (Nat × α)

/-- A place in memory (R82, R84, R98): device memory of this module, another package's memory, host memory, or a byte of a core's scratchpad (physical offset). -/
inductive Loc | dev (pa : Nat) | pkg (p pa : Nat) | host (pa : Nat) | scr (core off : Nat)
  deriving DecidableEq, Repr

/-- A 128-B line of global memory or a 128-B row of a scratchpad (R148), or a word that a fixed transaction reads: a barrier's phase, a batch's state, a mailbox slot's state (R161). `away` is a row of a scratchpad range that a spilling or a pre-emption has saved (R160). -/
inductive LineKey
  | dev (l : Nat) | pkg (p l : Nat) | host (l : Nat) | scr (core l : Nat)
  | phase (bar : Nat) | batch (wave num : Nat) | mbox (wave lane slot : Nat)
  | away (ofCluster : Bool) (owner row : Nat)
  deriving DecidableEq, Repr

/-- What a sleeper waits on, and the broad waiters' lists (R158, R421). -/
inductive WakeKey
  | line (l : LineKey) | slice (die slice : Nat) | bankCore (core : Nat) | barUnit (scope unit : Nat) | engine (core : Nat)
  | die (d : Nat)
  deriving DecidableEq, Repr

/-- One registration in a wake table (R158). -/
structure Registration where
  key : WakeKey
  wave : Nat
  split : Nat
  deriving DecidableEq, Repr

/-- A clause header address and an instruction index (R20). -/
structure Pos where
  hdr : DWord
  idx : Nat
  deriving DecidableEq, Repr

/-- The innermost reconvergence record of a split (R20): a join record 0 to 2, or a serialisation entry 0 to 15. -/
inductive Nest | none | join (k : Nat) | ser (k : Nat)
  deriving DecidableEq, Repr

/-- A join record (R21). -/
structure JoinRec where
  mask : Mask
  rcv : DWord
  savedRcv : Option DWord
  savedNest : Nest
  savedCtx : Label
  deriving DecidableEq, Repr

/-- A serialisation entry (R21). A `forever` entry has no reconvergence address: it is the one that RET pushes when its split's own rcv is none (R260). `lanes` holds every lane that took part in the branch, those that have exited since too, whose earlier accesses R116 orders. -/
structure SerEntry where
  mask : Mask
  rcv : Option DWord
  savedRcv : Option DWord
  savedNest : Nest
  savedCtx : Label
  pending : Mask
  resume : DWord
  lanes : Mask
  deriving DecidableEq, Repr

/-- State of a split (R20). `waiting` waits on the flags that `waits` names; `parked` is parked by a stop, or by table walks while `walks` names pages (R100). -/
inductive SplitState | ready | waiting | atJoin | sleeping | parked
  deriving DecidableEq, Repr

/-- Why a split sleeps: RETRY (R154) or a fixed transaction (R161). -/
inductive SleepKind | retry | fixed
  deriving DecidableEq, Repr

/-- A claim of bench slots with its reservation record (R335). -/
structure Claim where
  first : Nat
  count : Nat
  format : Nat
  roleB : Bool
  blk : Nat
  scoff : Nat
  ssoff : Nat
  deriving DecidableEq, Repr

/-- A wave's bench slots (R333, R335, R340): claims, bytes by bench byte offset, slot labels. -/
structure Bench where
  claims : List Claim
  bytes : Map Byte
  labels : Map Label
  deriving DecidableEq, Repr

/-- State of a mailbox slot (R79). -/
inductive MboxState | free | pending | full
  deriving DecidableEq, Repr

/-- A mailbox slot (R79): its state, four words and their labels. -/
structure Mbox where
  st : MboxState
  words : List Word
  labels : List Label
  deriving DecidableEq, Repr

/-- What a CLUSTER lane has emitted (R349, R350). -/
structure Emit where
  verts : Nat
  tris : List Word
  deriving DecidableEq, Repr

/-- A sealed batch (R319): its number and its copies. -/
structure Batch where
  num : Nat
  copies : List Nat
  deriving DecidableEq, Repr

/-- Wave state that a region changed and that R37 restores when it discards the region (R339, R350, R354, R449). -/
inductive Undo
  | bench (drop add : List Claim) (bytes : List (Nat × Byte)) (labels : List (Nat × Label))
  | emit (lane : Nat) (old : Emit)
  | mbox (key : Nat) (old : Mbox)
  | kill (old : Mask)
  | seal (num : Nat)
  deriving DecidableEq, Repr

/-- A region as it stood when a split issued an instruction in it: its entry, its number and what it had changed (R35, R37, R408). -/
structure RegionMark where
  entry : Pos
  serial : Nat
  undo : List Undo
  deriving DecidableEq, Repr

/-- An entry of the split table (R20). `reseal` holds the batches whose CSEALs a discard has undone, for the replayed CSEALs (R449); `restarts` says that the release of a parked split is a restart at ORIGIN (R154). `begun` says that the clause's wait mask has passed (R31); `serial` numbers the split's regions; `arrived` that a BAR in progress has arrived (R326). -/
structure Split where
  pc : Pos
  begun : Bool
  mask : Mask
  rcv : Option DWord
  nest : Nest
  ctx : Label
  region : Pos
  state : SplitState
  sleep : SleepKind
  arrived : Bool
  serial : Nat
  undo : List Undo
  walks : List DWord
  waits : Nat
  readySince : Nat
  reseal : List Batch
  restarts : Bool
  deriving DecidableEq, Repr

/-- Data destination of a load or atomic (R296, R306, R308): operand code of its first register, registers, lanes. -/
structure Dst where
  code : Nat
  regs : Nat
  signExt : Bool
  act : Mask
  deriving DecidableEq, Repr

/-- What a pending entry does when its lane accesses perform (R112). -/
inductive EntKind
  | load | store | writeThrough | atomAcc (v : AtomV) | cas (nr : Bool) | red (v : RedV)
  | fence | spawnAdd | exitSub
  deriving DecidableEq, Repr

/-- A spawn record (R163), with the launch and partition of its spawner, its place in the order of its core's SPAWNs (R164), and its place in an overflow region (R171). -/
structure SpawnRec where
  slot : Nat
  order : Nat
  launch : Nat
  part : Nat
  entry : Nat
  depth : Nat
  label : Label
  pay : List Word
  joinAddr : DWord
  deriving DecidableEq, Repr

/-- What a leaf says of an access besides its place: cacheability, key id, and the level that gives its page's size (R93, R95, R97, R98). -/
structure PageAttr where
  cache : Nat
  keyId : Nat
  level : Nat
  deriving DecidableEq, Repr

/-- One lane access of a pending entry (R110): its place, bytes, operand bytes, expected bytes, the labels that R177 checks, its page, how far it has gone, and the register words that its completion event writes (R34). -/
structure Access where
  lane : Nat
  loc : Loc
  va : DWord
  bytes : Nat
  data : List Byte
  exp : List Byte
  label : Label
  page : PageAttr
  queued : Bool
  done : Bool
  res : List Word
  deriving DecidableEq, Repr

/-- An entry of a wave's pending queue (R112). `grp` holds the lanes of the issuing split and of every split since fused with it (R116); `k`, `pos`, `rate` and `region` name the issuing split, the instruction and its region, and `alabel` is the label of its address operands, for a fault at performance (R377, R417). -/
structure Entry where
  id : Nat
  grp : Mask
  k : Nat
  pos : Pos
  rate : Nat
  region : RegionMark
  kind : EntKind
  order : Order
  scope : Scope
  hint : Hint
  dst : Option Dst
  label : Label
  alabel : Label
  accs : List Access
  recs : List SpawnRec
  tx : Nat
  dead : Bool
  deriving DecidableEq, Repr

/-- One register word that a long-latency instruction writes at its completion event (R32). -/
structure RegWrite where
  code : Nat
  lane : Nat
  val : Word
  label : Label
  deriving DecidableEq, Repr

/-- A lane's request to the texture engine (R351). -/
structure TexLane where
  lane : Nat
  texRec : DWord
  u : Word
  v : Word
  lod : Word
  deriving DecidableEq, Repr

/-- An operation of the texture engine (R122, R351): its lanes, the number under which COPY_READ names its reads, and the reads that it has taken, by lane × 64 + read; a read that gives no data is none. -/
structure TexReq where
  tld : Bool
  filter : TexV
  d : Nat
  lanes : List TexLane
  label : Label
  after : Nat
  stall : Option DWord
  num : Nat
  got : Map (Option (List Byte))
  deriving DecidableEq, Repr

/-- A matrix-group instruction that the matrix unit has not yet performed (R332). -/
inductive MatrixOp
  | bst (words : List (Nat × Word)) (label : Label)
  | brd (d : Nat) (offs : List (Nat × Nat)) (label : Label)
  | mma (sat neg clr : Bool) (t a b : Nat) (label : Label)
  | ard (bf : Bool) (t g : Nat) (rm : Rm) (sat : Bool) (d : Nat) (label : Label)
  | awr (bf : Bool) (t g : Nat) (rows : List (Nat × List Word)) (label : Label)
  deriving DecidableEq, Repr

/-- What the completion event of a long-latency instruction does (R32). -/
inductive LongWhat
  | access (entry : Nat)
  | rows (entries : List Nat)
  | regs (ws : List RegWrite)
  | const (d bytes : Nat) (lanes : List (Nat × Loc × PageAttr × DWord)) (label alabel : Label) (pos : Pos)
  | tex (r : TexReq)
  | ray (n : Nat)
  | matrix (m : MatrixOp)
  deriving DecidableEq, Repr

/-- A long-latency instruction issued and not complete (R32). -/
structure LongOp where
  id : Nat
  flag : Nat
  split : Nat
  serial : Nat
  closing : Bool
  act : Mask
  uniform : Bool
  what : LongWhat
  dead : Bool
  deriving DecidableEq, Repr

/-- An entry of a transaction's read set (R148): level, live or kept, whether another agent has written the line since it was read, and whether one within SCOPE has (R153). `va` is the address that read it and `alabel` the label of its operands, for a POISON at validation (R377, R417). -/
structure TxRead where
  line : LineKey
  va : DWord
  alabel : Label
  level : Nat
  live : Bool
  written : Bool
  conflict : Bool
  deriving DecidableEq, Repr

/-- A buffered byte of a transaction's write set (R148), with the labels that its commit checks (R432), those of its address operands (R377) and the cache hint of its store (R93). -/
structure TxByte where
  loc : Loc
  page : PageAttr
  va : DWord
  level : Nat
  val : Byte
  label : Label
  alabel : Label
  hint : Hint
  deriving DecidableEq, Repr

/-- A wave's transaction state (R148), with what the transaction split held at the outermost TXB. -/
structure Tx where
  depth : Nat
  scope : TxScope
  owner : Nat
  origin : Pos
  alts : List (Option DWord)
  reads : List TxRead
  writes : List TxByte
  aborts : Nat
  serial : Bool
  wantToken : Bool
  mask0 : Mask
  rcv0 : Option DWord
  nest0 : Nest
  ctx0 : Label
  sers0 : Map SerEntry
  deriving DecidableEq, Repr

/-- A fault record's fields (R373), before it is written. -/
structure Record where
  seq : Nat
  addr : DWord
  pc : DWord
  region : DWord
  info : Word
  mask : Mask
  smask : Mask
  launch : Nat
  lblock : Word
  pquad : Nat
  lquad : Nat
  code : Nat
  trapped : Bool
  term : Bool
  waiting : Bool
  rate : Nat
  handle : Word
  addrLabel : Label
  labels : Label
  wave : Option Nat
  split : Nat
  deriving DecidableEq, Repr

/-- How a stopped split leaves its stop (R381, R390). -/
inductive ResolveMode | replay | next | finish | step | stepWave
  deriving DecidableEq, Repr

/-- How a wave stands stopped (R378): the record's code, whether it waits to be written, whether the stop keeps pc (TRAP, BREAK, step), the copies that a replay re-runs (R416), and a resolution that arrived while the wave was saved (R385). -/
structure Stop where
  code : Nat
  split : Nat
  atPc : Bool
  written : Bool
  rerun : List Nat
  deferred : Option ResolveMode
  deriving DecidableEq, Repr

/-- A fault that an issued access of a stopped wave has met (R372): it waits for the wave's release, for a wave has at most one fault outstanding. -/
structure LateFault where
  split : Nat
  pos : Pos
  rate : Nat
  region : Option RegionMark
  code : Nat
  addr : DWord
  mask : Mask
  addrLabel : Label
  labels : Label
  deriving DecidableEq, Repr

/-- What a wave runs (R28, R45, R380). -/
inductive Role | lane | block | launch | frame | object | cluster | vertex | coarse | sample | task | rayHit | trap
  deriving DecidableEq, Repr

/-- Where a wave is (R160, R385): `saving` is a wave that a pre-emption has parked and whose issued work is still completing. -/
inductive Residence | resident | spilled | saving | saved | ended
  deriving DecidableEq, Repr

/-- A wave (R20 to R26, R28 to R31, R148, R387). -/
structure Wave where
  id : Nat
  launch : Nat
  part : Nat
  role : Role
  rate : Rate
  entry : Nat
  quad : Nat
  slot : Nat
  lquad : Nat
  age : Nat
  place : Residence
  cluster : Option Nat
  block : Nat
  lblock : Word
  wnum : Nat
  depth : Nat
  lanes : Mask
  exited : Mask
  splits : Map Split
  joins : Map JoinRec
  sers : Map SerEntry
  gens : Map Nat
  flags : Map Nat
  long : List LongOp
  vregs : Map Word
  sregs : Map Word
  preds : Map Mask
  labels : Map Label
  pending : List Entry
  nextEntry : Nat
  fenced : Nat
  opened : List Nat
  batches : List Batch
  batchNext : Nat
  tx : Tx
  mbox : Map Mbox
  bench : Bench
  emit : Map Emit
  killed : Mask
  elems : Map Nat
  joinAddrs : Map DWord
  barLast : Map Nat
  barHere : List Nat
  podSent : List Nat
  stop : Option Stop
  late : List LateFault
  step : Nat
  trapRec : Option Record
  pendingWake : List Nat
  scrBase : Nat
  scrSize : Nat
  placedAt : Nat
  cycles : Nat
  deriving DecidableEq, Repr

/-- An entry point of a code object (R242). `held n` is the pair of producing and last-consumer rates of hN. -/
structure EntryPt where
  codeOff : Nat
  kind : Nat
  vregs : Nat
  scalars : Nat
  scratch : Nat
  bench : Nat
  exitScope : Nat
  held : List (Nat × Nat × Nat)
  deriving DecidableEq, Repr

/-- A code object that a loader has submitted (R240, R246): its base, its identity and its entry table. -/
structure CodeObj where
  part : Nat
  base : DWord
  magic : Nat
  version : Nat
  feature : BitVec 128
  identity : List Byte
  draw : Bool
  hasRay : Bool
  entries : List EntryPt
  deriving DecidableEq, Repr

/-- A placed cluster (R85, R202): the scratchpad range of each core position, as (core, physical granules). -/
structure Cluster where
  id : Nat
  launch : Nat
  die : Nat
  lci : Nat
  lquad : Nat
  pquad : Nat
  ranges : List (Nat × Nat × Nat)
  retired : Bool
  deriving DecidableEq, Repr

/-- A draw-list entry (R195). -/
structure ObjEntry where
  user : DWord
  isOpaque : Bool
  die : Nat
  clusters : Nat
  deriving DecidableEq, Repr

/-- A candidate of the reprojection map (R69): target pixel, named triangle, depth. -/
structure Cand where
  x : Nat
  y : Nat
  obj : Nat
  clu : Nat
  tri : Nat
  depth : Word
  confirmed : Bool
  deriving DecidableEq, Repr

/-- The draw record of a launch (R62, R195), with the draw list and what the fixed-function units keep for it. -/
structure Draw where
  width : Nat
  height : Nat
  samples : Nat
  cull : Nat
  depthCmp : Nat
  reproj : Bool
  tol : Word
  visPrev : DWord
  visCur : DWord
  depthT : DWord
  targets : List DWord
  objs : List ObjEntry
  cands : List Cand
  depth0 : Map Word
  deriving DecidableEq, Repr

inductive LaunchState | waitWays | running | ended
  deriving DecidableEq, Repr

/-- A launch (R192 to R196, R206). -/
structure Launch where
  id : Nat
  part : Nat
  queue : Nat
  addr : DWord
  state : LaunchState
  terminated : Bool
  code : DWord
  codeObj : Nat
  entry : Nat
  trapEntry : Nat
  draw : Option Draw
  determ : Bool
  gx : Nat
  gy : Nat
  gz : Nat
  cx : Nat
  cy : Nat
  cz : Nat
  blockLanes : Nat
  heldWays : Nat
  ways : Nat
  constBase : DWord
  constSize : Nat
  spawnBase : DWord
  spawnSize : Nat
  spillBase : DWord
  spillSize : Nat
  parcels : DWord
  parcelCnt : Nat
  placeMap : Nat
  start : Nat
  lists : Map (List Nat)
  assigned : Map Nat
  dieReady : List Nat
  rayQuiet : Bool
  epoch : Nat
  epochBase : Nat
  detLost : List Nat
  holdSince : Map Nat
  deadSince : Map Nat
  deriving DecidableEq, Repr

/-- A vertex as rasterization sees it (R63). -/
structure VertOut where
  nx : Word
  ny : Word
  nz : Word
  c : Word
  x : Int
  y : Int
  usable : Bool
  label : Label
  deriving DecidableEq, Repr

/-- A ray that hit and is gathered to run hit code (R78): its lane's starting registers, label and origin mailbox, and whether the step bound ended it. -/
structure HitStart where
  regs : List Word
  label : Label
  entry : Nat
  wave : Nat
  lane : Nat
  slot : Nat
  obj : Nat
  clu : Nat
  die : Nat
  bound : Bool
  delivered : Bool
  deriving DecidableEq, Repr

inductive ElemState | waiting | gathering | running | exited | returned
  deriving DecidableEq, Repr

/-- An element with its held record (R44, R54, R56): header fields, the runs of units of its header and sections (`locs`), section values, liveness counts by rate code, the rates for which it has told its parents that it is done (`told`), and what the fixed-function units gave it. `cover` holds the samples that the triangle covers, as pixel and sample, `skip` those of them that R70 culls, `exitCtx` the context label of the split that executed the lane's EXIT (R67), `outCtx` the context labels with which it issued OUTS (R72). -/
structure Elem where
  id : Nat
  launch : Nat
  die : Nat
  rate : Rate
  parent : Option Nat
  interp : List Nat
  index : Nat
  state : ElemState
  ctx0 : Label
  blabel : Label
  bbits : DWord
  rayref : Nat
  counts : Map Nat
  present : List Nat
  released : List Nat
  hfreed : List Nat
  locs : List (Nat × Nat)
  told : List Nat
  spill : Bool
  vals : Map Word
  vlabels : Map Label
  start : List Word
  vert : Option VertOut
  lam : List Word
  z : Word
  tri : Nat
  px : Nat
  py : Nat
  sample : Nat
  cover : List (Nat × Nat × Nat)
  skip : List (Nat × Nat × Nat)
  emit : Emit
  exitCtx : Label
  hit : Option HitStart
  outs : Map (List Word)
  outLabels : Map Label
  outCtx : Label
  killed : Bool
  wave : Option (Nat × Nat)
  deriving DecidableEq, Repr

/-- A TRACE that holds because its RAY records have no room: its wave, split and position, the die and launch, its place in the die's creation order, and the units that it waits for (R55, R365). -/
structure TraceHold where
  launch : Nat
  die : Nat
  wave : Nat
  split : Nat
  pos : Pos
  order : Nat
  units : Nat
  deriving DecidableEq, Repr

/-- The scratchpad range of a cluster or wave, saved on pre-emption or spilling (R160, R386): its owner, its core's position in the logical quad, its granules, bytes and labels by offset in the range. -/
structure SavedScr where
  cluster : Bool
  owner : Nat
  pos : Nat
  first : Nat
  count : Nat
  bytes : Map Byte
  labels : Map Label
  deriving DecidableEq, Repr

/-- An open gather of a die, keyed by launch, rate, context label and hit entry (R45). -/
structure Gather where
  die : Nat
  launch : Nat
  rate : Rate
  label : Label
  hitEntry : Nat
  elems : List Nat
  last : Nat
  isSealed : Bool
  deriving DecidableEq, Repr

/-- A gather slot of a core (R168). -/
structure GatherSlot where
  launch : Nat
  part : Nat
  entry : Nat
  label : Label
  depth : Nat
  recs : List SpawnRec
  last : Nat
  isSealed : Bool
  order : Nat
  deriving DecidableEq, Repr

/-- An entry of a traversal stack (R75, R77): the reference and the near value, as an f32 pattern with -infinity allowed. -/
structure StackEnt where
  ref : Nat
  near : Word
  deriving DecidableEq, Repr

/-- How a traversal ended: by its stack or FIRSTHIT, by the step bound, or as malformed (R77, R428). -/
inductive RayOver | done | bound | malformed
  deriving DecidableEq, Repr

/-- A ray in flight (R75). `root` is the base and size of parcel 0; `sub` holds the linked parcel being traversed and its own stack, `subAt` its base, size and home die (R77); `outer` holds the linked traversals of parcel 0 that wait for one that they link to, innermost first. `num` is the number under which COPY_READ names its reads, `got` the 16-B reads of the visit that it makes, by index (R122). -/
structure Ray where
  id : Nat
  launch : Nat
  part : Nat
  elem : Nat
  die : Nat
  wave : Nat
  lane : Nat
  slot : Nat
  org : List Word
  dir : List Word
  tmin : Word
  tmax : Word
  tmax0 : Word
  label : Label
  hitEntry : Nat
  cullback : Bool
  first : Bool
  backface : Bool
  visits : Nat
  hit : Bool
  hitTri : Nat
  hitClu : Nat
  hitObj : Nat
  hitDie : Nat
  hitU : Word
  hitV : Word
  stack : List StackEnt
  root : Option (Nat × Nat)
  sub : Option (Nat × List StackEnt)
  subAt : Option (Nat × Nat × Nat)
  outer : List ((Nat × List StackEnt) × Option (Nat × Nat × Nat))
  num : Nat
  got : Map (List Byte)
  overBy : Option RayOver
  accepted : Bool
  after : Nat
  stall : Option DWord
  deriving DecidableEq, Repr

/-- Where a copy takes or puts bytes (R315 to R318); `bad` is a scratchpad address outside the wave's range, a copy fault (R414). -/
inductive CopyRef | glob (va : DWord) | scr (core off : Nat) | bench (off : Nat) | fill (v : Nat) | bad (code addr : Nat)
  deriving DecidableEq, Repr

/-- A run of bits of a copy unit and where they come from; `bit` is the bit offset within the byte at the source. -/
structure Piece where
  dstBit : Nat
  bits : Nat
  src : CopyRef
  bit : Nat
  val : Option Nat
  deriving DecidableEq, Repr

/-- A 16-B destination unit of a copy (R119). -/
structure CopyUnit where
  dst : CopyRef
  chunk : Nat
  pieces : List Piece
  label : Label
  done : Bool
  deriving DecidableEq, Repr

/-- What a copy was asked to do, by its instruction's operands (R315 to R318, R182). -/
inductive CopyPlan
  | raw (dst src : CopyRef) (len : Nat)
  | box (bench : Bool) (plat : DWord) (org : List Int) (first : Nat) (claim : Option Claim)
  | conv (plat : DWord) (org : List Int) (slot : Nat) (claim : Option Claim)
  | sig (dst src sigAddr : DWord) (len : Nat) (operand : Word) (set : Bool)
  | gate (src : CopyRef) (len win off : Nat) (want : Label)
  deriving DecidableEq, Repr

/-- A copy, or a GREL, in its core's copy path (R119, R313, R414). `label` holds the labels of its operands, `alabel` those of the address operands among them. `plat` holds the 16-B parts of its plat record, or of a GREL's source, that have been read, and `platLabel` their labels. -/
structure Copy where
  id : Nat
  wave : Nat
  part : Nat
  launch : Nat
  core : Nat
  centry : Nat
  seq : Nat
  plan : CopyPlan
  planned : Bool
  units : List CopyUnit
  chunks : Nat
  bits : Nat
  after : Nat
  label : Label
  alabel : Label
  ctx : Label
  plat : Map (List Byte)
  platLabel : Label
  faults : List (Nat × Nat × DWord)
  refusal : Nat
  sigDone : Bool
  done : Bool
  deriving DecidableEq, Repr

/-- An installed release policy (R185), with SPENT and the start of its period. -/
structure Policy where
  codeId : List Byte
  windows : List Window
  budget : Nat
  period : Nat
  lmask : Label
  serial : Nat
  nwin : Nat
  spent : Nat
  installed : Nat
  periodNo : Nat
  deriving DecidableEq, Repr

/-- The GREL that the gate unit has accepted (R183, R184, R433): its copy, the policy installed for its label then, the policy under which it was debited with package time at the debit, and the bytes written to its window. -/
structure GateWork where
  copy : Nat
  policy : Option Policy
  debit : Option (Policy × Nat)
  written : Nat
  deriving DecidableEq, Repr

/-- A barrier (R326): its scope, the unit that holds it, its group and number (R325), phase, arrivals, latched count, and whether that was latched from a = 0. -/
structure Barrier where
  id : Nat
  scope : BarScope
  unit : Nat
  group : Nat
  sub : Nat
  k : Nat
  phase : Word
  arrived : Nat
  count : Nat
  fromZero : Bool
  deriving DecidableEq, Repr

/-- A line held by a core's L1 in one of its 16 ways (R89, R105); a constant line names the launch that filled it (R88). Lines stand in the order of their last fill. -/
structure L1Line where
  core : Nat
  line : Nat
  way : Nat
  data : List Byte
  constant : Option Nat
  deriving DecidableEq, Repr

/-- An entry of a core's or a die's TLB (R99). -/
structure TlbEntry where
  onDie : Bool
  unit : Nat
  part : Nat
  level : Nat
  page : Nat
  leaf : DWord
  deriving DecidableEq, Repr

/-- An exact accumulator (R146). -/
structure Exact where
  acc : Int
  nan : Bool
  pinf : Bool
  ninf : Bool
  deriving DecidableEq, Repr

/-- A shadow extension of a line (R145) or its exact shadows (R146), one per element of the recorded format. -/
inductive Shadow | std (fmt : RedV) (vals : List Word) | exact (fmt : RedV) (vals : List Exact)
  deriving DecidableEq, Repr

/-- Where an L2 line stands for replacement (R93). -/
inductive L2Rank | evictFirst | normal | evictLast
  deriving DecidableEq, Repr

/-- The tag of a line that its home slice's L2 holds: its way and its LSI (R89, R93, R96). Its key id is that of its `LineBand`. Lines stand in the order of their last use. -/
structure L2Line where
  line : Nat
  way : Nat
  rank : L2Rank
  lsi : Nat
  deriving DecidableEq, Repr

/-- The tag of a line that a die's remote-data cache holds: a device line of another die or a host line, its way, key id and LSI (R89, R94 to R96). Lines stand in the order of their last fill. -/
structure RdcLine where
  die : Nat
  host : Bool
  line : Nat
  way : Nat
  keyId : Nat
  lsi : Nat
  deriving DecidableEq, Repr

/-- Side band of a line (R96), the presence vector of its home slice (R92), the key id under which its bytes stand (R95), and the deterministic launches for which it has lost determinism in their epochs (R442). -/
structure LineBand where
  presence : Byte
  shadow : Option Shadow
  shidx : Nat
  used : Nat
  keyId : Nat
  epochTag : Nat
  wcnt : Nat
  lastw : Word
  launch : Nat
  lost : List Nat
  deriving DecidableEq, Repr

/-- A lane access standing in a home queue, on a fabric path or on the host path (R105, R117, R126). -/
structure QueueEnt where
  wave : Nat
  entry : Nat
  lane : Nat
  clock : Nat
  deriving DecidableEq, Repr

/-- A write that a home slice has applied in the clock in which it reached it, with its writer's key (R117). -/
structure Reached where
  clock : Nat
  loc : Loc
  bytes : Nat
  key : Nat
  deriving DecidableEq, Repr

/-- A flush marker (R126, R439): the wave, the id below which its accesses stand before the marker, package and plane, and the clock at which it was sent. -/
structure Marker where
  wave : Nat
  bound : Nat
  pkg : Nat
  plane : Nat
  gathered : Bool
  sent : Nat
  deriving DecidableEq, Repr

/-- Loop in progress in a command queue (R191). -/
structure LoopFrame where
  start : Nat
  stop : Nat
  left : Nat
  deriving DecidableEq, Repr

/-- Why a queue waits (R191, R192, R208): on a word, by a registration of its line in a wake table. -/
inductive QueueWait | none | word (key : WakeKey) (woken : Bool) | invxl | ways (launch : Nat) | stopped
  deriving DecidableEq, Repr

/-- A command queue (R190); queue 8 is the queue of network launches (R197), whose waiting launch records stand in `net`. -/
structure Queue where
  ringBase : DWord
  ringSize : DWord
  head : Nat
  tailIdx : Nat
  weight : Nat
  wait : QueueWait
  loops : List LoopFrame
  deficit : Map Int
  net : List (List Byte)
  deriving DecidableEq, Repr

inductive PartState | running | draining | suspended | disabled
  deriving DecidableEq, Repr

/-- A partition's registers and queues (R208 to R211, R375). `preempt` says that its waves are being saved (R212, R385): nothing of it is placed. `wipe` says that a disabled partition's storage has still to be zeroed (R437). -/
structure Partition where
  vfEnabled : Bool
  state : PartState
  xlroot : DWord
  lattol : Word
  drainlim : Word
  boundMask : Label
  ctxBase : DWord
  faultq : DWord
  fqprod : Word
  fqcons : Word
  wdlim : Word
  qmap : Map Word
  l1ways : BitVec 16
  l2ways : BitVec 16
  bankown : Map DWord
  queues : Map Queue
  records : List Record
  trapQueue : List Record
  recSeq : Nat
  invals : List (Nat × DWord × DWord)
  drainSince : Nat
  preempt : Bool
  wipe : Bool
  deriving DecidableEq, Repr

/-- State of the CXL link (R440, R441, R445): up; up after a start that failed in step 4, 5 or 6, with CXL.io to the physical function alone; down; failed. -/
inductive Link | up | ioOnly | down (since : Nat) | failed
  deriving DecidableEq, Repr

/-- A message that leaves the module: what CXL.mem reads, the command channel, MSI-X, links and pins answer, and the staged image of a code object (R246). -/
inductive Reply
  | cxlData (vf pa : Nat) (data : List Byte) | cxlPoison (vf pa : Nat)
  | msix (part vector : Nat)
  | time (ns : Nat)
  | logSig (sig chain : List Byte) (seq : Option Nat)
  | quote (body sig : List Byte)
  | policyStatus (ok : Bool)
  | loadStatus (ok : Bool) (record : Option (Nat × Nat))
  | image (part : Nat) (base : DWord) (sections : List (Nat × Nat × List Byte))
  | hostWrite (pa : Nat) (data : List Byte)
  | message (port queue : Nat) (data : List Byte)
  | fabric (pkg plane : Nat) (label : Label) (data : List Byte) | fabricPoison (pkg plane : Nat)
  | announce (plane : Nat)
  | faultPin
  deriving DecidableEq, Repr

/-- Storage with an uncorrectable error (R444). A label field of a register, slot, tile or granule stands beside the data that it labels; a buffered line of a transaction, an entry of a wake table, a split table or context buffer of a wave, and a spawn record of a core are struck when they are next read. -/
inductive SoftMark
  | reg (wave code : Nat) | mbox (wave key : Nat) | slot (wave slot : Nat) | tile (quad t : Nat) | granule (core g : Nat)
  | regLabel (wave code : Nat) | slotLabel (wave slot : Nat) | tileLabel (quad t : Nat) | granuleLabel (core g : Nat)
  | txLine (wave : Nat) (line : LineKey) | wakeEntry (key : WakeKey) (wave split : Nat) | wave (id : Nat) | spawnRec (core order : Nat)
  deriving DecidableEq, Repr

/-- A part in a power state (R217): the state, the quadrant, core or die, and the clock of its entry. -/
structure PowerEnt where
  st : Power
  unit : Nat
  since : Nat
  deriving DecidableEq, Repr

/-- What the issuing step hands an instruction: the issuing split, the clause header and the index of the word. -/
structure Cursor where
  wave : Nat
  split : Nat
  hdrAddr : DWord
  hdr : DWord
  idx : Nat
  deriving DecidableEq, Repr

/-- A write of a unit of the module that waits at its home: for a serial-mode transaction's lock, for the host path, or for an earlier one of its line (R157, R440). -/
structure UnitWrite where
  part : Nat
  die : Nat
  loc : Loc
  page : PageAttr
  bytes : List Byte
  deriving DecidableEq, Repr

/-- Which agent moves next, time passing, and errors that strike storage (R417, R444). The agenda is the model's own: it stands for the choices that R104 leaves to the machine and for what the outside world does. -/
inductive Act
  | issue (wave split : Nat)
  | heads
  | command (part queue : Nat)
  | event (i : Instr)
  | tick (clocks ns : Nat)
  | poison (line : Nat)
  | soft (m : SoftMark)
  deriving DecidableEq, Repr

/-- The module. -/
structure State where
  -- the model's own
  agenda : List Act
  cur : Cursor
  curQueue : Nat × Nat
  replies : List Reply
  issued : Nat
  -- clocks and identity (R4, R13, R187, R360)
  clock : Nat
  pkgTime : Nat
  pkgNum : Nat
  serialNum : Nat
  archLevel : Nat
  composition : List Nat
  -- storage (R82, R89 to R99, R102, R174, R417, R444)
  mem : List Host.Cell
  host : List Host.Cell
  pod : List Host.Cell
  podLabels : Map Label
  scratch : List Host.Cell
  scrLabels : Map Label
  poisoned : List Nat
  soft : List SoftMark
  labelSets : Map Label
  l1 : List L1Line
  l2 : List L2Line
  rdc : List RdcLine
  hbmKeys : Map (List Byte)
  linkKeys : Map (List Byte)
  access : List AccessRow
  bands : Map LineBand
  tlb : List TlbEntry
  tiles : Map Word
  tileLabels : Map Label
  tileOwner : Map Nat
  savedTiles : Map (List (Nat × Word) × List (Nat × Label))
  savedScr : List SavedScr
  -- waves and what they make (R20 to R61, R75, R148, R158, R163, R326)
  waves : Map Wave
  nextWave : Nat
  clusters : Map Cluster
  nextCluster : Nat
  elems : Map Elem
  nextElem : Nat
  gathers : List Gather
  traceHolds : List TraceHold
  rays : Map Ray
  nextRay : Nat
  regs : List Registration
  homeQ : Map (List QueueEnt)
  fabricQ : List (Nat × Nat × QueueEnt)
  reached : List Reached
  markers : List Marker
  barriers : Map Barrier
  nextBar : Nat
  token : Option Nat
  tokenQ : List Nat
  txLocks : List (Nat × LineKey)
  unitWrites : List UnitWrite
  -- copies and the gate (R119, R182 to R189)
  copies : Map Copy
  nextCopy : Nat
  copySeq : Map Nat
  gateQ : List Nat
  gate : Option GateWork
  policies : List Policy
  logSeq : Nat
  logAck : Nat
  chain : List Byte
  principals : Map (List Byte)
  windows : Map Window
  -- spawn (R163 to R173)
  spawnQ : Map (List SpawnRec)
  gatherSlots : Map GatherSlot
  overflow : Map (List (Nat × SpawnRec))
  sealCount : Nat
  -- launches and partitions (R190 to R213)
  objects : Map CodeObj
  launches : Map Launch
  nextLaunch : Nat
  parts : Map Partition
  tenants : Map Tenant
  netTimes : Map (List Nat)
  bankRR : Map Nat
  -- pod, host link, power, boot (R126, R215 to R220, R439 to R445)
  domain : List Nat
  peerM : Map (List Byte)
  barred : List Nat
  cut : List (Nat × Nat × Nat)
  measured : List Byte
  configDigest : List Byte
  retired : List Nat
  flitFails : Map Nat
  rxSeq : Map Nat
  link : Link
  hostPending : List (Nat × Nat × Nat × Nat)
  msixHeld : List (Nat × Nat)
  power : List PowerEnt
  lastOutside : Nat
  withhold : Nat
  bootStep : Nat
  bootStat : Word
  capFeature : BitVec 128
  featureSet : Bool
  deriving DecidableEq, Repr

/-- Why the machine stops. Each is safe: the manual's machine goes nowhere from there either, or the state is one that no run reaches. -/
inductive Fault where
  /-- Raised by the meaning of an instruction word when the cursor names no live split of a resident wave that is not stopped. Safe: the issuing step never calls a meaning so. -/
  | noIssuer
  /-- Raised by the meaning of a command when the cursor names no queue of a partition. Safe: the command step never calls a meaning so. -/
  | noQueue
  /-- Raised by CXL_MEM_READ, CXL_MEM_WRITE and FABRIC_PACKET for a device address at or above 2^40, which does not exist (R90). Safe. -/
  | noSuchAddress
  deriving DecidableEq, Repr

/-- Why the model gives no meaning. -/
inductive Refusal where
  /-- Raised by an arm of `exec` for an instruction that has no meaning yet. Safe. -/
  | notModelled (mnemonic : String)
  deriving DecidableEq, Repr

/-- The split table entry of a wave at placement, before the placement sets its fields. -/
def Split.blank : Split :=
  { pc := ⟨0, 0⟩, begun := false, mask := 0, rcv := none, nest := .none, ctx := 0, region := ⟨0, 0⟩,
    state := .ready, sleep := .fixed, arrived := false, serial := 0, undo := [], walks := [], waits := 0, readySince := 0, reseal := [],
    restarts := false }

/-- Transaction state with no transaction open (R148). -/
def Tx.closed : Tx :=
  { depth := 0, scope := .core, owner := 0, origin := ⟨0, 0⟩, alts := [], reads := [], writes := [], aborts := 0,
    serial := false, wantToken := false, mask0 := 0, rcv0 := none, nest0 := .none, ctx0 := 0, sers0 := [] }

/-- A wave at placement (R30, R87, R196, R333): every register 0, every label empty, every flag clear. -/
def Wave.blank : Wave :=
  { id := 0, launch := 0, part := 0, role := .lane, rate := .fine, entry := 0, quad := 0, slot := 0, lquad := 0, age := 0,
    place := .resident, cluster := none, block := 0, lblock := 0xFFFFFFFF, wnum := 0, depth := 0, lanes := 0, exited := 0,
    splits := [], joins := [], sers := [], gens := [], flags := [], long := [], vregs := [], sregs := [],
    preds := [], labels := [], pending := [], nextEntry := 0, fenced := 0, opened := [], batches := [], batchNext := 0,
    tx := Tx.closed, mbox := [], bench := ⟨[], [], []⟩, emit := [], killed := 0, elems := [], joinAddrs := [], barLast := [],
    barHere := [], podSent := [], stop := none, late := [], step := 0, trapRec := none, pendingWake := [], scrBase := 0, scrSize := 0, placedAt := 0, cycles := 0 }

/-- A partition at reset: disabled, every way in its masks, DRAINLIM 10,000 (R208, R210). (DESIGN CHOICE: log 4) -/
def Partition.reset : Partition :=
  { vfEnabled := false, state := .disabled, xlroot := 0, lattol := 0, drainlim := 10000, boundMask := 0, ctxBase := 0,
    faultq := 0, fqprod := 0, fqcons := 0, wdlim := 0, qmap := [], l1ways := 0xFFFF, l2ways := 0xFFFF, bankown := [],
    queues := [], records := [], trapQueue := [], recSeq := 0, invals := [], drainSince := 0, preempt := false, wipe := false }

/-- 32 zero bytes: the chain value and the measurement register at reset (R188, R219). -/
def zero32 : List Byte := List.replicate 32 0

/-- The module right after reset: before step 1 of the start sequence (R220), package time 0 (R187), no wave, no policy, an empty gate log with a zero chain value (R188), a zero measurement register (R219), and memory with nothing listed. (DESIGN CHOICE: log 2; DESIGN CHOICE: log 3; DESIGN CHOICE: log 4) -/
def State.reset : State :=
  { agenda := [], cur := ⟨0, 0, 0, 0, 0⟩, curQueue := (0, 0), replies := [], issued := 0, clock := 0, pkgTime := 0, pkgNum := 0,
    serialNum := 0, archLevel := 0, composition := [], mem := [], host := [], pod := [], podLabels := [], scratch := [], scrLabels := [], poisoned := [],
    soft := [], labelSets := [], l1 := [], l2 := [], rdc := [], hbmKeys := [], linkKeys := [], access := [], bands := [], tlb := [], tiles := [], tileLabels := [],
    tileOwner := [], savedTiles := [], savedScr := [], waves := [], nextWave := 0, clusters := [], nextCluster := 0, elems := [],
    nextElem := 0, gathers := [], traceHolds := [], rays := [], nextRay := 0, regs := [], homeQ := [],
    fabricQ := [], reached := [], markers := [], barriers := [], nextBar := 0, token := none, tokenQ := [], txLocks := [], unitWrites := [], copies := [],
    nextCopy := 0, copySeq := [], gateQ := [], gate := none, policies := [], logSeq := 0, logAck := 0, chain := zero32,
    principals := [], windows := [], spawnQ := [], gatherSlots := [], overflow := [], sealCount := 0, objects := [],
    launches := [], nextLaunch := 0, parts := [], tenants := [], netTimes := [], bankRR := [], domain := [], peerM := [], barred := [], cut := [],
    measured := zero32, configDigest := zero32, retired := [], flitFails := [], rxSeq := [], link := .down 0,
    hostPending := [], msixHeld := [], power := [], lastOutside := 0, withhold := 0, bootStep := 0, bootStat := 0, capFeature := 0, featureSet := false }

end Sys2Proof.Machine
end

