-- ==== Sys2Proof/Machine/Map.lean ====
section
/-! DEFINITION. Finite maps as sorted lists of pairs, byte memories in one canonical form, and small list helpers. -/
namespace Sys2Proof.Machine

/-- The entry of a map at a key: the first that the list has. -/
def mget? {α : Type} : Map α → Nat → Option α
  | [], _ => none
  | (j, v) :: m, k => if k = j then some v else mget? m k

/-- The entry of a map at a key, or a default. -/
def mgetD {α : Type} (m : Map α) (k : Nat) (d : α) : α :=
  match mget? m k with
  | some v => v
  | none => d

/-- A map without a key. -/
def merase {α : Type} : Map α → Nat → Map α
  | [], _ => []
  | (j, v) :: m, k => if k = j then merase m k else (j, v) :: merase m k

/-- A map with a key set. -/
def mset {α : Type} : Map α → Nat → α → Map α
  | [], k, v => [(k, v)]
  | (j, u) :: m, k, v =>
    if k = j then (k, v) :: m else if k < j then (k, v) :: (j, u) :: m else (j, u) :: mset m k v

/-- A map with default `d`, with a key set: the default is not listed. -/
def mput {α : Type} [DecidableEq α] (d : α) (m : Map α) (k : Nat) (v : α) : Map α :=
  if v = d then merase m k else mset m k v

/-- A map with the entry at a key changed, if there is one. -/
def mmodify {α : Type} (m : Map α) (k : Nat) (f : α → α) : Map α :=
  match mget? m k with
  | some v => mset m k (f v)
  | none => m

/-- Every entry changed. -/
def mmap {α : Type} (m : Map α) (f : Nat → α → α) : Map α := m.map fun p => (p.1, f p.1 p.2)

/-- The first key from 0 upward, below `n`, that a map does not list. (DEDUCED: log 49) -/
def mfree {α : Type} (m : Map α) (n : Nat) : Option Nat := (List.range n).find? fun k => (mget? m k).isNone

/-- Keys strictly rising from a lower bound. -/
def sortedFrom {α : Type} : Nat → Map α → Bool
  | _, [] => true
  | lo, (k, _) :: m => decide (lo ≤ k) && sortedFrom (k + 1) m

/-- The canonical form of a byte memory: addresses strictly rising, no listed byte 0, which is what an unlisted address reads as. -/
def Memory.wf (m : List Host.Cell) : Bool := sortedFrom 0 m && m.all fun c => c.2 != 0

/-- What an address that the memory does not list reads as. DESIGN CHOICE: the manual gives no contents for memory that nothing has written. (DESIGN CHOICE: log 2) -/
def Memory.unlisted : Byte := 0

/-- One byte of a memory. (DESIGN CHOICE: log 2) -/
def Memory.read (m : List Host.Cell) (a : Nat) : Byte := mgetD m a Memory.unlisted

/-- A memory with one byte written. -/
def Memory.write (m : List Host.Cell) (a : Nat) (b : Byte) : List Host.Cell := mput Memory.unlisted m a b

/-- `n` bytes from an address upward. -/
def Memory.readN (m : List Host.Cell) (a n : Nat) : List Byte := (List.range n).map fun i => Memory.read m (a + i)

/-- Bytes written from an address upward. -/
def Memory.writeN (m : List Host.Cell) (a : Nat) : List Byte → List Host.Cell
  | [] => m
  | b :: bs => Memory.writeN (Memory.write m a b) (a + 1) bs

/-- The number that bytes hold, little-endian (R5). -/
def leNat : List Byte → Nat
  | [] => 0
  | b :: bs => b.toNat + 256 * leNat bs

/-- The low `n` bytes of a number, little-endian (R5). -/
def leBytes : Nat → Nat → List Byte
  | 0, _ => []
  | n + 1, v => BitVec.ofNat 8 v :: leBytes n (v / 256)

/-- Insert by rising key, before equal keys. -/
def insertBy {α : Type} (key : α → Nat) (x : α) : List α → List α
  | [] => [x]
  | y :: ys => if key x ≤ key y then x :: y :: ys else y :: insertBy key x ys

/-- Sort by rising key; equal keys keep their order. -/
def sortBy {α : Type} (key : α → Nat) : List α → List α
  | [] => []
  | x :: xs => insertBy key x (sortBy key xs)

/-- The least element by a key. -/
def minBy? {α : Type} (key : α → Nat) : List α → Option α
  | [] => none
  | x :: xs =>
    match minBy? key xs with
    | none => some x
    | some y => if key x ≤ key y then some x else some y

/-- Elements of a list at rising positions, without repeats. -/
def dedup {α : Type} [DecidableEq α] : List α → List α
  | [] => []
  | x :: xs => if x ∈ xs then dedup xs else x :: dedup xs

/-- Insert a number into a rising list without repeats. -/
def addNat (k : Nat) : List Nat → List Nat
  | [] => [k]
  | j :: m => if k = j then j :: m else if k < j then k :: j :: m else j :: addNat k m

/-- The list with its element at an index replaced. -/
def setAt {α : Type} : List α → Nat → α → List α
  | [], _, _ => []
  | _ :: xs, 0, y => y :: xs
  | x :: xs, n + 1, y => x :: setAt xs n y

/-- The element at an index, or a default. -/
def nthD {α : Type} : List α → Nat → α → α
  | [], _, d => d
  | x :: _, 0, _ => x
  | _ :: xs, n + 1, d => nthD xs n d

/-- A bit of a mask. -/
def bit (m : Mask) (l : Nat) : Bool := m.toNat.testBit l

/-- The mask with one bit. -/
def bitOf (l : Nat) : Mask := BitVec.ofNat 32 (2 ^ l)

/-- The lanes of a mask, ascending. -/
def lanesOf (m : Mask) : List Nat := (List.range 32).filter fun l => bit m l

/-- The mask of the lanes that satisfy a test. -/
def maskOf (f : Nat → Bool) : Mask :=
  BitVec.ofNat 32 ((List.range 32).foldl (fun n l => if f l then n + 2 ^ l else n) 0)

/-- The lowest lane of a mask; 0 when it is empty. -/
def lowest (m : Mask) : Nat := ((List.range 32).find? fun l => bit m l).getD 0

/-- The bit pattern of a natural number cut out of a larger one. -/
def bits (v hi lo : Nat) : Nat := v / 2 ^ lo % 2 ^ (hi + 1 - lo)

/-- A number of `n` bits read as signed. -/
def sextN (n v : Nat) : Int := if v % 2 ^ n < 2 ^ (n - 1) then (v % 2 ^ n : Nat) else ((v % 2 ^ n : Nat) : Int) - (2 ^ n : Nat)

/-- Every lane. -/
def allLanes : Mask := 0xFFFFFFFF

end Sys2Proof.Machine
end

