-- ==== Sys2Proof/Machine/Aes.lean ====
section
/-! DEFINITION. AES-256 in XTS mode (R98): the cipher that the HBM controller applies to each 128-B line of device memory. R98 names the cipher; its tables and rounds are those of FIPS 197 and IEEE 1619. (PRESUMED: log 53) -/
namespace Sys2Proof.Machine

/-! ## AES-256 on blocks of 16 bytes, column by column -/

/-- The S-box, byte `i` at bits [8i + 7 : 8i]. (PRESUMED: log 53) -/
def aesSbox : Nat :=
  0x16bb54b00f2d99416842e6bf0d89a18cdf2855cee9871e9b948ed9691198f8e19e1dc186b95735610ef6034866b53e708a8bbd4b1f74dde8c6b4a61c2e2578ba08ae7a65eaf4566ca94ed58d6d37c8e779e4959162acd3c25c2406490a3a32e0db0b5ede14b8ee4688902a22dc4f816073195d643d7ea7c41744975fec130ccdd2f3ff1021dab6bcf5389d928f40a351a89f3c507f02f94585334d43fbaaefd0cf584c4a39becb6a5bb1fc20ed00d153842fe329b3d63b52a05a6e1b1a2c830975b227ebe28012079a059618c323c7041531d871f1e5a534ccf73f362693fdb7c072a49cafa2d4adf04759fa7dc982ca76abd7fe2b670130c56f6bf27b777c63

/-- Its inverse. -/
def aesSboxInv : Nat :=
  0x7d0c2155631469e126d677ba7e042b17619953833cbbebc8b0f52aae4d3be0a0ef9cc9939f7ae52d0d4ab519a97f51605fec8027591012b131c7078833a8dd1ff45acd78fec0db9a2079d2c64b3e56fc1bbe18aa0e62b76f89c5291d711af1476edf751ce837f9e28535ade72274ac9673e6b4f0cecff297eadc674f4111913a6b8a130103bdafc1020f3fca8f1e2cd00645b3b80558e4f70ad3bc8c00abd890849d8da75746155edab9edfd5048706c92b6655dcc5ca4d41698688664f6f87225d18b6d49a25b76b224d92866a12e084ec3fa420b954cee3d23c2a632947b54cbe9dec444438e3487ff2f9b8239e37cfbd7f3819ea340bf38a53630d56a0952

/-- One byte through a table. -/
def aesSub (table b : Nat) : Nat := table >>> (8 * b) % 256

/-- Multiplication by x in GF(2^8). -/
def aesDouble (b : Nat) : Nat := if b < 128 then 2 * b else (2 * b) ^^^ 0x11B

/-- Multiplication in GF(2^8) by a factor below 16. -/
def aesTimes (n b : Nat) : Nat :=
  let b2 := aesDouble b
  let b4 := aesDouble b2
  let b8 := aesDouble b4
  (if n.testBit 0 then b else 0) ^^^ (if n.testBit 1 then b2 else 0) ^^^ (if n.testBit 2 then b4 else 0) ^^^ (if n.testBit 3 then b8 else 0)

/-- Two blocks added. -/
def aesAdd (a b : List Nat) : List Nat := List.zipWith (fun x y => x ^^^ y) a b

/-- A column times the matrix whose first row is given. -/
def aesMixColumn (row col : List Nat) : List Nat :=
  (List.range 4).map fun r => (List.range 4).foldl (fun acc c => acc ^^^ aesTimes (nthD row ((c + 4 - r) % 4) 0) (nthD col c 0)) 0

/-- Every column of a block. -/
def aesMix (row st : List Nat) : List Nat := (List.range 4).flatMap fun c => aesMixColumn row ((st.drop (4 * c)).take 4)

/-- Row r of a block rotated by `k` times r columns. -/
def aesShift (k : Nat) (st : List Nat) : List Nat := (List.range 16).map fun i => nthD st (i % 4 + 4 * ((i / 4 + k * (i % 4)) % 4)) 0

/-- The words of the key schedule, newest first, from word `i` on. -/
def aesSchedule : Nat → Nat → Nat → List (List Nat) → List (List Nat)
  | 0, _, _, ws => ws
  | n + 1, i, rcon, ws =>
    let last := ws.headD []
    let t := if i % 8 = 0 then aesAdd ((last.drop 1 ++ last.take 1).map (aesSub aesSbox)) [rcon, 0, 0, 0]
      else if i % 8 = 4 then last.map (aesSub aesSbox) else last
    aesSchedule n (i + 1) (if i % 8 = 0 then aesDouble rcon else rcon) (aesAdd t (nthD ws 7 []) :: ws)

/-- The fifteen round keys of a 32-B key. -/
def aesKeys (key : List Nat) : List (List Nat) :=
  let ws := (aesSchedule 52 8 1 ((List.range 8).map fun i => (List.range 4).map fun j => nthD key (4 * i + j) 0).reverse).reverse
  (List.range 15).map fun r => ((ws.drop (4 * r)).take 4).flatMap id

/-- A block encrypted under a schedule. -/
def aesEncrypt (keys : List (List Nat)) (block : List Nat) : List Nat :=
  let sub := fun (st : List Nat) => aesShift 1 (st.map (aesSub aesSbox))
  let st := ((keys.drop 1).take 13).foldl (fun st k => aesAdd (aesMix [2, 3, 1, 1] (sub st)) k) (aesAdd block (keys.headD []))
  aesAdd (sub st) (nthD keys 14 [])

/-- A block decrypted under a schedule. -/
def aesDecrypt (keys : List (List Nat)) (block : List Nat) : List Nat :=
  let sub := fun (st : List Nat) => (aesShift 3 st).map (aesSub aesSboxInv)
  let st := ((keys.drop 1).take 13).reverse.foldl (fun st k => aesMix [14, 11, 13, 9] (aesAdd (sub st) k)) (aesAdd block (nthD keys 14 []))
  aesAdd (sub st) (keys.headD [])

/-! ## XTS -/

/-- The tweak of the next block: times x in GF(2^128), low byte first. -/
def xtsNext (t : Nat) : Nat := if t < 2 ^ 127 then 2 * t else (2 * t % 2 ^ 128) ^^^ 0x87

/-- The 16 bytes of a number, low byte first. -/
def block16 (n : Nat) : List Nat := (List.range 16).map fun i => n >>> (8 * i) % 256

/-- The number that bytes hold, low byte first. -/
def bytesNum (bs : List Nat) : Nat := bs.foldr (fun b n => b + 256 * n) 0

/-- The blocks of a line under a cipher of one block, with the tweak of the first. -/
def xtsBlocks (f : List Nat → List Nat) : Nat → Nat → List Nat → List Nat
  | 0, _, _ => []
  | n + 1, t, bs => aesAdd (f (aesAdd (bs.take 16) (block16 t))) (block16 t) ++ xtsBlocks f n (xtsNext t) (bs.drop 16)

/-- A line under a key of 64 B, data key then tweak key, with its physical address as the tweak (R98). (PRESUMED: log 53) -/
def xtsLine (decrypt : Bool) (key : List Byte) (pa : Nat) (line : List Byte) : List Byte :=
  let k := key.map fun b => b.toNat
  let t := bytesNum (aesEncrypt (aesKeys (k.drop 32)) (block16 pa))
  let keys := aesKeys (k.take 32)
  (xtsBlocks (if decrypt then aesDecrypt keys else aesEncrypt keys) 8 t (line.map fun b => b.toNat)).map fun n => BitVec.ofNat 8 n

/-- A line encrypted as HBM holds it. -/
def hbmEncrypt (key : List Byte) (pa : Nat) (line : List Byte) : List Byte := xtsLine false key pa line
/-- A line of HBM decrypted. -/
def hbmDecrypt (key : List Byte) (pa : Nat) (line : List Byte) : List Byte := xtsLine true key pa line

end Sys2Proof.Machine
end

