-- ==== Sys2Proof/Machine/Number.lean ====
section
/-! DEFINITION. Exact numbers, floating formats and rounding (R130 to R144), the correctly rounded special functions (R134, R290), the codebook of GQ4 (R136) and group sums (R141). -/
namespace Sys2Proof.Machine

/-- An exact value: NaN, an infinity, or plus or minus `mag * 2^exp`; a zero carries its sign. -/
inductive Num | nan | inf (neg : Bool) | fin (neg : Bool) (mag : Nat) (exp : Int)
  deriving DecidableEq, Repr

/-- How a format writes infinities and NaNs (R131). -/
inductive Specials | ieee | nanOnly | none
  deriving DecidableEq, Repr

/-- A floating format (R131): mantissa bits, bias, the pattern of its largest finite value, its canonical NaN, its sign bit. -/
structure Format where
  m : Nat
  bias : Nat
  largest : Nat
  nanBits : Nat
  signBit : Nat
  specials : Specials
  deriving DecidableEq, Repr

/-- f32 (R131). -/
def f32 : Format := ⟨23, 127, 0x7F7FFFFF, 0x7FC00000, 31, .ieee⟩
/-- f16 (R131). -/
def f16 : Format := ⟨10, 15, 0x7BFF, 0x7E00, 15, .ieee⟩
/-- bf16 (R131). -/
def bf16 : Format := ⟨7, 127, 0x7F7F, 0x7FC0, 15, .ieee⟩
/-- e5m2 (R131). -/
def e5m2 : Format := ⟨2, 15, 0x7B, 0x7E, 7, .ieee⟩
/-- e4m3 (R131). -/
def e4m3 : Format := ⟨3, 7, 0x7E, 0x7F, 7, .nanOnly⟩
/-- e2m1 (R131). -/
def e2m1 : Format := ⟨1, 1, 0x7, 0, 3, .none⟩

/-- The value that a bit pattern stands for (R131). -/
def Format.value (f : Format) (bits : Nat) : Num :=
  let b := bits % 2 ^ (f.signBit + 1)
  let neg := b / 2 ^ f.signBit == 1
  let mag := b % 2 ^ f.signBit
  if mag > f.largest then
    (match f.specials with
     | .ieee => if mag = f.largest + 1 then .inf neg else .nan
     | _ => .nan)
  else
    let e := mag / 2 ^ f.m
    if e = 0 then .fin neg mag (1 - (f.bias : Int) - f.m)
    else .fin neg (2 ^ f.m + mag % 2 ^ f.m) ((e : Int) - f.bias - f.m)

/-- The value of an e8m0 scale (R131). -/
def e8m0Value (b : Nat) : Num := if b % 256 = 255 then .nan else .fin false 1 (((b % 256 : Nat) : Int) - 127)

/-- A sign and a magnitude pattern. -/
def Format.signed (f : Format) (neg : Bool) (mag : Nat) : Nat := if neg then 2 ^ f.signBit + mag else mag

/-- The pattern of an infinity, or what the format writes for one without `.sat` (R139). -/
def Format.infinity (f : Format) (neg : Bool) : Nat :=
  match f.specials with
  | .ieee => f.signed neg (f.largest + 1)
  | .nanOnly => f.nanBits
  | .none => f.signed neg f.largest

/-- What an overflowing finite value becomes (R139). -/
def Format.overflow (f : Format) (rm : Rm) (sat neg : Bool) : Nat :=
  if sat then f.signed neg f.largest
  else match rm with
    | .rz => f.signed neg f.largest
    | .ru => if neg then f.signed neg f.largest else f.infinity neg
    | .rd => if neg then f.infinity neg else f.signed neg f.largest
    | _ => f.infinity neg

/-- Whether a magnitude of `q` units, with the remainder compared to half a unit (`.lt` below half, with `rest` when it is not zero), rounds up (R137). -/
def roundsUp (rm : Rm) (neg : Bool) (q : Nat) (half : Ordering) (rest : Bool) : Bool :=
  match rm with
  | .rz => false
  | .ru => rest && !neg
  | .rd => rest && neg
  | .rna => half != .lt
  | _ => (match half with | .lt => false | .eq => q % 2 == 1 | .gt => true)

/-- The units `q` of `2^u` that `mag * 2^exp`, plus less than `2^exp` more when `sticky`, rounds to (R137, R138). -/
def roundUnits (rm : Rm) (rnd : Nat) (neg : Bool) (mag : Nat) (exp u : Int) (sticky : Bool) : Nat :=
  if u ≤ exp then
    let q := mag * 2 ^ (exp - u).toNat
    if roundsUp rm neg q .lt sticky then q + 1 else q
  else
    let sh := (u - exp).toNat
    if rm = .sr then
      (if sh > mag.log2 + 16 then 0
       else if sh ≥ 8 then (mag + rnd * 2 ^ (sh - 8)) / 2 ^ sh
       else (mag * 2 ^ (8 - sh) + rnd) / 2 ^ 8)
    else if sh > mag.log2 + 2 then
      (if roundsUp rm neg 0 .lt (mag != 0 || sticky) then 1 else 0)
    else
      let q := mag / 2 ^ sh
      let r := mag % 2 ^ sh
      let half := if 2 * r < 2 ^ sh then Ordering.lt else if 2 * r = 2 ^ sh ∧ !sticky then .eq else .gt
      if roundsUp rm neg q half (r != 0 || sticky) then q + 1 else q

/-- Round a finite value to a format: once, subnormals kept, overflow by R139 (R137 to R140). A zero keeps its sign. -/
def Format.round (f : Format) (rm : Rm) (sat : Bool) (rnd : Nat) (neg : Bool) (mag : Nat) (exp : Int) (sticky : Bool) :
    Nat :=
  if mag = 0 ∧ !sticky then f.signed neg 0
  else
    let emin : Int := 1 - (f.bias : Int)
    let e := max ((mag.log2 : Nat) + exp) emin
    let u := e - f.m
    let q := roundUnits rm rnd neg mag exp u sticky
    let b := (e + f.bias - 1) * (2 ^ f.m : Nat) + q
    -- R138: under `.sr` a value overflows when it exceeds the largest finite value, whatever it rounds to
    let big := (f.largest / 2 ^ f.m : Nat)
    let fits : Bool := (e + f.bias < big) || (e + f.bias == (big : Int) &&
      (if u ≤ exp then decide (mag * 2 ^ (exp - u).toNat ≤ 2 ^ f.m + f.largest % 2 ^ f.m)
       else decide (mag ≤ (2 ^ f.m + f.largest % 2 ^ f.m) * 2 ^ (u - exp).toNat)))
    if rm = .sr then
      (if !fits then f.overflow rm sat neg
       else if b > f.largest then f.signed neg f.largest
       else f.signed neg b.toNat)
    else if b > f.largest then f.overflow rm sat neg
    else f.signed neg b.toNat

/-- A conversion to a floating format, infinities and NaNs included (R139, R140). -/
def Format.convert (f : Format) (rm : Rm) (sat : Bool) (rnd : Nat) : Num → Nat
  | .nan => f.nanBits
  | .inf neg => if sat then f.signed neg f.largest else f.infinity neg
  | .fin neg mag exp => f.round rm sat rnd neg mag exp false

/-- The result of an arithmetic form: an infinite exact value stays infinite even under `.sat` (R280, R284). -/
def Format.result (f : Format) (rm : Rm) (sat : Bool) (rnd : Nat) : Num → Nat
  | .nan => f.nanBits
  | .inf neg => f.infinity neg
  | .fin neg mag exp => f.round rm sat rnd neg mag exp false

def Num.neg : Num → Num
  | .nan => .nan
  | .inf n => .inf (!n)
  | .fin n m e => .fin (!n) m e

def Num.isZero : Num → Bool
  | .fin _ 0 _ => true
  | _ => false

/-- The signed integer `m * 2^(e - e0)`. -/
def scaled (neg : Bool) (m : Nat) (e e0 : Int) : Int :=
  if neg then -((m * 2 ^ (e - e0).toNat : Nat) : Int) else ((m * 2 ^ (e - e0).toNat : Nat) : Int)

/-- The exact sum; an exact zero takes its sign by R132. -/
def Num.add (rm : Rm) : Num → Num → Num
  | .nan, _ => .nan
  | _, .nan => .nan
  | .inf a, .inf b => if a = b then .inf a else .nan
  | .inf a, .fin _ _ _ => .inf a
  | .fin _ _ _, .inf b => .inf b
  | .fin na ma ea, .fin nb mb eb =>
    if ma = 0 ∧ mb = 0 then .fin (if na = nb then na else decide (rm = .rd)) 0 0
    else if ma = 0 then .fin nb mb eb
    else if mb = 0 then .fin na ma ea
    else
      let e := min ea eb
      let s := scaled na ma ea e + scaled nb mb eb e
      if s = 0 then .fin (decide (rm = .rd)) 0 0 else .fin (decide (s < 0)) s.natAbs e

/-- The exact product (R133). -/
def Num.mul : Num → Num → Num
  | .nan, _ => .nan
  | _, .nan => .nan
  | .inf a, .inf b => .inf (a != b)
  | .inf a, .fin n m _ => if m = 0 then .nan else .inf (a != n)
  | .fin n m _, .inf b => if m = 0 then .nan else .inf (n != b)
  | .fin na ma ea, .fin nb mb eb => .fin (na != nb) (ma * mb) (ea + eb)

/-- The product with `2^k`. -/
def Num.scale (k : Int) : Num → Num
  | .fin n m e => .fin n m (if m = 0 then e else e + k)
  | x => x

/-- The order of two values that are not NaN; zeros are equal. -/
def Num.compare : Num → Num → Ordering
  | .inf a, .inf b => if a = b then .eq else if a then .lt else .gt
  | .inf a, _ => if a then .lt else .gt
  | _, .inf b => if b then .gt else .lt
  | .fin na ma ea, .fin nb mb eb =>
    let e := min ea eb
    let x := if ma = 0 then 0 else scaled na ma ea e
    let y := if mb = 0 then 0 else scaled nb mb eb e
    if x < y then .lt else if x = y then .eq else .gt
  | _, _ => .eq

def Num.isNan : Num → Bool
  | .nan => true
  | _ => false

def Num.signOf : Num → Bool
  | .nan => false
  | .inf n => n
  | .fin n _ _ => n

/-- The lesser or greater of two values, -0 below +0, NaN for any NaN operand (R144, R285). -/
def Num.pick (greater : Bool) (a b : Num) : Num :=
  if a.isNan || b.isNan then .nan
  else match a.compare b with
    | .lt => if greater then b else a
    | .gt => if greater then a else b
    | .eq => if greater then (if a.signOf then b else a) else (if a.signOf then a else b)

/-- floor of a finite value's magnitude in units of `2^u`. -/
def floorUnits (m : Nat) (e u : Int) : Nat :=
  if u ≤ e then m * 2 ^ (e - u).toNat
  else if (u - e).toNat > m.log2 then 0 else m / 2 ^ (u - e).toNat

/-- The value rounded to an integer by a mode, as a sign and a magnitude (R137, R288, R291). -/
def Num.toInteger (rm : Rm) (neg : Bool) (m : Nat) (e : Int) : Nat := roundUnits rm 0 neg m e 0 false

/-- Convert to an integer of the range from `lo` to `hi` (R139, R291). -/
def Num.toInt (rm : Rm) (lo hi : Int) : Num → Int
  | .nan => 0
  | .inf n => if n then lo else hi
  | .fin n m e =>
    -- a magnitude of 2^80 or more is outside every integer range
    if (m.log2 : Int) + e ≥ 80 ∧ m ≠ 0 then (if n then lo else hi)
    else
      let q : Int := (Num.toInteger rm n m e : Nat)
      let v := if n then -q else q
      if v < lo then lo else if v > hi then hi else v

/-- The exact value of an integer. -/
def Num.ofInt (x : Int) : Num := .fin (decide (x < 0)) x.natAbs 0

/-- The integral value of a value in a format (R288). -/
def Format.integral (f : Format) (rm : Rm) : Num → Nat
  | .nan => f.nanBits
  | .inf n => f.infinity n
  | .fin n m e => if 0 ≤ e then f.round .rne false 0 n m e false else f.round .rne false 0 n (Num.toInteger rm n m e) 0 false

/-- a minus floor(a), rounded toward minus infinity (R288). -/
def fracBits : Num → Nat
  | .nan => f32.nanBits
  | .inf _ => f32.nanBits
  | .fin n m e =>
    if 0 ≤ e then 0
    else
      let d := 2 ^ (-e).toNat
      let r := m % d
      if r = 0 then 0 else f32.round .rd false 0 false (if n then d - r else r) e false

/-- The class bit of a pattern (R287). -/
def Format.classBit (f : Format) (bits : Nat) : Nat :=
  match f.value bits with
  | .nan => 8
  | .inf n => if n then 0 else 7
  | .fin n m _ =>
    if m = 0 then (if n then 3 else 4)
    else if bits % 2 ^ f.signBit < 2 ^ f.m then (if n then 2 else 5)
    else (if n then 1 else 6)

/-! ## Group sums (R141) -/

/-- floor(log2 |t|) of a nonzero finite value. -/
def Num.topBit : Num → Option Int
  | .fin _ m e => if m = 0 then none else some ((m.log2 : Nat) + e)
  | _ => none

/-- The greatest of the exponents of the nonzero terms. -/
def maxTop : List Num → Option Int
  | [] => none
  | t :: ts =>
    match t.topBit, maxTop ts with
    | none, r => r
    | some a, none => some a
    | some a, some b => some (max a b)

/-- The sum of the terms, each truncated toward zero to a multiple of `2^u`. -/
def truncSum (u : Int) : List Num → Int
  | [] => 0
  | .fin n m e :: ts => (if n then -(floorUnits m e u : Int) else (floorUnits m e u : Int)) + truncSum u ts
  | _ :: ts => truncSum u ts

/-- The f32 result of a group of exact terms (R141). -/
def groupSum (sat : Bool) (terms : List Num) : Nat :=
  let inf (n : Bool) := terms.any fun t => t == .inf n
  if terms.any Num.isNan || (inf true && inf false) then f32.nanBits
  else if inf true then f32.infinity true
  else if inf false then f32.infinity false
  else match maxTop terms with
    | none => if terms.all Num.signOf then f32.signed true 0 else 0
    | some top =>
      let u := top - 38
      let acc := truncSum u terms
      if acc = 0 then 0 else f32.round .rne sat 0 (decide (acc < 0)) acc.natAbs u false

/-- GQ4 codebook values, in units of 2^-14 (R136). -/
def codebook (c : Nat) : Int :=
  match c % 16 with
  | 0 => -16384 | 1 => -11776 | 2 => -8960 | 3 => -6784 | 4 => -4928 | 5 => -3248 | 6 => -1608 | 7 => 0
  | 8 => 1320 | 9 => 2656 | 10 => 4064 | 11 => 5592 | 12 => 7280 | 13 => 9280 | 14 => 11904 | _ => 16384

/-- A GQ4 element (R136): codebook value times q times S, exact. An infinite S with code 7 or q = 0 gives NaN. -/
def gq4Value (c q : Nat) (s : Num) : Num :=
  ((Num.ofInt (codebook c)).scale (-14)).mul ((Num.ofInt (q : Int)).mul s)

/-! ## Special functions (R290) -/

/-- Integer square root by the bits of the root, highest first. -/
def isqrtAux : Nat → Nat → Nat → Nat
  | 0, _, r => r
  | k + 1, n, r => if (r + 2 ^ k) * (r + 2 ^ k) ≤ n then isqrtAux k n (r + 2 ^ k) else isqrtAux k n r

/-- floor of the square root. -/
def isqrt (n : Nat) : Nat := isqrtAux (n.log2 / 2 + 1) n 0

/-- 1 / a (R290). -/
def rcpBits (rm : Rm) : Num → Nat
  | .nan => f32.nanBits
  | .inf n => f32.signed n 0
  | .fin n m e =>
    if m = 0 then f32.infinity n
    else
      let k := m.log2 + 64
      f32.round rm false 0 n (2 ^ k / m) (-(k : Int) - e) (2 ^ k % m != 0)

/-- A finite positive value as `m * 2^(2h)`. -/
def evenExp (m : Nat) (e : Int) : Nat × Int := if e % 2 = 0 then (m, e / 2) else (2 * m, (e - 1) / 2)

/-- The square root (R290). -/
def sqrtBits (rm : Rm) : Num → Nat
  | .nan => f32.nanBits
  | .inf n => if n then f32.nanBits else f32.infinity false
  | .fin n m e =>
    if m = 0 then f32.signed n 0
    else if n then f32.nanBits
    else
      let (m', h) := evenExp m e
      let x := m' * 2 ^ 64
      let r := isqrt x
      f32.round rm false 0 false r (h - 32) (r * r != x)

/-- 1 / sqrt a (R290). -/
def rsqBits (rm : Rm) : Num → Nat
  | .nan => f32.nanBits
  | .inf n => if n then f32.nanBits else 0
  | .fin n m e =>
    if m = 0 then f32.infinity n
    else if n then f32.nanBits
    else
      let (m', h) := evenExp m e
      let k := m'.log2 + 64
      let r := isqrt (2 ^ (2 * k) / m')
      f32.round rm false 0 false r (-(k : Int) - h) (r * r * m' != 2 ^ (2 * k))

/-- The sum of `z^(2k+1) / (2k+1)` with alternating or equal signs, `z = num/den`, in units of 2^-p. -/
def oddSeries (alt : Bool) (p : Nat) (num2 den2 : Nat) : Nat → Nat → Nat → Int
  | 0, _, _ => 0
  | n + 1, k, t =>
    let term : Int := (t / (2 * k + 1) : Nat)
    (if alt && k % 2 == 1 then -term else term) + oddSeries alt p num2 den2 n (k + 1) (t * num2 / den2)

/-- ln 2 = 2 artanh(1/3), in units of 2^-p, from n terms. -/
def ln2 (p n : Nat) : Nat := (2 * oddSeries false p 1 9 n 0 (2 ^ p / 3)).toNat

/-- pi by Machin's formula, in units of 2^-p, from n terms. -/
def piFix (p n : Nat) : Nat :=
  (16 * oddSeries true p 1 25 n 0 (2 ^ p / 5) - 4 * oddSeries true p 1 57121 n 0 (2 ^ p / 239)).toNat

/-- The sum of `x^k / k!` from the term `t` on, in units of 2^-p. -/
def expSeries (p x : Nat) : Nat → Nat → Nat → Nat
  | 0, _, _ => 0
  | n + 1, k, t => t + expSeries p x n (k + 1) (t * x / 2 ^ p / (k + 1))

/-- The alternating sum of `x^(2k+s) / (2k+s)!` from the term `t` on, in units of 2^-p: sine for s = 1, cosine for s = 0. -/
def trigSeries (p x s : Nat) : Nat → Nat → Nat → Int
  | 0, _, _ => 0
  | n + 1, k, t =>
    (if k % 2 = 1 then -(t : Int) else (t : Int)) +
      trigSeries p x s n (k + 1) (t * x / 2 ^ p * x / 2 ^ p / ((2 * k + s + 1) * (2 * k + s + 2)))

/-- Binary digits of precision of 2^x and log2. (UNVERIFIED: log 6) -/
def expPrec : Nat := 320
/-- Binary digits of precision of the circular functions. (UNVERIFIED: log 6) -/
def trigPrec : Nat := 704

/-- 2^a (R290). The series carries 320 binary digits. (UNVERIFIED: log 6) -/
def exp2Bits (rm : Rm) : Num → Nat
  | .nan => f32.nanBits
  | .inf n => if n then 0 else f32.infinity false
  | .fin n m e =>
    if m = 0 then 0x3F800000
    else if (m.log2 : Int) + e ≥ 12 then
      -- |a| is 2^12 or more: beyond f32 on one side, below half its least value on the other
      f32.round rm false 0 false 1 (if n then -4096 else 4096) false
    else
      let d := 2 ^ (-e).toNat
      let whole : Nat := if 0 ≤ e then m * 2 ^ e.toNat else m / d
      let r := if 0 ≤ e then 0 else m % d
      let k : Int := if n then (if r = 0 then -(whole : Int) else -(whole : Int) - 1) else whole
      if r = 0 then f32.round rm false 0 false 1 k false
      else
        let fr := if n then d - r else r
        let x := (fr * 2 ^ expPrec / d) * ln2 expPrec 110 / 2 ^ expPrec
        f32.round rm false 0 false (expSeries expPrec x 80 0 (2 ^ expPrec)) (k - expPrec) true

/-- log2 a (R290). The series carries 320 binary digits. (UNVERIFIED: log 6) -/
def log2Bits (rm : Rm) : Num → Nat
  | .nan => f32.nanBits
  | .inf n => if n then f32.nanBits else f32.infinity false
  | .fin n m e =>
    if m = 0 then f32.infinity true
    else if n then f32.nanBits
    else
      let l := m.log2
      let k : Int := (l : Int) + e
      let one := 2 ^ l
      if m = one then (Num.ofInt k |> f32.result rm false 0)
      else
        let z := (m - one) * 2 ^ expPrec / (m + one)
        let ln := 2 * oddSeries false expPrec (z * z / 2 ^ expPrec) (2 ^ expPrec) 110 0 z
        let x := k * (2 ^ expPrec : Nat) + ln * (2 ^ expPrec : Nat) / (ln2 expPrec 110 : Int)
        -- a negative sum is floored: its magnitude is one unit more, less the rest
        if x < 0 then f32.round rm false 0 true (x.natAbs - 1) (-(expPrec : Int)) true
        else f32.round rm false 0 false x.natAbs (-(expPrec : Int)) true

/-- sin(pi r) for 0 < r < 1/2 or cos(pi r) for 0 < r < 1/2, `r = num/2^d`, rounded with a sign. -/
def trigBits (rm : Rm) (sine neg : Bool) (num d : Nat) : Nat :=
  let x := num * piFix trigPrec 160 / 2 ^ d
  let t := if sine then trigSeries trigPrec x 1 90 0 x else trigSeries trigPrec x 0 90 0 (2 ^ trigPrec)
  f32.round rm false 0 neg t.toNat (-(trigPrec : Int)) true

/-- sin(pi a) (R290). (UNVERIFIED: log 6) -/
def sinpiBits (rm : Rm) : Num → Nat
  | .nan => f32.nanBits
  | .inf _ => f32.nanBits
  | .fin n m e =>
    if 0 ≤ e then f32.signed n 0
    else
      let d := (-e).toNat
      -- |a| modulo 2, in units of 2^-d
      let r := m % 2 ^ (d + 1)
      let half := 2 ^ (d - 1)
      if r % (2 * half) = 0 then f32.signed n 0
      else
        let neg := n != decide (r ≥ 2 * half)
        let r1 := r % (2 * half)
        if r1 = half then f32.signed neg 0x3F800000
        else if r1 < half then trigBits rm true neg r1 d
        else trigBits rm true neg (2 * half - r1) d

/-- cos(pi a) (R290). (UNVERIFIED: log 6) -/
def cospiBits (rm : Rm) : Num → Nat
  | .nan => f32.nanBits
  | .inf _ => f32.nanBits
  | .fin _ m e =>
    if 0 < e ∨ m = 0 then 0x3F800000
    else if e = 0 then f32.signed (m % 2 == 1) 0x3F800000
    else
      let d := (-e).toNat
      let r := m % 2 ^ (d + 1)
      let half := 2 ^ (d - 1)
      let r1 := r % (2 * half)
      if r1 = 0 then f32.signed (r != 0) 0x3F800000
      else if r1 = half then 0
      else
        let neg := (decide (r ≥ 2 * half)) != (decide (r1 > half))
        trigBits rm false neg (if r1 < half then r1 else 2 * half - r1) d

end Sys2Proof.Machine
end

