-- ==== Sys2Proof/Machine/Memory.lean ====
section
/-! DEFINITION. Places in memory, their labels, the physical layout, and address translation (R12, R82 to R103, R410, R452). -/
namespace Sys2Proof

/-- The format of a floating RED add (R279). -/
def RedV.format : RedV → Machine.Format
  | .addF16 => Machine.f16 | .addBf16 => Machine.bf16 | .addE4m3 => Machine.e4m3 | .addE5m2 => Machine.e5m2 | _ => Machine.f32
/-- The bytes of a RED's location (R309). -/
def RedV.bytes : RedV → Nat
  | .addB64 => 8 | .addF16 => 2 | .addBf16 => 2 | .addE4m3 => 1 | .addE5m2 => 1 | _ => 4
/-- Whether a RED is a floating add. -/
def RedV.isFloatAdd : RedV → Bool
  | .addF32 => true | .addF16 => true | .addBf16 => true | .addE4m3 => true | .addE5m2 => true
  | _ => false

end Sys2Proof

namespace Sys2Proof.Machine

/-! ## Physical numbers (R12, R90) -/

/-- The core of a physical quadrant. -/
def coreOf (quad : Nat) : Nat := quad / 4
/-- The first core of the quad of a core. -/
def quadOf (core : Nat) : Nat := core / 4
/-- The die of a core. -/
def dieOfCore (core : Nat) : Nat := core / 48
/-- The die of a physical quadrant. -/
def dieOfQuadrant (quad : Nat) : Nat := quad / 192
/-- The home die of a device physical address (R90). -/
def dieOf (pa : Nat) : Nat := pa / 2 ^ 37
/-- The home slice within a die (R90). -/
def sliceOf (pa : Nat) : Nat :=
  bits pa 12 7 ^^^ bits pa 18 13 ^^^ bits pa 24 19 ^^^ bits pa 30 25 ^^^ bits pa 36 31
/-- The HBM stack that holds a line (R90); die d homes stacks 2d and 2d + 1. -/
def stackOf (pa : Nat) : Nat := 2 * dieOf pa + sliceOf pa % 2
/-- The slice of a line within a remote-data cache (R90). -/
def rdcSliceOf (pa : Nat) : Nat := sliceOf pa % 32
/-- The number of a home slice in the package. -/
def homeOf (pa : Nat) : Nat := dieOf pa * 64 + sliceOf pa
/-- The plane of a line homed on another package (R126). -/
def planeOf (pa : Nat) : Nat := bits pa 15 7 % 36
/-- Whether a device physical address lies in a reserved range (R452). -/
def reserved (pa : Nat) : Bool := decide (0x1FBC000000 ≤ pa % 2 ^ 37)
/-- Where the frame label table lies (R102, R452). -/
def frameTable : Nat := 0x1FBC000000
/-- Where the gate log lies (R188, R452). -/
def gateLogBase : Nat := 0x1FBE000000

/-! ## Places -/

/-- The place `n` bytes further. -/
def Loc.plus (l : Loc) (n : Nat) : Loc :=
  match l with
  | .dev pa => .dev (pa + n)
  | .pkg p pa => .pkg p (pa + n)
  | .host pa => .host (pa + n)
  | .scr c off => .scr c (off + n)

/-- The 128-B line or row of a place (R148). -/
def Loc.line : Loc → LineKey
  | .dev pa => .dev (pa / 128)
  | .pkg p pa => .pkg p (pa / 128)
  | .host pa => .host (pa / 128)
  | .scr c off => .scr c (off / 128)

/-- The byte number of a place within its space. -/
def Loc.addr : Loc → Nat
  | .dev pa => pa
  | .pkg _ pa => pa
  | .host pa => pa
  | .scr _ off => off

/-- Whether two places lie in one space. -/
def Loc.sameSpace : Loc → Loc → Bool
  | .dev _, .dev _ => true
  | .pkg p _, .pkg q _ => p == q
  | .host _, .host _ => true
  | .scr c _, .scr d _ => c == d
  | _, _ => false

/-- Whether `n` bytes at a place and `m` bytes at another share a byte. -/
def Loc.overlaps (a : Loc) (n : Nat) (b : Loc) (m : Nat) : Bool :=
  a.sameSpace b && decide (a.addr < b.addr + m) && decide (b.addr < a.addr + n)

def Loc.isScr : Loc → Bool
  | .scr _ _ => true
  | _ => false

def Loc.isDev : Loc → Bool
  | .dev _ => true
  | _ => false

/-- The number of a line that stands at a home slice: a line of device memory, or from 2^39 of another package's memory. -/
def Loc.homeLine : Loc → Option Nat
  | .dev pa => some (pa / 128)
  | .pkg p pa => some ((p + 1) * 2 ^ 39 + pa / 128)
  | _ => none

/-- The place at which a line starts. -/
def lineLoc (line : Nat) : Loc := if line < 2 ^ 39 then .dev (line * 128) else .pkg (line / 2 ^ 39 - 1) (line % 2 ^ 39 * 128)

/-- The slice that homes a line, over every package. -/
def sliceOfLine (line : Nat) : Nat := line / 2 ^ 39 * 2 ^ 12 + homeOf (line % 2 ^ 39 * 128) % 2 ^ 12

/-- The key of a byte of another package's memory. -/
def podKey (p pa : Nat) : Nat := p * 2 ^ 46 + pa
/-- The key of a byte of a scratchpad. -/
def scrKey (core off : Nat) : Nat := core * 2 ^ 18 + off

/-- One byte of a place: the home copy, host memory or the bank (R105). -/
def readLoc (s : State) : Loc → Byte
  | .dev pa => Memory.read s.mem pa
  | .pkg p pa => Memory.read s.pod (podKey p pa)
  | .host pa => Memory.read s.host pa
  | .scr c off => Memory.read s.scratch (scrKey c off)

/-- One byte of a place written. -/
def writeLoc (s : State) (l : Loc) (b : Byte) : State :=
  match l with
  | .dev pa => { s with mem := Memory.write s.mem pa b }
  | .pkg p pa => { s with pod := Memory.write s.pod (podKey p pa) b }
  | .host pa => { s with host := Memory.write s.host pa b }
  | .scr c off => { s with scratch := Memory.write s.scratch (scrKey c off) b }

/-- `n` bytes from a place upward. -/
def readBytes (s : State) (l : Loc) (n : Nat) : List Byte := (List.range n).map fun i => readLoc s (l.plus i)

/-- Bytes written from a place upward. -/
def writeBytes (s : State) (l : Loc) : List Byte → State
  | [] => s
  | b :: bs => writeBytes (writeLoc s l b) (l.plus 1) bs

/-- A number read from device memory, little-endian. -/
def devNat (s : State) (pa n : Nat) : Nat := leNat (readBytes s (.dev pa) n)

/-! ## Side bands and shadows (R96, R145, R146) -/

/-- The side band of a line that nothing has touched. -/
def LineBand.blank : LineBand :=
  { presence := 0, shadow := none, shidx := 0, used := 0, keyId := 0, epochTag := 0, wcnt := 0, lastw := 0, launch := 0, lost := [] }

/-- The side band of a line. -/
def bandOf (s : State) (line : Nat) : LineBand := mgetD s.bands line LineBand.blank
/-- The side band of a line replaced. -/
def putBand (s : State) (line : Nat) (b : LineBand) : State := { s with bands := mput LineBand.blank s.bands line b }

/-- The value of an exact shadow as an f32-exact number, or NaN or an infinity (R146). -/
def Exact.num (e : Exact) : Num :=
  if e.nan || (e.pinf && e.ninf) then .nan
  else if e.pinf then .inf false
  else if e.ninf then .inf true
  else if e.acc = 0 then .fin false 0 0
  else .fin (decide (e.acc < 0)) e.acc.natAbs (-149)

/-- The units of 2^-149 in a finite value. -/
def exactUnits (m : Nat) (e : Int) : Int := if e < -149 then (m / 2 ^ (-149 - e).toNat : Nat) else (m * 2 ^ (e + 149).toNat : Nat)

/-- Add a value to an exact shadow (R146). -/
def Exact.add (x : Exact) : Num → Exact
  | .nan => { x with nan := true }
  | .inf n => if n then { x with ninf := true } else { x with pinf := true }
  | .fin n m e => { x with acc := x.acc + (if n then -(exactUnits m e) else exactUnits m e) }

/-- An exact shadow that starts from an element's value. -/
def Exact.of (v : Num) : Exact := Exact.add ⟨0, false, false, false⟩ v

/-- Whether an accumulator stays within 309 bits. -/
def Exact.fits (x : Exact) : Bool := decide (-(2 ^ 308 : Int) ≤ x.acc) && decide (x.acc < (2 ^ 308 : Int))

/-- The bytes that a line's shadow gives its elements. -/
def Shadow.bytes : Shadow → List Byte
  | .std fmt vs => vs.flatMap fun v => leBytes fmt.bytes (fmt.format.convert .rne false 0 (f32.value v.toNat))
  | .exact fmt vs => vs.flatMap fun v => leBytes fmt.bytes (fmt.format.convert .rne false 0 v.num)

/-- The recorded format of a shadow. -/
def Shadow.fmt : Shadow → RedV
  | .std f _ => f
  | .exact f _ => f

/-- One byte of the home copy as a read sees it: a shadow gives its element's value. -/
def homeByte (s : State) (l : Loc) : Byte :=
  match l.homeLine.bind fun line => (bandOf s line).shadow with
  | some sh => nthD sh.bytes (l.addr % 128) (readLoc s l)
  | none => readLoc s l

/-- Bytes of the home copy as a read sees them. -/
def homeBytes (s : State) (l : Loc) (n : Nat) : List Byte := (List.range n).map fun i => homeByte s (l.plus i)

/-! ## Memory encryption (R95, R98) -/

/-- The key of a key id (R98): 64 B, the data key and then the tweak key. (PRESUMED: log 53) -/
def keyOf (s : State) (k : Nat) : List Byte := mgetD s.hbmKeys k []

/-- The bytes of a line as another key id reads what one key id wrote; key id 0 is plaintext. (PRESUMED: log 53) -/
def rekeyed (s : State) (line old new : Nat) (bs : List Byte) : List Byte :=
  let stored := if old = 0 then bs else hbmEncrypt (keyOf s old) (line * 128) bs
  if new = 0 then stored else hbmDecrypt (keyOf s new) (line * 128) stored

/-- One byte of the home copy as an access of a page sees it. (PRESUMED: log 53) -/
def pageByte (s : State) (l : Loc) (keyId : Nat) : Byte :=
  match l with
  | .dev pa =>
    let old := (bandOf s (pa / 128)).keyId
    if old = keyId then homeByte s l
    else nthD (rekeyed s (pa / 128) old keyId (homeBytes s (.dev (pa / 128 * 128)) 128)) (pa % 128) 0
  | l => homeByte s l

/-- Bytes of the home copy as an access of a page sees them. -/
def pageBytes (s : State) (l : Loc) (n keyId : Nat) : List Byte := (List.range n).map fun i => pageByte s (l.plus i) keyId

/-- The page of an access that no leaf describes: cached, plaintext. (PRESUMED: log 53) -/
def PageAttr.plain : PageAttr := ⟨0, 0, 0⟩

/-! ## Who may reach device memory (R218, R386, R452) -/

/-- Bytes of a quadrant block of a context region (R386). -/
def blockBytes : Nat := 2 ^ 22

/-- The rows that keep each partition's context region for the context engine: a block for each logical quadrant that its map names. (DESIGN CHOICE: log 54) -/
def contextRows (s : State) : List AccessRow :=
  s.parts.flatMap fun e => if e.2.ctxBase = 0 then [] else
    (e.2.qmap.filter fun q => q.2.msb).map fun q =>
      ⟨false, (e.2.ctxBase.toNat + blockBytes * 16 * q.1) / 128, blockBytes * 16 / 128, [.context], [.context]⟩

/-- Whether a row of an access table gives a master the permission to read, or to write. -/
def rowGives (r : AccessRow) (m : Master) (wr : Bool) : Bool := (if wr then r.write else r.read).contains m

/-- Whether a master may read, or write, `n` bytes of device memory (R218): it has the permission in every row that their lines meet. -/
def mayReach (s : State) (m : Master) (wr : Bool) (pa n : Nat) : Bool :=
  (s.access ++ contextRows s).all fun r =>
    r.csr || decide ((pa + (n - 1)) / 128 < r.first) || decide (r.first + r.size ≤ pa / 128) || rowGives r m wr

/-- Whether a master may write a byte of a CSR block (R218). -/
def mayWriteCsr (s : State) (m : Master) (addr : Nat) : Bool :=
  s.access.all fun r => !r.csr || decide (addr < r.first) || decide (r.first + r.size ≤ addr) || rowGives r m true

/-! ## Labels of places (R102, R103, R175) -/

/-- The label of a frame of device memory: the mask of the label set that its index names. Entry 0 is the empty mask. -/
def frameLabel (s : State) (frame : Nat) : Label :=
  let idx := (Memory.read s.mem (frameTable + frame)).toNat
  if idx = 0 then 0 else mgetD s.labelSets idx 0

/-- The label of a place, for an access of a partition. -/
def locLabel (s : State) (part : Nat) : Loc → Label
  | .dev pa => frameLabel s (pa / 2 ^ 15)
  | .pkg p pa => mgetD s.podLabels (p * 2 ^ 31 + pa / 2 ^ 15) 0
  | .host _ => match mget? s.parts part with
    | some p => p.boundMask
    | none => 0
  | .scr c off => mgetD s.scrLabels (c * 256 + off / 1024) 0

/-- Whether a label is a subset of another. -/
def subset (a b : Label) : Bool := a &&& ~~~b == 0

/-- The lowest principal of a label of exactly one. -/
def soleOf (l : Label) : Option Nat :=
  match (List.range 32).filter fun i => bit l i with
  | [p] => some p
  | _ => none

/-- The registered windows of a principal (R180). -/
def windowsOf (s : State) (p : Nat) : List Window :=
  (s.windows.filter fun e => e.1 / 8 == p).map fun e => e.2

/-- Whether data of a label may leave to a destination outside the gate (R180): `kind`, `target` and `n` bytes at `addr`, as windows have them. -/
def egressAllowed (s : State) (l : Label) (kind target addr n : Nat) : Bool :=
  l == 0 || match soleOf l with
    | none => false
    | some p => (windowsOf s p).any fun w =>
        w.kind == kind && w.target == target &&
          (if kind = 2 then w.base % 65536 == addr && decide (n ≤ w.size)
           else decide (w.base ≤ addr) && decide (addr + n ≤ w.base + w.size))

/-- Whether the core's write of a label to a place is allowed at issue (R177, R180, R432). A write to a package of the domain is checked there. -/
def writeAllowed (s : State) (part : Nat) (e : Label) (l : Loc) (n : Nat) : Bool :=
  match l with
  | .dev _ => subset e (locLabel s part l)
  | .host pa => egressAllowed s e 1 part pa n
  | .pkg p pa => p ∈ s.domain || egressAllowed s e 3 p pa n
  | .scr _ _ => true

/-! ## Translation (R97, R98, R410) -/

/-- What an access needs of a leaf (R98). -/
inductive Need | read | write | both | fetch
  deriving DecidableEq, Repr

/-- The fields of a leaf (R98). -/
structure Leaf where
  raw : Nat
  level : Nat
  deriving DecidableEq, Repr

def Leaf.homeKind (l : Leaf) : Nat := bits l.raw 55 54
def Leaf.pkgNum (l : Leaf) : Nat := bits l.raw 53 46
def Leaf.cache (l : Leaf) : Nat := bits l.raw 7 6
def Leaf.keyId (l : Leaf) : Nat := bits l.raw 63 56
def Leaf.page (l : Leaf) : PageAttr := ⟨l.cache, l.keyId, l.level⟩
def Leaf.base (l : Leaf) : Nat := bits l.raw 45 15 * 2 ^ 15
/-- log2 of the page size of a leaf's level (R97). -/
def pageBits (level : Nat) : Nat := if level = 2 then 35 else if level = 1 then 25 else 15

/-- A failure of translation: XLATE_MISS, or XLATE_PERM with INFO[2] for an address that is not canonical (R410). -/
inductive XErr | miss | perm (notCanonical : Bool)
  deriving DecidableEq, Repr

/-- Whether a virtual address is canonical (R83). -/
def canonical (va : Nat) : Bool := bits va 63 54 == 0 || bits va 63 54 == 1023

/-- Whether a table entry breaks R98 at its level (R410). -/
def entryBad (level e : Nat) : Bool :=
  let leaf := tb e 4
  bits e 12 8 != 0 || tb e 5 || bits e 7 6 == 3 || (level == 0 && !leaf) || (level == 3 && leaf) ||
  (if leaf then
    let hk := bits e 55 54
    let base := bits e 45 15 * 2 ^ 15
    hk == 3 || bits e 14 13 != 0 || base % 2 ^ pageBits level != 0 ||
      (if hk = 1 then decide (bits e 53 46 > 143) else bits e 53 46 != 0) ||
      (hk == 0 && (bits e 45 40 != 0 || reserved base || decide (base % 2 ^ 37 + 2 ^ pageBits level > 0x1FBC000000)))
   else bits e 63 56 != 0 || bits e 55 46 != 0 || bits e 45 40 != 0)

/-- Walk a partition's table from a node (R97, R99): fuel is the level plus 1. A node that the master may not read ends the walk as a malformed entry does. (DESIGN CHOICE: log 54) -/
def walkFrom (s : State) (m : Master) (va : Nat) : Nat → Nat → Except XErr Leaf
  | 0, _ => .error (.perm false)
  | level + 1, node =>
    let at' := node + 8 * bits va (24 + 10 * level) (15 + 10 * level)
    let e := leNat (pageBytes s (.dev at') 8 0)
    if reserved at' || !mayReach s m false at' 8 then .error (.perm false)
    else if !tb e 0 then .error .miss
    else if entryBad level e then .error (.perm false)
    else if tb e 4 then .ok ⟨e, level⟩
    else walkFrom s m va level (bits e 45 13 * 2 ^ 13)

/-- The leaf that a partition's table gives a master for a virtual address now. -/
def walkAs (s : State) (m : Master) (part va : Nat) : Except XErr Leaf :=
  match mget? s.parts part with
  | none => .error .miss
  | some p => walkFrom s m va 4 p.xlroot.toNat

/-- The leaf that a partition's table gives its own cores and engines. -/
def walk (s : State) (part va : Nat) : Except XErr Leaf := walkAs s (.part part) part va

/-- The page number of an address at a leaf's level. -/
def pageOf (level va : Nat) : Nat := va % 2 ^ 55 / 2 ^ pageBits level

/-- A leaf of a core's TLB (R99). -/
def tlbFind (s : State) (onDie : Bool) (unit part va : Nat) : Option Leaf :=
  (s.tlb.find? fun e => e.onDie == onDie && e.unit == unit && e.part == part && e.page == pageOf e.level va).map
    fun e => ⟨e.leaf.toNat, e.level⟩

/-- Entries that a TLB holds (R99). (DESIGN CHOICE: log 39) -/
def tlbCapacity (onDie : Bool) : Nat := if onDie then 16384 else 256

/-- A leaf installed in one TLB; the oldest entry of a full TLB is dropped. (DESIGN CHOICE: log 39) -/
def tlbInstall (s : State) (onDie : Bool) (unit part va : Nat) (l : Leaf) : State :=
  let e : TlbEntry := ⟨onDie, unit, part, l.level, pageOf l.level va, BitVec.ofNat 64 l.raw⟩
  let same := s.tlb.filter fun x => x.onDie == onDie && x.unit == unit
  let rest := s.tlb.filter fun x => !(x.onDie == onDie && x.unit == unit)
  let same := same.filter fun x => !(x.part == part && x.level == e.level && x.page == e.page)
  let same := if same.length ≥ tlbCapacity onDie then same.drop 1 else same
  { s with tlb := rest ++ same ++ [e] }

/-- Where a leaf puts an address. -/
def Leaf.place (l : Leaf) (va : Nat) : Loc :=
  let pa := l.base + va % 2 ^ pageBits l.level
  match l.homeKind with
  | 0 => .dev pa
  | 1 => .pkg l.pkgNum pa
  | _ => .host pa

/-- Whether a leaf allows an access (R98). -/
def Leaf.allows (l : Leaf) : Need → Bool
  | .read => tb l.raw 1
  | .write => tb l.raw 2
  | .both => tb l.raw 1 && tb l.raw 2
  | .fetch => tb l.raw 3

/-- Whether an access reads, and whether it writes. -/
def Need.ways : Need → List Bool
  | .write => [true]
  | .both => [false, true]
  | _ => [false]

/-- Whether a master may make an access to the line of a place (R218). -/
def placeReached (s : State) (m : Master) (need : Need) : Loc → Bool
  | .dev pa => need.ways.all fun wr => mayReach s m wr pa 1
  | _ => true

/-- A leaf's place for an access, or its failure; a place that the access tables keep from the master fails as a page without the permission. (DESIGN CHOICE: log 54) -/
def Leaf.check (s : State) (m : Master) (l : Leaf) (va : Nat) (need : Need) : Except XErr Loc :=
  if l.allows need && placeReached s m need (l.place va) then .ok (l.place va) else .error (.perm false)

/-- The leaf that the die's TLB holds for a core's miss, else the tables' (R99). -/
def missLeaf (s : State) (core part va : Nat) : Except XErr Leaf :=
  match tlbFind s true (dieOfCore core) part va with
  | some l => .ok l
  | none => walk s part va

/-- Translate for a master through the tables as they stand. -/
def translateAs (s : State) (m : Master) (part va : Nat) (need : Need) : Except XErr (Loc × Leaf) :=
  if !canonical va then .error (.perm true)
  else match walkAs s m part va with
    | .error e => .error e
    | .ok l => match l.check s m va need with
      | .error e => .error e
      | .ok p => .ok (p, l)

/-- The same for the partition's copy engines, texture and traversal units (R218). -/
def translateNow (s : State) (part va : Nat) (need : Need) : Except XErr (Loc × Leaf) := translateAs s (.part part) part va need

/-- What translating an access at the core gives: a place, a failure, or a page that the core TLB misses (R100). -/
inductive Xlate | place (l : Loc) (page : PageAttr) | fail (e : XErr) | walkFor (va : Nat)
  deriving DecidableEq, Repr

/-- Translate an access of a core (R97 to R100). A page that the core TLB lacks and whose walk fails is a failure at once. (DESIGN CHOICE: log 39) -/
def translate (s : State) (core part va : Nat) (need : Need) : Xlate :=
  if !canonical va then .fail (.perm true)
  else match tlbFind s false core part va with
    | some l => (match l.check s (.part part) va need with
      | .ok p => .place p l.page
      | .error e => .fail e)
    | none => match missLeaf s core part va with
      | .error e => .fail e
      | .ok l => (match l.check s (.part part) va need with
        | .error e => .fail e
        | .ok _ => .walkFor va)

/-- Where an instruction fetch goes: by the core's TLB, else the die's, else the tables as they stand (R99, R221). -/
def fetchLeaf (s : State) (core part va : Nat) : Except XErr (Loc × Leaf) :=
  if !canonical va then .error (.perm true)
  else match (match tlbFind s false core part va with
      | some l => Except.ok l
      | none => missLeaf s core part va) with
    | .error e => .error e
    | .ok l => match l.check s (.part part) va .fetch with
      | .error e => .error e
      | .ok p => .ok (p, l)

/-- The place of an instruction fetch, or its failure. -/
def fetchPlace (s : State) (core part va : Nat) : Except XErr Loc := (fetchLeaf s core part va).map fun x => x.1

/-- Whether the line of a place is poisoned (R417). -/
def isPoisoned (s : State) : Loc → Bool
  | .dev pa => pa / 128 ∈ s.poisoned
  | _ => false

/-- Whether an access meets a poisoned line or a failed host link (R417, R441). -/
def poisonHit (s : State) (l : Loc) : Bool :=
  match l with
  | .host _ => s.link == .failed
  | l => isPoisoned s l

/-- The host path carries requests only while the link is up, or fails them (R440, R441); with every plane retired, no access to another package performs (R439). (DEDUCED: log 50) -/
def hostReady (s : State) (l : Loc) : Bool :=
  match l with
  | .host _ => s.link == .up || s.link == .failed
  | .pkg _ _ => decide (s.retired.length < 36)
  | _ => true

/-- The INFO bits of a translation failure (R371). -/
def XErr.info (e : XErr) (wr fetch : Bool) : Nat :=
  (if wr then 1 else 0) + (if fetch then 2 else 0) + (match e with | .perm true => 4 | _ => 0)

/-- The fault code of a translation failure (R371). -/
def XErr.code : XErr → Nat
  | .miss => 5
  | .perm _ => 6

end Sys2Proof.Machine
end

