-- ==== Sys2Proof/Machine/Operands.lean ====
section
/-! DEFINITION. Registers, operands and their labels: every operand form of R228 to R230, the held registers of R51 to R60, and the label rules of R176 and R177. -/
namespace Sys2Proof.Machine

/-- What an instruction runs with: its wave, split, position, clause header, common fields, active lanes, and the launch, code object and entry that it executes. -/
structure Ctx where
  w : Wave
  k : Nat
  sp : Split
  pos : Pos
  hdr : Nat
  h : Ctl
  act : Mask
  launch : Launch
  obj : CodeObj
  ent : EntryPt
  deriving DecidableEq, Repr

/-- The physical core of the executing wave. -/
def Ctx.core (c : Ctx) : Nat := coreOf c.w.quad
/-- The die of the executing wave. -/
def Ctx.die (c : Ctx) : Nat := dieOfQuadrant c.w.quad
/-- The executing wave. -/
def Ctx.id (c : Ctx) : Nat := c.w.id
/-- The lowest active lane. -/
def Ctx.low (c : Ctx) : Nat := lowest c.act
/-- The context label, with the label of the guard when there is one (R177). -/
def Ctx.ctx (c : Ctx) : Label :=
  c.sp.ctx ||| (if c.h.guard = 0 then 0 else mgetD c.w.labels (320 + c.h.guard.val) 0)

/-- The executing split runs inside its wave's transaction (R149). -/
def Ctx.inTx (c : Ctx) : Bool := c.w.tx.depth != 0 && c.w.tx.owner == c.k

/-- The footprint of an entry of a code object (R230). -/
def footprintOf (obj : CodeObj) (e : EntryPt) : Footprint :=
  { vregs := e.vregs, scalars := e.scalars, held := e.held,
    tasks := (List.range obj.entries.length).filter fun i =>
      match obj.entries[i]? with
      | some x => x.kind == 2
      | none => false }

/-! ## Rates and elements (R42 to R46) -/

/-- Whether a rate is legal for the program kind (R42). -/
def rateLegal (draw : Bool) (r : Rate) : Bool := draw || r == .fine || r == .group || r == .whole || r == .ray

/-- Whether rate v stands on rate w's ancestor chain (R43). -/
def onChain (draw : Bool) (w v : Rate) : Bool :=
  match w, draw with
  | .whole, _ => false
  | .group, _ => v == .whole
  | .cluster, _ => v == .group || v == .whole
  | .vertex, _ => v == .cluster || v == .group || v == .whole
  | .coarse, _ => v == .cluster || v == .group || v == .whole
  | .fine, true => v == .coarse || v == .cluster || v == .group || v == .whole
  | .fine, false => v == .group || v == .whole
  | .ray, true => v == .cluster || v == .group || v == .fine || v == .coarse || v == .whole
  | .ray, false => v == .fine || v == .group || v == .whole

/-- The element of a launch that is a cluster of an object, or the object (R44). -/
def findCluster (s : State) (launch obj clu : Nat) : Option Elem :=
  (s.elems.find? fun e => e.2.launch == launch && e.2.rate == .cluster && e.2.index == clu &&
    (match e.2.parent with
     | some p => (match mget? s.elems p with | some o => o.index == obj | none => false)
     | none => false)).map fun e => e.2

/-- The ancestor of an element at a rate (R43, R46), by its tracer's chain for a RAY element: fuel bounds the climb. (DEDUCED: log 61) -/
def ancestor (s : State) (draw : Bool) (r : Rate) : Nat → Nat → Option Elem
  | 0, _ => none
  | fuel + 1, id =>
    match mget? s.elems id with
    | none => none
    | some e =>
      if e.rate = r then some e
      else match e.hit with
        | some h =>
          if draw && (r == .cluster || r == .group) then
            (match findCluster s e.launch h.obj h.clu with
             | none => none
             | some c => if r = .cluster then some c else (match c.parent with | some p => mget? s.elems p | none => none))
          else (match e.parent with | some p => ancestor s draw r fuel p | none => none)
        | none => match e.parent with
          | some p => ancestor s draw r fuel p
          | none => none

/-- The element of the executing wave's lane at a rate: its own, or its ancestor. -/
def elemAt (s : State) (c : Ctx) (r : Rate) (l : Nat) : Option Elem :=
  match mget? c.w.elems l with
  | none => none
  | some id => ancestor s c.obj.draw r 4096 id

/-! ## Held registers (R51, R52, R59) -/

/-- The last-consumer rates of the sections of a producing rate, in ascending order of their first held register (R51). -/
def sectionRates (e : EntryPt) (p : Nat) : List Nat :=
  e.held.foldl (fun acc x => if x.2.1 = p ∧ x.2.2 ∉ acc then acc ++ [x.2.2] else acc) []

/-- The producing rate and section of a held register. -/
def sectionOf (e : EntryPt) (n : Nat) : Option (Nat × Nat) :=
  match e.held.find? fun x => x.1 == n with
  | none => none
  | some x => some (x.2.1, ((sectionRates e x.2.1).findIdx fun r => r == x.2.2))

/-- Value and label of a held register in a record; a released section reads 0 with the empty label. -/
def heldIn (e : EntryPt) (el : Elem) (n : Nat) : Word × Label :=
  match sectionOf e n with
  | none => (0, 0)
  | some (_, k) => if k ∈ el.released then (0, 0) else (mgetD el.vals n 0, mgetD el.vlabels n 0)

/-- Value and label of a held source in a lane (R52). -/
def readHeld (s : State) (c : Ctx) (n l : Nat) : Word × Label :=
  match sectionOf c.ent n with
  | none => (0, 0)
  | some (p, _) => match elemAt s c (Rate.of p) l with
    | none => (0, 0)
    | some el => heldIn c.ent el n

/-! ## Reading operands (R228, R229, R251) -/

/-- The 32-bit pattern of an inline constant (R228). -/
def Const.pattern : Const → Word
  | .zero => 0 | .one => 1 | .two => 2 | .four => 4 | .minusOne => 0xFFFFFFFF
  | .fHalf => 0x3F000000 | .fOne => 0x3F800000 | .fTwo => 0x40000000 | .fFour => 0x40800000
  | .fMinusHalf => 0xBF000000 | .fMinusOne => 0xBF800000 | .fMinusTwo => 0xC0000000 | .fMinusFour => 0xC0800000
  | .fInf => 0x7F800000 | .fNan => 0x7FC00000 | .intMin => 0x80000000

/-- Codes 328 to 332 and 343 are integers. -/
def Const.isInt : Const → Bool
  | .zero => true | .one => true | .two => true | .four => true | .minusOne => true | .intMin => true
  | _ => false

/-- A vector register of a lane. -/
def Wave.vec (w : Wave) (n l : Nat) : Word := mgetD w.vregs (n * 32 + l) 0
/-- A scalar register. -/
def Wave.scalar (w : Wave) (n : Nat) : Word := mgetD w.sregs n 0
/-- A predicate register; p0 reads as all ones (R223). -/
def Wave.pred (w : Wave) (p : Nat) : Mask := if p = 0 then allLanes else mgetD w.preds p 0
/-- The label of a register by operand code. -/
def Wave.label (w : Wave) (code : Nat) : Label := mgetD w.labels code 0

/-- Register `i` further than an operand's, as lane l reads it: 32 bits. -/
def readReg (s : State) (c : Ctx) (o : Opr) (i l : Nat) : Word :=
  match o with
  | .v n => c.w.vec (n.val + i) l
  | .s n => c.w.scalar (n.val + i)
  | .h n => (readHeld s c (n.val + i) l).1
  | .p n => if bit (c.w.pred n.val) l then 1 else 0
  | .c k => if i = 0 then Const.pattern k else if Const.isInt k && (Const.pattern k).msb then 0xFFFFFFFF else 0

/-- A 32-bit source as a number. -/
def src (s : State) (c : Ctx) (o : Opr) (l : Nat) : Nat := (readReg s c o 0 l).toNat

/-- A 64-bit source as a number: the pair, or a constant widened (R229). -/
def src64 (s : State) (c : Ctx) (o : Opr) (l : Nat) : Nat :=
  (readReg s c o 0 l).toNat + 2 ^ 32 * (readReg s c o 1 l).toNat

/-- A source of a width. -/
def srcW (s : State) (c : Ctx) (w : Width) (o : Opr) (l : Nat) : Nat :=
  match w with
  | .w32 => src s c o l
  | .w64 => src64 s c o l

/-- A packed-pair source: an f32 constant converts into both halves (R229). -/
def srcPair (s : State) (c : Ctx) (f : Format) (o : Opr) (l : Nat) : Nat :=
  match o with
  | .c k =>
    if Const.isInt k then (Const.pattern k).toNat
    else
      let x := f.convert .rne false 0 (f32.value (Const.pattern k).toNat)
      x + 65536 * x
  | o => src s c o l

/-- A predicate source: constants 0 and -1 are false and true (R250). -/
def srcP (c : Ctx) (o : Opr) (l : Nat) : Bool :=
  match o with
  | .p n => bit (c.w.pred n.val) l
  | .c .zero => false
  | .c _ => true
  | _ => false

/-- Consecutive registers of an operand as lane l reads them. (DEDUCED: log 46) -/
def srcs (s : State) (c : Ctx) (o : Opr) (n l : Nat) : List Word := (List.range n).map fun i => readReg s c o i l

/-- The label of an operand of `n` registers: the registers' masks, for a held register the masks that R52 reads in the active lanes. -/
def labelOf (s : State) (c : Ctx) (o : Opr) (n : Nat) : Label :=
  match o with
  | .c _ => 0
  | .h k => (List.range n).foldl (fun acc i =>
      (lanesOf c.act).foldl (fun acc l => acc ||| (readHeld s c (k.val + i) l).2) acc) 0
  | o => (List.range n).foldl (fun acc i => acc ||| c.w.label (o.code + i)) 0

/-- The OR of the labels of operands. -/
def labelsOf (s : State) (c : Ctx) (os : List (Opr × Nat)) : Label :=
  os.foldl (fun acc o => acc ||| labelOf s c o.1 o.2) 0

/-- The labels of the sources among an instruction's operand fields. -/
def sourceLabel (s : State) (c : Ctx) (i : Instr) : Label :=
  i.uses.foldl (fun acc u => if u.1 = 0 ∨ u.2.1 = .unread then acc else acc ||| labelOf s c u.2.2 u.2.1.span) 0

/-! ## Writing destinations (R176, R251) -/

/-- The lanes include every lane that has an element and has not exited (R176). -/
def coversWave (w : Wave) (m : Mask) : Bool := w.lanes &&& ~~~w.exited &&& ~~~m == 0

/-- A register's label written by R176: scalars replace, others replace when the written lanes cover the wave. -/
def Wave.setLabel (w : Wave) (code : Nat) (written : Mask) (lbl : Label) : Wave :=
  let scalar := decide (256 ≤ code) && decide (code < 320)
  let v := if scalar || coversWave w written then lbl else w.label code ||| lbl
  { w with labels := mput 0 w.labels code v }

/-- A vector register written in the lanes of a mask. -/
def Wave.setVec (w : Wave) (n : Nat) (m : Mask) (f : Nat → Word) : Wave :=
  { w with vregs := (lanesOf m).foldl (fun r l => mput 0 r (n * 32 + l) (f l)) w.vregs }

/-- A scalar register written. -/
def Wave.setScalar (w : Wave) (n : Nat) (v : Word) : Wave := { w with sregs := mput 0 w.sregs n v }

/-- A predicate register written in the lanes of a mask; p0 keeps its constant. -/
def Wave.setPred (w : Wave) (p : Nat) (m : Mask) (f : Nat → Bool) : Wave :=
  if p = 0 then w
  else
    let old := w.pred p
    { w with preds := mput 0 w.preds p (maskOf fun l => if bit m l then f l else bit old l) }

/-- The state with a wave replaced. -/
def putWave (s : State) (w : Wave) : State := { s with waves := mset s.waves w.id w }

/-- The wave as the state now holds it. -/
def theWave (s : State) (c : Ctx) : Wave := mgetD s.waves c.w.id c.w

/-- A held register of a lane's own record written (R52). -/
def writeHeld (s : State) (c : Ctx) (n l : Nat) (v : Word) (lbl : Label) : State :=
  match mget? c.w.elems l with
  | none => s
  | some id => match mget? s.elems id with
    | none => s
    | some el => match sectionOf c.ent n with
      | none => s
      | some (_, k) =>
        if k ∈ el.released then s
        else
          let el' := { el with vals := mput 0 el.vals n v, vlabels := mput 0 el.vlabels n (lbl ||| c.sp.ctx) }
          { s with elems := mset s.elems id el' }

/-- Write `n` consecutive registers of a destination in the active lanes, with their label. A scalar takes the lowest active lane's value. -/
def writeDst (s : State) (c : Ctx) (d : Opr) (n : Nat) (f : Nat → List Word) (lbl : Label) : State :=
  match d with
  | .v k => putWave s ((List.range n).foldl (fun w i =>
      (w.setVec (k.val + i) c.act fun l => nthD (f l) i 0).setLabel (k.val + i) c.act lbl) (theWave s c))
  | .s k => putWave s ((List.range n).foldl (fun w i =>
      (w.setScalar (k.val + i) (nthD (f c.low) i 0)).setLabel (256 + k.val + i) c.act lbl) (theWave s c))
  | .h k => (lanesOf c.act).foldl (fun s l =>
      (List.range n).foldl (fun s i => writeHeld s c (k.val + i) l (nthD (f l) i 0) lbl) s) s
  | .p k => putWave s (((theWave s c).setPred k.val c.act fun l => nthD (f l) 0 0 != 0).setLabel (320 + k.val) c.act lbl)
  | .c _ => s

/-- A number as `n` register words, low first. -/
def toWords : Nat → Nat → List Word
  | 0, _ => []
  | n + 1, v => BitVec.ofNat 32 v :: toWords n (v / 2 ^ 32)

/-- Register words, low first, as a number. -/
def ofWords : List Word → Nat
  | [] => 0
  | w :: ws => w.toNat + 2 ^ 32 * ofWords ws

/-- A signed result as register words. -/
def intWords (n : Nat) (x : Int) : List Word := toWords n (x % (2 ^ (32 * n) : Nat)).toNat

/-- The value of an immediate source or register source of a width; an immediate is sign-extended (R263, R265, R268). -/
def srcB (s : State) (c : Ctx) (w : Width) (b : Src) (l : Nat) : Nat :=
  match b with
  | .reg o => srcW s c w o l
  | .imm i => match w with
    | .w32 => (i.signExtend 32).toNat
    | .w64 => (i.signExtend 64).toNat

/-- The operand codes of the registers and predicates that an instruction reads. -/
def readCodes (s : State) (wave : Nat) (i : Instr) : List Nat :=
  (i.uses.flatMap fun u => if (u.1 != 0 || i.readsD) && u.2.1 != .unread then (List.range u.2.1.span).map fun j => u.2.2.code + j else []) ++
  ((match i with
    | .pmovGet .. => List.range 8
    | .brc h .. => if (mget? s.waves wave).any fun (w : Wave) => w.rate == h.rate then [h.guard.val] else []
    | _ => if i.unguarded then [] else [i.ctl.guard.val]).map fun k => 320 + k)

/-- Whether an instruction reads a register or predicate with an uncorrectable error, or one whose label field has one (R444). (DESIGN CHOICE: log 48) -/
def softHit (s : State) (wave : Nat) (i : Instr) : Bool :=
  (readCodes s wave i).any fun k => SoftMark.reg wave k ∈ s.soft || SoftMark.regLabel wave k ∈ s.soft

/-- What a label field with an uncorrectable error reads as, among the registers that an instruction reads (R444). -/
def softLabel (s : State) (wave : Nat) (i : Instr) : Label :=
  if (readCodes s wave i).any fun k => SoftMark.regLabel wave k ∈ s.soft then 0xFFFFFFFF else 0

end Sys2Proof.Machine
end

