-- ==== Sys2Proof/Machine/Ops.lean ====
section
/-! DEFINITION. The named operations that every meaning uses: positions, reconvergence, regions, the stage-3 checks, taking an exception and the return from one (R20 to R37, R372 to R381, R391 to R395). -/
namespace Sys2Proof.Machine

/-! ## Faults and holds -/

/-- What a faulting instruction reports (R371, R373). `labels` are the labels of its operands, `addrLabel` those of its address operands (R377, R380). -/
structure FaultArgs where
  code : Nat
  info : Nat
  addr : Nat
  mask : Mask
  addrLabel : Label
  labels : Label
  deriving DecidableEq, Repr

/-- Why an instruction does not complete at once: no wave or split to issue it, a hold at issue, a fault, table walks to wait for (R100), or a state in which the split has done part of it and stays or has been moved. -/
inductive Halt | noIssuer | hold | raise (f : FaultArgs) | walk (vas : List DWord) | stay (s : State)
  deriving DecidableEq, Repr

/-- An OPERAND failure (R394). -/
def operandFault (mask : Mask) (field code : Nat) (labels : Label) : Halt :=
  .raise ⟨3, code * 65536 + field, 0, mask, 0, labels⟩

/-- A context reason (R395). -/
def reasonFault (mask : Mask) (reason : Nat) (labels : Label) : Halt := operandFault mask 9 reason labels

/-- A failure that carries the labels of more operands (R380). -/
def Halt.labelled (lbl : Label) : Halt → Halt
  | .raise f => .raise { f with labels := f.labels ||| lbl }
  | e => e

/-- A result whose failure carries the labels of more operands (R380). -/
def labelled (lbl : Label) (r : Except Halt State) : Except Halt State := r.mapError (Halt.labelled lbl)

/-! ## Splits and positions (R20 to R25) -/

/-- A split-table entry replaced. -/
def Wave.setSplit (w : Wave) (k : Nat) (sp : Split) : Wave := { w with splits := mset w.splits k sp }

/-- A split-table entry. -/
def Wave.split (w : Wave) (k : Nat) : Split := mgetD w.splits k Split.blank

/-- The header address of the clause after one of `n` words (R221). -/
def nextHeader (hdrAddr : DWord) (hdr : Nat) : DWord := hdrAddr + BitVec.ofNat 64 (8 * (hdrCount hdr + 1))

/-- The position after an instruction of a clause. -/
def nextPos (p : Pos) (hdr : Nat) : Pos :=
  if p.idx + 1 < hdrCount hdr then ⟨p.hdr, p.idx + 1⟩ else ⟨nextHeader p.hdr hdr, 0⟩

/-- A new region entry: the regions before it are closed and what they changed stays (R35). -/
def Split.setRegion (sp : Split) (p : Pos) : Split := { sp with region := p, serial := sp.serial + 1, undo := [], reseal := [] }

/-- The executing split runs inside its wave's transaction (R149). -/
def Wave.inTx (w : Wave) (k : Nat) : Bool := w.tx.depth != 0 && w.tx.owner == k

/-- A split's region entry set, but inside a transaction, where it stays at ORIGIN (R35, R149). -/
def Wave.regionAt (w : Wave) (k : Nat) (sp : Split) (p : Pos) : Split := if w.inTx k then sp else sp.setRegion p

/-- A split put at a position; the wait mask of the clause applies when it enters it (R31). -/
def Split.goto (sp : Split) (p : Pos) : Split := { sp with pc := p, begun := decide (p.idx ≠ 0) }

/-- Every access of the lanes of a mask counts as issued by one split from now on (R116). -/
def joinGroups (es : List Entry) (m : Mask) : List Entry :=
  es.map fun e => if e.grp &&& m = 0 then e else { e with grp := e.grp ||| m }

/-- The least key whose split is inside join record j and stands at its join. -/
def atJoin (w : Wave) (j : Nat) : List (Nat × Split) :=
  w.splits.filter fun e => e.2.nest == .join j && e.2.state == .atJoin

/-- Remove a serialisation entry with nothing pending: the split takes up its full mask less exited lanes at the reconvergence address (R24). (DEDUCED: log 49) -/
def popSer (w : Wave) (k i : Nat) (e : SerEntry) (addr : DWord) : Wave :=
  let sp := w.split k
  let m := e.mask &&& ~~~w.exited
  let sp := { w.regionAt k (sp.goto ⟨addr, 0⟩) ⟨addr, 0⟩ with mask := m, rcv := e.savedRcv, nest := e.savedNest, ctx := e.savedCtx, state := .ready }
  let w := w.setSplit k sp
  { w with sers := merase w.sers i, pending := joinGroups w.pending e.lanes }

/-- A serialisation entry's pending lanes taken up at the resume address (R24, R116). -/
def resumeSer (w : Wave) (k i : Nat) (e : SerEntry) : Wave :=
  let sp := w.split k
  let sp := { w.regionAt k (sp.goto ⟨e.resume, 0⟩) ⟨e.resume, 0⟩ with mask := e.pending &&& ~~~w.exited, state := .ready }
  let w := w.setSplit k sp
  { w with sers := mset w.sers i { e with pending := 0 }, pending := joinGroups w.pending e.lanes }

/-- Fuse the splits at join record j when they cover every lane of its mask that has not exited (R24). The fused split's entry, if they fuse. -/
def fuse (w : Wave) (j : Nat) : Wave × Option Nat :=
  match mget? w.joins j, atJoin w j with
  | some r, (k, sp) :: rest =>
    let m := ((k, sp) :: rest).foldl (fun acc e => acc ||| e.2.mask) 0
    if r.mask &&& ~~~w.exited &&& ~~~m = 0 then
      let splits := rest.foldl (fun s e => merase s e.1) w.splits
      let owner := if w.tx.owner ∈ rest.map (fun e => e.1) then k else w.tx.owner
      let undo := (rest.find? fun e => e.1 == w.tx.owner).map fun e => e.2.undo
      let sp := if w.tx.depth ≠ 0 ∧ owner = k then { sp.goto ⟨r.rcv, 0⟩ with undo := undo.getD sp.undo } else (sp.goto ⟨r.rcv, 0⟩).setRegion ⟨r.rcv, 0⟩
      let sp := { sp with mask := m, rcv := r.savedRcv, nest := r.savedNest, ctx := r.savedCtx, state := .ready }
      let w := { w with
        splits := mset splits k sp, joins := merase w.joins j, pending := joinGroups w.pending m
        tx := { w.tx with owner := owner } }
      (w, some k)
    else (w, none)
  | _, _ => (w, none)

/-- Arrivals at reconvergence points, for a split that has moved, until none is left to act on (R24). A BRC resumed at its own reconvergence address arrives again; fuel bounds the chain of records. -/
def settle : Nat → Wave → Nat → Wave
  | 0, w, _ => w
  | fuel + 1, w, k =>
    match mget? w.splits k with
    | none => w
    | some sp =>
      if sp.pc.idx = 0 ∧ sp.rcv = some sp.pc.hdr ∧ sp.state = .ready then
        match sp.nest with
        | .none => w
        | .join j =>
          let (w, f) := fuse (w.setSplit k { sp with state := .atJoin }) j
          (match f with
           | some k' => settle fuel w k'
           | none => w)
        | .ser i =>
          (match mget? w.sers i with
           | none => w
           | some e =>
             if e.pending &&& ~~~w.exited = 0 then settle fuel (popSer w k i e sp.pc.hdr) k
             else settle fuel (resumeSer w k i e) k)
      else w

/-- The records of a wave are at most three joins and sixteen serialisation entries, and a split may arrive twice at each. -/
def settleFuel : Nat := 64

/-- Move a split and act on its arrival (R24). -/
def moveSplit (w : Wave) (k : Nat) (p : Pos) : Wave :=
  settle settleFuel (w.setSplit k ((w.split k).goto p)) k

/-- The masks of the records on a nest chain without some lanes (R25). -/
def dropFromChain : Nat → Wave → Nest → Mask → Wave
  | 0, w, _, _ => w
  | fuel + 1, w, n, m =>
    match n with
    | .none => w
    | .join j => (match mget? w.joins j with
      | none => w
      | some r => dropFromChain fuel { w with joins := mset w.joins j { r with mask := r.mask &&& ~~~m } } r.savedNest m)
    | .ser i => (match mget? w.sers i with
      | none => w
      | some e => dropFromChain fuel { w with sers := mset w.sers i { e with mask := e.mask &&& ~~~m, pending := e.pending &&& ~~~m } } e.savedNest m)

/-- A split whose mask has become empty acts on the innermost record on its nest chain (R25). A join record with no lane left fuses with none: the pending lanes of a serialisation entry around it run. (DEDUCED: log 49) -/
def emptySplit : Nat → Wave → Nat → Wave
  | 0, w, _ => w
  | fuel + 1, w, k =>
    match mget? w.splits k with
    | none => w
    | some sp => match sp.nest with
      | .ser i => (match mget? w.sers i with
        | none => { w with splits := merase w.splits k }
        | some e =>
          if e.pending &&& ~~~w.exited ≠ 0 then settle settleFuel (resumeSer w k i e) k
          else
            let addr := e.rcv.getD sp.pc.hdr
            let w := popSer w k i e addr
            if (w.split k).mask = 0 then emptySplit fuel w k else settle settleFuel w k)
      | .join j => (match mget? w.joins j with
        | none => { w with splits := merase w.splits k }
        | some r =>
          if r.mask &&& ~~~w.exited = 0 then
            -- no lane is left inside the record: what fuses has none either, and acts on the record around it
            let sp := { sp.goto ⟨r.rcv, 0⟩ with rcv := r.savedRcv, nest := r.savedNest, ctx := r.savedCtx }
            emptySplit fuel ({ w with joins := merase w.joins j }.setSplit k sp) k
          else match fuse { w with splits := merase w.splits k } j with
            | (w, some k') => settle settleFuel w k'
            | (w, none) => w)
      | .none => { w with splits := merase w.splits k }

/-- The join records on a nest chain. -/
def chainJoins : Nat → Wave → Nest → List Nat
  | 0, _, _ => []
  | fuel + 1, w, n =>
    match n with
    | .none => []
    | .join j => j :: (match mget? w.joins j with
      | none => []
      | some r => chainJoins fuel w r.savedNest)
    | .ser i => match mget? w.sers i with
      | none => []
      | some e => chainJoins fuel w e.savedNest

/-- A join record that removed lanes may complete: its splits at join fuse when they cover the lanes that are left. -/
def joinMayComplete (w : Wave) (j : Nat) : Wave :=
  match fuse w j with
  | (w, some k) => settle settleFuel w k
  | (w, none) => w

/-- Remove lanes of a split as EXIT does (R25): from its mask, from the records on its chain, and from the wave. -/
def exitLanes (w : Wave) (k : Nat) (m : Mask) : Wave :=
  let sp := w.split k
  let joins := chainJoins 32 w sp.nest
  let w := { w with exited := w.exited ||| m }
  let w := w.setSplit k { sp with mask := sp.mask &&& ~~~m }
  let w := dropFromChain 32 w sp.nest m
  let w := if (w.split k).mask = 0 then emptySplit 32 w k else w
  joins.foldl joinMayComplete w

/-! ## Clause buffers (R23) -/

/-- Clause buffers that the splits of the resident waves of a quadrant hold: one for each wave, and one for each further split. A BLOCK wave stands in the wave-0 slot of its block (R45). -/
def buffersHeld (s : State) (quad : Nat) : Nat :=
  s.waves.foldl (fun n e => if e.2.quad = quad ∧ (e.2.place = .resident ∨ e.2.place = .saving) then
    n + (if e.2.role = .block then e.2.splits.length - 1 else max 1 e.2.splits.length) else n) 0

/-- The lowest-numbered free split-table entry, when the quadrant has a free clause buffer and a join record is free (R22). (DEDUCED: log 49) -/
def freeSplit (s : State) (w : Wave) : Option Nat :=
  if buffersHeld s w.quad < 48 ∧ (mfree w.joins 3).isSome then mfree w.splits 4 else none

/-- A region number that no outstanding instruction of a split-table entry bears: the number of a split new in it (R37). -/
def freshSerial (w : Wave) (k : Nat) : Nat := w.long.foldl (fun n o => if o.split = k then max n (o.serial + 1) else n) 0

/-! ## Regions and transactions (R35 to R37, R148, R153) -/

/-- Undo one change of a discarded region (R37, R339, R350, R354, R449). BATCHNEXT falls to the number after the last batch that stands, another split's too. (DEDUCED: log 51) -/
def undoOne (w : Wave) : Undo → Wave
  | .bench drop add bs ls =>
    { w with bench := { claims := (w.bench.claims.filter fun c => c ∉ drop) ++ add, bytes := bs.foldl (fun m e => mput 0 m e.1 e.2) w.bench.bytes,
                        labels := ls.foldl (fun m e => mput 0 m e.1 e.2) w.bench.labels } }
  | .emit l old => { w with emit := mset w.emit l old }
  | .mbox k old => { w with mbox := mset w.mbox k old }
  | .kill old => { w with killed := old }
  | .seal num =>
    let left := w.batches.filter fun b => b.num != num
    { w with opened := sortBy (fun n => n) ((w.batches.filter fun b => b.num == num).flatMap (fun b => b.copies) ++ w.opened),
             batchNext := left.foldl (fun n b => max n (b.num + 1)) 0, batches := left }

/-- The batches that a region has sealed, by number. -/
def sealedIn (w : Wave) (undo : List Undo) : List Batch :=
  sortBy (fun b => b.num) (w.batches.filter fun b => Undo.seal b.num ∈ undo)

/-- Discard a split's current region (R37): long-latency results of the region are thrown away, and wave state that it changed returns. (DESIGN CHOICE: log 14) -/
def discardRegion (w : Wave) (k : Nat) : Wave :=
  let sp := w.split k
  let dead := fun o : LongOp => o.split == k && o.serial == sp.serial && !o.closing
  let ids := (w.long.filter dead).flatMap fun o => match o.what with
    | .access e => [e]
    | .rows es => es
    | _ => []
  let resealed := sealedIn w sp.undo
  let w := sp.undo.foldl undoOne w
  let long := w.long.map fun o : LongOp => if dead o then { o with dead := true } else o
  let pending := w.pending.map fun e : Entry => if e.id ∈ ids then { e with dead := true } else e
  let w := { w with long := long, pending := pending }
  w.setSplit k { (sp.goto sp.region) with
    undo := [], reseal := resealed ++ sp.reseal, serial := sp.serial + 1, begun := false, walks := [], arrived := false }

/-- Turn every read-set entry kept, with a new point of reading (R153, R154). -/
def keepAll (rs : List TxRead) : List TxRead := rs.map fun r => { r with live := false, written := false, conflict := false }

/-- A restart at ORIGIN: a new point of reading for every kept entry (R154). -/
def freshKept (rs : List TxRead) : List TxRead := rs.map fun r => if r.live then r else { r with written := false, conflict := false }

/-- The serialisation entries on a nest chain. -/
def chainSers : Nat → Wave → Nest → List Nat
  | 0, _, _ => []
  | fuel + 1, w, n =>
    match n with
    | .none => []
    | .join j => (match mget? w.joins j with
      | none => []
      | some r => chainSers fuel w r.savedNest)
    | .ser i => i :: (match mget? w.sers i with
      | none => []
      | some e => chainSers fuel w e.savedNest)

/-- Close the wave's transaction and put its split back at ORIGIN, as it was at the outermost TXB (R153). ABORTS is the caller's. A split that has fused since the TXB keeps the lanes and the nest of the fused split. -/
def restartTx (w : Wave) (aborts : Nat) : Wave :=
  let t := w.tx
  let sp := w.split t.owner
  let w := sp.undo.foldl undoOne w
  let ids := (w.pending.filter fun e : Entry => e.tx != 0).map fun e => e.id
  let w := { w with
    pending := w.pending.map fun e : Entry => if e.tx = 0 then e else { e with dead := true }
    long := w.long.map fun o : LongOp => (match o.what with
      | .access e => if e ∈ ids then { o with dead := true } else o
      | _ => o) }
  let fused := match t.nest0 with
    | .join j => (mget? w.joins j).isNone
    | _ => false
  let now := chainSers 32 w sp.nest
  let kept := w.sers.filter fun e => e.1 ∉ now
  let sers := if fused then w.sers else t.sers0.foldl (fun m e => mset m e.1 e.2) kept
  let sp := { sp with
    pc := t.origin, begun := false, mask := (t.mask0 ||| sp.mask) &&& ~~~w.exited,
    rcv := if fused then sp.rcv else t.rcv0, nest := if fused then sp.nest else t.nest0,
    ctx := if fused then sp.ctx else t.ctx0,
    region := t.origin, serial := sp.serial + 1, undo := [], arrived := false, walks := []
    state := if sp.state = .parked then .parked else .ready }
  let w := { w with sers := sers, tx := { t with depth := 0, serial := false, wantToken := false, alts := [], writes := [], reads := keepAll t.reads, aborts := aborts } }
  w.setSplit t.owner sp

/-- The tokens and locks of a serial-mode transaction released (R157). (DEDUCED: log 36) -/
def releaseSerial (s : State) (wave : Nat) : State :=
  { s with token := if s.token = some wave then none else s.token,
           tokenQ := s.tokenQ.filter fun x => x != wave,
           txLocks := s.txLocks.filter fun x => x.1 != wave }

/-- A split parked at its region entry, or at ORIGIN (R37, R378). -/
def parkHere (w : Wave) (k : Nat) : Wave :=
  let w' := if w.inTx k then restartTx (discardRegion w k) w.tx.aborts else discardRegion w k
  w'.setSplit k { (w'.split k) with state := .parked, restarts := (w'.split k).restarts || w.inTx k }

/-- The region of an instruction that turns out not to have issued is open again, unless a later one of its split has closed since (R372, R408). (DEDUCED: log 38) -/
def Wave.reopen (w : Wave) (k : Nat) (m : RegionMark) : Wave :=
  let sp := w.split k
  if sp.serial = m.serial + 1 ∨ (sp.state = .parked ∧ sp.pc = sp.region ∧ sp.serial = m.serial + 2) then
    { w with long := w.long.map fun o : LongOp => if o.split = k ∧ o.serial = m.serial then { o with serial := sp.serial } else o }.setSplit k
      { sp with region := m.entry, undo := sp.undo ++ m.undo }
  else w

/-- Park one split of a stopped wave; sleeping and joined splits keep their state, but the transaction split is parked at ORIGIN (R378). (DESIGN CHOICE: log 14) -/
def parkSplit (w : Wave) (k : Nat) : Wave :=
  if w.inTx k then parkHere w k
  else match (w.split k).state with
    | .sleeping => w
    | .atJoin => w
    | _ => parkHere w k

/-- Park a split at its next instruction boundary: TRAP, BREAK and steps (R378). -/
def parkAtPc (w : Wave) (k : Nat) : Wave :=
  let sp := w.split k
  match sp.state with
  | .sleeping => w
  | .atJoin => w
  | _ => w.setSplit k { sp with state := .parked }

/-- Park every split of a wave. (DESIGN CHOICE: log 14) -/
def parkAll (w : Wave) (atPc : Bool) : Wave :=
  (w.splits.map fun e => e.1).foldl (fun w k => if atPc then parkAtPc w k else parkSplit w k) w

/-! ## Taking an exception (R372 to R379) -/

/-- A position as records and context areas hold it: the header address with the index in [2:0] (R373). -/
def Pos.word (p : Pos) : DWord := p.hdr ||| BitVec.ofNat 64 p.idx

/-- The TRAP, BREAK and step codes keep the PC (R378). -/
def keepsPc (code : Nat) : Bool := code == 0x13 || code == 0x14

/-- The record of a stop, before it is written (R373, R379). The handle is formed when it is written. -/
def stopRecord (s : State) (w : Wave) (k : Nat) (pc : Pos) (sp : Split) (rate : Nat) (f : FaultArgs) : Record :=
  let trapEntry := match mget? s.launches w.launch with
    | some l => l.trapEntry
    | none => 0xFF
  let trapWave := w.role == .trap
  { seq := 0, addr := BitVec.ofNat 64 f.addr, pc := pc.word, region := sp.region.word, info := BitVec.ofNat 32 f.info,
    mask := f.mask, smask := sp.mask, launch := w.launch, lblock := w.lblock, pquad := w.quad, lquad := w.lquad,
    code := f.code, trapped := f.code != 5 && trapEntry != 0xFF && !trapWave,
    term := f.code != 5 && (trapEntry == 0xFF || trapWave), waiting := f.code == 5, rate := rate, handle := 0,
    addrLabel := f.addrLabel, labels := sp.ctx ||| f.labels, wave := some w.id, split := k }

/-- A record put at the end of a partition's records that wait to be written (R376). (DESIGN CHOICE: log 14) -/
def pushRecord (s : State) (part : Nat) (r : Record) : State :=
  { s with parts := mmodify s.parts part fun p => { p with records := p.records ++ [r] } }

/-- A record that no running split writes: none for a disabled partition (R431, R437). -/
def pushEvent (s : State) (part : Nat) (r : Record) : State :=
  if (mget? s.parts part).any fun p => p.state == .disabled then s else pushRecord s part r

/-- Take an exception: stop the wave, park its splits, and hand its record to the fault queue (R378, R379). -/
def takeFault (s : State) (w : Wave) (k : Nat) (pc : Pos) (rate : Nat) (f : FaultArgs) : State :=
  let sp := w.split k
  let region := if w.tx.depth ≠ 0 ∧ w.tx.owner = k then { sp with region := w.tx.origin } else sp
  let r := stopRecord s w k pc region rate f
  let w' := parkAll w (keepsPc f.code)
  let w' := if keepsPc f.code || (w'.split k).state == .parked then w' else parkHere w' k
  let s := { s with regs := if (w'.split k).state = .parked then s.regs.filter fun r => !(r.wave == w.id && r.split == k) else s.regs }
  let s := if keepsPc f.code then s else releaseSerial s w.id
  let stop : Stop := { code := f.code, split := k, atPc := keepsPc f.code, written := false, rerun := [], deferred := none }
  pushRecord (putWave s { w' with stop := some stop, step := 0 }) w.part r

/-- An event record (R431): no wave, no handle. -/
def eventRecord (launch code info addr : Nat) : Record :=
  { seq := 0, addr := BitVec.ofNat 64 addr, pc := 0, region := 0, info := BitVec.ofNat 32 info, mask := 0, smask := 0,
    launch := launch, lblock := 0xFFFFFFFF, pquad := 0, lquad := 0, code := code, trapped := false, term := false,
    waiting := false, rate := 0, handle := 0, addrLabel := 0, labels := 0, wave := none, split := 0 }

/-- An event of the whole package: one record for every enabled partition, ascending (R431). -/
def packageEvent (s : State) (code info addr : Nat) : State :=
  { s with parts := s.parts.map fun e =>
      if e.2.state = .disabled then e else (e.1, { e.2 with records := e.2.records ++ [eventRecord 0 code info addr] }) }

/-- A split handle (R374). -/
def handleOf (w : Wave) (k : Nat) : Word :=
  BitVec.ofNat 32 (mgetD w.gens k 0 % 2 ^ 15 * 2 ^ 17 + w.lquad % 2 ^ 11 * 2 ^ 6 + w.slot % 16 * 4 + k % 4)

/-- The generation of a split one higher, modulo 2^15 (R374). -/
def raiseGen (g : Map Nat) (k : Nat) : Map Nat := mput 0 g k ((mgetD g k 0 + 1) % 2 ^ 15)

/-- Parked splits released: each is ready, and one that was parked at ORIGIN restarts there (R154). -/
def Wave.unpark (w : Wave) (p : Nat → Split → Bool) : Wave :=
  { w with
    tx := if w.splits.any fun e => p e.1 e.2 && e.2.restarts then { w.tx with reads := freshKept w.tx.reads } else w.tx
    splits := mmap w.splits fun k sp => if p k sp then { sp with state := .ready, restarts := false } else sp }

/-- A split that the release of its wave's stop lets run: parked, with no table walk to wait for. -/
def Split.mayLeave (sp : Split) : Bool := sp.state == .parked && sp.walks.isEmpty

/-- Release a stopped wave: the generations of all its splits rise, for each of them stopped with it, and its parked splits run from their stop points (R374, R378, R381). -/
def resumeWave (w : Wave) (k : Nat) : Wave :=
  let ks := (w.splits.filter fun e => e.2.mayLeave).map fun e => e.1
  let others := dedup ((w.splits.map fun e => e.1).filter fun j => j != k)
  let w := { w with stop := none, gens := others.foldl raiseGen (raiseGen w.gens k) }.unpark fun _ sp => sp.mayLeave
  ks.foldl (fun w j => settle settleFuel w j) w

/-- The first fault that the wave's accesses have met since it stopped, now that it is released (R372): it stops the wave again. -/
def takeLate (s : State) (wid : Nat) : State :=
  match mget? s.waves wid with
  | none => s
  | some w =>
    if w.stop.isSome then s
    else match w.late.find? fun f => (mget? w.splits f.split).isSome with
      | none => putWave s { w with late := [] }
      | some f =>
        let w := { w with late := w.late.filter fun x => !(x == f) }
        let w := match f.region with
          | some m => w.reopen f.split m
          | none => w
        takeFault (putWave s w) w f.split f.pos f.rate ⟨f.code, 0, f.addr.toNat, f.mask, f.addrLabel, f.labels⟩

/-- A wave stopped at an entry, with its record written (R374). -/
def Wave.stoppedAt (w : Wave) (k : Nat) : Bool :=
  match w.stop with
  | none => false
  | some st => st.written && st.split == k

/-- The wave and entry that a current handle names: stopped, its record written, with the handle's GEN (R374). A BLOCK wave and its block's LANE wave 0 share a slot; one of them at most has begun and not ended. -/
def findHandle (s : State) (part : Nat) (h : Word) : Option (Wave × Nat) :=
  let n := h.toNat
  let k := n % 4
  (s.waves.find? fun e => e.2.part == part && e.2.place != .ended && e.2.lquad == bits n 16 6 && e.2.slot == bits n 5 2 &&
      mgetD e.2.gens k 0 == bits n 31 17 && e.2.stoppedAt k).map fun e => (e.2, k)

/-! ## Issuing -/

/-- The code object and entry that a wave of a launch executes. -/
def entryOf (s : State) (l : Launch) (e : Nat) : Option (CodeObj × EntryPt) :=
  match mget? s.objects l.codeObj with
  | none => none
  | some o => (o.entries[e]?).map fun x => (o, x)

/-- The issuing split and all that it runs with: a resident wave under its own number that is not stopped, a ready split, a launch and an entry. -/
def issuer (s : State) (h : Ctl) (act : Ctx → Mask) : Option Ctx :=
  match mget? s.waves s.cur.wave with
  | none => none
  | some w =>
    if w.id = s.cur.wave ∧ w.place = .resident ∧ w.stop = none then
      match mget? w.splits s.cur.split, mget? s.launches w.launch with
      | some sp, some l =>
        if sp.state = .ready then
          match entryOf s l w.entry with
          | none => none
          | some (o, e) =>
            let c : Ctx := { w := w, k := s.cur.split, sp := sp, pos := ⟨s.cur.hdrAddr, s.cur.idx⟩, hdr := s.cur.hdr.toNat,
                             h := h, act := 0, launch := l, obj := o, ent := e }
            some { c with act := act c }
        else none
      | _, _ => none
    else none

/-- The region in which the instruction issues. -/
def Ctx.mark (c : Ctx) : RegionMark := ⟨c.sp.region, c.sp.serial, c.sp.undo⟩

/-- The active lanes (R223): the split's lanes whose guard predicate, negated by GNEG, is 1. -/
def guardMask (c : Ctx) : Mask :=
  let p := c.w.pred c.h.guard.val
  c.sp.mask &&& (if c.h.gneg then ~~~p else p)

/-- Whether R52 lets an instruction of a rate use one held register: as a destination at its own producing rate alone, as a source on its rate's ancestor chain too. -/
def heldAllowed (c : Ctx) (write : Bool) (n : Nat) : Bool :=
  match sectionOf c.ent n with
  | some (p, _) => p == c.h.rate.num || (!write && onChain c.obj.draw c.h.rate (Rate.of p))
  | none => true

/-- Reason 12: a held register, each one of a pair or quad, used at a rate that R52 does not allow. IPA reads its vertices' registers and HFREE names any. -/
def heldReason (c : Ctx) (i : Instr) : Bool :=
  let bad := fun (write : Bool) (u : Nat × Cls × Opr) => match u.2.2 with
    | .h n => (List.range u.2.1.span).any fun j => !heldAllowed c write (n.val + j)
    | _ => false
  match i with
  | .hfree .. => false
  | .lblrd .. => i.uses.any (bad false)
  | .ipa .. => i.uses.any fun u => u.1 == 0 && bad true u
  | _ => i.uses.any fun u => bad (u.1 == 0 && i.writesD) u

/-- Waves whose group gives no default count (R325). -/
def Wave.isBlockWave (w : Wave) : Bool := w.role == .lane || w.role == .block || w.role == .launch

/-- The lowest context reason that an instruction meets at stage 3, but for reason 2, which its branch meets (R395). (DESIGN CHOICE: log 42) -/
def contextReason (s : State) (c : Ctx) (i : Instr) : Option Nat :=
  let flag := if c.h.fsel then hdrB c.hdr else hdrA c.hdr
  let rules : List (Nat × Bool) := [
    (1, c.inTx && i.txForbidden),
    (3, i.isLong && flag.isNone),
    (4, (match i with | .txe .. => !c.inTx | .retry .. => !c.inTx | _ => false)),
    (5, (match i with | .txb _ _ sc => c.inTx && decide (c.w.tx.depth < 4) && sc != c.w.tx.scope | _ => false)),
    (6, (i.lastOnly && c.pos.idx + 1 != hdrCount c.hdr) || (i.aloneOnly && hdrCount c.hdr != 1)),
    (9, (match i with | .tret .. => c.w.role != .trap | _ => false)),
    (10, (match i.barrierUse with
      | none => false
      | some (sc, a) =>
        let zero := match a with
          | some o => src s c o c.low == 0
          | none => false
        if c.w.isBlockWave then sc == .pod && zero else sc == .core || sc == .quad || zero)),
    (11, (match i.batchUse with
      | some o => let b := src s c o c.low; !(decide (b < c.w.batchNext) && decide (c.w.batchNext ≤ b + 16))
      | none => false)),
    (12, heldReason c i)]
  (rules.find? fun r => r.2).map fun r => r.1

/-- The claim that holds a slot. -/
def claimAt (b : Bench) (slot : Nat) : Option Claim :=
  b.claims.find? fun c => decide (c.first ≤ slot) && decide (slot < c.first + c.count)

/-- Element size in bits of a plat or bench format (R311); formats 10 to 15 are reserved. -/
def elemBits (f : Nat) : Nat :=
  if f = 0 ∨ f = 9 then 32 else if f = 1 ∨ f = 2 then 16 else if f = 5 ∨ f = 6 then 4 else 8

/-- k values that a tile row holds (R336). -/
def kcap (f : Nat) : Nat := 512 / elemBits f

/-- Bytes of block scales that a row takes (R336). -/
def scalesPer (c : Claim) : Nat := if c.blk = 0 then 0 else kcap c.format / (if c.blk = 1 then 32 else 64)

/-- The first byte of a tile's scale or super-scale that lies in an unclaimed slot, if any (R404). -/
def badScale (b : Bench) (c : Claim) (slot : Nat) : Option Nat :=
  let t := if c.roleB then (slot - c.first) / 2 else slot - c.first
  let r := if c.roleB then 64 else 32
  let n := scalesPer c
  let sc := (List.range (r * n)).map fun i => c.scoff + t * r * n + i
  let ss := if c.format = 6 then (List.range (r * 4)).map fun i => c.ssoff + 4 * t * r + i else []
  ((sc ++ ss).find? fun a => (claimAt b (a / 2048)).isNone || decide (65536 ≤ a)).map fun a => a / 2048

/-- The limits of R335 on BLK by FORMAT. -/
def blkOk (f blk : Nat) : Bool := if f = 5 then blk == 1 else if f = 6 then blk == 2 else if f = 3 ∨ f = 4 then blk == 0 || blk == 1 else blk == 0

/-- The claim that a reservation descriptor asks for, if the descriptor is well formed (R335). -/
def claimOf (d : Nat) : Option Claim :=
  let c : Claim := { first := bits d 4 0, count := bits d 10 5, format := bits d 14 11, roleB := tb d 17, blk := bits d 16 15,
                     scoff := bits d 47 32, ssoff := bits d 63 48 }
  if bits d 31 18 == 0 && decide (c.format ≤ 9) && blkOk c.format c.blk && c.count != 0 && (!c.roleB || (c.first % 2 == 0 && c.count % 2 == 0)) &&
      c.scoff % 16 == 0 && c.ssoff % 16 == 0 && (c.blk != 0 || c.scoff == 0) && (c.format == 6 || c.ssoff == 0) then some c
  else none

/-- Whether a control word of AST is well formed (R345, R404). -/
def astControlOk (v : AstV) (w : Nat) : Bool :=
  w / 256 == 0 && decide (bits w 6 4 ≤ 4) && (match v with
    | .i8 => bits w 7 4 == 0
    | .n8 => bits w 7 4 == 0
    | .i16 => bits w 7 4 == 0
    | _ => true)

/-- A bench slot that an instruction's fields misuse at stage 3 (R402, R404). -/
def benchErr (s : State) (c : Ctx) (i : Instr) : Option Nat :=
  let b := c.w.bench
  match i with
  | .mma _ _ _ _ _ a bb =>
    (match claimAt b a.val with
     | none => some a.val
     | some ca =>
       if ca.roleB then some a.val
       else match claimAt b bb.val with
         | none => some bb.val
         | some cb =>
           if !cb.roleB || bb.val % 2 != 0 then some bb.val
           else
             let int := fun f => f == 7 || f == 8
             if ca.format = 0 ∨ ca.format = 9 then some a.val
             else if cb.format = 0 ∨ cb.format = 9 then some bb.val
             else if int ca.format != int cb.format then some bb.val
             else match badScale b ca a.val with
               | some x => some x
               | none => badScale b cb bb.val)
  | .cpyp _ true _ _ _ o =>
    let slot := src s c o c.low
    (match b.claims.find? fun x => x.first == slot with
     | some _ => none
     | none => some slot)
  | .cpyc _ _ _ _ o =>
    let slot := src s c o c.low
    (match b.claims.find? fun x => x.first == slot with
     | some x => if x.roleB || x.format = 0 || x.format = 9 then some slot else none
     | none => some slot)
  | .bclaim _ a =>
    (match claimOf (src64 s c a c.low) with
     | none => none
     | some cl => (((List.range cl.count).map fun i => cl.first + i).find? fun x => decide (c.ent.bench ≤ x) || (claimAt b x).isSome).map fun x => x % 32)
  | .brel _ a =>
    let v := src s c a c.low
    let first := bits v 4 0
    let stop := first + bits v 10 5
    let part := fun (cl : Claim) => decide (cl.first < stop) && decide (first < cl.first + cl.count) &&
      !(decide (first ≤ cl.first) && decide (cl.first + cl.count ≤ stop))
    (minBy? (fun cl : Claim => cl.first) (b.claims.filter part)).map fun cl => cl.first
  | _ => none

/-- MMA `.sat` with the integer combination: an A tile and a B tile of integer formats (R341, R404). -/
def mmaSatErr (c : Ctx) (i : Instr) : List (Nat × Nat) :=
  let int := fun f => f == 7 || f == 8
  match i with
  | .mma _ true _ _ _ a bb => (match claimAt c.w.bench a.val, claimAt c.w.bench bb.val with
    | some ca, some cb => if !ca.roleB && cb.roleB && bb.val % 2 == 0 && int ca.format && int cb.format then [(6, 0)] else []
    | _, _ => [])
  | _ => []

/-- Operands whose values, rather than their codes, break a limit at stage 3: a reservation descriptor, the control word of AST, `.next` for a fault that allows no such return (R361, R394, R404). -/
def valueErrs (s : State) (c : Ctx) (i : Instr) : List (Nat × Nat) :=
  match i with
  | .bclaim _ a => if (claimOf (src64 s c a c.low)).isNone then [(1, a.code)] else []
  | .ast _ v d _ => if astControlOk v (src s c d c.low) then [] else [(0, d.code)]
  | .tret _ .next a =>
    (match (findHandle s c.w.part (readReg s c a 0 c.low)).bind fun x => x.1.stop with
     | some st => if keepsPc st.code then [] else [(6, 0)]
     | none => [])
  | _ => []

/-- The labels of an instruction's operand fields (R380). -/
def operandLabels (s : State) (c : Ctx) (i : Instr) : Label :=
  i.uses.foldl (fun acc u => if u.2.1 = .unread then acc else acc ||| labelOf s c u.2.2 u.2.1.span) 0 ||| softLabel s c.w.id i

/-- The element of a lane itself. -/
def ownElem (s : State) (c : Ctx) (l : Nat) : Option Elem := (mget? c.w.elems l).bind fun id => mget? s.elems id

/-- A rate that the program kind or the instruction does not allow (R42, R346, R405): HFREE stands at a rate of an element with a held record, which a wave without records has not. -/
def rateErr (s : State) (c : Ctx) (i : Instr) : Bool :=
  !rateLegal c.obj.draw c.h.rate || !i.rateOk c.obj.draw || (match i with
    | .hfree .. => c.w.role != .lane && (lanesOf c.sp.mask).any fun l => (ownElem s c l).isNone
    | _ => false)

/-- The OPERAND failures of a word: of its fields, and of the values that its operands hold (R394). -/
def operandErrs (s : State) (c : Ctx) (op : Nat) (i : Instr) (body : Nat) : List (Nat × Nat) :=
  fieldErrs (some (footprintOf c.obj c.ent)) op i c.h body ++ mmaSatErr c i ++ valueErrs s c i

/-- The stage-3 checks (R391): the fault of the lowest code (R393). (DESIGN CHOICE: log 42) -/
def stage3 (s : State) (c : Ctx) (i : Instr) : Option Halt :=
  let lbl := operandLabels s c i
  if rateErr s c i then some (.raise ⟨2, c.h.rate.num, 0, c.act, 0, lbl⟩)
  else match i.parts with
    | none => none
    | some (op, _, body) =>
      match lowestErr (operandErrs s c op i body) with
      | some e => some (operandFault c.act e.1 e.2 lbl)
      | none => match contextReason s c i with
        | some r => some (reasonFault c.act r lbl)
        | none => match benchErr s c i with
          | some slot => some (.raise ⟨9, slot, 0, c.act, 0, lbl⟩)
          | none => (match i with
            | .txb .. => if c.inTx && c.w.tx.depth == 4 then some (.raise ⟨10, 5, 0, c.act, 0, lbl⟩) else none
            | _ => none)

/-- The flag that a long-latency instruction counts on (R32). -/
def Ctx.flag (c : Ctx) : Nat := ((if c.h.fsel then hdrB c.hdr else hdrA c.hdr).getD 0)

/-- The checks common to every instruction word: an issuer, stages 2 and 3, and the hold of a full flag (R33). -/
def prelude (i : Instr) (s : State) : Except Halt Ctx :=
  match issuer s i.ctl (fun c => if i.unguarded then c.sp.mask else guardMask c) with
  | none => .error .noIssuer
  | some c => match stage3 s c i with
    | some e => .error e
    | none =>
      if i.isLong && c.act != 0 && decide (63 ≤ mgetD c.w.flags c.flag 0) then .error .hold else .ok c

/-- SOFT_ERROR of an instruction that touches storage with an uncorrectable error (R444): it performs nothing, and a lower code that its own checks give comes first (R393). -/
def withSoft (s : State) (c : Ctx) (i : Instr) (r : Except Halt State) : Except Halt State :=
  if softHit s c.w.id i && c.act != 0 then
    match r with
    | .error (.raise f) => if f.code < 0x11 then r else .error (.raise ⟨0x11, 0, 0, c.act, 0, operandLabels s c i⟩)
    | .error .hold => r
    | .error (.walk _) => r
    | _ => .error (.raise ⟨0x11, 0, 0, c.act, 0, operandLabels s c i⟩)
  else r

/-- Advance the executing split past its instruction. A closing instruction's successor becomes the region entry, but inside a transaction (R35, R149). -/
def advance (s : State) (c : Ctx) (closes : Bool) : State :=
  let w := theWave s c
  match mget? w.splits c.k with
  | none => s
  | some sp =>
    let p := nextPos c.pos c.hdr
    let sp := if closes then w.regionAt c.k sp p else sp
    putWave s (settle settleFuel (w.setSplit c.k (sp.goto p)) c.k)

/-- Park a split for table walks (R100): at its region entry by R37, or at ORIGIN in a transaction. (DESIGN CHOICE: log 39) -/
def parkForWalk (s : State) (c : Ctx) (vas : List DWord) : State :=
  let w := parkHere (theWave s c) c.k
  putWave (if c.inTx then releaseSerial s w.id else s) (w.setSplit c.k { (w.split c.k) with walks := vas })

/-- What a halt does to the machine: a hold changes nothing, a fault takes the exception. -/
def halted (s : State) (c : Option Ctx) (e : Halt) : Host.Outcome State Fault Refusal :=
  match e, c with
  | .noIssuer, _ => .fault .noIssuer
  | .hold, _ => .next s
  | .stay s', _ => .next s'
  | .walk _, none => .fault .noIssuer
  | .walk vas, some c => .next (parkForWalk s c vas)
  | .raise _, none => .fault .noIssuer
  | .raise f, some c => .next (takeFault s (theWave s c) c.k c.pos c.h.rate.num f)

/-- The issuing context, for a halt of the prelude. (DESIGN CHOICE: log 35) -/
def issuerOf (i : Instr) (s : State) : Option Ctx :=
  issuer s i.ctl (fun c => if i.unguarded then c.sp.mask else guardMask c)

/-- Destination registers wholly written lose their mark of an uncorrectable error (R444). (DESIGN CHOICE: log 48) -/
def clearSoft (s : State) (c : Ctx) (i : Instr) : State :=
  match i.uses with
  | (0, cls, o) :: _ =>
    if s.soft = [] then s
    else if i.writesD && (o.isScalar || coversWave c.w c.act) then
      { s with soft := s.soft.filter fun m => !((List.range cls.span).any fun j => m == .reg c.w.id (o.code + j) || m == .regLabel c.w.id (o.code + j)) }
    else s
  | _ => s

/-- Run an instruction word whose body does its effect for the active lanes; then the split advances. An instruction with no active lane only advances (R251). -/
def runWord (i : Instr) (s : State) (body : Ctx → Except Halt State) : Host.Outcome State Fault Refusal :=
  match prelude i s with
  | .error e => halted s (issuerOf i s) e
  | .ok c =>
    if c.act = 0 then .next (advance s c i.closes)
    else match withSoft s c i (body c) with
      | .error e => halted s (some c) e
      | .ok s' => .next (advance (clearSoft s' c i) c i.closes)

/-- The label of a result: the sources' labels, the context label and the guard's (R177). (DEDUCED: log 41) -/
def resultLabel (s : State) (c : Ctx) (i : Instr) : Label := sourceLabel s c i ||| c.ctx

/-- An instruction word that writes `n` registers of a destination, lane by lane (R251). -/
def runAlu (i : Instr) (s : State) (d : Opr) (n : Nat) (f : Ctx → Nat → List Word) : Host.Outcome State Fault Refusal :=
  runWord i s fun c => .ok (writeDst s c d n (f c) (resultLabel s c i))

/-- An instruction word that writes a truth value: a predicate, or all ones or zero (R268, R286, R287). -/
def runTest (i : Instr) (s : State) (d : Opr) (f : Ctx → Nat → Bool) : Host.Outcome State Fault Refusal :=
  runAlu i s d 1 fun c l => [if f c l then 0xFFFFFFFF else 0]

/-- Run an instruction word whose body also moves the split. -/
def runJump (i : Instr) (s : State) (body : Ctx → Except Halt State) : Host.Outcome State Fault Refusal :=
  match prelude i s with
  | .error e => halted s (issuerOf i s) e
  | .ok c => match withSoft s c i (body c) with
    | .error e => halted s (some c) e
    | .ok s' => .next s'

end Sys2Proof.Machine
end

