-- ==== Sys2Proof/Machine/Flags.lean ====
section
/-! DEFINITION. Completion flags and long-latency instructions (R31 to R34), and the conditions that compares and bit functions give (R267, R268, R286). -/
namespace Sys2Proof.Machine

/-! ## Completion flags (R31, R32) -/

/-- The pending count of a flag. -/
def Wave.flag (w : Wave) (f : Nat) : Nat := mgetD w.flags f 0

/-- A flag's count changed. -/
def Wave.setFlag (w : Wave) (f n : Nat) : Wave := { w with flags := mput 0 w.flags f n }

/-- Whether every flag of a mask is clear. -/
def flagsClear (w : Wave) (mask : Nat) : Bool := (List.range 12).all fun f => !tb mask f || w.flag f == 0

/-- Whether every flag of a header's wait mask is clear (R31). -/
def waitClear (w : Wave) (hdr : Nat) : Bool := flagsClear w (hdrWait hdr)

/-- Start a long-latency instruction: its flag rises by 1 (R32). -/
def startLong (s : State) (c : Ctx) (closes uniform : Bool) (what : LongWhat) : State :=
  let w := theWave s c
  let op : LongOp := { id := s.issued, flag := c.flag, split := c.k, serial := (w.split c.k).serial, closing := closes && !c.inTx,
                       act := c.act, uniform := uniform, what := what, dead := false }
  putWave { s with issued := s.issued + 1 } { w.setFlag c.flag (w.flag c.flag + 1) with long := w.long ++ [op] }

/-- Splits that wait on flags which are all clear now are ready (R20, R31). -/
def readyWaiters (w : Wave) : Wave :=
  { w with splits := mmap w.splits fun _ sp => if sp.state = .waiting ∧ flagsClear w sp.waits then { sp with state := .ready } else sp }

/-- The completion event of a long-latency instruction: its flag falls by 1 (R32), and the splits that waited for it are ready. -/
def finishLong (s : State) (wid : Nat) (op : LongOp) : State :=
  { s with waves := mmodify s.waves wid fun w =>
      readyWaiters { w.setFlag op.flag (w.flag op.flag - 1) with long := w.long.filter fun o => o.id != op.id } }

/-- A long-latency instruction of a wave. -/
def findLong (w : Wave) (id : Nat) : Option LongOp := w.long.find? fun o => o.id == id

/-! ## Conditions -/

/-- An integer compare (R268). -/
def Cmp.test (c : Cmp) (a b : Int) : Bool :=
  match c with
  | .eq => a == b | .ne => a != b | .lt => decide (a < b) | .le => decide (a ≤ b) | .gt => decide (b < a) | .ge => decide (b ≤ a)

/-- How a compare combines with a predicate (R268). -/
def Comb.apply (c : Comb) (r p : Bool) : Bool :=
  match c with
  | .none => r | .and => r && p | .or => r || p | .xor => r != p

/-- A floating compare (R286): unordered operands make `.un` true and every other compare but `.ne` false. -/
def FCmpOp.test (c : FCmpOp) (a b : Num) : Bool :=
  let un := a.isNan || b.isNan
  let o := a.compare b
  match c with
  | .un => un
  | .ord => !un
  | .ne => un || o != .eq
  | .eq => !un && o == .eq
  | .lt => !un && o == .lt
  | .le => !un && o != .gt
  | .gt => !un && o == .gt
  | .ge => !un && o != .lt

/-- A two-input bit function (R267). -/
def Fn2.eval (f : Fn2) (x y : Bool) : Bool :=
  match f with
  | .zero => false | .and => x && y | .or => x || y | .xor => x != y | .x => x | .y => y | .nx => !x | .ny => !y
  | .nand => !(x && y) | .nor => !(x || y) | .xnor => x == y | .bic => x && !y | .bicr => !x && y | .orn => x || !y
  | .ornr => !x || y | .one => true

/-- An integer type reads a value as signed. -/
def itypeSigned : IType → Bool
  | .i32 => true | .i64 => true | .i16 => true | .i8 => true
  | _ => false

/-- The width of an integer type in bits. -/
def itypeBits : IType → Nat
  | .i32 => 32 | .n32 => 32 | .i64 => 64 | .n64 => 64 | .i16 => 16 | .n16 => 16 | .i8 => 8 | .n8 => 8

/-- The integer that a value stands for in a type (R130). -/
def itypeValue (t : IType) (v : Nat) : Int := if itypeSigned t then sextN (itypeBits t) v else ((v % 2 ^ itypeBits t : Nat) : Int)

end Sys2Proof.Machine
end

