-- ==== Sys2Proof/Machine/Cache.lean ====
section
/-! DEFINITION. Shadows folded and the caches: which lines the L1s, the L2 slices and the remote-data caches hold, and what leaves them (R88 to R96, R99, R106, R108, R145, R146, R208). An L1 holds data; the L2 and the remote-data caches hold tags alone, because what they answer is the home copy (R106). -/
namespace Sys2Proof.Machine

/-! ## Shadows (R145, R146) -/

/-- Fold a line: its elements take their shadows' values, and the extension is detached (R145, R146). A fold wakes no one (R159). -/
def foldLine (s : State) (line : Nat) : State :=
  let b := bandOf s line
  match b.shadow with
  | none => s
  | some sh => putBand (writeBytes s (lineLoc line) (sh.bytes.take 128)) line { b with shadow := none }

/-- Fold the line of a place. -/
def foldAt (s : State) (l : Loc) : State :=
  match l.homeLine with
  | some line => foldLine s line
  | none => s

/-- Fold what a read folds: a standard extension; exact shadows stay attached. -/
def foldForRead (s : State) (l : Loc) : State :=
  match l.homeLine with
  | none => s
  | some line => match (bandOf s line).shadow with
    | some (.std _ _) => foldLine s line
    | _ => s

/-- Whether exact shadows pin a line in its slice (R146). -/
def pinned (s : State) (line : Nat) : Bool := match (bandOf s line).shadow with | some (.exact _ _) => true | _ => false

/-! ## Remote-data caches (R89, R92, R94, R95) -/

/-- The set of a line within a remote-data cache's slice. (DESIGN CHOICE: log 40) -/
def rdcSet (line : Nat) : Nat := line / 32 % 256

/-- A line that a die's remote-data cache holds under a key id. -/
def rdcFind (s : State) (die : Nat) (host : Bool) (line keyId : Nat) : Option RdcLine :=
  s.rdc.find? fun x => x.die == die && x.host == host && x.line == line && x.keyId == keyId

/-- A line dropped from a die's remote-data cache. -/
def rdcDrop (s : State) (die : Nat) (host : Bool) (line : Nat) : State :=
  { s with rdc := s.rdc.filter fun x => !(x.die == die && x.host == host && x.line == line) }

/-- A line filled into a die's remote-data cache; the oldest line of a full set leaves. (DESIGN CHOICE: log 40) -/
def rdcFill (s : State) (die : Nat) (host : Bool) (line keyId lsi : Nat) : State :=
  let s := rdcDrop s die host line
  let set := s.rdc.filter fun x => x.die == die && rdcSliceOf (x.line * 128) == rdcSliceOf (line * 128) && rdcSet x.line == rdcSet line
  match (List.range 16).find? fun k => set.all fun x => x.way != k with
  | some k => { s with rdc := s.rdc ++ [⟨die, host, line, k, keyId, lsi⟩] }
  | none => match set with
    | [] => s
    | old :: _ => { s with rdc := (s.rdc.filter fun x => x != old) ++ [⟨die, host, line, old.way, keyId, lsi⟩] }

/-- Every remote copy of a device line invalidated, and its presence vector cleared (R92). -/
def claimLine (s : State) (line : Nat) : State :=
  putBand { s with rdc := s.rdc.filter fun x => x.host || x.line != line } line { bandOf s line with presence := 0 }

/-! ## The L2 (R89, R92, R93, R96, R208) -/

/-- The set of a line within its home slice. (DESIGN CHOICE: log 40) -/
def l2Set (line : Nat) : Nat := line / 64 % 256

/-- Ways that the running launches of a partition hold for element records, as a mask (R55, R208). -/
def waysHeld (s : State) (part : Nat) : Nat :=
  s.launches.foldl (fun m e => if e.2.part = part ∧ e.2.state = .running then m ||| e.2.ways else m) 0

/-- The ways that a partition's fills may take: its mask but for the held ways (R208). -/
def fillWays (s : State) (part : Nat) : List Nat :=
  match mget? s.parts part with
  | none => []
  | some p => (List.range 16).filter fun k => tb p.l2ways.toNat k && !tb (waysHeld s part) k

/-- The tag of a line in its home slice. -/
def l2Find (s : State) (line : Nat) : Option L2Line := s.l2.find? fun x => x.line == line

/-- A line leaves its home slice: it is written back, its shadow folded first, and every remote copy is invalidated (R92, R96, R145). -/
def l2Drop (s : State) (line : Nat) : State :=
  let s := claimLine (foldLine s line) line
  { s with l2 := s.l2.filter fun x => x.line != line }

/-- Rank of a line for replacement. -/
def L2Rank.num : L2Rank → Nat
  | .evictFirst => 0
  | .normal => 1
  | .evictLast => 2

/-- The label-set index of a line's frame (R96, R102). -/
def lsiOf (s : State) (line : Nat) : Nat := (Memory.read s.mem (frameTable + line / 256)).toNat

/-- A line of device memory looked up in its home slice and filled where it is absent: into a free way that the partition may fill, else in place of the line that stands first for replacement and that no exact shadow pins; where there is none, the line is not held. (DESIGN CHOICE: log 40) -/
def l2Fill (s : State) (part line : Nat) (rank : L2Rank) : State :=
  match l2Find s line with
  | some x => { s with l2 := (s.l2.filter fun y => y.line != line) ++ [x] }
  | none =>
    let ways := fillWays s part
    let set := s.l2.filter fun x => sliceOfLine x.line == sliceOfLine line && l2Set x.line == l2Set line
    match ways.find? fun k => set.all fun x => x.way != k with
    | some k => { s with l2 := s.l2 ++ [⟨line, k, rank, lsiOf s line⟩] }
    | none => match minBy? (fun x : L2Line => x.rank.num) (set.filter fun x => x.way ∈ ways && !pinned s x.line) with
      | none => s
      | some old =>
        let s := l2Drop s old.line
        { s with l2 := s.l2 ++ [⟨line, old.way, rank, lsiOf s line⟩] }

/-- The lines that stand in some ways of every slice leave, but for those that exact shadows pin (R146): a launch takes the ways for its held store (R55, R208). -/
def l2Clear (s : State) (ways : Nat) : State :=
  (s.l2.filter fun x => tb ways x.way && !pinned s x.line).foldl (fun s x => l2Drop s x.line) s

/-- A line found under another key id is written back, dropped and filled again under the access's own (R95). (PRESUMED: log 53) -/
def rekey (s : State) (line keyId : Nat) : State :=
  let old := (bandOf s line).keyId
  if old = keyId then s
  else
    let bs := rekeyed s line old keyId (homeBytes s (lineLoc line) 128)
    let s := l2Drop s line
    putBand (writeBytes s (lineLoc line) (bs.take 128)) line { bandOf s line with keyId := keyId }

/-- An access from a die reaches the home copy of a place through the caches that its page and hint allow (R92 to R95): the line takes the page's key, a read folds a standard shadow, a device line is held by its home slice, and a read from another die, or of host memory, by that die's remote-data cache. -/
def reach (s : State) (part die : Nat) (read : Bool) (hint : Hint) (page : PageAttr) (l : Loc) : State :=
  let cached := page.cache == 0 && hint != .strm
  match l with
  | .dev pa =>
    let line := pa / 128
    let s := rekey s line page.keyId
    let s := if read then foldForRead s l else s
    if page.cache = 2 ∨ (read ∧ die ≠ dieOf pa ∧ (rdcFind s die false line page.keyId).isSome) then s
    else
      let s := l2Fill s part line (if !cached then .evictFirst else if hint = .keep then .evictLast else .normal)
      match l2Find s line with
      | none => s
      | some x =>
        if read && cached && die != dieOf pa then
          let s := rdcFill s die false line page.keyId x.lsi
          putBand s line { bandOf s line with presence := (bandOf s line).presence ||| BitVec.ofNat 8 (2 ^ die) }
        else s
  | .host pa =>
    if read && cached && (rdcFind s die true (pa / 128) page.keyId).isNone then rdcFill s die true (pa / 128) page.keyId 0 else s
  | .pkg _ _ => if read then foldForRead s l else s
  | .scr _ _ => s

/-- Reads of several places that an engine makes for a partition on a die (R119, R122). -/
def reachAll (s : State) (part die : Nat) (ls : List (Loc × PageAttr)) : State :=
  ls.foldl (fun s l => reach s part die true .dflt l.2 l.1) s

/-! ## L1 copies (R88, R89, R91, R108, R208) -/

/-- The line of a core's L1, if present. -/
def l1Find (s : State) (core line : Nat) : Option L1Line := s.l1.find? fun x => x.core == core && x.line == line

/-- Bytes written into a core's L1 copy of a line, if present. -/
def l1Write (s : State) (core line off : Nat) (bs : List Byte) : State :=
  { s with l1 := s.l1.map fun x =>
      if x.core = core ∧ x.line = line then
        { x with data := (List.range 128).map fun i =>
            if off ≤ i ∧ i < off + bs.length then nthD bs (i - off) 0 else nthD x.data i 0 }
      else x }

/-- A line dropped from a core's L1. (DESIGN CHOICE: log 40) -/
def l1Drop (s : State) (core line : Nat) : State :=
  { s with l1 := s.l1.filter fun x => !(x.core == core && x.line == line) }

/-- A line filled into a core's L1 as its home copy stands, into a way of the partition's mask; a resident line keeps its way and its constant mark, and the oldest line of a full set leaves. (DESIGN CHOICE: log 40) -/
def l1Fill (s : State) (core part line : Nat) (constant : Option Nat) : State :=
  let data := homeBytes s (.dev (line * 128)) 128
  match l1Find s core line with
  | some x =>
    { s with l1 := (s.l1.filter fun y => !(y.core == core && y.line == line)) ++ [{ x with data := data, constant := constant.or x.constant }] }
  | none =>
    let ways := match mget? s.parts part with
      | some p => (List.range 16).filter fun k => tb p.l1ways.toNat k
      | none => []
    let set := s.l1.filter fun x => x.core == core && x.line % 64 == line % 64
    match ways.find? fun k => set.all fun x => x.way != k with
    | some k => { s with l1 := s.l1 ++ [⟨core, line, k, data, constant⟩] }
    | none => match set.filter fun x => x.way ∈ ways with
      | [] => s
      | old :: _ => { s with l1 := (s.l1.filter fun x => x != old) ++ [⟨core, line, old.way, data, constant⟩] }

/-- What an acquire at quad scope or wider drops: every line of the core's L1 that is not constant (R114). -/
def acquire (s : State) (core : Nat) (sc : Scope) : State :=
  if sc.num < 2 then s else { s with l1 := s.l1.filter fun x => x.core != core || x.constant.isSome }

end Sys2Proof.Machine
end

