-- ==== Sys2Proof/Machine/Home.lean ====
section
/-! DEFINITION. The home copy: reads, writes and reductions that perform there, with what each does to shadows, writer records, presence vectors, L1 copies, transactions and sleepers (R91, R92, R105 to R109, R145 to R147, R153, R159, R207, R417). -/
namespace Sys2Proof.Machine

/-- Who performs a write: its core if it has one, its wave, whether it is the commit of that wave's transaction, its launch, and its writer key (R207). -/
structure Agent where
  core : Option Nat
  commitOf : Option Nat
  launch : Option Nat
  key : Word
  deriving DecidableEq, Repr

/-- The outside world and the units of the module that are no core. -/
def Agent.outside : Agent := ⟨none, none, none, 0xFFFFFFFF⟩

/-- A wave's ordinary accesses. -/
def Agent.ofWave (w : Wave) : Agent := ⟨some (coreOf w.quad), none, some w.launch, w.lblock⟩

/-! ## Wakes and conflicts (R153, R159, R421) -/

/-- The keys that a write to a line wakes: the line, and the broad waiters of its slice, core and die. -/
def wakeKeys : LineKey → List WakeKey
  | .dev l => [.line (.dev l), .slice (dieOf (l * 128)) (sliceOf (l * 128)), .die (dieOf (l * 128))]
  | .scr c l => [.line (.scr c l), .bankCore c, .die (dieOfCore c)]
  | k => [.line k]

/-- A queue that waits on a word is woken by a key (R191). -/
def QueueWait.hear (q : QueueWait) (ks : List WakeKey) : QueueWait :=
  match q with
  | .word k woken => .word k (woken || k ∈ ks)
  | q => q

/-- Wake every split and queue registered under one of the keys; WAKE_RESTART makes a split runnable, CMD_WAIT_WAKE a queue. -/
def wake (s : State) (ks : List WakeKey) : State :=
  let hit := s.regs.filter fun r => r.key ∈ ks
  { s with parts := mmap s.parts (fun _ p => { p with queues := mmap p.queues fun _ q => { q with wait := q.wait.hear ks } })
           waves := hit.foldl (fun ws r => mmodify ws r.wave fun w => { w with pendingWake := addNat r.split w.pendingWake }) s.waves }

/-- Whether an agent lies within the scope of a wave's transaction (R153). -/
def Agent.within (a : Agent) (w : Wave) : Bool :=
  match a.core with
  | none => false
  | some c => match w.tx.scope with
    | .core => coreOf w.quad == c
    | .die => dieOfCore c == dieOfQuadrant w.quad
    | .pkg => true

/-- A write of an agent, seen by the read set of a wave. -/
def Wave.seesWrite (w : Wave) (a : Agent) (l : LineKey) : Wave :=
  if a.commitOf = some w.id then w
  else if w.tx.reads.any fun r => r.line == l then
    { w with tx := { w.tx with reads := w.tx.reads.map fun r =>
        if r.line = l then { r with written := true, conflict := r.conflict || (r.live && w.tx.depth != 0 && a.within w) } else r } }
  else w

/-- What a write to a line does besides its bytes: it reaches the read sets that hold the line, and wakes the sleepers. -/
def noteWrite (s : State) (a : Agent) (l : LineKey) : State :=
  wake { s with waves := mmap s.waves fun _ w => w.seesWrite a l } (wakeKeys l)

/-! ## Writer records (R207) -/

/-- The writer record of a line after a write of a deterministic launch. -/
def noteWriter (s : State) (a : Agent) (line : Nat) : State :=
  match a.launch with
  | none => s
  | some id => match mget? s.launches id with
    | none => s
    | some l =>
      if l.determ then
        let b := bandOf s line
        let b' := if b.launch ≠ id then
            { b with launch := id, epochTag := l.epoch, wcnt := 1, lastw := a.key }
          else if b.epochTag ≠ l.epoch ∨ b.wcnt = 0 then { b with epochTag := l.epoch, wcnt := 1, lastw := a.key }
          else if b.lastw = a.key then b
          else { b with wcnt := min (b.wcnt + 1) 3, lastw := a.key }
        putBand s line b'
      else s

/-! ## Writes and reductions at home (R92, R108, R145 to R147) -/

/-- What a write does at its home slice besides its bytes and the sleepers: it invalidates the remote copies, and reaches the writing core's L1 copy (R92, R108). -/
def claimFor (s : State) (a : Agent) (pa : Nat) (bs : List Byte) : State :=
  let s := claimLine s (pa / 128)
  match a.core with
  | some c => l1Write s c (pa / 128) (pa % 128) bs
  | none => s

/-- Whether a serial-mode transaction has locked the line of a place (R157). -/
def lineHeld (s : State) (l : Loc) : Bool := s.txLocks.any fun x => x.2 == l.line

/-- A write that performs at the home copy, the bank, another package or host memory: it folds the line first, invalidates RDC copies, and reaches the writing core's L1 copy, the writer record, the read sets and the sleepers. -/
def homeWrite (s : State) (a : Agent) (l : Loc) (bs : List Byte) : State :=
  let s := writeBytes (foldAt s l) l bs
  noteWrite (match l with
    | .dev pa => noteWriter (claimFor s a pa bs) a (pa / 128)
    | _ => s) a l.line

/-- The write of a RED that is no floating add: a write that no writer record shows (R207, R309). -/
def homeRed (s : State) (a : Agent) (l : Loc) (bs : List Byte) : State :=
  let s := writeBytes (foldAt s l) l bs
  noteWrite (match l with
    | .dev pa => claimFor s a pa bs
    | _ => s) a l.line

/-- A line's mark of poison cleared by a write of the whole line (R417). -/
def unpoison (s : State) (line : Nat) : State := { s with poisoned := s.poisoned.filter fun x => x != line }

/-- An event of a launch: a record of its partition with its logical block index (R431). -/
def launchEvent (s : State) (lid code info addr : Nat) (lblock : Word) : State :=
  match mget? s.launches lid with
  | none => s
  | some l => pushEvent s l.part { eventRecord lid code info addr with lblock := lblock }

/-- The loss of determinism on a die, reported once for each launch (R442). -/
def detLost (s : State) (lid pa reason : Nat) : State :=
  match mget? s.launches lid with
  | none => s
  | some l =>
    let d := dieOf pa
    if d ∈ l.detLost then s
    else launchEvent { s with launches := mset s.launches lid { l with detLost := addNat d l.detLost } } lid 0x38 reason (pa / 128 * 128) 0xFFFFFFFF

/-- Elements of a line of a format, as values. -/
def lineNums (s : State) (line : Nat) (v : RedV) : List Num :=
  (List.range (128 / v.bytes)).map fun i => v.format.value (leNat (readBytes s ((lineLoc line).plus (i * v.bytes)) v.bytes))

/-- Lines of one slice whose side bands meet a condition. -/
def sliceLines (s : State) (line : Nat) (p : Shadow → Bool) : List (Nat × LineBand) :=
  s.bands.filter fun e => sliceOfLine e.1 == sliceOfLine line && (match e.2.shadow with | some sh => p sh | none => false)

/-- Standard extensions attached in the slice of a line. -/
def stdLines (s : State) (line : Nat) : List (Nat × LineBand) := sliceLines s line fun sh => match sh with | .std _ _ => true | _ => false

/-- Lines pinned by exact shadows in the slice of a line. -/
def pinnedLines (s : State) (line : Nat) : List (Nat × LineBand) := sliceLines s line fun sh => match sh with | .exact _ _ => true | _ => false

/-- A RED add that leaves the line's elements unchanged reaches the line: remote copies go, the issuing core's L1 copy is dropped, and the read sets and sleepers see a write (R92, R108, R153, R159). -/
def noteRed (s : State) (a : Agent) (l : Loc) (line : Nat) : State :=
  let s := claimLine s line
  noteWrite (match a.core with
    | some c => l1Drop s c line
    | none => s) a l.line

/-- The shadow of a line after a fold that a RED of a format needs: a shadow of another kind or format folds first. -/
def foldOther (s : State) (line : Nat) (keep : Shadow → Bool) : State :=
  match (bandOf s line).shadow with
  | some sh => if keep sh then s else foldLine s line
  | none => s

/-- The lowest index of the slice's shadow area that no line's extension takes (R96, R145). (DESIGN CHOICE: log 40) -/
def freeShidx (taken : List (Nat × LineBand)) : Nat :=
  ((List.range (taken.length + 1)).find? fun i => taken.all fun e => e.2.shidx != i).getD 0

/-- A standard extension attached to a line that has none, each element's shadow set to its value; a slice whose extensions are all attached folds its least recently used one first (R145). -/
def attachStd (s : State) (line : Nat) (v : RedV) : State :=
  let full := stdLines s line
  let s := if full.length ≥ 32768 then
      (match minBy? (fun e : Nat × LineBand => e.2.used) full with
       | some e => foldLine s e.1
       | none => s)
    else s
  putBand s line { bandOf s line with
    shidx := freeShidx (stdLines s line)
    shadow := some (.std v ((lineNums s line v).map fun n => BitVec.ofNat 32 (f32.convert .rne false 0 n))) }

/-- A floating RED add in a launch that is not deterministic, or on a line that has lost determinism (R145). -/
def redStd (s : State) (a : Agent) (v : RedV) (l : Loc) (line : Nat) (x : Num) : State :=
  let s := foldOther s line fun sh => match sh with | .std f _ => f == v | .exact _ _ => false
  if v = .addF32 then
    let old := f32.value (leNat (readBytes s l 4))
    let bs := leBytes 4 (f32.result .rne false 0 (Num.add .rne old x))
    let s := claimLine (writeBytes s l bs) line
    noteWrite (match a.core with
      | some c => l1Write s c line (l.addr % 128) bs
      | none => s) a l.line
  else
    let i := l.addr % 128 / v.bytes
    let s := if (bandOf s line).shadow.isSome then s else attachStd s line v
    let b := bandOf s line
    let vals := match b.shadow with
      | some (.std _ vs) => setAt vs i (BitVec.ofNat 32 (f32.result .rne false 0 (Num.add .rne (f32.value (nthD vs i 0).toNat) x)))
      | _ => []
    noteRed (putBand s line { b with shadow := some (.std v vals), used := s.clock }) a l line

/-- A line loses determinism for a launch until that launch's epoch ends (R442). Its writer record is untouched: a RED writes none (R207). -/
def loseLine (s : State) (lid line pa reason : Nat) : State :=
  let b := bandOf s line
  detLost (putBand s line { b with lost := addNat lid b.lost }) lid pa reason

/-- A floating RED add of a deterministic launch (R146, R442). -/
def redExact (s : State) (a : Agent) (lid : Nat) (v : RedV) (l : Loc) (line : Nat) (x : Num) : State :=
  let s := foldOther s line fun sh => match sh with | .exact f _ => f == v | .std _ _ => false
  let i := l.addr % 128 / v.bytes
  let put := fun (s : State) (vals : List Exact) (e : Exact) =>
    noteRed (putBand s line { bandOf s line with shadow := some (.exact v (setAt vals i e)), used := s.clock }) a l line
  match (bandOf s line).shadow with
  | some (.exact _ vals) =>
    let e := Exact.add (nthD vals i ⟨0, false, false, false⟩) x
    if e.fits then put s vals e else redStd (loseLine (foldLine s line) lid line l.addr 2) a v l line x
  | _ =>
    if (pinnedLines s line).length ≥ 64 then redStd (loseLine s lid line l.addr 1) a v l line x
    else
      let vals := (lineNums s line v).map Exact.of
      put s vals (Exact.add (nthD vals i ⟨0, false, false, false⟩) x)

/-- Whether a line of a launch stays under R145 until its epoch ends (R442). -/
def lostLine (s : State) (lid line : Nat) : Bool := decide (lid ∈ (bandOf s line).lost)

/-- round_rne(o + v) in a format, on patterns. -/
def addBits (f : Format) (o v : Nat) : Nat := f.result .rne false 0 (Num.add .rne (f.value o) (f.value v))

/-- A floating RED add of an operand pattern that performs at a home slice of this package or another (R145, R146, R309), or at host memory, which keeps no shadow. (DESIGN CHOICE: log 40) -/
def redFloat (s : State) (a : Agent) (v : RedV) (l : Loc) (x : Nat) : State :=
  match l.homeLine with
  | none => homeWrite s a l (leBytes v.bytes (addBits v.format (leNat (readBytes s l v.bytes)) x))
  | some line =>
    match a.launch.bind fun lid => (mget? s.launches lid).map fun l => (lid, l) with
    | none => redStd s a v l line (v.format.value x)
    | some (lid, la) =>
      if la.determ && !lostLine s lid line then redExact s a lid v l line (v.format.value x)
      else redStd s a v l line (v.format.value x)

/-- The end of an epoch of a launch (R146, R207, R443): every exact shadow of the module folds, races are reported die by die, and the epoch advances. (DEDUCED: log 66) -/
def endEpoch (s : State) (lid : Nat) : State :=
  match mget? s.launches lid with
  | none => s
  | some l =>
    if !l.determ then s
    else
      let exacts := s.bands.filter fun e => match e.2.shadow with | some (.exact _ _) => true | _ => false
      let s := exacts.foldl (fun s e => foldLine s e.1) s
      let raced := s.bands.filter fun e => e.2.launch == lid && e.2.epochTag == l.epoch && decide (2 ≤ e.2.wcnt)
      let s := (List.range 8).foldl (fun s d =>
        let mine := raced.filter fun e => dieOf (e.1 * 128) == d
        ((mine.take 256).zipIdx).foldl (fun s e =>
          let more := e.2 == 255 && decide (256 < mine.length)
          launchEvent s lid 0x3D (e.1.2.wcnt + (if more then 2 ^ 31 else 0)) (e.1.1 * 128) e.1.2.lastw) s) s
      let next := (l.epoch + 1) % 256
      let bands := s.bands.map fun e =>
        let b := { e.2 with lost := e.2.lost.filter fun x => x != lid }
        (e.1, if b.launch = lid ∧ next = 0 then { b with wcnt := 0, lastw := 0 } else b)
      { s with bands := bands.filter (fun e => e.2 != LineBand.blank), launches := mset s.launches lid { l with epoch := next } }

end Sys2Proof.Machine
end

