-- ==== Sys2Proof/Machine/Layout.lean ====
section
/-! DEFINITION. The quadrants and scratchpad banks of a partition, and where a scratchpad address lies (R84 to R86, R208, R209, R211). -/
namespace Sys2Proof.Machine

/-- An entry of a quadrant map names a physical quad, 0 to 95. One with VALID set and a higher PQUAD, which R209 does not allow, names none. (DESIGN CHOICE: log 59) -/
def qValid (e : Word) : Bool := e.msb && decide (bits e.toNat 22 16 < 96)
/-- PQUAD of a quadrant-map entry. -/
def qPhys (e : Word) : Nat := bits e.toNat 22 16
/-- QMASK of a quadrant-map entry. -/
def qMask (e : Word) : Nat := e.toNat % 65536

/-- Whether a partition owns a physical quadrant. -/
def ownsQuadrant (p : Partition) (quad : Nat) : Bool :=
  p.qmap.any fun e => qValid e.2 && qPhys e.2 == quad / 16 && tb (qMask e.2) (quad % 16)

/-- The logical number of a physical quadrant (R209). -/
def logicalOf (p : Partition) (quad : Nat) : Option Nat :=
  (p.qmap.find? fun e => qValid e.2 && qPhys e.2 == quad / 16 && tb (qMask e.2) (quad % 16)).map fun e => e.1 * 16 + quad % 16

/-- The physical quadrant of a logical number that the partition owns. -/
def physicalOf (p : Partition) (l : Nat) : Option Nat :=
  match mget? p.qmap (l / 16) with
  | none => none
  | some e => if qValid e && tb (qMask e) (l % 16) then some (qPhys e * 16 + l % 16) else none

/-- The logical quadrants that a partition owns on a die, ascending. -/
def quadrantsOn (p : Partition) (die : Nat) : List Nat :=
  p.qmap.flatMap fun e =>
    if qValid e.2 && qPhys e.2 / 12 == die then ((List.range 16).filter fun q => tb (qMask e.2) q).map fun q => e.1 * 16 + q else []

/-- q_d (R209). -/
def quadCount (p : Partition) (die : Nat) : Nat := (quadrantsOn p die).length

/-- BANKOWN before it is written: quadrant q owns banks 8q to 8q + 7 (R208). (DESIGN CHOICE: log 4) -/
def bankDefault : DWord := 0xFFFFAAAA55550000

/-- The owning quadrant of a core's bank (R211). -/
def bankQuad (p : Partition) (core k : Nat) : Nat := (mgetD p.bankown core bankDefault).toNat / 2 ^ (2 * k) % 4

/-- The banks of a core that a partition owns, ascending (R86). -/
def ownedBanks (p : Partition) (core : Nat) : List Nat :=
  (List.range 32).filter fun k => ownsQuadrant p (core * 4 + bankQuad p core k)

/-- The physical byte of a core's scratchpad that an offset of a partition's scratchpad space names (R86). -/
def spaceByte (p : Partition) (core off : Nat) : Nat := nthD (ownedBanks p core) (off / 8192) 0 * 8192 + off % 8192

/-- The scratchpad range of a wave on a core, as its first granule in the partition's space and its granules (R85). -/
def scrRange (s : State) (w : Wave) (core : Nat) : Option (Nat × Nat) :=
  match w.cluster with
  | none => if core = coreOf w.quad ∧ w.scrSize ≠ 0 then some (w.scrBase, w.scrSize) else none
  | some id => match mget? s.clusters id with
    | none => none
    | some c => (c.ranges.find? fun r => r.1 == core).map fun r => r.2

/-- What one lane's address gives at stage 4: a place with its page, table walks to wait for, or a failure. -/
inductive Target | at (l : Loc) (page : PageAttr) | walk (va : Nat) | bad (code info addr : Nat)
  deriving DecidableEq, Repr

/-- The place of an access of `n` bytes at a scratchpad address (R84, R85, R401). -/
def scrTarget (s : State) (w : Wave) (addr n : Nat) (wr : Bool) : Target :=
  if addr % n ≠ 0 then .bad 4 n addr
  else
    let bad := Target.bad 6 (16 + b1 wr) addr
    let remote := tb addr 20
    let core := if remote then quadOf (coreOf w.quad) * 4 + bits addr 19 18 else coreOf w.quad
    if addr / 2 ^ 21 ≠ 0 then bad
    else if remote && w.cluster.isNone then bad
    else match scrRange s w core, mget? s.parts w.part with
      | some (first, count), some p =>
        let off := addr % 2 ^ 18
        if off + n ≤ count * 1024 then .at (.scr core (spaceByte p core (first * 1024 + off))) PageAttr.plain else bad
      | _, _ => bad

/-- A scratchpad byte offset at which a granule label lies. -/
def granuleKey (core off : Nat) : Nat := core * 256 + off / 1024

/-- A granule ORs a label (R177). -/
def granuleOr (s : State) (l : Loc) (lbl : Label) : State :=
  match l with
  | .scr c off => { s with scrLabels := mput 0 s.scrLabels (granuleKey c off) (mgetD s.scrLabels (granuleKey c off) 0 ||| lbl) }
  | _ => s

end Sys2Proof.Machine
end

