-- ==== Sys2Proof/Machine/Access.lean ====
section
/-! DEFINITION. Accesses: the addresses of an instruction's lanes and their stage-4 checks (R225, R297, R372, R410, R432), the pending queue and the order that R113 sets, and the step in which each kind of access performs (R105 to R118, R123, R126, R151, R152). -/
namespace Sys2Proof.Machine

/-! ## Addresses (R225) -/

/-- A global address of a lane. -/
def globalAddr (s : State) (c : Ctx) (m : MemArg) (l : Nat) : Nat :=
  (BitVec.ofNat 64 (src64 s c m.base l) + (readReg s c m.x 0 l).signExtend 64 + m.off.signExtend 64).toNat

/-- A scratchpad address of a lane. -/
def scrAddr (s : State) (c : Ctx) (m : MemArg) (l : Nat) : Nat :=
  (readReg s c m.base 0 l + readReg s c m.x 0 l + m.off.signExtend 32).toNat

/-- The place of a global access of `n` bytes, with the label check of a write (R410, R432). Inside a transaction only this module's memory may be reached, the lowest code of the checks (R393, R395), and the commit checks labels. -/
def globTarget (s : State) (c : Ctx) (addr n : Nat) (need : Need) (lbl : Label) : Target :=
  let wr := need == .write || need == .both
  let aligned := decide (addr % n = 0)
  match translate s c.core c.w.part addr need with
  | .fail e => if aligned then .bad e.code (e.info wr false) addr else .bad 4 n addr
  | .walkFor va => if aligned || c.inTx then .walk va else .bad 4 n addr
  | .place l page =>
    if c.inTx && !l.isDev then .bad 3 (1 * 65536 + 9) 0
    else if !aligned then .bad 4 n addr
    else if wr && !c.inTx && !writeAllowed s c.w.part lbl l n then .bad 7 lbl.toNat addr
    else .at l page

/-- The lanes that make an access: the lowest active lane when the instruction is uniform, else every active lane (R297). (DEDUCED: log 46) -/
def accessLanes (c : Ctx) (uniform : Bool) : List Nat := if uniform then [c.low] else lanesOf c.act

/-- The targets of an instruction's lanes, or how it fails: the lowest code with the lanes that met it (R372, R393), or the walks to wait for (R100). -/
def stage4 (c : Ctx) (ts : List (Nat × Target)) (addrLabel labels : Label) : Except Halt (List (Nat × Loc × PageAttr)) :=
  let bads := ts.filterMap fun t => match t.2 with
    | .bad code info addr => some (t.1, code, info, addr)
    | _ => none
  match minBy? (fun b : Nat × Nat × Nat × Nat => b.2.1) bads with
  | some (_, code, info, addr) =>
    let mask := maskOf fun l => bads.any fun b => b.1 == l && b.2.1 == code
    .error (.raise ⟨code, info, addr, if c.act &&& mask = 0 then c.act else mask, addrLabel, labels⟩)
  | none =>
    let walks := ts.filterMap fun t => match t.2 with
      | .walk va => some (BitVec.ofNat 64 va)
      | _ => none
    if walks.isEmpty then
      .ok (ts.filterMap fun t => match t.2 with
        | .at l page => some (t.1, l, page)
        | _ => none)
    else .error (.walk (dedup walks))

/-- The labels of the address operands of a memory instruction. -/
def addrLabels (s : State) (c : Ctx) (m : MemArg) (wide : Bool) : Label :=
  labelOf s c m.base (if wide then 2 else 1) ||| labelOf s c m.x 1

/-! ## The pending queue (R112, R113, R116) -/

/-- The plane that carries a line: the next plane upward that is not retired (R126, R439). -/
def planeNow (s : State) (pa : Nat) : Nat :=
  (((List.range 36).map fun i => (planeOf pa + i) % 36).find? fun k => k ∉ s.retired).getD (planeOf pa)

/-- The scope that a transaction orders at, and at which each of its accesses is made (R150). -/
def txScope : TxScope → Scope
  | .core => .core
  | .die => .die
  | .pkg => .pkg

/-- The planes that carry packets (R439). -/
def livePlanes (s : State) : List Nat := (List.range 36).filter fun k => k ∉ s.retired

/-- Flush markers of a release at `.pod` whose earlier accesses have ids below a bound: one on every plane to every package that the wave has accessed since its last such release (R126). With every plane retired there is one, which is never gathered (R439). (DEDUCED: log 38) -/
def markersFor (s : State) (w : Wave) (bound : Nat) : List Marker :=
  let ks := if (livePlanes s).isEmpty then [0] else livePlanes s
  w.podSent.flatMap fun p => ks.map fun k => ⟨w.id, bound, p, k, false, s.clock⟩

/-- Put an entry at the end of the wave's pending queue. Ids rise by two, so that a write-through has the id after its atomic's (R108). (DEDUCED: log 41) -/
def submit (s : State) (c : Ctx) (kind : EntKind) (order : Order) (scope : Scope) (hint : Hint) (dst : Option Dst)
    (label alabel : Label) (accs : List Access) (recs : List SpawnRec) : State :=
  let w := theWave s c
  let scope := if c.inTx then txScope w.tx.scope else scope
  let e : Entry := { id := w.nextEntry, grp := c.sp.mask, k := c.k, pos := c.pos, rate := c.h.rate.num, region := c.mark, kind := kind, order := order,
                     scope := scope, hint := hint, dst := dst, label := label, alabel := alabel, accs := accs, recs := recs,
                     tx := if c.inTx then w.tx.depth else 0, dead := false }
  let sent := accs.filterMap fun a : Access => match a.loc with
    | .pkg p _ => if a.bytes = 0 then none else some p
    | _ => none
  let far := (order == .rel || order == .acqrel) && scope == .pod
  let s := if far then { s with markers := s.markers ++ markersFor s w w.nextEntry } else s
  putWave s { w with pending := w.pending ++ [e], nextEntry := w.nextEntry + 2, podSent := dedup ((if far then [] else w.podSent) ++ sent) }

/-- The id that the next entry of the executing wave takes. -/
def Ctx.nextId (s : State) (c : Ctx) : Nat := (theWave s c).nextEntry

def Entry.doneAll (e : Entry) : Bool := e.accs.all fun a => a.done

/-- An acquire at any scope (R113). -/
def Entry.isAcquire (e : Entry) : Bool :=
  (e.order == .acq || e.order == .acqrel) && (match e.kind with
    | .load => true | .atomAcc _ => true | .cas _ => true | .fence => true | _ => false)

/-- A release (R113). -/
def Entry.isRelease (e : Entry) : Bool := e.order == .rel || e.order == .acqrel

/-- A store whose bytes a later load of the same split may take (R109). -/
def Entry.isStore (e : Entry) : Bool := e.kind == .store || e.kind == .writeThrough

/-- Whether two lane accesses share bytes. -/
def Access.meets (a b : Access) : Bool := a.bytes != 0 && b.bytes != 0 && a.loc.overlaps a.bytes b.loc b.bytes

/-- A place within an access. -/
def Access.covers (a : Access) (l : Loc) : Bool := a.bytes != 0 && a.loc.overlaps a.bytes l 1

/-- The entries issued before an entry. -/
def earlier (w : Wave) (id : Nat) : List Entry := w.pending.takeWhile fun e => e.id != id

/-- The newest earlier unperformed store of the same split that covers a byte, with its access of the highest lane (R109, R110). A transaction's load takes no store from before the transaction (R123). -/
def newestStore (w : Wave) (e : Entry) (l : Loc) : Option (Entry × Access) :=
  (earlier w e.id).foldl (fun acc x =>
    if x.isStore && x.grp &&& e.grp != 0 && (if e.tx = 0 then x.tx == 0 || !x.dead else x.tx != 0 && !x.dead) then
      x.accs.foldl (fun acc a => if !a.done && a.covers l then some (x, a) else acc) acc
    else acc) none

/-- Row 1 of R113: an earlier access of the same split that overlaps has performed, but for a load that takes every shared byte from it. What a split issued before a divergence counts as the same split's for both halves. (DEDUCED: log 63) -/
def rowSame (w : Wave) (x e : Entry) (f : Access) : Bool :=
  x.grp &&& e.grp == 0 || x.accs.all fun a => a.done || !a.meets f ||
    (e.kind == .load && x.isStore && (List.range f.bytes).all fun i =>
      !a.covers (f.loc.plus i) || (match newestStore w e (f.loc.plus i) with
        | some (y, _) => y.id == x.id
        | none => false))

/-- Rows 3 and 4 of R113: what a release at a scope waits for. Accesses to other packages are ordered by flush markers alone (R126). (DEDUCED: log 38) -/
def releasedBy (x : Entry) (sc : Scope) : Bool :=
  x.accs.all fun a => a.done || (match a.loc with | .pkg _ _ => true | _ => false) || (x.kind == .writeThrough && decide (sc.num < 2))

/-- The flush markers of a release at `.pod` are gathered (R126): those that stand for accesses before an id. (DEDUCED: log 38) -/
def markersGathered (s : State) (w : Wave) (bound : Nat) : Bool :=
  s.markers.all fun m => m.wave != w.id || decide (bound < m.bound) || m.gathered

/-- The lane under which the host writes of a wave's copies stand among those that wait for their CXL completions. -/
def copyLane : Nat := 32

/-- A write to host memory is sent, and waits for its CXL completion (R128). -/
def hostSend (s : State) (wid entry lane : Nat) : State :=
  if s.link != .up then s
  else { s with hostPending := s.hostPending ++ [(s.hostPending.foldl (fun n h => max n (h.1 + 1)) 0, wid, entry, lane)] }

/-- Every host write of a wave's copies has its CXL completion (R128). (DEDUCED: log 50) -/
def hostCopiesDone (s : State) (wid : Nat) : Bool := !(s.hostPending.any fun h => h.2.1 == wid && h.2.2.2 == copyLane)

/-- Every host access of an entry has its CXL completion (R128). (DEDUCED: log 50) -/
def hostDone (s : State) (wid id : Nat) : Bool := !(s.hostPending.any fun h => h.2.1 == wid && h.2.2.1 == id && h.2.2.2 != copyLane)

/-- What a release at `.pod` or `.sys` waits for beyond R113 (R126, R128). -/
def farReady (s : State) (w : Wave) (sc : Scope) (bound : Nat) (before : List Entry) : Bool :=
  (sc != .pod || markersGathered s w bound) && (sc != .sys || hostCopiesDone s w.id && before.all fun x => hostDone s w.id x.id)

/-- Whether the machine may next perform a lane access of an entry (R113). -/
def mayPerform (s : State) (w : Wave) (e : Entry) (f : Access) : Bool :=
  (earlier w e.id).all (fun x =>
    rowSame w x e f && (!x.isAcquire || x.doneAll) && (!e.isRelease || releasedBy x e.scope)) &&
  (!e.isRelease || farReady s w e.scope e.id (earlier w e.id))

/-- Whether the wave's earlier accesses allow a release at a scope now: barrier arrivals, TXE and task exits (R113). (DEDUCED: log 38) -/
def releaseReady (s : State) (w : Wave) (sc : Scope) : Bool :=
  w.pending.all (fun x => (!x.isAcquire || x.doneAll) && releasedBy x sc) && farReady s w sc w.nextEntry w.pending

/-- Flush markers sent for a release at `.pod` whose earlier accesses have ids below a bound (R126). -/
def sendMarkers (s : State) (w : Wave) (bound : Nat) : State :=
  putWave { s with markers := s.markers ++ markersFor s w bound } { w with podSent := [] }

/-- A release at `.pod` has performed: the markers before it are spent. -/
def clearMarkers (s : State) (wid bound : Nat) : State :=
  { s with markers := s.markers.filter fun m => m.wave != wid || decide (bound < m.bound) }

/-! ## Transactions (R148, R151, R152, R418) -/

/-- Whether another wave's serial-mode transaction holds a line (R157). -/
def lockedByOther (s : State) (wid : Nat) (l : LineKey) : Bool := s.txLocks.any fun x => x.1 != wid && x.2 == l

/-- The agent of a wave aborts its transaction and restarts it (R153, R418). -/
def abortTx (s : State) (wid aborts : Nat) : State :=
  match mget? s.waves wid with
  | none => s
  | some w => releaseSerial (putWave s (restartTx w aborts)) wid

/-- Add a line to a transaction's read set; none when it overflows (R152, R418). -/
def addRead (w : Wave) (l : LineKey) (va : DWord) (alabel : Label) (level : Nat) : Option Wave :=
  let t := w.tx
  match t.reads.find? fun r => r.line == l with
  | some _ =>
    some { w with tx := { t with reads := t.reads.map fun r =>
      if r.line = l then { r with live := true, level := if r.live then r.level else level, written := r.conflict } else r } }
  | none =>
    let new : TxRead := ⟨l, va, alabel, level, true, false, false⟩
    if t.serial then (if t.reads.length < 1024 then some { w with tx := { t with reads := t.reads ++ [new] } } else none)
    else if t.reads.length < 64 then some { w with tx := { t with reads := t.reads ++ [new] } }
    else match t.reads.find? fun r => !r.live with
      | none => none
      | some old => some { w with tx := { t with reads := (t.reads.filter fun r => !(r == old)) ++ [new] } }

/-- The lines of a transaction's write set. -/
def txLines (w : Wave) : List LineKey := dedup (w.tx.writes.map fun b => b.loc.line)

/-- Lines that the transactions of a core hold in its buffer (R148). -/
def bufferLines (s : State) (core : Nat) : Nat :=
  s.waves.foldl (fun n e => if coreOf e.2.quad = core ∧ e.2.tx.depth ≠ 0 then n + (txLines e.2).length else n) 0

/-- The wave that runs in serial mode on a core, other than one. -/
def serialElsewhere (s : State) (wid core : Nat) : Bool :=
  match s.token with
  | none => false
  | some x => x != wid && (match mget? s.waves x with
    | some w => coreOf w.quad == core && w.tx.serial
    | none => false)

/-- Buffer bytes at a level, with the hint of their store; none when the write set overflows (R148, R418). -/
def txStore (s : State) (w : Wave) (a : Access) (alabel : Label) (level : Nat) (hint : Hint) (bs : List Byte) (lbl : Label) : Option Wave :=
  let l := a.loc
  let lines := txLines w
  let room := if l.line ∈ lines then true
    else if w.tx.serial then decide (lines.length < 512)
    else decide (lines.length < 32) && decide (bufferLines s (coreOf w.quad) < 512) && !serialElsewhere s w.id (coreOf w.quad)
  if !room then none
  else
    let keep := w.tx.writes.filter fun b => !(b.level == level && b.loc.overlaps 1 l bs.length)
    let new := bs.zipIdx.map fun e => (⟨l.plus e.2, a.page, a.va + BitVec.ofNat 64 e.2, level, e.1, lbl, alabel, hint⟩ : TxByte)
    some { w with tx := { w.tx with writes := keep ++ new } }

/-- The buffered byte that a transaction's load of a place takes: the deepest level's. -/
def txByte (w : Wave) (l : Loc) : Option TxByte :=
  w.tx.writes.foldl (fun acc b => if b.loc = l then (match acc with
    | none => some b
    | some a => if a.level ≤ b.level then some b else acc) else acc) none

/-! ## Performing (R108 to R111) -/

/-- A wave's entry. -/
def findEntry (w : Wave) (id : Nat) : Option Entry := w.pending.find? fun e => e.id == id
/-- An entry replaced. -/
def Wave.putEntry (w : Wave) (e : Entry) : Wave := { w with pending := w.pending.map fun x => if x.id = e.id then e else x }
/-- Some lane accesses of an entry performed. -/
def Entry.finish (e : Entry) (p : Access → Bool) : Entry := { e with accs := e.accs.map fun a => if p a then { a with done := true } else a }

/-- An entry of a wave replaced in the state. -/
def putEntry (s : State) (wid : Nat) (e : Entry) : State := { s with waves := mmodify s.waves wid fun w => w.putEntry e }

/-- A context to write registers of a wave outside issue. -/
def writerCtx (s : State) (w : Wave) (act : Mask) : Option Ctx :=
  match mget? s.launches w.launch with
  | none => none
  | some l => match entryOf s l w.entry with
    | none => none
    | some (o, e) => some { w := w, k := 0, sp := { Split.blank with ctx := 0 }, pos := ⟨0, 0⟩, hdr := 0, h := ⟨w.rate, false, 0, false⟩,
                            act := act, launch := l, obj := o, ent := e }

/-- Register words of one lane of a long-latency destination, by operand code, before its label is set. -/
def putWords (s : State) (wid code lane : Nat) (ws : List Word) (lbl : Label) : State :=
  match mget? s.waves wid with
  | none => s
  | some w =>
    if code < 192 then
      putWave s (ws.zipIdx.foldl (fun w e => w.setVec (code + e.2) (bitOf lane) fun _ => e.1) w)
    else if code < 256 then
      (match writerCtx s w (bitOf lane) with
       | none => s
       | some c => ws.zipIdx.foldl (fun s e => writeHeld s c (code - 192 + e.2) lane e.1 lbl) s)
    else if code < 320 then
      putWave s (ws.zipIdx.foldl (fun w e => w.setScalar (code - 256 + e.2) e.1) w)
    else s

/-- The register words of a value of `bytes` bytes (R296). -/
def extendWords (bytes : Nat) (signExt : Bool) (v : Nat) : List Word :=
  if bytes < 4 then [if signExt then BitVec.ofInt 32 (sextN (8 * bytes) v) else BitVec.ofNat 32 v]
  else toWords (bytes / 4) v

/-- Labels added to registers by operand code: a lane's result carries its label before the completion event sets the register's. (DEDUCED: log 41) -/
def orLabels (s : State) (wid code n : Nat) (lbl : Label) : State :=
  if 192 ≤ code ∧ code < 256 then s
  else { s with waves := mmodify s.waves wid fun w =>
    { w with labels := (List.range n).foldl (fun m i => mput 0 m (code + i) (w.label (code + i) ||| lbl)) w.labels } }

/-- The words that a lane access of an entry writes at the completion event (R34). -/
def Wave.putRes (w : Wave) (id lane : Nat) (ws : List Word) : Wave :=
  { w with pending := w.pending.map fun x => if x.id = id then
      { x with accs := x.accs.map fun a => if a.lane = lane then { a with res := ws } else a } else x }

/-- What a load or atomic writes to its destination in one lane: at once, and again at the completion event (R34). -/
def putResult (s : State) (wid : Nat) (e : Entry) (a : Access) (bs : List Byte) : State :=
  if e.dead then s
  else match e.dst with
    | none => s
    | some d =>
      let ws := extendWords a.bytes d.signExt (leNat bs)
      let s := { s with waves := mmodify s.waves wid fun w => w.putRes e.id a.lane ws }
      orLabels (putWords s wid d.code a.lane ws e.label) wid d.code d.regs e.label

/-- An entry that closed its region (R35). -/
def Entry.closing (e : Entry) : Bool :=
  match e.kind with
  | .atomAcc _ => true | .cas _ => true | .red _ => true | .spawnAdd => true
  | _ => false

/-- An issued instruction of a wave meets a POISON (R372, R408, R417, R441). The wave stops. Where it stands stopped already, an instruction whose region a replay runs again meets the fault there, and another's fault waits for the wave's release. `mark` is the region that the instruction closed. (DEDUCED: log 38) -/
def issuedFault (s : State) (w : Wave) (k : Nat) (pos : Pos) (rate : Nat) (mark : Option RegionMark) (f : FaultArgs) : State :=
  let j := if (mget? w.splits k).isSome then some k else (w.splits.head?).map fun x => x.1
  match j with
  | none => s
  | some j =>
    let again := match mark with
      | some m => w.reopen k m
      | none => w
    match w.stop with
    | none => takeFault (putWave s again) again j pos rate f
    | some st =>
      if !st.atPc && j == k && again.splits != w.splits then putWave s (parkHere again k)
      else putWave s { w with late := w.late ++ [⟨j, pos, rate, mark, f.code, BitVec.ofNat 64 f.addr, f.mask, f.addrLabel, f.labels⟩] }

/-- A fault that lanes of an entry meet when one of them is about to perform (R372, R417, R419, R441): the instruction writes nothing and applies nothing more, and the wave stops. (DEDUCED: log 38) -/
def performFault (s : State) (w : Wave) (e : Entry) (lanes : List Access) (code info : Nat) : State :=
  let w := w.putEntry { e.finish (fun _ => true) with dead := true }
  match lanes with
  | a :: _ =>
    if e.dead || w.place == .ended then putWave s w
    else issuedFault (putWave s w) w e.k e.pos e.rate (if e.closing && e.tx == 0 then some e.region else none)
      ⟨code, info, if code = 3 then 0 else a.va.toNat, maskOf fun l => lanes.any fun x => x.lane == l, e.alabel, e.label⟩
  | [] => putWave s w

/-- One byte that a load takes (R109, R123): the newest unperformed store, the transaction's buffer, the L1 copy, or home; with the label that a buffered byte adds. -/
def loadByte (s : State) (w : Wave) (e : Entry) (l : Loc) (useL1 : Bool) : Byte × Label :=
  match newestStore w e l with
  | some (_, a) => (nthD a.data (l.addr - a.loc.addr) 0, a.label)
  | none =>
    match (if e.tx = 0 then none else txByte w l) with
    | some b => (b.val, b.label)
    | none => match l with
      | .dev pa => (match (if useL1 && e.tx == 0 then l1Find s (coreOf w.quad) (pa / 128) else none) with
        | some x => (nthD x.data (pa % 128) 0, 0)
        | none => (homeByte s l, 0))
      | l => (homeByte s l, 0)

/-- Whether every byte of a load comes from stores of its own wave or its transaction. -/
def takesNoHome (s : State) (w : Wave) (e : Entry) (a : Access) (useL1 : Bool) : Bool :=
  (List.range a.bytes).all fun i =>
    let l := a.loc.plus i
    (newestStore w e l).isSome || (e.tx != 0 && (txByte w l).isSome) ||
      (match l with
       | .dev pa => useL1 && e.tx == 0 && (l1Find s (coreOf w.quad) (pa / 128)).isSome
       | _ => false)

/-- Whether a load may take its core's L1 copy (R106, R109). -/
def usesL1 (e : Entry) (a : Access) : Bool := !(e.isAcquire && decide (2 ≤ e.scope.num)) && e.hint != .byp && a.page.cache != 2

/-- A line of a serial-mode transaction's read set is locked at its home as it is read (R157). -/
def lockRead (s : State) (w : Wave) (l : LineKey) : State :=
  if w.tx.serial && !((w.id, l) ∈ s.txLocks) then { s with txLocks := s.txLocks ++ [(w.id, l)] } else s

/-- A transaction's read or write set overflows as an access of it performs: a fault in serial mode, else an abort to it (R418, R419). -/
def txOverflow (s : State) (w : Wave) (e : Entry) (a : Access) : State :=
  if w.tx.serial then performFault s w e [a] 3 (13 * 65536 + 9) else abortTx s w.id 16

/-- A transaction finds no room for a buffered line: while another wave of its core runs in serial mode it aborts, to restart once the token is released; else it overflows (R153, R418). -/
def txNoRoom (s : State) (w : Wave) (e : Entry) (a : Access) : State :=
  if !w.tx.serial && serialElsewhere s w.id (coreOf w.quad) then
    let s := abortTx s w.id (min 16 (w.tx.aborts + 1))
    { s with waves := mmodify s.waves w.id fun w => { w with tx := { w.tx with wantToken := true } } }
  else txOverflow s w e a

/-- An access of a wave reaches its home copy through the caches of its die (R92 to R95). -/
def reachFor (s : State) (w : Wave) (e : Entry) (a : Access) (read : Bool) : State :=
  reach s w.part (dieOfQuadrant w.quad) read e.hint a.page a.loc

/-- A load performs (R109, R114, R123, R152). In a transaction its line joins the read set, though the buffer give every byte. (DEDUCED: log 41; DEDUCED: log 64) -/
def performLoad (s : State) (w : Wave) (e : Entry) (a : Access) (fill : Bool) : State :=
  let useL1 := usesL1 e a
  let home := !takesNoHome s w e a useL1
  let s := if home then reachFor s w e a true else s
  let bs := (List.range a.bytes).map fun i => loadByte s w e (a.loc.plus i) useL1
  let lbl := bs.foldl (fun acc b => acc ||| b.2) (locLabel s w.part a.loc)
  let e := { e.finish (fun x => x.lane == a.lane) with label := e.label ||| lbl }
  -- a transaction's load joins the read set, or overflows it
  match (if e.tx = 0 || e.dead then some w else addRead w a.loc.line a.va e.alabel e.tx) with
  | none => txOverflow s w e a
  | some w' =>
    let s := putWave s (w'.putEntry e)
    let s := if e.tx ≠ 0 then lockRead s w' a.loc.line else s
    let s := putResult s w.id e a (bs.map fun b => b.1)
    let s := if e.isAcquire then acquire s (coreOf w.quad) e.scope else s
    match a.loc with
    | .dev pa =>
      if fill && home && e.tx == 0 && a.page.cache == 0 && (e.hint == .dflt || e.hint == .keep) then
        l1Fill s (coreOf w.quad) w.part (pa / 128) none else s
    | _ => s

/-- Whether the lanes of an entry together write a whole line (R417). -/
def coversLine (e : Entry) (line : LineKey) : Bool :=
  (List.range 128).all fun i => e.accs.any fun a => a.loc.line == line && decide (a.loc.addr % 128 ≤ i) && decide (i < a.loc.addr % 128 + a.bytes)

/-- A write to another package of the domain whose label its frame refuses (R179, R432): discarded, reported, and the launch terminated. One issued before the package left the domain is discarded (R434). -/
def refusedAbroad (s : State) (w : Wave) (e : Entry) (a : Access) : Option State :=
  match a.loc with
  | .pkg p _ =>
    if (w.id, e.id, p) ∈ s.cut then some s
    else if p ∈ s.domain ∧ !subset a.label (locLabel s w.part a.loc) then
      some (pushEvent s w.part { eventRecord w.launch 7 0 a.va.toNat with
        info := a.label, term := true, lblock := w.lblock, addrLabel := e.alabel })
    else none
  | _ => none

/-- A store performs: lanes of one store that write the same bytes are one write with the highest lane's bytes (R108, R110). A transaction's store enters its buffer. -/
def performStore (s : State) (w : Wave) (e : Entry) (a : Access) : State :=
  let same := fun x : Access => !x.done && x.loc == a.loc
  let top := e.accs.foldl (fun acc x => if same x then x else acc) a
  let e' := e.finish same
  if e.tx ≠ 0 then
    if e.dead then putWave s (w.putEntry e')
    else match txStore s w top e.alabel e.tx e.hint top.data top.label with
      | some w' => putWave s (w'.putEntry e')
      | none => txNoRoom s w e a
  else
    let s := putWave s (w.putEntry e')
    match refusedAbroad s w e top with
    | some s => s
    | none =>
      if poisonHit s a.loc && !a.loc.isDev then s
      else
        let s := homeWrite (reachFor s w e a false) (Agent.ofWave w) a.loc top.data
        match a.loc with
        | .dev pa => if coversLine e a.loc.line && e'.accs.all (fun x => x.done || x.loc.line != a.loc.line) then unpoison s (pa / 128) else s
        | _ => s

/-- The new value of an integer atomic (R305). -/
def intNew (op : IAOp) (bytes old v : Nat) : Nat :=
  let w := 8 * bytes
  match op with
  | .add => (old + v) % 2 ^ w
  | .minI => if sextN w old ≤ sextN w v then old else v
  | .maxI => if sextN w old ≤ sextN w v then v else old
  | .minN => min old v
  | .maxN => max old v
  | .and => old &&& v
  | .or => old ||| v
  | .xor => old ^^^ v
  | .exch => v

/-- The lesser or greater of two patterns of a format (R285). -/
def pickBits (f : Format) (greater : Bool) (o v : Nat) : Nat := f.result .rne false 0 (Num.pick greater (f.value o) (f.value v))

/-- The new value of an atomic (R305). -/
def atomNew (v : AtomV) (old x : Nat) : Nat :=
  match v with
  | .int op w => intNew op (4 * w.regs) old x
  | .addF32 => addBits f32 old x
  | .minF32 => pickBits f32 false old x
  | .maxF32 => pickBits f32 true old x
  | .addF16x2 => addBits f16 (old % 65536) (x % 65536) + 65536 * addBits f16 (old / 65536) (x / 65536)
  | .addBf16x2 => addBits bf16 (old % 65536) (x % 65536) + 65536 * addBits bf16 (old / 65536) (x / 65536)
  | .incN32 => if old ≥ x then 0 else old + 1

/-- The new value of a RED that is no floating add (R309). -/
def redNew (v : RedV) (old x : Nat) : Nat :=
  match v with
  | .addB32 => intNew .add 4 old x
  | .addB64 => intNew .add 8 old x
  | .minI32 => intNew .minI 4 old x
  | .maxI32 => intNew .maxI 4 old x
  | .minN32 => intNew .minN 4 old x
  | .maxN32 => intNew .maxN 4 old x
  | .orB32 => intNew .or 4 old x
  | .minF32 => pickBits f32 false old x
  | .maxF32 => pickBits f32 true old x
  | _ => old

/-- The lanes of an atomic that name one location, applied in ascending lane order to a value: the final value, whether anything is written, and the value that each lane receives (R111). -/
def applyLanes (kind : EntKind) (old : Nat) (lanes : List Access) : Nat × Bool × List (Nat × Nat) :=
  match kind with
  | .cas _ =>
    (match lanes.find? fun a => leNat a.exp == old with
     | none => (old, false, lanes.map fun a => (a.lane, old))
     | some win => (leNat win.data, true, lanes.map fun a => (a.lane, if a.lane ≤ win.lane then old else leNat win.data)))
  | _ =>
    let step := fun (acc : Nat × List (Nat × Nat)) (a : Access) =>
      let x := leNat a.data
      let new := match kind with
        | .atomAcc v => atomNew v acc.1 x
        | .red v => redNew v acc.1 x
        | .spawnAdd => intNew .add 4 acc.1 x
        | .exitSub => intNew .add 4 acc.1 (2 ^ 32 - x % 2 ^ 32)
        | _ => acc.1
      (new, acc.2 ++ [(a.lane, acc.1)])
    let r := lanes.foldl step (old, [])
    (r.1, true, r.2)

/-- Whether an atomic performs in its core's L1 (R93, R108). -/
def inL1 (e : Entry) (a : Access) : Bool :=
  (match e.kind with | .atomAcc _ => true | .cas _ => true | _ => false) && a.loc.isDev && decide (e.scope.num < 2) && a.page.cache == 0 && e.hint != .strm

/-- The old values of an atomic's lanes written to their destinations. -/
def putOlds (s : State) (wid : Nat) (e : Entry) (lanes : List Access) (olds : List (Nat × Nat)) : State :=
  lanes.foldl (fun s a => match olds.find? fun o => o.1 == a.lane with
    | some o => putResult s wid e a (leBytes a.bytes o.2)
    | none => s) s

/-- An atomic inside a transaction: it reads its line as a load does and buffers its result, whose label holds those of the buffered bytes it read (R151, R177). -/
def performTxAtomic (s : State) (w : Wave) (e : Entry) (a : Access) (lanes : List Access) (e' : Entry) : State :=
  let s := if takesNoHome s w e a false then s else reachFor s w e a true
  let bs := (List.range a.bytes).map fun i => loadByte s w e (a.loc.plus i) false
  let buffered := bs.foldl (fun acc b => acc ||| b.2) 0
  let (new, wrote, olds) := applyLanes e.kind (leNat (bs.map fun b => b.1)) lanes
  let e' := { e' with label := e'.label ||| locLabel s w.part a.loc ||| buffered }
  match addRead w a.loc.line a.va e.alabel e.tx with
  | none => txOverflow s w e a
  | some w1 =>
    match (if wrote then txStore s w1 a e.alabel e.tx e.hint (leBytes a.bytes new) (a.label ||| buffered) else some w1) with
    | none => txNoRoom s w e a
    | some w2 => putOlds (lockRead (putWave s (w2.putEntry e')) w2 a.loc.line) w.id e' lanes olds

/-- An ATOM, CAS or CASX that performs in its core's L1 and places its write-through (R93, R108, R146). A line that the L1 cannot hold is read at home. -/
def performInL1 (s : State) (w : Wave) (e : Entry) (a : Access) (pa : Nat) (lanes : List Access) (e' : Entry) : State :=
  let core := coreOf w.quad
  let s := foldLine s (pa / 128)
  let s := if (l1Find s core (pa / 128)).isSome then s else l1Fill (reachFor s w e a true) core w.part (pa / 128) none
  let old := match l1Find s core (pa / 128) with
    | some x => leNat ((List.range a.bytes).map fun i => nthD x.data (pa % 128 + i) 0)
    | none => leNat (homeBytes s a.loc a.bytes)
  let (new, wrote, olds) := applyLanes e.kind old lanes
  let e' := { e' with label := e'.label ||| locLabel s w.part a.loc }
  let thru : Access := { a with data := leBytes a.bytes new, exp := [], queued := false, done := false, res := [] }
  let wt : Entry := { e with id := e.id + 1, kind := .writeThrough, order := .rlx, scope := .die, dst := none, accs := [thru] }
  let w := w.putEntry e'
  let w := if !wrote then w
    else match findEntry w (e.id + 1) with
      | some x => w.putEntry { x with accs := x.accs ++ [thru] }
      | none => { w with pending := w.pending.flatMap fun x => if x.id = e.id then [x, wt] else [x] }
  let s := putWave s w
  let s := if wrote then l1Write s core (pa / 128) (pa % 128) (leBytes a.bytes new) else s
  putOlds s w.id e' lanes olds

/-- An ATOM, ATOMS, CAS, CASX or join-counter update that performs at its home copy or bank (R108, R111). -/
def performAtHome (s : State) (w : Wave) (e : Entry) (a : Access) (lanes : List Access) (e' : Entry) : State :=
  let s := foldAt (reachFor s w e a false) a.loc
  let (new, wrote, olds) := applyLanes e.kind (leNat (readBytes s a.loc a.bytes)) lanes
  let e' := { e' with label := e'.label ||| locLabel s w.part a.loc }
  let s := putWave s (w.putEntry e')
  let s := if wrote then homeWrite s (Agent.ofWave w) a.loc (leBytes a.bytes new) else s
  putOlds s w.id e' lanes olds

/-- A RED performs at its home copy (R145, R146, R309). -/
def performRed (s : State) (w : Wave) (e : Entry) (a : Access) (v : RedV) (lanes : List Access) (e' : Entry) : State :=
  let s := putWave (reachFor s w e a false) (w.putEntry e')
  if v.isFloatAdd then lanes.foldl (fun s x => redFloat s (Agent.ofWave w) v a.loc (leNat x.data)) s
  else
    let s := foldAt s a.loc
    homeRed s (Agent.ofWave w) a.loc (leBytes a.bytes (applyLanes e.kind (leNat (readBytes s a.loc a.bytes)) lanes).1)

/-- An atomic, CAS, CASX, RED or join-counter update performs (R108, R111, R145, R146, R151, R309). -/
def performAtomic (s : State) (w : Wave) (e : Entry) (a : Access) : State :=
  let same := fun x : Access => !x.done && x.bytes == a.bytes && x.loc == a.loc
  let lanes := e.accs.filter same
  let e' := e.finish same
  let acq := fun s : State => if e.isAcquire then acquire s (coreOf w.quad) e.scope else s
  if a.bytes = 0 then putWave s (w.putEntry (e.finish fun x => x.lane == a.lane))
  else if e.tx ≠ 0 then (if e.dead then putWave s (w.putEntry e') else performTxAtomic s w e a lanes e')
  else if poisonHit s a.loc && !a.loc.isDev then putWave s (w.putEntry e')
  else match refusedAbroad s w e a with
    | some s => putWave s (w.putEntry e')
    | none => match e.kind, a.loc with
      | .red v, _ => performRed s w e a v lanes e'
      | _, .dev pa => acq (if inL1 e a then performInL1 s w e a pa lanes e' else performAtHome s w e a lanes e')
      | _, _ => acq (performAtHome s w e a lanes e')

/-- The lane accesses of an entry, not yet performed, that need data which a poisoned line or a failed host link cannot give (R417, R441). Stores need none, and a RED to a failed link is discarded. -/
def faultyLanes (s : State) (w : Wave) (e : Entry) : List Access :=
  e.accs.filter fun a => !a.done && a.bytes != 0 && poisonHit s a.loc && (match e.kind with
    | .load => !takesNoHome s w e a (usesL1 e a)
    | .red _ => a.loc.isDev
    | .atomAcc _ => e.tx == 0 || !takesNoHome s w e a false
    | .cas _ => e.tx == 0 || !takesNoHome s w e a false
    | .spawnAdd => true
    | .exitSub => true
    | _ => false)

/-- What a lane access does when it performs: the lanes that would meet poison are found before any lane of the instruction does more (R372). -/
def performAccess (s : State) (w : Wave) (e : Entry) (a : Access) (fill : Bool) : State :=
  match faultyLanes s w e with
  | [] => (match e.kind with
    | .load => performLoad s w e a fill
    | .store => performStore s w e a
    | .writeThrough => performStore s w e a
    | .fence => s
    | _ => performAtomic s w e a)
  | bad => performFault s w e bad 0x10 0

/-- Whether a write of an entry waits at home for a lock of a serial transaction (R157): another wave's, or that of another split of its own wave (R149). -/
def lockHeld (s : State) (w : Wave) (e : Entry) (a : Access) : Bool :=
  e.kind != .load && e.tx == 0 && s.txLocks.any fun x => x.2 == a.loc.line && (x.1 != w.id || e.grp &&& (w.split w.tx.owner).mask == 0)

/-- After a release at `.pod` has performed whole, its markers are spent (R126). -/
def afterRelease (s : State) (wid id : Nat) : State :=
  match mget? s.waves wid with
  | none => s
  | some w => match findEntry w id with
    | none => s
    | some e => if e.isRelease && e.scope == .pod && e.doneAll then clearMarkers s wid id else s

/-- The entry and lane access of an event, if the machine may perform it now; `queued` says that it stands in a queue. -/
def readyAccess (s : State) (wid id lane : Nat) (queued : Bool) : Option (Wave × Entry × Access) :=
  match mget? s.waves wid with
  | none => none
  | some w => match findEntry w id with
    | none => none
    | some e => match e.accs.find? fun a => a.lane == lane && !a.done with
      | none => none
      | some a =>
        if a.queued == queued && mayPerform s w e a && !lockHeld s w e a && hostReady s a.loc then some (w, e, a) else none

/-- Write-throughs and join-counter entries leave the pending queue when they have performed; the others leave at their completion events. -/
def dropDone (s : State) (wid : Nat) : State :=
  { s with waves := mmodify s.waves wid fun w => { w with pending := w.pending.filter fun e =>
      !(e.doneAll && (match e.kind with
        | .writeThrough => true | .exitSub => true | .fence => true
        | _ => false)) } }

end Sys2Proof.Machine
end

