-- ==== Sys2Proof/Machine/Issue.lean ====
section
/-! DEFINITION. Issue: fetching a clause header and a word, the checks of stages 1 and 2, the rate rule, the order among runnable splits, and the count of a step (R31, R38, R47, R48, R205, R221, R390, R391, R396). -/
namespace Sys2Proof.Machine

/-- A word of code at a virtual address, read under the key of its page (R98), or the code and INFO of the fetch fault (R410, R417); none while the read waits for the host link (R440). -/
def fetchWord (s : State) (w : Wave) (va : Nat) : Except (Option (Nat × Nat)) Nat :=
  match fetchLeaf s (coreOf w.quad) w.part va with
  | .error e => .error (some (e.code, e.info false true))
  | .ok (l, leaf) =>
    if !hostReady s l then .error none
    else if poisonHit s l then .error (some (0x10, 0))
    else .ok (leNat (pageBytes s l 8 leaf.keyId))

/-- A fetch reaches the home copy of its line through the caches (R92 to R95). -/
def reachCode (s : State) (w : Wave) (va : Nat) : State :=
  match fetchLeaf s (coreOf w.quad) w.part va with
  | .error _ => s
  | .ok (l, leaf) => reach s w.part (dieOfQuadrant w.quad) true .dflt leaf.page l

/-- What the issuing step finds: nothing to run, with the state it leaves, or an instruction to run. -/
inductive Issued | nothing (s : State) | run (i : Instr) (s : State)
  deriving DecidableEq, Repr

/-- How a wave treats a word (R47): execute it, or continue elsewhere without it. -/
inductive Treat | execute | skipTo (p : Pos)
  deriving DecidableEq, Repr

/-- An address of tgt20 or rcv20 (R226). -/
def branchAddr (hdrAddr : DWord) (k : BitVec 20) : DWord := hdrAddr + (k.signExtend 64) * 8

/-- The rate rule (R47, R48). -/
def treat (draw : Bool) (w : Rate) (i : Instr) (pos : Pos) (hdr : Nat) : Treat :=
  let v := i.ctl.rate
  let header : Pos := ⟨nextHeader pos.hdr hdr, 0⟩
  match i with
  | .brc _ _ rcv _ =>
    if v = w ∨ onChain draw w v then .execute
    else if 0 < rcv.toInt then .skipTo ⟨branchAddr pos.hdr rcv, 0⟩ else .skipTo header
  | .brx .. => if v = w then .execute else .skipTo header
  | .callx .. => if v = w then .execute else .skipTo header
  | .nop .. => .execute | .region .. => .execute | .bra .. => .execute | .call .. => .execute | .ret .. => .execute
  | .exit .. => .execute | .trap .. => .execute | .bkpt .. => .execute
  | _ => if v = w then .execute else .skipTo (nextPos pos hdr)

/-- Whether an instruction of groups 0x1 to 0x6 has the vector issue class: some register operand is not a scalar register (R204). (DESIGN CHOICE: log 10) -/
def vectorClass (i : Instr) : Bool :=
  i.uses.any fun u => u.2.1 != .unread && !u.2.2.isScalar && !u.2.2.isConst

/-- Whether the power monitor withholds a word's issue on a quadrant in this clock (R15): group 0xB at level 1, the vector class too at level 2, on 15 clocks of any 16, the open clock moving from quadrant to quadrant. (DESIGN CHOICE: log 10) -/
def withheld (s : State) (quad group : Nat) (i : Instr) : Bool :=
  (s.clock + quad) % 16 != 0 &&
    ((decide (1 ≤ s.withhold) && group == 11) || (decide (2 ≤ s.withhold) && decide (1 ≤ group) && decide (group ≤ 6) && vectorClass i))

/-- The cursor of an issuing split. -/
def setCursor (s : State) (w : Wave) (k : Nat) (pos : Pos) (hdr : Nat) : State :=
  { s with cur := ⟨w.id, k, pos.hdr, BitVec.ofNat 64 hdr, pos.idx⟩ }

/-- A fault of a fetch or of a clause header: there is no instruction, so the record has the wave's rate. -/
def fetchFault (s : State) (w : Wave) (k : Nat) (code info addr : Nat) : State :=
  let sp := w.split k
  takeFault s w k sp.pc w.rate.num ⟨code, info, addr, sp.mask, 0, 0⟩

/-- The entry whose turn it is in a step: the lowest that has still to issue (R390). `step` holds those entries in bits 3 to 0. -/
def stepTurn (w : Wave) : Option Nat := (List.range 4).find? fun j => tb w.step j && (mget? w.splits j).isSome

/-- Issue the next instruction of a split: fetch, stage 1, the wait mask, stage 2 and the rate rule. A split that cannot issue leaves the state as it is; one that skips only moves. -/
def issue (s : State) (wid k : Nat) : Issued :=
  match mget? s.waves wid with
  | none => .nothing s
  | some w => match mget? w.splits k, mget? s.launches w.launch with
    | some sp, some l =>
      if w.place = .resident ∧ w.stop = none ∧ sp.state = .ready ∧ (w.step = 0 ∨ stepTurn w = some k) then
        match entryOf s l w.entry with
        | none => .nothing s
        | some (o, _) => match fetchWord s w sp.pc.hdr.toNat with
          | .error none => .nothing s
          | .error (some (code, info)) => .nothing (fetchFault s w k code info sp.pc.hdr.toNat)
          | .ok hdr =>
            let s := reachCode s w sp.pc.hdr.toNat
            match headerErr hdr with
            | some _ => .run (.illegalOp true (BitVec.ofNat 64 hdr)) (setCursor s w k sp.pc hdr)
            | none =>
              if !sp.begun && !waitClear w hdr then .nothing (putWave s (w.setSplit k { sp with state := .waiting, waits := hdrWait hdr }))
              else
                let s := putWave s (w.setSplit k { sp with begun := true })
                let va := (sp.pc.hdr + BitVec.ofNat 64 (8 * (sp.pc.idx + 1))).toNat
                match fetchWord s w va with
                | .error none => .nothing s
                | .error (some (code, info)) => .nothing (fetchFault s w k code info (if code = 0x10 then sp.pc.word.toNat else va))
                | .ok word =>
                  let s := setCursor (reachCode s w va) w k sp.pc hdr
                  let bad := Issued.run (.illegalOp false (BitVec.ofNat 64 word)) s
                  match build (wOp word) (ctlOf word) (wBody word) with
                  | none => bad
                  | some i =>
                    if wRate word = 7 || !rateLegal o.draw i.ctl.rate then bad
                    else match treat o.draw w.rate i sp.pc hdr with
                      | .skipTo p => .nothing (putWave s (moveSplit (w.setSplit k { sp with begun := true }) k p))
                      | .execute => match decode (BitVec.ofNat 64 word) with
                        | .ok i => if withheld s w.quad (wOp word / 64) i then .nothing s else .run i s
                        | .error _ => bad
      else .nothing s
    | _, _ => .nothing s

/-- Whether a split is runnable (R38). A clause header that cannot be fetched is reached too. -/
def runnable (s : State) (w : Wave) (sp : Split) : Bool :=
  w.place == .resident && w.stop.isNone && sp.state == .ready &&
    (sp.begun || (match fetchWord s w sp.pc.hdr.toNat with
      | .error none => false
      | .error (some _) => true
      | .ok hdr => (headerErr hdr).isSome || waitClear w hdr))

/-- A split whose next clause waits on flags that are not clear is in that state (R20). -/
def examineSplit (s : State) (w : Wave) (sp : Split) : Split :=
  if w.place = .resident ∧ w.stop = none ∧ sp.state = .ready ∧ !sp.begun then
    match fetchWord s w sp.pc.hdr.toNat with
    | .error _ => sp
    | .ok hdr => if (headerErr hdr).isSome || waitClear w hdr then sp else { sp with state := .waiting, waits := hdrWait hdr }
  else sp

/-- The next instruction of a split, as far as it can be fetched. -/
def nextInstr (s : State) (w : Wave) (sp : Split) : Option (Nat × Instr) :=
  match fetchWord s w (sp.pc.hdr + BitVec.ofNat 64 (8 * (sp.pc.idx + 1))).toNat with
  | .error _ => none
  | .ok word => (build (wOp word) (ctlOf word) (wBody word)).map fun i => (wOp word / 64, i)

/-- The issue class of a split's next instruction (R204): 0 scalar, 1 vector, 2 memory, 3 special. A word that is no instruction counts as scalar. -/
def nextClass (s : State) (w : Wave) (sp : Split) : Nat :=
  match nextInstr s w sp with
  | none => 0
  | some (g, i) => if g = 0 then 0 else if g ≤ 6 then (if vectorClass i then 1 else 0) else if g ≤ 10 then 2 else 3

/-- A runnable split as the issue logic sees it: `waited` is the clock since which it waits, if for 512 clocks or more; `rank` orders the splits of a quadrant by the wave's age, its slot and the entry (R205). -/
structure Candidate where
  wave : Nat
  split : Nat
  quad : Nat
  cls : Nat
  waited : Option Nat
  rank : Nat
  deriving DecidableEq, Repr

/-- Whether one split of a quadrant and class issues before another (R205): one not issued for 512 clocks since it became runnable first, the longest-waiting first; then the oldest wave, the lower slot, the lower entry. -/
def Candidate.ahead (d c : Candidate) : Bool :=
  match d.waited, c.waited with
  | some a, some b => decide (a < b) || a == b && decide (d.rank < c.rank)
  | some _, none => true
  | none, some _ => false
  | none, none => decide (d.rank < c.rank)

/-- Whether the power monitor withholds a split's next instruction in this clock (R15). -/
def heldBack (s : State) (w : Wave) (sp : Split) : Bool :=
  match nextInstr s w sp with
  | none => false
  | some (g, i) => withheld s w.quad g i

/-- The splits of the module that may issue in this clock. A wave in a step issues its entries in order (R390). -/
def candidates (s : State) : List Candidate :=
  s.waves.flatMap fun e => (e.2.splits.filter fun x => runnable s e.2 x.2 && (e.2.step == 0 || stepTurn e.2 == some x.1) && !heldBack s e.2 x.2).map fun x =>
    ⟨e.1, x.1, e.2.quad, nextClass s e.2 x.2, if s.clock - x.2.readySince ≥ 512 then some x.2.readySince else none,
      e.2.age * 65536 + (e.2.slot % 16) * 4 + x.1 % 4⟩

/-- A candidate put among others in the order of issue. -/
def insertAhead (c : Candidate) : List Candidate → List Candidate
  | [] => [c]
  | d :: ds => if d.ahead c then d :: insertAhead c ds else c :: d :: ds

/-- The splits of each quadrant and issue class in the order in which it takes them, with the instructions of that class that it issues in a clock (R204, R205). -/
def classOrders (s : State) : List (Nat × List Candidate) :=
  let all := candidates s
  (dedup (all.map fun c => (c.quad, c.cls))).map fun g =>
    (if g.2 = 1 then 2 else 1, (all.filter fun c => (c.quad, c.cls) == g).foldr insertAhead [])

/-- Whether an issue of a candidate has moved its wave on: a split that a rule holds at its instruction has not issued. -/
def movedOn (s t : State) (c : Candidate) : Bool :=
  match mget? s.waves c.wave, mget? t.waves c.wave with
  | some a, some b => b != a.setSplit c.split { (a.split c.split) with begun := true }
  | _, _ => true

/-- Of some clocks from now, those on which the power monitor withholds a split's next instruction (R15). -/
def withheldOf (s : State) (w : Wave) (sp : Split) (clocks : Nat) : Nat :=
  ((List.range clocks).filter fun n => heldBack { s with clock := s.clock + n } w sp).length

/-- Clocks pass. Those on which a runnable split's class is withheld do not count as waiting (R38). -/
def passClocks (s : State) (n : Nat) : State :=
  let waves := if s.withhold = 0 then s.waves else mmap s.waves fun _ w =>
    { w with splits := mmap w.splits fun _ sp => if runnable s w sp then { sp with readySince := sp.readySince + withheldOf s w sp n } else sp }
  { s with waves := waves, clock := s.clock + n }

/-! ## Stepping (R390) -/

/-- Whether a split has issued its instruction: it has moved, begun a new region, gone to sleep, or gone. -/
def hasIssued (before after : Wave) (k : Nat) : Bool :=
  match mget? before.splits k, mget? after.splits k with
  | some a, some b => a.pc != b.pc || (a.begun && !b.begun && b.walks.isEmpty) || b.state == .sleeping || b.state == .atJoin
  | some _, none => true
  | _, _ => false

/-- The BREAK record that ends a step, for the lowest entry that issued. -/
def stepRecord (s : State) (w : Wave) (k : Nat) : State :=
  let w := { w with step := 0 }
  takeFault (putWave s w) w k (w.split k).pc w.rate.num ⟨0x14, 2 ^ 31, 0, 0, 0, 0⟩

/-- After an instruction of a stepping wave: a split that has issued stops; a split that the step created stops with it; when every stepped split has issued, the BREAK record is written. `step` holds the entries still to issue in bits 3 to 0 and those of the step in bits 7 to 4. -/
def stepDone (before : State) (s : State) (wid k : Nat) : State :=
  match mget? before.waves wid, mget? s.waves wid with
  | some b, some w =>
    if w.step = 0 ∨ w.stop ≠ none ∨ !hasIssued b w k then s
    else
      let left := if tb w.step k then w.step - 2 ^ k else w.step
      let fresh := (w.splits.filter fun e => (mget? b.splits e.1).isNone || e.1 == k).map fun e => e.1
      let w := fresh.foldl (fun w j => parkAtPc w j) w
      -- a split that a fusion has removed no longer has to issue
      let todo := (List.range 4).filter fun j => tb left j && (mget? w.splits j).isSome
      if todo.isEmpty then
        let issued := (List.range 4).filter fun j => tb (w.step / 16) j
        let first := (issued.find? fun j => (mget? w.splits j).isSome).getD ((w.splits.head?.map fun e => e.1).getD k)
        if w.splits.isEmpty then putWave s { w with step := 0 } else stepRecord (putWave s w) w first
      else putWave s { w with step := left }
  | _, _ => s

/-- What the issuing step adds after an instruction: the count of a step, and the clock from which a split that has issued waits again (R205). (DESIGN CHOICE: log 3) -/
def afterIssue (before s : State) : State :=
  let (wid, k) := (before.cur.wave, before.cur.split)
  let issued := match mget? before.waves wid, mget? s.waves wid with
    | some b, some w => hasIssued b w k
    | _, _ => false
  let s := stepDone before s wid k
  if issued then { s with waves := mmodify s.waves wid fun w => { w with splits := mmodify w.splits k fun sp => { sp with readySince := s.clock } } }
  else s

/-- A wave after a step: splits whose next clause waits on flags are in that state, and one that has become ready waits from now on (R20, R38). -/
def settleWave (before s : State) (w : Wave) : Wave :=
  let was := fun (k : Nat) => (mget? before.waves w.id).bind fun b => mget? b.splits k
  { w with splits := mmap w.splits fun k sp =>
      let sp := if sp.state = .ready ∧ !((was k).any fun b => b.state == .ready) then { sp with readySince := s.clock } else sp
      examineSplit s w sp }

/-- The waves after a step. -/
def settleWaves (before s : State) : State := { s with waves := mmap s.waves fun _ w => settleWave before s w }

end Sys2Proof.Machine
end

