-- ==== Sys2Proof/Machine/Boot.lean ====
section
/-! DEFINITION. A module brought up with one compute launch of one wave whose next word is given: what withFetchWord loads from outside (R97, R193, R196, R220, R246). -/
namespace Sys2Proof.Machine

/-- Where the loaded code lies, virtual and physical. -/
def loadAddr : Nat := 0x10000

/-- Start steps after which the module is up (R220). -/
def bootDone : Nat := 7

/-- The entry that the loaded code has: compute, with the whole register footprint. (DESIGN CHOICE: log 1) -/
def loadEntry : EntryPt :=
  { codeOff := 0, kind := 0, vregs := 192, scalars := 64, scratch := 4, bench := 32, exitScope := 0, held := [] }

/-- The loaded code object (R240). (DESIGN CHOICE: log 1) -/
def loadObject : CodeObj :=
  { part := 0, base := BitVec.ofNat 64 loadAddr, magic := 0x534C5254, version := 1, feature := 1, identity := zero32, draw := false,
    hasRay := false, entries := [loadEntry] }

/-- The launch that runs it. (DESIGN CHOICE: log 1) -/
def loadLaunch : Launch :=
  { id := 0, part := 0, queue := 0, addr := 0, state := .running, terminated := false, code := BitVec.ofNat 64 loadAddr, codeObj := 0,
    entry := 0, trapEntry := 0xFF, draw := none, determ := false, gx := 0, gy := 0, gz := 0, cx := 0, cy := 0, cz := 0,
    blockLanes := 32, heldWays := 0, ways := 0, constBase := 0, constSize := 0, spawnBase := 0, spawnSize := 0, spillBase := 0,
    spillSize := 0, parcels := 0, parcelCnt := 0, placeMap := 0, start := 0, lists := [(0, [])], assigned := [(0, 1)], dieReady := [0], rayQuiet := false, epoch := 0,
    epochBase := 0, detLost := [], holdSince := [], deadSince := [] }

/-- The cluster of one block in which the wave stands, with 4 KiB of scratchpad. (DESIGN CHOICE: log 1) -/
def loadCluster : Cluster := { id := 0, launch := 0, die := 0, lci := 0, lquad := 0, pquad := 0, ranges := [(0, 0, 4)], retired := false }

/-- The wave: 32 lanes, v0 the lane number (R196). (DESIGN CHOICE: log 1) -/
def loadWave : Wave :=
  { Wave.blank with
    cluster := some 0, lblock := 0, lanes := allLanes, vregs := (List.range 31).map fun l => (l + 1, BitVec.ofNat 32 (l + 1))
    splits := [(0, { Split.blank with pc := ⟨BitVec.ofNat 64 loadAddr, 0⟩, mask := allLanes, region := ⟨BitVec.ofNat 64 loadAddr, 0⟩ })] }

/-- The partition: quadrants 0 to 15 of the module, a translation root at 0x2000. (DESIGN CHOICE: log 1) -/
def loadPart : Partition :=
  { Partition.reset with vfEnabled := true, state := .running, xlroot := 0x2000, qmap := [(0, 0x8000FFFF)] }

/-- The clause header: one instruction, no wait, A names f0 and B names f1, landing. -/
def loadHeader : Nat := 2 ^ 48 + 2 ^ 43 + 2 ^ 39 + 2 ^ 38

/-- Table entries: three nodes and one readable, writable, executable 32 GiB page at virtual 0 (R97, R98). (DESIGN CHOICE: log 1) -/
def loadTable (m : List Host.Cell) : List Host.Cell :=
  let m := Memory.writeN m 0x2000 (leBytes 8 0x4001)
  let m := Memory.writeN m 0x4000 (leBytes 8 0x1F)
  m

/-- Bring the module up with the code object, the launch and its wave, and put a header and a word where the wave fetches next. -/
def loadWord (s : State) (w : Nat) : State :=
  { s with
    agenda := [.issue 0 0], bootStep := bootDone, featureSet := true, capFeature := 0x3FF, link := .up, withhold := 0, parts := mset s.parts 0 loadPart
    mem := Memory.writeN (Memory.writeN (loadTable s.mem) loadAddr (leBytes 8 loadHeader)) (loadAddr + 8) (leBytes 8 w)
    objects := mset s.objects 0 loadObject, launches := mset s.launches 0 loadLaunch, nextLaunch := max s.nextLaunch 1
    clusters := mset s.clusters 0 loadCluster, nextCluster := max s.nextCluster 1
    waves := mset s.waves 0 loadWave, nextWave := max s.nextWave 1 }

end Sys2Proof.Machine
end

