-- ==== Sys2Proof/Machine/Hash.lean ====
section
/-! DEFINITION. SHAKE256 and KMAC256 (FIPS 202, SP 800-185), which measure code, chain the gate log and authenticate network launches (R186, R188, R197, R219). -/
namespace Sys2Proof.Machine

/-- The state of the permutation as FIPS 202 draws it: five planes, y rising, of five 64-bit lanes, x rising. -/
abbrev Sheet := List (List (BitVec 64))

/-- The state that a message starts from. -/
def Sheet.blank : Sheet := List.replicate 5 (List.replicate 5 0)

/-- A list turned by one place, its first element last. -/
def turn {α : Type} : List α → List α
  | [] => []
  | x :: xs => xs ++ [x]

/-- θ: every lane takes the parities of the column before it and, turned by one bit, of the column after it. -/
def theta (a : Sheet) : Sheet :=
  let sums := a.foldl (List.zipWith (· ^^^ ·)) (List.replicate 5 0)
  let mix := List.zipWith (fun before after => before ^^^ after.rotateLeft 1) (turn (turn (turn (turn sums)))) (turn sums)
  a.map (List.zipWith (· ^^^ ·) mix)

/-- The walk of ρ and π from lane (1, 0): the lane at (x, y) is turned by the next triangular number and put at (y, 2x + 3y). -/
def walk24 : Nat → Nat → Nat → Sheet → Sheet → Sheet
  | 0, _, _, _, out => out
  | left + 1, x, y, a, out =>
    let t := 24 - left
    let row := (2 * x + 3 * y) % 5
    let v := (nthD (nthD a y []) x 0).rotateLeft (t * (t + 1) / 2 % 64)
    walk24 left y row a (setAt out row (setAt (nthD out row []) y v))

/-- χ on one plane. -/
def chiPlane (p : List (BitVec 64)) : List (BitVec 64) :=
  List.zipWith (· ^^^ ·) p (List.zipWith (fun q r => ~~~q &&& r) (turn p) (turn (turn p)))

/-- One step of the register that gives the round constants: x^8 + x^6 + x^5 + x^4 + 1. -/
def rcNext (r : Nat) : Nat := if r < 128 then 2 * r else (2 * r) ^^^ 0x171

/-- ι: the next seven bits of the register, at the bits 2^j - 1 of lane (0, 0). Lane (0, 0) so far, and the register after. -/
def iota : Nat → BitVec 64 → Nat → BitVec 64 × Nat
  | 0, v, r => (v, r)
  | left + 1, v, r => iota left (if r % 2 = 1 then v ^^^ BitVec.ofNat 64 (2 ^ (2 ^ (6 - left) - 1)) else v) (rcNext r)

/-- Rounds of the permutation, with the register of ι. -/
def rounds : Nat → Sheet → Nat → Sheet
  | 0, a, _ => a
  | left + 1, a, r =>
    let t := theta a
    match (walk24 24 1 0 t t).map chiPlane with
    | (v :: p) :: ps =>
      let i := iota 7 v r
      rounds left ((i.1 :: p) :: ps) i.2
    | b => b

/-- The permutation of 24 rounds. -/
def permute (a : Sheet) : Sheet := rounds 24 a 1

/-- A list of lanes cut into planes. -/
def planesOf (ls : List (BitVec 64)) : Sheet := (List.range 5).map fun y => (ls.drop (5 * y)).take 5

/-- A block of the rate of 136 bytes absorbed: its 17 lanes are added to the first ones of the state. -/
def absorb (a : Sheet) (block : List Byte) : Sheet :=
  let ls := (List.range 25).map fun i => BitVec.ofNat 64 (leNat ((block.drop (8 * i)).take 8))
  permute (List.zipWith (List.zipWith (· ^^^ ·)) a (planesOf ls))

/-- Whole blocks of 136 bytes absorbed. -/
def absorbAll : Nat → Sheet → List Byte → Sheet
  | 0, a, _ => a
  | n + 1, a, bs => absorbAll n (absorb a (bs.take 136)) (bs.drop 136)

/-- The first 136 bytes of the state. -/
def squeezeBlock (a : Sheet) : List Byte := (a.flatten.take 17).flatMap fun v => leBytes 8 v.toNat

/-- `n` blocks squeezed. -/
def squeeze : Nat → Sheet → List Byte
  | 0, _ => []
  | n + 1, a => squeezeBlock a ++ squeeze n (permute a)

/-- The sponge of capacity 512 with a domain byte: `n` bytes out. -/
def sponge (domain : Byte) (n : Nat) (bs : List Byte) : List Byte :=
  let k := bs.length / 136 + 1
  let padLen := k * 136 - bs.length
  let pad : List Byte :=
    if padLen = 1 then [domain ^^^ 0x80] else [domain] ++ List.replicate (padLen - 2) 0 ++ [0x80]
  let a := absorbAll k Sheet.blank (bs ++ pad)
  (squeeze (n / 136 + 1) a).take n

/-- SHAKE256 with `n` bytes of output. -/
def shake256 (n : Nat) (bs : List Byte) : List Byte := sponge 0x1F n bs

/-- SHAKE256-256, the digest of R186, R188 and R219. -/
def digest (bs : List Byte) : List Byte := shake256 32 bs

/-- The bytes of a number, most significant first, at least one. -/
def beBytes : Nat → Nat → List Byte
  | 0, _ => []
  | fuel + 1, n => (if n < 256 then [] else beBytes fuel (n / 256)) ++ [BitVec.ofNat 8 n]

def leftEncode (n : Nat) : List Byte := let b := beBytes 8 n; BitVec.ofNat 8 b.length :: b
def rightEncode (n : Nat) : List Byte := let b := beBytes 8 n; b ++ [BitVec.ofNat 8 b.length]
def encodeString (bs : List Byte) : List Byte := leftEncode (8 * bs.length) ++ bs

/-- Bytes padded with zeros to a multiple of the rate. -/
def bytepad (bs : List Byte) : List Byte :=
  let x := leftEncode 136 ++ bs
  x ++ List.replicate ((136 - x.length % 136) % 136) 0

/-- The bytes of an ASCII text. -/
def ascii (t : List Nat) : List Byte := t.map fun n => BitVec.ofNat 8 n

/-- KMAC256 with `n` bytes of output and customization string `s`. -/
def kmac256 (key bs : List Byte) (n : Nat) (s : List Byte) : List Byte :=
  sponge 0x04 n (bytepad (encodeString (ascii [75, 77, 65, 67]) ++ encodeString s) ++
    (bytepad (encodeString key) ++ bs ++ rightEncode (8 * n)))

end Sys2Proof.Machine
end

