-- ==== Sys2Proof/Machine/LoadStore.lean ====
section
/-! DEFINITION. Groups 0x7 and 0x8: loads, stores, constants, prefetch, atomics, reductions and fences at issue (R296 to R310). -/
namespace Sys2Proof.Machine

/-- Bytes of an LD or LDS (R296). -/
def ldBytes : LdW → Nat
  | .i8 => 1 | .n8 => 1 | .i16 => 2 | .n16 => 2 | .b32 => 4 | .b64 => 8 | .b128 => 16
/-- Whether a load sign-extends (R296). -/
def ldSigned : LdW → Bool
  | .i8 => true | .i16 => true
  | _ => false
/-- Bytes of an ST or STS (R296). -/
def stBytes : StW → Nat
  | .b8 => 1 | .b16 => 2 | .b32 => 4 | .b64 => 8 | .b128 => 16
/-- Bytes of an LDC (R300). -/
def ldcBytes : LdcW → Nat
  | .b32 => 4 | .b64 => 8 | .b128 => 16 | .n16 => 2

/-- Whether an instruction is uniform (R297). (DEDUCED: log 46) -/
def uniformUse (d : Opr) (m : MemArg) : Bool := d.isUniform && m.base.isUniform && m.x.isUniform

/-- The low `n` bytes of the registers from operand d as lane l reads them (R296). -/
def dataBytes (s : State) (c : Ctx) (d : Opr) (n l : Nat) : List Byte := leBytes n (ofWords (srcs s c d ((n + 3) / 4) l))

/-- The `n` bytes that stand `k` registers after the operand's first. -/
def dataBytesAt (s : State) (c : Ctx) (d : Opr) (k n l : Nat) : List Byte :=
  leBytes n (ofWords ((srcs s c d (k + (n + 3) / 4) l).drop k))

/-- One lane access, not yet performed. -/
def newAccess (lane : Nat) (loc : Loc) (va : Nat) (bytes : Nat) (data exp : List Byte) (label : Label) (page : PageAttr) : Access :=
  { lane := lane, loc := loc, va := BitVec.ofNat 64 va, bytes := bytes, data := data, exp := exp, label := label, page := page,
    queued := false, done := false, res := [] }

/-- The access of an entry that accesses nothing. -/
def noAccess (lane : Nat) : Access := newAccess lane (.dev 0) 0 0 [] [] 0 PageAttr.plain

/-- The label of a scratchpad granule has an uncorrectable error: it reads as every label (R444). -/
def badGranuleLabel (s : State) (l : Loc) : Bool :=
  match l with
  | .scr core off => SoftMark.granuleLabel core (off / 1024) ∈ s.soft
  | _ => false

/-- A scratchpad granule with an uncorrectable error, in its bytes or its label (R444). (DESIGN CHOICE: log 48) -/
def softGranule (s : State) (l : Loc) : Bool :=
  badGranuleLabel s l || (match l with
    | .scr core off => SoftMark.granule core (off / 1024) ∈ s.soft
    | _ => false)

/-- A global or scratchpad access of the active lanes: addresses, stage 4, one entry of the pending queue and a count on the flag (R112, R297). `data` and `exp` give a lane's operand bytes. -/
def accessMem (i : Instr) (s : State) (d : Opr) (m : MemArg) (global : Bool) (bytes : Nat) (need : Need) (kind : EntKind) (dst : Option (Nat × Bool))
    (dataLbl : Ctx → Label) (data exp : Ctx → Nat → List Byte) : Host.Outcome State Fault Refusal :=
  runWord i s fun c =>
    let uni := uniformUse d m
    let lanes := accessLanes c uni
    let al := addrLabels s c m global
    let e := al ||| c.ctx ||| dataLbl c ||| softLabel s c.w.id i
    let addr := fun l => if global then globalAddr s c m l else scrAddr s c m l
    let wr := need == .write || need == .both
    let ts := lanes.map fun l => (l, if global then globTarget s c (addr l) bytes need e else scrTarget s c.w (addr l) bytes wr)
    match stage4 c ts al (operandLabels s c i) with
    | .error h => .error h
    | .ok ps =>
      if need != .write && ps.any (fun p => softGranule s p.2.1) then
        .error (.raise ⟨0x11, 3, 0, c.act, al, operandLabels s c i ||| if ps.any fun p => badGranuleLabel s p.2.1 then 0xFFFFFFFF else 0⟩)
      else
      let accs := ps.map fun p => newAccess p.1 p.2.1 (addr p.1) bytes (data c p.1) (exp c p.1) e p.2.2
      let id := Ctx.nextId s c
      let s := if wr && !global && !c.inTx then ps.foldl (fun s p => granuleOr s p.2.1 e) s else s
      let dst := dst.map fun x => ({ code := d.code, regs := x.1, signExt := x.2, act := c.act } : Dst)
      let s := submit s c kind m.order m.scope m.hint dst e al accs []
      .ok (startLong s c i.closes uni (.access id))

/-- LD (R301). -/
def execLd (h : Ctl) (w : LdW) (d : Opr) (m : MemArg) (s : State) : Host.Outcome State Fault Refusal :=
  accessMem (.ld h w d m) s d m true (ldBytes w) .read .load (some (w.regs, ldSigned w)) (fun _ => 0) (fun _ _ => []) (fun _ _ => [])

/-- ST (R301). -/
def execSt (h : Ctl) (w : StW) (d : Opr) (m : MemArg) (s : State) : Host.Outcome State Fault Refusal :=
  accessMem (.st h w d m) s d m true (stBytes w) .write .store none (fun c => labelOf s c d w.regs)
    (fun c l => dataBytes s c d (stBytes w) l) (fun _ _ => [])

/-- LDS (R301). -/
def execLds (h : Ctl) (w : LdW) (d : Opr) (m : MemArg) (s : State) : Host.Outcome State Fault Refusal :=
  accessMem (.lds h w d m) s d m false (ldBytes w) .read .load (some (w.regs, ldSigned w)) (fun _ => 0) (fun _ _ => []) (fun _ _ => [])

/-- STS (R301). -/
def execSts (h : Ctl) (w : StW) (d : Opr) (m : MemArg) (s : State) : Host.Outcome State Fault Refusal :=
  accessMem (.sts h w d m) s d m false (stBytes w) .write .store none (fun c => labelOf s c d w.regs)
    (fun c l => dataBytes s c d (stBytes w) l) (fun _ _ => [])

/-- LDC (R88, R302): every lane inside the constant window; the value comes at the completion event. -/
def execLdc (h : Ctl) (w : LdcW) (d : Opr) (m : MemArg) (s : State) : Host.Outcome State Fault Refusal :=
  runWord (.ldc h w d m) s fun c =>
    let n := ldcBytes w
    let base := c.launch.constBase.toNat
    let al := addrLabels s c m true
    let addr := globalAddr s c m
    let ts := (accessLanes c (uniformUse d m)).map fun l =>
      let a := addr l
      (l, if a % n ≠ 0 then Target.bad 4 n a
          else if a < base ∨ base + c.launch.constSize < a + n then .bad 6 8 a
          else globTarget s c a n .read 0)
    match stage4 c ts al (operandLabels s c (.ldc h w d m)) with
    | .error e => .error e
    | .ok ps =>
      let lanes := ps.map fun p => (p.1, p.2.1, p.2.2, BitVec.ofNat 64 (addr p.1))
      .ok (startLong s c false (uniformUse d m) (.const d.code n lanes (al ||| c.ctx) al c.pos))

/-- The lines that PREF and CINV name: addresses that do not translate to a readable page are dropped; a page that the core TLB lacks is walked for (R100, R303). -/
def touched (s : State) (c : Ctx) (m : MemArg) : Except Halt (List (Loc × PageAttr)) :=
  let ts := (lanesOf c.act).filterMap fun l => match translate s c.core c.w.part (globalAddr s c m l) .read with
    | .place p page => some (l, Target.at p page)
    | .walkFor va => some (l, .walk va)
    | .fail _ => none
  match stage4 c ts (addrLabels s c m true) 0 with
  | .error e => .error e
  | .ok ps => .ok (ps.map fun p => p.2)

/-- PREF (R303): hint 0 fills the L1 with the line of a cached page, by the caches that a load of it would use (R92, R93); any line may leave again at any step (R109). (DESIGN CHOICE: log 39) -/
def execPref (h : Ctl) (m : MemArg) (s : State) : Host.Outcome State Fault Refusal :=
  runWord (.pref h m) s fun c =>
    match touched s c m with
    | .error e => .error e
    | .ok ps => .ok (ps.foldl (fun s p => match p.1 with
      | .dev pa => if m.hint == .dflt && p.2.cache == 0 && (l1Find s c.core (pa / 128)).isNone && !isPoisoned s p.1 then
          l1Fill (reach s c.w.part (dieOfCore c.core) true m.hint p.2 p.1) c.core c.w.part (pa / 128) none else s
      | _ => s) s)

/-- CINV (R303). (DESIGN CHOICE: log 39) -/
def execCinv (h : Ctl) (m : MemArg) (s : State) : Host.Outcome State Fault Refusal :=
  runWord (.cinv h m) s fun c =>
    match touched s c m with
    | .error e => .error e
    | .ok ps => .ok (ps.foldl (fun s p => match p.1 with
      | .dev pa => (match l1Find s c.core (pa / 128) with
        | some x => if x.constant.isSome then s else l1Drop s c.core (pa / 128)
        | none => s)
      | _ => s) s)

/-! ## Atomics and reductions -/

/-- The destination of an atomic: none when d is an inline constant (R306). -/
def atomDst (d : Opr) (regs : Nat) : Option (Nat × Bool) := if d.isConst then none else some (regs, false)

/-- The operand of an ATOM: a constant widens to both halves of the paired formats (R229, R306). -/
def atomData (s : State) (c : Ctx) (v : AtomV) (d : Opr) (l : Nat) : List Byte :=
  match v with
  | .addF16x2 => leBytes 4 (srcPair s c f16 d l)
  | .addBf16x2 => leBytes 4 (srcPair s c bf16 d l)
  | _ => dataBytes s c d (4 * v.regs) l

/-- ATOM (R304 to R306). -/
def execAtom (h : Ctl) (v : AtomV) (d : Opr) (m : MemArg) (s : State) : Host.Outcome State Fault Refusal :=
  let regs := v.regs
  accessMem (.atom h v d m) s d m true (4 * regs) .both (.atomAcc v) (atomDst d regs) (fun c => labelOf s c d regs)
    (fun c l => atomData s c v d l) (fun _ _ => [])

/-- The ATOM variant that does what an ATOMS variant does at the bank (R307). -/
def atomsOp : AtomsV → AtomV
  | .int op => .int op .w32 | .incN32 => .incN32 | .addF32 => .addF32 | .cas => .incN32

/-- ATOMS (R307). -/
def execAtoms (h : Ctl) (v : AtomsV) (d : Opr) (m : MemArg) (s : State) : Host.Outcome State Fault Refusal :=
  if v = .cas then
    accessMem (.atoms h v d m) s d m false 4 .both (.cas false) (atomDst d 1) (fun c => labelOf s c d 2)
      (fun c l => dataBytesAt s c d 1 4 l) (fun c l => dataBytesAt s c d 0 4 l)
  else
    accessMem (.atoms h v d m) s d m false 4 .both (.atomAcc (atomsOp v)) (atomDst d 1) (fun c => labelOf s c d 1)
      (fun c l => dataBytes s c d 4 l) (fun _ _ => [])

/-- The words that a CAS compares, and whether it has a result (R308). -/
def casWords : CasV → Nat
  | .b64 => 2
  | _ => 1

/-- CAS (R308). -/
def execCas (h : Ctl) (v : CasV) (d : Opr) (m : MemArg) (s : State) : Host.Outcome State Fault Refusal :=
  let n := casWords v
  let dst := if v = .b32nr then none else atomDst d n
  accessMem (.cas h v d m) s d m true (4 * n) .both (.cas (decide (v = .b32nr))) dst (fun c => labelOf s c d (2 * n))
    (fun c l => dataBytesAt s c d n (4 * n) l) (fun c l => dataBytesAt s c d 0 (4 * n) l)

/-- CASX (R308). -/
def execCasx (h : Ctl) (d : Opr) (m : MemArg) (s : State) : Host.Outcome State Fault Refusal :=
  accessMem (.casx h d m) s d m true 16 .both (.cas false) (atomDst d 4) (fun c => labelOf s c d 8)
    (fun c l => dataBytesAt s c d 4 16 l) (fun c l => dataBytesAt s c d 0 16 l)

/-- The operand of a RED at the location's format and width; an f32 constant converts to a narrower floating format (R309). -/
def redData (s : State) (c : Ctx) (v : RedV) (d : Opr) (l : Nat) : List Byte :=
  match d with
  | .c k =>
    if v.isFloatAdd && !Const.isInt k && v.bytes != 4 then
      leBytes v.bytes (v.format.convert .rne false 0 (f32.value (Const.pattern k).toNat))
    else dataBytes s c d v.bytes l
  | _ => dataBytes s c d v.bytes l

/-- RED (R309). -/
def execRed (h : Ctl) (v : RedV) (d : Opr) (m : MemArg) (s : State) : Host.Outcome State Fault Refusal :=
  accessMem (.red h v d m) s d m true v.bytes .both (.red v) none (fun c => labelOf s c d v.regs)
    (fun c l => redData s c v d l) (fun _ _ => [])

/-! ## Fences -/

/-- FENCE (R115, R310): an entry that accesses nothing. -/
def execFence (h : Ctl) (order : Order) (scope : Scope) (s : State) : Host.Outcome State Fault Refusal :=
  runWord (.fence h order scope) s fun c =>
    .ok (submit s c .fence order scope .dflt none 0 0 [noAccess c.low] [])

/-- FENCEX (R120, R310): copies issued after it wait for the stores issued before it. -/
def execFencex (h : Ctl) (s : State) : Host.Outcome State Fault Refusal :=
  runWord (.fencex h) s fun c =>
    let w := theWave s c
    .ok (putWave s { w with fenced := w.nextEntry })

end Sys2Proof.Machine
end

