-- ==== Sys2Proof/Machine/Sync.lean ====
section
/-! DEFINITION. Group 0xA but for SPAWN and SPFL: transactions, sleeping and waking, barriers, waits on words (R148 to R162, R322 to R328, R418 to R421, R426). -/
namespace Sys2Proof.Machine

/-! ## Wake tables (R158, R421) -/

/-- The unit of a barrier scope that serves a core (R19). -/
def barUnitOf (sc : BarScope) (core : Nat) : Nat :=
  match sc with
  | .core => core
  | .quad => quadOf core
  | .die => dieOfCore core
  | _ => 0

/-- The barrier that a phase word belongs to. -/
def barOf (s : State) (id : Nat) : Option Barrier := mget? s.barriers id

/-- The keys under which queues wait on words (R191). -/
def queueKeys (s : State) : List WakeKey :=
  s.parts.flatMap fun e => e.2.queues.filterMap fun q => match q.2.wait with
    | .word k _ => some k
    | _ => none

/-- Registrations, of splits and of queues, under keys that satisfy a test. -/
def registered (s : State) (p : WakeKey → Bool) : Nat := (s.regs.filter fun r => p r.key).length + ((queueKeys s).filter p).length

/-- Waves of a broad waiters' list. -/
def broadWaves (s : State) (k : WakeKey) : Nat := (dedup ((s.regs.filter fun r => r.key == k).map fun r => r.wave)).length

/-- The wake table that a line or word belongs to is full (R158): 1,024 entries for each slice, 32 for each bank, 64 for each barrier unit and for each core's copy engine. -/
def tableFull (s : State) (core : Nat) : LineKey → Bool
  | .dev l => decide (1024 ≤ registered s fun k => match k with
    | .line (.dev m) => homeOf (m * 128) == homeOf (l * 128)
    | _ => false)
  | .scr c l => decide (32 ≤ registered s fun k => match k with
    | .line (.scr d m) => d == c && m / 64 == l / 64
    | _ => false)
  | .phase b => decide (64 ≤ registered s fun k => match k, barOf s b with
    | .line (.phase x), some bb => (match barOf s x with
      | some xb => xb.scope == bb.scope && xb.unit == bb.unit
      | none => false)
    | _, _ => false)
  | .batch _ _ => decide (64 ≤ registered s fun k => match k with
    | .line (.batch v _) => (match mget? s.waves v with
      | some w => coreOf w.quad == core
      | none => false)
    | _ => false)
  | _ => false

/-- The broad waiters' list of a full table, with the waves that it holds (R421). -/
def broadKey (s : State) (core : Nat) : LineKey → WakeKey × Nat
  | .dev l => (.slice (dieOf (l * 128)) (sliceOf (l * 128)), 256)
  | .scr c _ => (.bankCore c, 64)
  | .phase b => (match barOf s b with
    | some bb => (.barUnit bb.scope.num bb.unit, 64)
    | none => (.die (dieOfCore core), 0))
  | _ => (.engine core, 64)

/-- The die whose list takes a waiter when the other list is full: the die of the line's slice, else of the waiter. -/
def lastDie (core : Nat) : LineKey → Nat
  | .dev l => dieOf (l * 128)
  | .scr c _ => dieOfCore c
  | _ => dieOfCore core

/-- Register a split of a wave on a line or word. -/
def register (s : State) (w : Wave) (k : Nat) (l : LineKey) : State :=
  let core := coreOf w.quad
  let key := if tableFull s core l then
      let b := broadKey s core l
      if broadWaves s b.1 < b.2 then b.1 else .die (lastDie core l)
    else .line l
  let r : Registration := ⟨key, w.id, k⟩
  if r ∈ s.regs then s else { s with regs := s.regs ++ [r] }

/-- The key under which a queue registers on the line of a word: its line, or its die's list where the slice's table is full (R191, R421). -/
def queueKey (s : State) (l : Loc) : WakeKey := if tableFull s 0 l.line then .die (lastDie 0 l.line) else .line l.line

/-- Put the executing split to sleep at its position, registered on some words. -/
def sleepOn (s : State) (wid k : Nat) (ls : List LineKey) (kind : SleepKind) : State :=
  match mget? s.waves wid with
  | none => s
  | some w =>
    let s := ls.foldl (fun s l => register s w k l) s
    putWave s (w.setSplit k { (w.split k) with state := .sleeping, sleep := kind })

/-- A word of a fixed transaction changes: it reaches the read sets that hold it and wakes the sleepers, those of the broad lists too. -/
def wordChanged (s : State) (a : Agent) (l : LineKey) (broad : List WakeKey) : State :=
  wake (noteWrite s a l) broad

/-! ## RETRY and the fixed transactions (R154, R161, R162) -/

/-- Every access of the wave's transaction has performed. (DEDUCED: log 36) -/
def txQuiet (w : Wave) : Bool := w.pending.all fun e => e.tx == 0 || e.dead || e.doneAll

/-- Entries of a level become the parent's: read-set entries, buffered bytes and accesses not yet performed. Buffered bytes of the level replace the parent's. -/
def relabel (w : Wave) (level : Nat) : Wave :=
  let t := w.tx
  let mine := t.writes.filter fun b => b.level == level
  let rest := t.writes.filter fun b => b.level != level && !(b.level == level - 1 && mine.any fun m => m.loc == b.loc)
  { w with
    pending := w.pending.map fun e => if e.tx = level then { e with tx := level - 1 } else e
    tx := { t with
      reads := t.reads.map fun r => if r.level = level then { r with level := level - 1 } else r
      writes := rest ++ mine.map fun b => { b with level := level - 1 } } }

/-- What RETRY does at its level (R154): the alternative that it continues at, with the wave's transaction as that leaves it; or none left. Fuel is the level. -/
def retryLevels : Nat → Wave → Wave × Option (DWord × Nat)
  | 0, w => (w, none)
  | k + 1, w =>
    let t := w.tx
    let w := { w with tx := { t with writes := t.writes.filter fun b => b.level != k + 1 } }
    match nthD t.alts k none with
    | some a => if k = 0 then (w, some (a, 0)) else (relabel w (k + 1), some (a, k))
    | none => if k = 0 then (w, none) else retryLevels k (relabel w (k + 1))

/-- RETRY of the executing split at its level, once every access of the transaction has performed. -/
def retryNow (s : State) (wid k : Nat) : State :=
  match mget? s.waves wid with
  | none => s
  | some w =>
    match retryLevels w.tx.depth w with
    | (w, some (a, 0)) =>
      let w := { w with tx := { w.tx with depth := 0, aborts := 0, serial := false, alts := [], reads := [], writes := [] } }
      let p : Pos := ⟨a, 0⟩
      let w := settle settleFuel (w.setSplit k (((w.split k).goto p).setRegion p)) k
      releaseSerial (putWave s w) wid
    | (w, some (a, d)) =>
      let w := { w with tx := { w.tx with depth := d, alts := w.tx.alts.take d } }
      putWave s (moveSplit w k ⟨a, 0⟩)
    | (w, none) =>
      let again := w.tx.reads.any fun r => r.written
      let ls := w.tx.reads.map fun r => r.line
      let s := releaseSerial (putWave s (restartTx w 0)) wid
      if again then s else sleepOn s wid k ls .retry

/-- An overflow of a transaction (R418), or of one in serial mode (R419). -/
def overflow (s : State) (c : Ctx) : Halt :=
  if (theWave s c).tx.serial then reasonFault c.act 13 0 else .stay (abortTx s c.w.id 16)

/-- A fixed transaction on a word (R161, R162): asleep until its condition holds, with the ordering that the condition brings outside an explicit transaction. -/
def fixedWait (s : State) (c : Ctx) (l : LineKey) (va : DWord) (al : Label) (cond : Bool) (ordering : State → State) : Except Halt State :=
  if c.inTx then
    let w := theWave s c
    if !txQuiet w then .error .hold
    else match addRead w l va al w.tx.depth with
      | none => .error (overflow s c)
      | some w' =>
        let s := lockRead (putWave s w') w' l
        if cond then .ok s else .error (.stay (retryNow s c.w.id c.k))
  else if cond then .ok (ordering s)
  else .error (.stay (sleepOn s c.w.id c.k [l] .fixed))

/-- RETRY (R154, R323). (DEDUCED: log 36) -/
def execRetry (h : Ctl) (s : State) : Host.Outcome State Fault Refusal :=
  runWord (.retry h) s fun c =>
    if txQuiet (theWave s c) then .error (.stay (retryNow s c.w.id c.k)) else .error .hold

/-! ## TXB, TXE, TXX (R149, R155 to R157) -/

/-- TXB (R149, R157, R322). -/
def execTxb (h : Ctl) (alt : Option (BitVec 20)) (scope : TxScope) (s : State) : Host.Outcome State Fault Refusal :=
  runWord (.txb h alt scope) s fun c =>
    let w := theWave s c
    let t := w.tx
    let a := alt.map fun k => branchAddr c.pos.hdr k
    if c.inTx then .ok (putWave s { w with tx := { t with depth := t.depth + 1, alts := t.alts ++ [a] } })
    else if t.depth ≠ 0 then .error .hold
    else if t.aborts = 16 ∧ s.token ≠ some w.id then
      if w.id ∈ s.tokenQ then .error .hold else .error (.stay { s with tokenQ := s.tokenQ ++ [w.id] })
    else if t.wantToken && serialElsewhere s w.id (coreOf w.quad) then .error .hold
    else
      let sp := w.split c.k
      let sers := chainSers 32 w sp.nest
      let t := { t with
        depth := 1, scope := scope, owner := c.k, origin := c.pos, alts := [a], writes := [], serial := decide (t.aborts = 16),
        wantToken := false, mask0 := sp.mask, rcv0 := sp.rcv, nest0 := sp.nest, ctx0 := sp.ctx,
        sers0 := w.sers.filter fun e => e.1 ∈ sers }
      .ok (putWave s { (w.setSplit c.k (sp.setRegion c.pos)) with tx := t })

/-- Buffered bytes in ascending physical address, by space. -/
def txOrder (b : TxByte) : Nat :=
  match b.loc with
  | .dev pa => pa
  | .scr core off => 2 ^ 48 + scrKey core off
  | .pkg p pa => 2 ^ 49 + podKey p pa
  | .host pa => 2 ^ 56 + pa

/-- Whether a line lies wholly in the write set. -/
def txWhole (w : Wave) (l : LineKey) : Bool := ((w.tx.writes.filter fun b => b.loc.line == l).length) == 128

/-- The writes of a commit, applied to home copies and banks in one step (R125). -/
def commitWrites (s : State) (w : Wave) : State :=
  let a : Agent := { Agent.ofWave w with commitOf := some w.id }
  let s := (sortBy txOrder w.tx.writes).foldl (fun s b =>
    let s := if b.loc.isScr then granuleOr s b.loc b.label else s
    homeWrite (reach s w.part (dieOfQuadrant w.quad) false b.hint b.page b.loc) a b.loc [b.val]) s
  (txLines w).foldl (fun s l => match l with
    | .dev n => if txWhole w (.dev n) then unpoison s n else s
    | _ => s) s

/-- The lowest offending byte of a commit in its failing line of the lowest physical address (R432). -/
def txLabelErr (s : State) (w : Wave) : Option TxByte :=
  minBy? txOrder (w.tx.writes.filter fun b => !writeAllowed s w.part b.label b.loc 1)

/-- TXE (R125, R155, R157, R432): it holds until the commit step. -/
def execTxe (h : Ctl) (s : State) : Host.Outcome State Fault Refusal :=
  runWord (.txe h) s fun c =>
    let w := theWave s c
    let t := w.tx
    let sc := txScope t.scope
    if 1 < t.depth then
      let w := relabel w t.depth
      .ok (putWave s { w with tx := { w.tx with depth := t.depth - 1, alts := t.alts.take (t.depth - 1) } })
    else if !txQuiet w || !releaseReady s w sc then .error .hold
    else match t.reads.find? fun r => r.live && (match r.line with | .dev l => l ∈ s.poisoned | _ => false) with
      | some r => .error (.raise ⟨0x10, 0, r.va.toNat, c.act, r.alabel, r.alabel⟩)
      | none =>
        if !t.serial && (t.reads.any (fun r => r.live && r.conflict) || (txLines w).any fun l => lockedByOther s w.id l) then
          .error (.stay (abortTx s w.id (min 16 (t.aborts + 1))))
        else match txLabelErr s w with
          | some b => .error (.raise ⟨7, b.label.toNat, b.va.toNat, c.act, b.alabel, b.label⟩)
          | none =>
            let s := acquire (commitWrites s w) (coreOf w.quad) sc
            let w := theWave s c
            let w := { w with tx := { w.tx with depth := 0, aborts := 0, serial := false, alts := [], reads := [], writes := [] } }
            .ok (releaseSerial (putWave s w) w.id)

/-- TXX (R156, R323): outside a transaction it changes nothing. (DEDUCED: log 36) -/
def execTxx (h : Ctl) (s : State) : Host.Outcome State Fault Refusal :=
  runJump (.txx h) s fun c =>
    if c.act = 0 || !c.inTx then .ok (advance s c false)
    else
      let w := theWave s c
      if !txQuiet w then .error .hold
      else
        let w := { w with tx := { w.tx with depth := 0, aborts := 0, serial := false, alts := [], reads := [], writes := [] } }
        .ok (advance (releaseSerial (putWave s w) w.id) c true)

/-! ## Barriers (R324 to R327, R426) -/

/-- The group of a barrier: its launch plus 1, or 0 for the pod, and the block, cluster or die within it (R325). -/
def barGroup (w : Wave) (sc : BarScope) : Nat × Nat :=
  match sc with
  | .core => (w.launch + 1, w.lblock.toNat)
  | .quad => (w.launch + 1, w.cluster.getD 0)
  | .die => (w.launch + 1, dieOfQuadrant w.quad)
  | .pkg => (w.launch + 1, 0)
  | .pod => (0, 0)

/-- The barrier that a wave's instruction names. -/
def findBar (s : State) (w : Wave) (sc : BarScope) (k : Nat) : Option Barrier :=
  let g := barGroup w sc
  (s.barriers.find? fun e => e.2.scope == sc && e.2.group == g.1 && e.2.sub == g.2 && e.2.k == k).map fun e => e.2

/-- The barrier that a wave's instruction names; its first use makes it, at phase 0 with no arrival. -/
def makeBar (s : State) (w : Wave) (sc : BarScope) (k : Nat) : State × Barrier :=
  match findBar s w sc k with
  | some b => (s, b)
  | none =>
    let g := barGroup w sc
    let b : Barrier := { id := s.nextBar, scope := sc, unit := barUnitOf sc (coreOf w.quad), group := g.1, sub := g.2, k := k, phase := 0,
                         arrived := 0, count := 0, fromZero := false }
    ({ s with barriers := mset s.barriers b.id b, nextBar := s.nextBar + 1 }, b)

/-- No lane of a wave remains (R25). -/
def Wave.allExited (w : Wave) : Bool := w.lanes &&& ~~~w.exited == 0

/-- A wave belongs to the group of a barrier. -/
def inBarGroup (b : Barrier) (w : Wave) : Bool := w.role == .lane && barGroup w b.scope == (b.group, b.sub)

/-- Waves of a block of a launch (R28). -/
def wavesPerBlock (l : Launch) : Nat := (l.blockLanes + 31) / 32

/-- Blocks of a cluster of a launch (R28). -/
def blocksPerCluster (l : Launch) : Nat := (l.cx + 1) * (l.cy + 1) * (l.cz + 1)

/-- The waves of a barrier's group (R325). (DEDUCED: log 13) -/
def groupWaves (s : State) (b : Barrier) : Nat :=
  match mget? s.launches (b.group - 1) with
  | none => 0
  | some l =>
    let block := wavesPerBlock l
    let cluster := block * blocksPerCluster l
    match b.scope with
    | .core => block
    | .quad => cluster
    | .die => mgetD l.assigned b.sub 0 * cluster
    | .pkg => (l.assigned.foldl (fun n e => n + e.2) 0) * cluster
    | .pod => 0

/-- Waves of the group whose lanes have all exited. -/
def groupEnded (s : State) (b : Barrier) : Nat := (s.waves.filter fun e => e.2.allExited && inBarGroup b e.2).length

/-- default_count (R325): the group's waves less those that have ended. (DEDUCED: log 13) -/
def defaultCount (s : State) (b : Barrier) : Nat := groupWaves s b - groupEnded s b

/-- Waves of the group that have arrived in the current phase. -/
def groupHere (s : State) (b : Barrier) : Nat :=
  (s.waves.filter fun e => b.id ∈ e.2.barHere && !e.2.allExited && inBarGroup b e.2).length

/-- A phase completes (R326): it wakes every waiter, and at `.pkg`, when every block wave of a launch took part, it ends the launch's epoch (R207). -/
def phaseChange (s : State) (a : Agent) (b : Barrier) : State :=
  let whole := b.scope == .pkg && groupHere s b == defaultCount s b && groupHere s b != 0
  let s := { s with
    barriers := mset s.barriers b.id { b with phase := b.phase + 1, arrived := 0 }
    waves := mmap s.waves fun _ w => { w with barHere := w.barHere.filter fun x => x != b.id } }
  let s := wordChanged s a (.phase b.id) (.barUnit b.scope.num b.unit :: (List.range 8).map fun d => .die d)
  if whole then endEpoch s (b.group - 1) else s

/-- arrive (R326). -/
def arrive (s : State) (wid : Nat) (b : Barrier) (count : Nat) (fromZero : Bool) : State :=
  match mget? s.waves wid with
  | none => s
  | some w =>
    if b.id ∈ w.barHere then s
    else
      let b := if b.arrived = 0 then { b with count := count, fromZero := fromZero } else b
      let b := { b with arrived := b.arrived + 1 }
      let w := { w with barLast := mset w.barLast b.id b.phase.toNat, barHere := addNat b.id w.barHere }
      let s := putWave { s with barriers := mset s.barriers b.id b } w
      if b.arrived = b.count then phaseChange s (Agent.ofWave w) b else s

/-- passed (R326). -/
def barPassed (w : Wave) (b : Barrier) : Bool :=
  match mget? w.barLast b.id with
  | none => true
  | some p => p != b.phase.toNat

/-- The latched counts that a wave's end lowers (R325). -/
def barWaveEnd (s : State) (w : Wave) : State :=
  s.barriers.foldl (fun s e => match mget? s.barriers e.1 with
    | none => s
    | some b =>
      if b.fromZero && b.arrived != 0 && inBarGroup b w && !(b.id ∈ w.barHere) then
        let b := { b with count := b.count - 1 }
        let s := { s with barriers := mset s.barriers b.id b }
        if b.arrived = b.count then phaseChange s (Agent.ofWave w) b else s
      else s) s

/-- The scope that a barrier orders at. -/
def barOrder : BarScope → Scope
  | .core => .core
  | .quad => .quad
  | .die => .die
  | .pkg => .pkg
  | .pod => .pod

/-- The release and the arrival of BAR and BARA (R129, R326, R426): a hold until the release performs, then the arrival, or BARRIER_MISMATCH. (DEDUCED: log 37) -/
def releaseArrive (s : State) (c : Ctx) (sc : BarScope) (k : Nat) (a : Opr) : Except Halt State :=
  let w := theWave s c
  if sc == .pod && !w.podSent.isEmpty then .error (.stay (sendMarkers s w w.nextEntry))
  else if !releaseReady s w (barOrder sc) then .error .hold
  else
    let s := if sc = .pod then clearMarkers s w.id w.nextEntry else s
    let (s, b) := makeBar s w sc k
    let n := src s c a c.low
    let count := if n = 0 then defaultCount s b else n
    let same := decide (n = 0) && b.fromZero
    if b.arrived ≠ 0 ∧ !(b.id ∈ w.barHere) ∧ !same ∧ count ≠ b.count then
      .error (.raise ⟨0x0E, k + 16 * (sc.num + 1) + 65536 * (b.count % 65536), 0, c.act, 0, labelOf s c a 1⟩)
    else .ok (arrive s w.id b count (decide (n = 0)))

/-- The wait of BAR and BARW (R161): it passes with an acquire at the barrier's scope. (DEDUCED: log 37) -/
def barWait (s : State) (c : Ctx) (sc : BarScope) (k : Nat) : Except Halt State :=
  let w := theWave s c
  let (s, b) := makeBar s w sc k
  match fixedWait s c (.phase b.id) 0 0 (barPassed w b) (fun s => acquire s c.core (barOrder sc)) with
  | .error e => .error e
  | .ok s =>
    let w := theWave s c
    .ok (putWave s (w.setSplit c.k { (w.split c.k) with arrived := false }))

/-- BAR (R129, R326). (DEDUCED: log 37) -/
def execBar (h : Ctl) (scope : BarScope) (k : Fin 16) (a : Opr) (s : State) : Host.Outcome State Fault Refusal :=
  runWord (.bar h scope k a) s fun c =>
    if c.sp.arrived then labelled (labelOf s c a 1) (barWait s c scope k.val)
    else match releaseArrive s c scope k.val a with
      | .error e => .error e
      | .ok s =>
        let w := theWave s c
        .error (.stay (putWave s (w.setSplit c.k { (w.split c.k) with arrived := true })))

/-- BARA (R129, R326). -/
def execBara (h : Ctl) (scope : BarScope) (k : Fin 16) (a : Opr) (s : State) : Host.Outcome State Fault Refusal :=
  runWord (.bara h scope k a) s fun c => releaseArrive s c scope k.val a

/-- BARW (R161, R326). (DEDUCED: log 37) -/
def execBarw (h : Ctl) (scope : BarScope) (k : Fin 16) (s : State) : Host.Outcome State Fault Refusal :=
  runWord (.barw h scope k) s fun c => barWait s c scope k.val

/-! ## Waits on words (R161, R327, R328) -/

/-- Earlier accesses of the wave let it read `n` bytes at a place at the home copy now (R113). -/
def readNow (s : State) (c : Ctx) (l : Loc) (n : Nat) : Bool :=
  let w := theWave s c
  w.pending.all fun x => (!x.isAcquire || x.doneAll) &&
    (x.grp &&& c.sp.mask == 0 || x.dead || x.accs.all fun a => a.done || a.bytes == 0 || !a.loc.overlaps a.bytes l n)

/-- A word as a fixed transaction reads it: the transaction's buffer, else the home copy. (DEDUCED: log 37) -/
def fixedWord (s : State) (c : Ctx) (l : Loc) (n : Nat) : Nat :=
  let w := theWave s c
  leNat ((List.range n).map fun i =>
    match (if c.inTx then txByte w (l.plus i) else none) with
    | some b => b.val
    | none => homeByte s (l.plus i))

/-- A wait on a word of device memory of this module. -/
def waitWord (s : State) (c : Ctx) (m : MemArg) (n : Nat) (test : Nat → Bool) (labels : Label) (ordering : State → State) : Except Halt State :=
  let addr := globalAddr s c m c.low
  let al := addrLabels s c m true
  let t := globTarget s c addr n .read 0
  let t := match t with
    | .at (.dev pa) cache => Target.at (.dev pa) cache
    | .at _ _ => .bad 6 0 addr
    | t => t
  match stage4 c [(c.low, t)] al labels with
  | .error e => .error e
  | .ok ps => match ps with
    | (_, l, page) :: _ =>
      if !readNow s c l n then .error .hold
      else if isPoisoned s l then .error (.raise ⟨0x10, 0, addr, c.act, al, labels⟩)
      else
        let s := reach s c.w.part (dieOfCore c.core) true m.hint page l
        labelled labels (fixedWait s c l.line (BitVec.ofNat 64 addr) al (test (fixedWord s c l n)) ordering)
    | [] => .error .hold

/-- The condition of WAITC (R327). -/
def waitTest (v : WaitV) (d w : Nat) : Bool :=
  match v with
  | .eqB32 => w == d
  | .neB32 => w != d
  | .geN32 => decide (d ≤ w)
  | .ltN32 => decide (w < d)
  | .eqB64 => w == d
  | .neB64 => w != d

/-- WAITC (R327). (DEDUCED: log 37) -/
def execWaitc (h : Ctl) (v : WaitV) (d : Opr) (m : MemArg) (s : State) : Host.Outcome State Fault Refusal :=
  runWord (.waitc h v d m) s fun c =>
    let d64 := decide (v.regs = 2)
    let x := if d64 then src64 s c d c.low else src s c d c.low
    waitWord s c m (4 * v.regs) (waitTest v x) (operandLabels s c (.waitc h v d m))
      (fun s => if m.order = .acq then acquire s c.core m.scope else s)

/-- JOIN (R161, R328). (DEDUCED: log 37) -/
def execJoin (h : Ctl) (m : MemArg) (s : State) : Host.Outcome State Fault Refusal :=
  runWord (.join h m) s fun c =>
    waitWord s c m 4 (fun w => w == 0) (operandLabels s c (.join h m)) (fun s => acquire s c.core .die)

end Sys2Proof.Machine
end

