-- ==== Sys2Proof/Machine/Copy.lean ====
section
/-! DEFINITION. Group 0x9: plats, copies, the copy path, batches and their waits (R119 to R121, R311 to R321, R336, R337, R402, R411, R413 to R416). -/
namespace Sys2Proof.Machine

/-! ## Plats (R311, R312) -/

/-- A plat record's 64 bytes as a number, read with the fields of R311. -/
structure Plat where
  raw : Nat
  deriving DecidableEq, Repr

def Plat.base (p : Plat) : Nat := bits p.raw 63 0
def Plat.format (p : Plat) : Nat := bits p.raw 67 64
def Plat.rank (p : Plat) : Nat := bits p.raw 70 68
def Plat.bswz (p : Plat) : Nat := bits p.raw 73 71
/-- DIMk: the last index of dimension k; 0 at and above RANK. -/
def Plat.dim (p : Plat) (k : Nat) : Nat := if k < p.rank then p.raw / 2 ^ (80 + 24 * k) % 2 ^ 24 else 0
/-- STRIDEk, for k from 1. -/
def Plat.stride (p : Plat) (k : Nat) : Nat := p.raw / 2 ^ (200 + 40 * (k - 1)) % 2 ^ 40
/-- The box extent of dimension k; 1 at and above RANK. -/
def Plat.box (p : Plat) (k : Nat) : Nat := if k < p.rank then p.raw / 2 ^ (360 + 8 * k) % 256 + 1 else 1
def Plat.win (p : Plat) (k : Nat) : Nat := p.raw / 2 ^ (400 + 12 * (k - 1)) % 4096
def Plat.fill (p : Plat) : Nat := p.raw / 2 ^ 480
/-- Element size in bits. -/
def Plat.size (p : Plat) : Nat := elemBits p.format

/-- The checks of R311 on a plat record. -/
def Plat.ok (p : Plat) : Bool :=
  decide (p.format ≤ 9) && decide (1 ≤ p.rank) && decide (p.rank ≤ 5) && decide (p.bswz ≤ 1) && p.base % 16 == 0 &&
    (List.range (p.rank - 1)).all fun i => p.stride (i + 1) != 0 && p.stride (i + 1) * 8 % p.size == 0

/-- Where an element lies: the address of its byte and its first bit there; none when it is not inside (R312). -/
def Plat.element (p : Plat) (i : List Int) : Option (DWord × Nat) :=
  let inside := (List.range 5).all fun k => decide (0 ≤ nthD i k 0) && decide (nthD i k 0 ≤ (p.dim k : Int))
  if inside then
    let at_ := fun k => (nthD i k 0).toNat
    let off := at_ 0 * p.size / 8 + (List.range 4).foldl (fun n k => n + at_ (k + 1) * p.stride (k + 1)) 0
    some (BitVec.ofNat 64 (p.base + off), if p.size = 4 then 4 * (at_ 0 % 2) else 0)
  else none

/-- The piece of a copy unit that holds an element. -/
def Plat.piece (p : Plat) (dstBit : Nat) (i : List Int) : Piece :=
  match p.element i with
  | some (va, b) => ⟨dstBit, p.size, .glob va, b, none⟩
  | none => ⟨dstBit, p.size, .fill (p.fill % 2 ^ p.size), 0, some (p.fill % 2 ^ p.size)⟩

/-- Two index lists added. -/
def addIdx (a b : List Int) : List Int := (List.range 5).map fun k => nthD a k 0 + nthD b k 0

/-! ## Units of a copy (R119, R315 to R317, R337) -/

/-- A unit of raw bytes. -/
def rawUnit (chunk : Nat) (dst src : CopyRef) : CopyUnit := ⟨dst, chunk, [⟨0, 128, src, 0, none⟩], 0, false⟩

/-- The box of a plat written densely at a scratchpad address: unit u of it (R316). -/
def boxUnit (p : Plat) (org : List Int) (dst : Nat → CopyRef) (u : Nat) : CopyUnit :=
  let per := 128 / p.size
  let piece := fun e =>
    let n := u * per + e
    let j0 := n % p.box 0
    let j1 := n / p.box 0 % p.box 1
    let j2 := n / (p.box 0 * p.box 1) % p.box 2
    let j3 := n / (p.box 0 * p.box 1 * p.box 2) % p.box 3
    let j4 := n / (p.box 0 * p.box 1 * p.box 2 * p.box 3)
    p.piece (e * p.size) (addIdx org [(j0 : Int), j1, j2, j3, j4])
  ⟨dst u, u / 32, (List.range per).map piece, 0, false⟩

/-- Rows or columns of a tile of a claim (R336). -/
def Claim.rows (c : Claim) : Nat := if c.roleB then 64 else 32
/-- Slots of a tile. -/
def Claim.per (c : Claim) : Nat := if c.roleB then 2 else 1
/-- Tiles of a claim. -/
def Claim.tiles (c : Claim) : Nat := c.count / c.per

/-- Unit u of the bytes of the tiles that a box reaches in a claim, with the box's elements that it holds (R336, R337). -/
def benchUnit (p : Plat) (org : List Int) (c : Claim) (u : Nat) : CopyUnit :=
  let per := 128 / p.size
  let tileUnits := c.rows * 4
  let t := u / tileUnits
  let x := u % tileUnits / 4
  let k0 := u % 4 * per
  let pieces := (List.range per).filterMap fun e =>
    let k := k0 + e
    let j : Nat × Nat := if p.bswz = 0 then (k, x) else (x, k)
    if j.1 < p.box 0 ∧ j.2 < p.box 1 then some (p.piece (e * p.size) (addIdx org [(j.1 : Int), j.2, t, 0, 0])) else none
  ⟨.bench (c.first * 2048 + u * 16), u / 32, pieces, 0, false⟩

/-- Element (r, j) of an A tile of convolution windows (R317), at a bit of its unit. -/
def convPiece (p : Plat) (org : List Int) (dstBit r j : Nat) : Piece :=
  let w1 := p.win 1
  let w2 := p.win 2
  let f := fun w => (bits w 11 8 + 1, bits w 7 6 + 1, bits w 5 4 + 1, bits w 3 0)
  let (kw, sx, dx, px) := f w1
  let (kh, sy, dy, py) := f w2
  let cb := p.box 0
  let q := nthD org 4 0 + (j : Int)
  let pad := if p.format = 6 then 7 else 0
  if q ≥ ((cb * kw * kh : Nat) : Int) then ⟨dstBit, p.size, .fill pad, 0, some pad⟩
  else
    let ch := nthD org 0 0 + q % (cb : Int)
    let t := q / (cb : Int)
    let kx := t % (kw : Int)
    let ky := t / (kw : Int)
    let x := (nthD org 1 0 + (r : Int)) * sx + kx * dx - px
    let y := nthD org 2 0 * sy + ky * dy - py
    p.piece dstBit [ch, x, y, nthD org 3 0, 0]

/-- Unit u of a slot of convolution windows. -/
def convUnit (p : Plat) (org : List Int) (slot u : Nat) : CopyUnit :=
  let per := 128 / p.size
  ⟨.bench (slot * 2048 + u * 16), u / 32, (List.range per).map fun e => convPiece p org (e * p.size) (u / 4) (u % 4 * per + e), 0, false⟩

/-- The units and chunks of a plat's copy, or none when a check of R402 fails; `place` gives the scratchpad place of a byte address. (DESIGN CHOICE: log 43) -/
def planUnits (p : Plat) (place : Nat → CopyRef) (plan : CopyPlan) : Option (List CopyUnit × Nat) :=
  let n := p.box 0 * p.box 1 * p.box 2 * p.box 3 * p.box 4
  let even := fun (org : List Int) => p.size != 4 || (nthD org 0 0 % 2 == 0 && p.box 0 % 2 == 0)
  let boxOk := fun org => p.ok && n * p.size % 128 == 0 && decide (n * p.size ≤ 262144) && even org
  match plan with
  | .box false _ org first _ =>
    if boxOk org then
      some ((List.range (n * p.size / 128)).map (boxUnit p org fun u => place (first + 16 * u)), (n * p.size / 8 + 511) / 512)
    else none
  | .box true _ org _ (some c) =>
    let (kext, xext) := if p.bswz = 0 then (p.box 0, p.box 1) else (p.box 1, p.box 0)
    let chunks := p.box 2 * c.per * 4
    if boxOk org && p.format == c.format && p.box 3 == 1 && p.box 4 == 1 && decide (kext ≤ kcap c.format) && decide (xext ≤ c.rows) &&
        decide (p.box 2 ≤ c.tiles) && decide (chunks ≤ 64) then
      some (((List.range (chunks * 32)).map (benchUnit p org c)).filter (fun u => !u.pieces.isEmpty), chunks)
    else none
  | .conv _ org slot (some c) =>
    if p.ok && decide (3 ≤ p.rank) && p.format == c.format then some ((List.range 128).map (convUnit p org slot), 4) else none
  | _ => none

/-! ## Starting a copy (R313, R314, R402) -/

/-- Copies in flight on a core. -/
def inFlight (s : State) (core : Nat) : List Nat := (s.copies.filter fun e => e.2.core == core && !e.2.done).map fun e => e.2.centry

/-- The lowest free entry of a core's copy engine. -/
def freeCentry (s : State) (core : Nat) : Option Nat :=
  let used := inFlight s core
  if used.length ≥ 1024 then none else (List.range 1024).find? fun n => n ∉ used

/-- A scratchpad destination or source of 16 bytes; a place outside the wave's range is a copy fault. -/
def scrRef (s : State) (w : Wave) (addr : Nat) (wr : Bool) : CopyRef :=
  match scrTarget s w (addr % 2 ^ 32) 16 wr with
  | .at (.scr core off) _ => .scr core off
  | .bad code _ a => .bad code a
  | _ => .bad 6 addr

/-- A 16-B part of a raw copy's operand. -/
def rawRef (s : State) (w : Wave) (global : Bool) (addr i : Nat) (wr : Bool) : CopyRef :=
  if global then .glob (BitVec.ofNat 64 (addr + i)) else scrRef s w (addr + i) wr

/-- A handle (R314). -/
def Copy.handle (c : Copy) : Word := BitVec.ofNat 32 (c.seq % 2 ^ 22 * 1024 + c.centry)

/-- Enter a copy in its core's copy path; none when the queue is full. The wave's open copies take it. -/
def enterCopy (s : State) (c : Ctx) (plan : CopyPlan) (planned : Bool) (units : List CopyUnit) (chunks : Nat) (lbl al : Label) : Option (State × Copy) :=
  let w := theWave s c
  match freeCentry s c.core with
  | none => none
  | some e =>
    let seq := mgetD s.copySeq c.core 0
    let cp : Copy := { id := s.nextCopy, wave := w.id, part := w.part, launch := w.launch, core := c.core, centry := e, seq := seq, plan := plan,
                       planned := planned, units := units, chunks := chunks, bits := 0, after := w.fenced, label := lbl, alabel := al, ctx := c.ctx,
                       plat := [], platLabel := 0, faults := [], refusal := 0, sigDone := false, done := false }
    some (putWave { s with copies := mset s.copies cp.id cp, nextCopy := s.nextCopy + 1, copySeq := mset s.copySeq c.core ((seq + 1) % 2 ^ 22) }
        { w with opened := w.opened ++ [cp.id] }, cp)

/-- Start a copy: its handle comes at the completion event, with the label ctx (R32, R314). -/
def startCopy (s : State) (c : Ctx) (d : Opr) (plan : CopyPlan) (planned : Bool) (units : List CopyUnit) (chunks : Nat) (lbl al : Label) :
    Except Halt State :=
  match enterCopy s c plan planned units chunks lbl al with
  | none => .error .hold
  | some (s, cp) => .ok (startLong s c true true (.regs [⟨d.code, 0, cp.handle, c.ctx⟩]))

/-- Whether addresses are aligned, as an ALIGN fault of a width (R402). -/
def alignFault (c : Ctx) (n addr : Nat) (al lbl : Label) : Halt := .raise ⟨4, n, addr, c.act, al, lbl⟩

/-- A copy's length is allowed (R315, R402). -/
def lengthOk (n : Nat) : Bool := n % 16 == 0 && decide (16 ≤ n) && decide (n ≤ 32768)

/-- Whether the destination and the source of a CPY are global. -/
def CpyV.spaces : CpyV → Bool × Bool
  | .g2g => (true, true) | .g2s => (false, true) | .s2g => (true, false) | .s2s => (false, false)

/-- CPY (R315). -/
def execCpy (h : Ctl) (v : CpyV) (d a b c_ : Opr) (s : State) : Host.Outcome State Fault Refusal :=
  runWord (.cpy h v d a b c_) s fun c =>
    let (gd, gs) := CpyV.spaces v
    let addr := fun g o => if g then src64 s c o c.low else src s c o c.low
    let dst := addr gd a
    let from_ := addr gs b
    let n := src s c c_ c.low
    let lbl := operandLabels s c (.cpy h v d a b c_)
    let al := labelOf s c a (if gd then 2 else 1) ||| labelOf s c b (if gs then 2 else 1)
    if !lengthOk n then .error (operandFault c.act 3 c_.code lbl)
    else if dst % 16 ≠ 0 then .error (alignFault c 16 dst al lbl)
    else if from_ % 16 ≠ 0 then .error (alignFault c 16 from_ al lbl)
    else
      let w := theWave s c
      let unit := fun i => rawUnit (i / 32) (rawRef s w gd dst (16 * i) true) (rawRef s w gs from_ (16 * i) false)
      startCopy s c d (.raw (rawRef s w gd dst 0 true) (rawRef s w gs from_ 0 false) n) true ((List.range (n / 16)).map unit) ((n + 511) / 512)
        (al ||| labelOf s c c_ 1) al

/-- The box origin in five scalars (R316). -/
def origin (s : State) (c : Ctx) (b : Opr) : List Int := (srcs s c b 5 c.low).map fun w => w.toInt

/-- CPYP (R316, R337). -/
def execCpyp (h : Ctl) (bench : Bool) (d a b c_ : Opr) (s : State) : Host.Outcome State Fault Refusal :=
  runWord (.cpyp h bench d a b c_) s fun c =>
    let slot0 := src s c c_ c.low
    let lbl := labelOf s c a 2 ||| labelOf s c b 5 ||| labelOf s c c_ 1
    let al := labelOf s c a 2 ||| if bench then 0 else labelOf s c c_ 1
    if !bench && slot0 % 16 != 0 then .error (alignFault c 16 slot0 al lbl)
    else
      let w := theWave s c
      startCopy s c d (.box bench (BitVec.ofNat 64 (src64 s c a c.low)) (origin s c b) slot0 (if bench then claimAt w.bench slot0 else none))
        false [] 64 lbl al

/-- CPYC (R317). -/
def execCpyc (h : Ctl) (d a b c_ : Opr) (s : State) : Host.Outcome State Fault Refusal :=
  runWord (.cpyc h d a b c_) s fun c =>
    let slot := src s c c_ c.low
    let lbl := labelOf s c a 2 ||| labelOf s c b 5 ||| labelOf s c c_ 1
    startCopy s c d (.conv (BitVec.ofNat 64 (src64 s c a c.low)) (origin s c b) slot (claimAt (theWave s c).bench slot)) false [] 4 lbl (labelOf s c a 2)

/-- CPYSIG (R318). -/
def execCpysig (h : Ctl) (set : Bool) (d a b c_ : Opr) (s : State) : Host.Outcome State Fault Refusal :=
  runWord (.cpysig h set d a b c_) s fun c =>
    let ws := srcs s c a 4 c.low
    let dst := ofWords (ws.take 2)
    let sig := ofWords (ws.drop 2)
    let from_ := src64 s c b c.low
    let cw := srcs s c c_ 2 c.low
    let n := (nthD cw 0 0).toNat
    let al := labelOf s c a 4 ||| labelOf s c b 2
    let lbl := al ||| labelOf s c c_ 2
    if !lengthOk n then .error (operandFault c.act 3 c_.code lbl)
    else if dst % 16 ≠ 0 then .error (alignFault c 16 dst al lbl)
    else if from_ % 16 ≠ 0 then .error (alignFault c 16 from_ al lbl)
    else if sig % 8 ≠ 0 then .error (alignFault c 8 sig al lbl)
    else
      let unit := fun i => rawUnit (i / 32) (.glob (BitVec.ofNat 64 (dst + 16 * i))) (.glob (BitVec.ofNat 64 (from_ + 16 * i)))
      startCopy s c d (.sig (BitVec.ofNat 64 dst) (BitVec.ofNat 64 from_) (BitVec.ofNat 64 sig) n (nthD cw 1 0) set) true
        ((List.range (n / 16)).map unit) ((n + 511) / 512) lbl al

/-! ## Faults, chunks and completion (R119, R159, R414) -/

/-- A copy replaced. -/
def putCopy (s : State) (c : Copy) : State := { s with copies := mset s.copies c.id c }

/-- The copy's state of a batch changes: the batch's waiters wake, and at a completion those of the engine's list (R159, R421). -/
def batchWake (s : State) (c : Copy) (completed : Bool) : State :=
  match mget? s.waves c.wave with
  | none => s
  | some w =>
    let a : Agent := ⟨some c.core, none, none, 0xFFFFFFFF⟩
    let broad := WakeKey.die (dieOfCore c.core) :: (if completed then [.engine c.core] else [])
    match w.batches.find? fun b => c.id ∈ b.copies with
    | none => if completed then wake s broad else s
    | some b => wordChanged s a (.batch w.id b.num) broad

/-- A chunk has faulted. -/
def Copy.faulted (c : Copy) (k : Nat) : Bool := c.faults.any fun f => f.1 == k

/-- The chunk bits of a whole copy. -/
def Copy.full (c : Copy) : Nat := 2 ^ c.chunks - 1

/-- Chunks that hold none of a copy's data (R337). -/
def Copy.emptyBits (c : Copy) : Nat :=
  (List.range c.chunks).foldl (fun n k => if c.units.any (fun u => u.chunk == k) then n else n + 2 ^ k) 0

/-- Every chunk has written or faulted. -/
def Copy.allChunks (c : Copy) : Bool :=
  c.planned && (List.range c.chunks).all fun k => tb c.bits k || c.faulted k || !(c.units.any fun u => u.chunk == k)

/-- Complete a copy when every chunk has written or faulted, and for CPYSIG the signal has been updated or stays unchanged (R318, R414). -/
def checkDone (s : State) (c : Copy) : State :=
  let sig := match c.plan with
    | .sig .. => c.sigDone || !c.faults.isEmpty
    | .gate .. => false
    | _ => true
  if c.allChunks && sig && !c.done then
    let empty := (List.range c.chunks).foldl (fun n k => if tb c.emptyBits k && !tb c.bits k && !c.faulted k then n + 2 ^ k else n) 0
    let c := { c with bits := c.bits + empty, done := true }
    batchWake (putCopy s c) c true
  else s

/-- A copy fault on a chunk (R414); a copy whose wave has ended reports it. (DESIGN CHOICE: log 43) -/
def copyFault (s : State) (c : Copy) (k code : Nat) (addr : DWord) : State :=
  if c.faulted k then s
  else
    let ended : Bool := match mget? s.waves c.wave with
      | some w => w.place == .ended
      | none => true
    let s := if ended then
        pushEvent s c.part { eventRecord c.launch 0x16 (k + 256 * code) addr.toNat with addrLabel := c.alabel } else s
    let c := { c with faults := c.faults ++ [(k, code, addr)] }
    checkDone (batchWake (putCopy s c) c false) c

/-- A unit of a copy replaced. -/
def Copy.setUnit (c : Copy) (i : Nat) (u : CopyUnit) : Copy := { c with units := setAt c.units i u }

/-! ## Reading (R119, R120, R411, R413, R417) -/

/-- The stores that FENCEX puts before a copy's reads have performed (R120). -/
def fencePassed (s : State) (c : Copy) : Bool :=
  match mget? s.waves c.wave with
  | none => true
  | some w => w.pending.all fun e => decide (c.after ≤ e.id) || e.kind == .load || e.kind == .fence || e.doneAll

/-- A place that an engine of a partition reaches at a virtual address, with its page, or the underlying code of its failure. -/
def engineAt (s : State) (part : Nat) (va : DWord) (need : Need) : Except Nat (Loc × PageAttr) :=
  match translateNow s part va.toNat need with
  | .error e => .error e.code
  | .ok (l, leaf) => if poisonHit s l && need == .read then .error 0x10 else .ok (l, leaf.page)

/-- Where a copy's reference lies now. -/
def refPlace (s : State) (part : Nat) (r : CopyRef) (need : Need) : Except (Nat × DWord) (Loc × PageAttr) :=
  match r with
  | .glob va => (match engineAt s part va need with
    | .ok l => .ok l
    | .error code => .error (code, va))
  | .scr core off =>
    if need == .read && softGranule s (.scr core off) then .error (0x11, BitVec.ofNat 64 off) else .ok (.scr core off, PageAttr.plain)
  | .bad code addr => .error (code, BitVec.ofNat 64 addr)
  | .bench _ => .error (9, 0)
  | .fill _ => .error (9, 0)

/-- The 16-B block that a read of a reference performs. -/
def CopyRef.block : CopyRef → Option (Nat × Nat)
  | .glob va => some (0, va.toNat / 16)
  | .scr core off => some (core + 1, off / 16)
  | .bad _ addr => some (2 ^ 16, addr / 16)
  | _ => none

/-- Bits cut out of the bytes at a place. -/
def pieceValue (s : State) (l : Loc) (p : Piece) : Nat :=
  leNat (homeBytes s l ((p.bit + p.bits + 7) / 8)) / 2 ^ p.bit % 2 ^ p.bits

/-- A copy's access reaches its place: through the caches of its die, among the packages that its wave has accessed (R126), and for a write to host memory among those that wait for a CXL completion (R128). -/
def copyReach (s : State) (c : Copy) (read : Bool) (l : Loc × PageAttr) : State :=
  let s := reach s c.part (dieOfCore c.core) read .dflt l.2 l.1
  match l.1 with
  | .pkg p _ => { s with waves := mmodify s.waves c.wave fun w => { w with podSent := addNat p w.podSent } }
  | .host _ => if read then s else hostSend s c.wave 0 copyLane
  | _ => s

/-- Whether a copy may read a place: the source of a CPYSIG is of this module (R318). -/
def Copy.reads (c : Copy) (l : Loc) : Bool :=
  match c.plan with
  | .sig .. => l.isDev
  | _ => true

/-- A read of one 16-B block of a unit: every piece of the unit that the block supplies takes its value, with the label of its place. -/
def readBlock (s : State) (c : Copy) (i : Nat) (u : CopyUnit) (blk : Nat × Nat) : State :=
  let mine := fun p : Piece => p.val.isNone && p.src.block == some blk
  match u.pieces.find? mine with
  | none => s
  | some first => match refPlace s c.part first.src .read with
    | .error (code, addr) => copyFault s c u.chunk code addr
    | .ok l =>
      if !c.reads l.1 then copyFault s c u.chunk 6 (match first.src with | .glob va => va | _ => 0)
      else
        let s := copyReach s c true l
        let pieces := u.pieces.map fun p =>
          if mine p then
            match refPlace s c.part p.src .read with
            | .ok l => { p with val := some (pieceValue s l.1 p) }
            | .error _ => p
          else p
        putCopy s (c.setUnit i { u with pieces := pieces, label := u.label ||| locLabel s c.part l.1 })

/-- A 16-B read of a plat record; with the last of its four the copy has its units (R119, R402). -/
def readPlat (s : State) (c : Copy) (va : DWord) (part : Nat) : State :=
  let fail := fun code => copyFault s { c with planned := true, units := [], chunks := 1, plat := [] } 0 code va
  if va.toNat % 64 ≠ 0 then fail 3
  else if (mget? c.plat part).isSome then s
  else match engineAt s c.part (va + BitVec.ofNat 64 (16 * part)) .read with
    | .error code => fail code
    | .ok l =>
      let s := copyReach s c true l
      let c := { c with plat := mset c.plat part (homeBytes s l.1 16), platLabel := c.platLabel ||| locLabel s c.part l.1 }
      if c.plat.length < 4 then putCopy s c
      else
        let place := fun addr => match mget? s.waves c.wave with
          | some w => scrRef s w addr true
          | none => .bad 6 addr
        match planUnits ⟨leNat (c.plat.flatMap fun e => e.2)⟩ place c.plan with
        | none => copyFault s { c with planned := true, units := [], chunks := 1, plat := [] } 0 3 va
        | some (us, n) => putCopy s { c with planned := true, units := us, chunks := n }

/-- A chunk that cannot fault without a unit: a plat that gives no box leaves one chunk, which has faulted. (DESIGN CHOICE: log 43) -/
def platOf : CopyPlan → Option DWord
  | .box _ plat _ _ _ => some plat
  | .conv plat _ _ _ => some plat
  | _ => none

/-- Whether the host path that a read needs is there. -/
def refReady (s : State) (part : Nat) (r : CopyRef) (need : Need) : Bool :=
  match r with
  | .glob va => (match translateNow s part va.toNat need with
    | .ok (l, _) => hostReady s l
    | .error _ => true)
  | _ => true

/-- COPY_READ: a read of a copy that names a unit and one of its pieces (index unit × 64 + piece); the first reads of a copy of a plat are those of the four parts of its record. (DESIGN CHOICE: log 43) -/
def copyReadStep (s : State) (id idx : Nat) : State :=
  match mget? s.copies id with
  | none => s
  | some c =>
    if c.done || !fencePassed s c then s
    else if !c.planned then
      match platOf c.plan with
      | some va => if refReady s c.part (.glob va) .read then readPlat s c va (idx % 4) else s
      | none => s
    else match c.units[idx / 64]? with
      | none => s
      | some u =>
        if c.faulted u.chunk then s
        else match u.pieces[idx % 64]? with
          | none => s
          | some p => match p.val, p.src.block with
            | none, some b => if refReady s c.part p.src .read then readBlock s c (idx / 64) u b else s
            | _, _ => s

/-! ## Writing (R119, R126, R127, R177, R413) -/

/-- The label that the frame or granule of an unread piece has now. -/
def refLabel (s : State) (part : Nat) (r : CopyRef) : Label :=
  match refPlace s part r .read with
  | .ok l => locLabel s part l.1
  | .error _ => 0

/-- The data label of a chunk's writes (R413). -/
def chunkLabel (s : State) (c : Copy) (k : Nat) : Label :=
  (c.units.filter fun u => u.chunk == k).foldl (fun acc u =>
    u.pieces.foldl (fun acc p => if p.val.isNone then acc ||| refLabel s c.part p.src else acc) (acc ||| u.label))
    (c.label ||| c.ctx ||| c.platLabel)

/-- The bytes of a unit, merged into the bytes that its destination holds. -/
def unitBytes (u : CopyUnit) (old : List Byte) : List Byte :=
  let n := u.pieces.foldl (fun n p => n - n / 2 ^ p.dstBit % 2 ^ p.bits * 2 ^ p.dstBit + p.val.getD 0 * 2 ^ p.dstBit) (leNat old)
  leBytes 16 n

/-- Whether a write of `n` bytes with a label is allowed at an engine's destination (R177, R179, R180). -/
def engineMay (s : State) (part : Nat) (e : Label) (l : Loc) (n : Nat) : Bool :=
  match l with
  | .pkg p _ => if p ∈ s.domain then subset e (locLabel s part l) else writeAllowed s part e l n
  | l => writeAllowed s part e l n

/-- The agent of a copy's writes. -/
def copyAgent (s : State) (c : Copy) : Agent :=
  match mget? s.waves c.wave with
  | some w => { Agent.ofWave w with core := some c.core }
  | none => { Agent.outside with core := some c.core }

/-- Every unit of the line of a written unit has been written, and they cover it (R417). -/
def lineWritten (c : Copy) (va : DWord) : Bool :=
  (c.units.filter fun u => u.done && (match u.dst with | .glob v => v.toNat / 128 == va.toNat / 128 | _ => false)).length == 8

/-- A unit's write performs at a place or in a bench; the chunk's bit is set with its last write. -/
def unitWritten (s : State) (c : Copy) (i : Nat) (u : CopyUnit) : State :=
  let c := c.setUnit i { u with done := true }
  let all := c.units.all fun x => x.chunk != u.chunk || x.done
  let c := if all && !tb c.bits u.chunk then { c with bits := c.bits + 2 ^ u.chunk } else c
  let s := putCopy s c
  let s := match u.dst with
    | .glob va => (match translateNow s c.part va.toNat .write with
      | .ok (.dev pa, _) => if lineWritten c va then unpoison s (pa / 128) else s
      | _ => s)
    | _ => s
  if all then checkDone (batchWake s c false) c else s

/-- A unit's write to memory. -/
def writeUnit (s : State) (c : Copy) (i : Nat) (u : CopyUnit) (l : Loc × PageAttr) (va : DWord) : State :=
  let e := chunkLabel s c u.chunk
  if !engineMay s c.part e l.1 16 then copyFault s c u.chunk 7 va
  else
    let s := granuleOr (copyReach s c false l) l.1 e
    let s := homeWrite s (copyAgent s c) l.1 (unitBytes u (List.replicate 16 0))
    unitWritten s c i u

/-- The signal update of a CPYSIG, after every chunk (R127, R318). (DESIGN CHOICE: log 43) -/
def signalStep (s : State) (c : Copy) : State :=
  match c.plan with
  | .sig dst _ sigAddr _ operand set =>
    if c.sigDone || !c.faults.isEmpty || c.bits != c.full then s
    else
      let pkgOf := fun va => match engineAt s c.part va .both with
        | .ok (.pkg p pa, _) => some (p, pa)
        | _ => none
      match engineAt s c.part sigAddr .both, pkgOf dst with
      | .ok (.pkg p pa, page), some (q, _) =>
        let e := c.label ||| c.ctx
        if !hostReady s (.pkg p pa) then s
        else if p ≠ q then copyFault s c (c.chunks - 1) 6 sigAddr
        else if !engineMay s c.part e (.pkg p pa) 8 then copyFault s c (c.chunks - 1) 7 sigAddr
        else
          let s := foldAt (copyReach s c false (.pkg p pa, page)) (.pkg p pa)
          let old := leNat (readBytes s (.pkg p pa) 8)
          let new := if set then operand.toNat else (old + operand.toNat) % 2 ^ 64
          let s := homeWrite s (copyAgent s c) (.pkg p pa) (leBytes 8 new)
          let c := { c with sigDone := true }
          checkDone (putCopy s c) c
      | .error code, _ => copyFault s c (c.chunks - 1) code sigAddr
      | _, _ => copyFault s c (c.chunks - 1) 6 sigAddr
  | _ => s

/-- The global addresses that a copy has still to read or write (R217). -/
def Copy.globals (c : Copy) : List DWord :=
  let glob := fun r : CopyRef => match r with | .glob va => [va] | _ => []
  if c.done then []
  else match c.plan with
    | .gate src len _ _ _ => (glob src).flatMap fun va => (List.range (len / 16)).map fun i => va + BitVec.ofNat 64 (16 * i)
    | _ =>
      if !c.planned then ((platOf c.plan).toList).flatMap fun va => (List.range 4).map fun i => va + BitVec.ofNat 64 (16 * i)
      else c.units.flatMap fun u => if u.done || c.faulted u.chunk then [] else
        glob u.dst ++ u.pieces.flatMap fun p => if p.val.isNone then glob p.src else []

/-- COPY_WRITE: a unit whose source bytes have been read is written; for a CPYSIG the number after the last unit is its signal. A write waits for the lock of a serial-mode transaction (R157). (DESIGN CHOICE: log 43) -/
def copyWriteStep (s : State) (id idx : Nat) : State :=
  match mget? s.copies id with
  | none => s
  | some c =>
    if c.done || !c.planned then s
    else match c.units[idx]? with
      | none => signalStep s c
      | some u =>
        if u.done || c.faulted u.chunk || u.pieces.any (fun p => p.val.isNone) then s
        else match u.dst with
          | .bench off =>
            (match mget? s.waves c.wave with
             | none => s
             | some w =>
               let old := (List.range 16).map fun j => mgetD w.bench.bytes (off + j) 0
               let new := unitBytes u old
               let bytes := new.zipIdx.foldl (fun m b => mput 0 m (off + b.2) b.1) w.bench.bytes
               let labels := mput 0 w.bench.labels (off / 2048) (mgetD w.bench.labels (off / 2048) 0 ||| chunkLabel s c u.chunk)
               let s := putWave s { w with bench := { w.bench with bytes := bytes, labels := labels } }
               unitWritten s c idx u)
          | r => if !refReady s c.part r .write then s
            else match refPlace s c.part r .write with
              | .error (code, addr) => copyFault s c u.chunk code addr
              | .ok l =>
                let va := match r with
                  | .glob va => va
                  | _ => 0
                let foreign := match c.plan, l.1 with
                  | .sig .., .pkg _ _ => false
                  | .sig .., _ => true
                  | _, _ => false
                if foreign then copyFault s c u.chunk 6 va
                else if lineHeld s l.1 then s
                else if poisonHit s l.1 && !l.1.isDev then copyFault s c u.chunk 0x10 va
                else writeUnit s c idx u l va

/-- A replay resolution re-runs the faulted chunks of a batch's copies from their original operands; a gate refusal never (R416). -/
def rerunCopy (s : State) (id : Nat) : State :=
  match mget? s.copies id with
  | none => s
  | some c =>
    if c.faults.isEmpty || c.refusal != 0 then s
    else match platOf c.plan with
      | some _ =>
        if c.units.isEmpty then
          putCopy s { c with planned := false, plat := [], platLabel := 0, faults := [], done := false, chunks := (match c.plan with | .conv .. => 4 | _ => 64) }
        else
          let again := fun u : CopyUnit => if c.faulted u.chunk then
              { u with done := false, label := 0, pieces := u.pieces.map fun p => { p with val := match p.src with | .fill v => some v | _ => none } } else u
          putCopy s { c with units := c.units.map again, faults := [], done := false }
      | none =>
        let again := fun u : CopyUnit => if c.faulted u.chunk then { u with done := false, label := 0, pieces := u.pieces.map fun p => { p with val := none } } else u
        let s := match c.plan with
          | .gate .. => { s with gateQ := s.gateQ ++ [id] }
          | _ => s
        putCopy s { c with units := c.units.map again, faults := [], done := false, plat := [], platLabel := 0 }

/-! ## Batches (R121, R319 to R321, R415, R416) -/

/-- A batch of a wave. -/
def findBatch (w : Wave) (n : Nat) : Option Batch := w.batches.find? fun b => b.num == n

/-- The copies of a batch. -/
def batchCopies (s : State) (w : Wave) (n : Nat) : List Copy :=
  match findBatch w n with
  | none => []
  | some b => b.copies.filterMap fun id => mget? s.copies id

/-- Every chunk bit of a copy is set, or it has completed with faults (R121, R414). -/
def Copy.bitsSet (c : Copy) : Bool := c.done || c.planned && c.bits == c.full

/-- Every chunk bit of a batch is set (R121, R161). -/
def batchSet (s : State) (w : Wave) (n : Nat) : Bool := (batchCopies s w n).all fun c => c.bitsSet

/-- Every copy of a batch has completed; a batch older than those kept has. -/
def batchDone (s : State) (w : Wave) (n : Nat) : Bool := (batchCopies s w n).all fun c => c.done

/-- The lowest faulted chunk of a copy, with its code and address; a gate refusal stands at chunk 0. -/
def Copy.first (c : Copy) : Option (Nat × Nat × DWord) :=
  if c.refusal ≠ 0 then some (0, c.refusal, 0) else minBy? (fun f : Nat × Nat × DWord => f.1) c.faults

/-- The faulted copy of a batch with the lowest CENTRY (R415). -/
def batchFault (s : State) (w : Wave) (n : Nat) : Option (Copy × Nat × Nat × DWord) :=
  match minBy? (fun c : Copy => c.centry) ((batchCopies s w n).filter fun c => c.first.isSome) with
  | none => none
  | some c => c.first.map fun f => (c, f)

/-- The batch status of CWAIT `.st` (R415). -/
def batchStatus (s : State) (w : Wave) (n : Nat) : Nat :=
  match batchFault s w n with
  | none => 0
  | some (c, k, code, _) => c.centry * 65536 + k * 256 + code

/-- The batch that the next CSEAL of a split makes (R319): the next number with every open copy, or that of a CSEAL that a discard has undone, with its copies (R449). (DEDUCED: log 51) -/
def nextBatch (w : Wave) (sp : Split) : Batch :=
  match sp.reseal with
  | b :: _ => b
  | [] => ⟨w.batchNext, w.opened⟩

/-- CSEAL (R319, R449). -/
def execCseal (h : Ctl) (d : Opr) (s : State) : Host.Outcome State Fault Refusal :=
  runWord (.cseal h d) s fun c =>
    let w := theWave s c
    if 16 ≤ (w.batches.filter fun b => !batchDone s w b.num).length then .error .hold
    else
      let sp := w.split c.k
      let b : Batch := nextBatch w sp
      let w : Wave := { w with opened := w.opened.filter fun x => x ∉ b.copies, batches := w.batches ++ [b], batchNext := max w.batchNext (b.num + 1) }
      let s := putWave s (w.setSplit c.k { sp with undo := .seal b.num :: sp.undo, reseal := sp.reseal.drop 1 })
      .ok (writeDst s c d 1 (fun _ => [BitVec.ofNat 32 b.num]) c.ctx)

/-- The wait of CWAIT (R121, R161): the acquire at `.wave` drops nothing. -/
def waitBatch (s : State) (c : Ctx) (a : Opr) : Except Halt State :=
  let w := theWave s c
  let n := src s c a c.low
  labelled (labelOf s c a 1) (fixedWait s c (.batch w.id n) 0 0 (batchSet s w n) fun s => s)

/-- CWAIT (R320, R416): a batch that holds a faulted copy raises COPY once the wait is over. -/
def execCwait (h : Ctl) (a : Opr) (s : State) : Host.Outcome State Fault Refusal :=
  runWord (.cwait h a) s fun c =>
    match waitBatch s c a with
    | .error e => .error e
    | .ok s =>
      let w := theWave s c
      let n := src s c a c.low
      match batchFault s w n with
      | none => .ok s
      | some (cp, k, code, addr) =>
        let f : FaultArgs := ⟨0x16, k + 256 * code, addr.toNat, c.act, cp.alabel, cp.label ||| labelOf s c a 1⟩
        let again := (batchCopies s w n).map fun cp => cp.id
        let s := takeFault s w c.k c.pos c.h.rate.num f
        .error (.stay { s with waves := mmodify s.waves w.id fun w : Wave => { w with stop := w.stop.map fun st : Stop => { st with rerun := again } } })

/-- CWAIT `.st` (R320, R415). -/
def execCwaitSt (h : Ctl) (d a : Opr) (s : State) : Host.Outcome State Fault Refusal :=
  runWord (.cwaitSt h d a) s fun c =>
    match waitBatch s c a with
    | .error e => .error e
    | .ok s => .ok (writeDst s c d 1 (fun _ => [BitVec.ofNat 32 (batchStatus s (theWave s c) (src s c a c.low))]) (labelOf s c a 1 ||| c.ctx))

/-- The copy of a core that a handle names: the newest (R314). -/
def copyOf (s : State) (core : Nat) (h : Nat) : Option Copy :=
  ((s.copies.filter fun e => e.2.core == core && e.2.handle.toNat == h).getLast?).map fun e => e.2

/-- CTEST (R321, R414). -/
def execCtest (h : Ctl) (d a b : Opr) (s : State) : Host.Outcome State Fault Refusal :=
  runWord (.ctest h d a b) s fun c =>
    let mask := src64 s c b c.low
    let ok := match copyOf s c.core (src s c a c.low) with
      | none => true
      | some cp => (List.range 64).all fun k =>
          !tb mask k || (if k < cp.chunks then tb cp.bits k || (cp.done && !cp.faulted k && cp.refusal == 0) else true)
    .ok (writeDst s c d 1 (fun _ => [if ok then 1 else 0]) (labelOf s c a 1 ||| labelOf s c b 2 ||| c.ctx))

end Sys2Proof.Machine
end

