-- ==== Sys2Proof/Machine/Matrix.lean ====
section
/-! DEFINITION. Group 0xB: bench slots, reservation records, accumulator tiles and the matrix unit (R331 to R345, R363, R404). -/
namespace Sys2Proof.Machine

/-! ## Tiles (R333) -/

/-- The key of a tile of a quadrant. -/
def tileKey (quad t : Nat) : Nat := quad * 8 + t
/-- The key of an element of a tile. -/
def elemKey (quad t r n : Nat) : Nat := (tileKey quad t * 32 + r) * 64 + n
/-- An element of a tile, as bits. -/
def tileElem (s : State) (quad t r n : Nat) : Word := mgetD s.tiles (elemKey quad t r n) 0
/-- The label of a tile. -/
def tileLabel (s : State) (quad t : Nat) : Label := mgetD s.tileLabels (tileKey quad t) 0

/-- An element of a tile written. -/
def setElem (s : State) (quad t r n : Nat) (v : Word) : State := { s with tiles := mput 0 s.tiles (elemKey quad t r n) v }

/-- A row of a tile written. -/
def setRow (s : State) (quad t r : Nat) (vs : List Word) : State := vs.zipIdx.foldl (fun s e => setElem s quad t r e.2 e.1) s

/-- A tile's label: replaced by a clear-first write of all 32 rows, else joined (R343). -/
def markTile (s : State) (quad t : Nat) (replace : Bool) (lbl : Label) : State :=
  let v := if replace then lbl else tileLabel s quad t ||| lbl
  { s with tileLabels := mput 0 s.tileLabels (tileKey quad t) v }

/-! ## The matrix unit's order (R332) -/

/-- Matrix-group instructions issued on a quadrant and not performed: their issue numbers. -/
def matrixQueue (s : State) (quad : Nat) : List Nat :=
  s.waves.flatMap fun e => if e.2.quad = quad then
    (e.2.long.filter fun o => (match o.what with | .matrix _ => true | _ => false)).map fun o => o.id else []

/-- Nothing issued earlier on the quadrant stands before an issue number. (DESIGN CHOICE: log 44) -/
def matrixFirst (s : State) (quad id : Nat) : Bool := (matrixQueue s quad).all fun x => decide (id ≤ x)

/-- A matrix-group instruction that acts at issue waits for those before it. -/
def matrixIdle (s : State) (quad : Nat) : Bool := (matrixQueue s quad).isEmpty

/-- The labels of some slots and tiles as a read of label fields with uncorrectable errors gives them (R444). -/
def badMatrixLabel (s : State) (c : Ctx) (slots tiles : List Nat) : Label :=
  if (slots.any fun x => SoftMark.slotLabel c.w.id x ∈ s.soft) || tiles.any fun t => SoftMark.tileLabel c.w.quad t ∈ s.soft then 0xFFFFFFFF else 0

/-- SOFT_ERROR for slots and tiles that an instruction reads, in their data or their labels (R444). (DESIGN CHOICE: log 48) -/
def softMatrix (s : State) (c : Ctx) (labels : Label) (slots tiles : List Nat) : Option Halt :=
  let fault := fun (info : Nat) => some (Halt.raise ⟨0x11, info, 0, c.act, 0, labels ||| badMatrixLabel s c slots tiles⟩)
  if slots.any fun x => SoftMark.slot c.w.id x ∈ s.soft || SoftMark.slotLabel c.w.id x ∈ s.soft then fault 1
  else if tiles.any fun t => SoftMark.tile c.w.quad t ∈ s.soft || SoftMark.tileLabel c.w.quad t ∈ s.soft then fault 2
  else none

/-- A tile that is wholly written holds no error (R444). -/
def cleanTile (s : State) (quad t : Nat) : State := { s with soft := s.soft.filter fun m => m != .tile quad t && m != .tileLabel quad t }

/-! ## Bench slots (R335, R338, R340) -/

/-- A byte of the bench. -/
def Bench.byte (b : Bench) (off : Nat) : Byte := mgetD b.bytes off 0
/-- The label of a slot. -/
def Bench.label (b : Bench) (slot : Nat) : Label := mgetD b.labels slot 0
/-- A 32-bit word of the bench. -/
def Bench.word (b : Bench) (off : Nat) : Word := BitVec.ofNat 32 (leNat ((List.range 4).map fun i => b.byte (off + i)))

/-- A wave's undo list of the executing split, extended (R37). -/
def pushUndo (w : Wave) (k : Nat) (u : Undo) : Wave := w.setSplit k { (w.split k) with undo := u :: (w.split k).undo }

/-- BCLAIM (R335): the range is zeroed, with the label ctx. -/
def execBclaim (h : Ctl) (a : Opr) (s : State) : Host.Outcome State Fault Refusal :=
  runWord (.bclaim h a) s fun c =>
    match claimOf (src64 s c a c.low) with
    | none => .ok s
    | some cl =>
      let w := theWave s c
      let range := (List.range cl.count).map fun i => cl.first + i
      if !matrixIdle s w.quad then .error .hold
      else
        let inside := fun off => decide (cl.first * 2048 ≤ off) && decide (off < (cl.first + cl.count) * 2048)
        let old := w.bench.bytes.filter fun e => inside e.1
        let w := pushUndo w c.k (.bench [cl] [] old (range.map fun x => (x, w.bench.label x)))
        let bench : Bench := { claims := w.bench.claims ++ [cl], bytes := w.bench.bytes.filter fun e => !inside e.1,
                               labels := range.foldl (fun m x => mput 0 m x c.ctx) w.bench.labels }
        let soft := s.soft.filter fun m => !(range.any fun x => m == .slot w.id x || m == .slotLabel w.id x)
        .ok (putWave { s with soft := soft } { w with bench := bench })

/-- A copy that has not completed writes a slot of a claim (R313, R338). -/
def copyWrites (cp : Copy) (cl : Claim) : Bool :=
  let meets := fun slot => decide (cl.first ≤ slot) && decide (slot < cl.first + cl.count)
  if cp.planned then cp.units.any fun u => match u.dst with | .bench off => meets (off / 2048) | _ => false
  else match cp.plan with
    | .box true _ _ _ (some c) => decide (c.first < cl.first + cl.count) && decide (cl.first < c.first + c.count)
    | .conv _ _ slot _ => meets slot
    | _ => false

/-- BREL (R338): it waits until the matrix unit and the copies that write the range are done with it. -/
def execBrel (h : Ctl) (a : Opr) (s : State) : Host.Outcome State Fault Refusal :=
  runWord (.brel h a) s fun c =>
    let v := src s c a c.low
    let first := bits v 4 0
    let count := bits v 10 5
    let w := theWave s c
    let whole := fun cl : Claim => decide (first ≤ cl.first) && decide (cl.first + cl.count ≤ first + count)
    let gone := w.bench.claims.filter whole
    let busy := s.copies.any fun e => e.2.wave == w.id && !e.2.done && gone.any fun cl => copyWrites e.2 cl
    if !matrixIdle s w.quad || busy then .error .hold
    else
      let slots := gone.flatMap fun cl => (List.range cl.count).map fun i => cl.first + i
      let w := pushUndo w c.k (.bench [] gone [] (slots.map fun x => (x, w.bench.label x)))
      let bench : Bench := { w.bench with claims := w.bench.claims.filter (fun cl => !whole cl),
                                          labels := slots.foldl (fun m x => merase m x) w.bench.labels }
      .ok (putWave s { w with bench := bench })

/-- The bench byte offset of a lane (R340). -/
def benchAddr (s : State) (c : Ctx) (m : MemArg) (l : Nat) : Nat :=
  (readReg s c m.base 0 l + readReg s c m.x 0 l + m.off.signExtend 32).toNat

/-- The bench offsets of the active lanes of BST and BRD, with their stage-4 checks (R404). -/
def benchTargets (s : State) (c : Ctx) (m : MemArg) (lbl : Label) : Except Halt (List (Nat × Nat)) :=
  let ts := (lanesOf c.act).map fun l =>
    let e := benchAddr s c m l
    (l, if e % 4 ≠ 0 then Target.bad 4 4 e
        else if e ≥ 65536 ∨ (claimAt (theWave s c).bench (e / 2048)).isNone then .bad 9 (e / 2048 % 32) 0
        else .at (.scr 0 e) PageAttr.plain)
  match stage4 c ts (addrLabels s c m false) lbl with
  | .error h => .error h
  | .ok ps => .ok (ps.map fun p => (p.1, p.2.1.addr))

/-- A matrix-group instruction handed to the matrix unit. -/
def startMatrix (s : State) (c : Ctx) (closes : Bool) (m : MatrixOp) : State := startLong s c closes false (.matrix m)

/-- BST (R340): the words are read at issue. -/
def execBst (h : Ctl) (d : Opr) (m : MemArg) (s : State) : Host.Outcome State Fault Refusal :=
  runWord (.bst h d m) s fun c =>
    match benchTargets s c m (operandLabels s c (.bst h d m)) with
    | .error e => .error e
    | .ok ps =>
      let lbl := labelOf s c d 1 ||| addrLabels s c m false ||| c.ctx
      .ok (startMatrix s c false (.bst (ps.map fun p => (p.2, readReg s c d 0 p.1)) lbl))

/-- BRD (R340). -/
def execBrd (h : Ctl) (d : Opr) (m : MemArg) (s : State) : Host.Outcome State Fault Refusal :=
  runWord (.brd h d m) s fun c =>
    match benchTargets s c m (operandLabels s c (.brd h d m)) with
    | .error e => .error e
    | .ok ps => match softMatrix s c (operandLabels s c (.brd h d m)) (ps.map fun p => p.2 / 2048) [] with
      | some e => .error e
      | none => .ok (startMatrix s c false (.brd d.code ps (addrLabels s c m false ||| c.ctx)))

/-! ## MMA (R336, R341 to R343) -/

/-- The first byte of the tile of a claim that begins at a slot, its index in the claim. -/
def tileIndex (c : Claim) (slot : Nat) : Nat := (slot - c.first) / c.per

/-- The floating format of a plat or bench format code. -/
def floatFormat (f : Nat) : Format :=
  if f = 0 then f32 else if f = 1 then f16 else if f = 2 then bf16 else if f = 3 then e4m3 else if f = 4 then e5m2 else e2m1

/-- The bits of element (x, k) of a tile at a slot (R336). -/
def benchBits (b : Bench) (format slot x k : Nat) : Nat :=
  let base := slot * 2048 + 64 * x
  let size := elemBits format
  if size = 4 then (b.byte (base + k / 2)).toNat / 16 ^ (k % 2) % 16
  else leNat ((List.range (size / 8)).map fun i => b.byte (base + k * (size / 8) + i))

/-- The exact value of element (x, k) of a tile (R136, R336). -/
def benchValue (b : Bench) (c : Claim) (slot x k : Nat) : Num :=
  let v := benchBits b c.format slot x k
  let t := tileIndex c slot
  let scale := (b.byte (c.scoff + t * c.rows * scalesPer c + x * scalesPer c + k / (if c.blk = 1 then 32 else 64))).toNat
  if c.format = 6 then gq4Value v scale (f32.value (b.word (c.ssoff + 4 * (t * c.rows + x))).toNat)
  else if c.blk = 1 then ((floatFormat c.format).value v).mul (e8m0Value scale)
  else (floatFormat c.format).value v

/-- The integer value of element (x, k) of a tile of an integer format. -/
def benchInt (b : Bench) (c : Claim) (slot x k : Nat) : Int :=
  let v := benchBits b c.format slot x k
  if c.format = 7 then sextN 8 v else (v : Int)

/-- The slots that hold the operands of an MMA: the tile, and the block scales and super-scales of the rows or columns and of the k that it reads (R342, R363). -/
def operandSlots (b : Bench) (c : Claim) (slot : Nat) (rows : List Nat) (kmax : Nat) : List Nat :=
  let t := tileIndex c slot
  let n := scalesPer c
  let read := min n ((kmax + (if c.blk = 1 then 31 else 63)) / (if c.blk = 1 then 32 else 64))
  let sc := rows.flatMap fun r => (List.range read).map fun j => (c.scoff + t * c.rows * n + r * n + j) / 2048
  let ss := if c.format = 6 then rows.map fun r => (c.ssoff + 4 * (t * c.rows + r)) / 2048 else []
  dedup (((List.range c.per).map fun i => slot + i) ++ sc ++ ss) |>.filter fun x => (claimAt b x).isSome

/-- The slots that an MMA of some rows reads, of both operands. -/
def mmaSlots (bench : Bench) (act : Mask) (a b : Nat) : List Nat :=
  match claimAt bench a, claimAt bench b with
  | some ca, some cb =>
    let kmax := min (kcap ca.format) (kcap cb.format)
    operandSlots bench ca a (lanesOf act) kmax ++ operandSlots bench cb b (List.range 64) kmax
  | _, _ => []

/-- One element of a floating product (R142, R342): groups of 16 in increasing k. -/
def mmaFloat (sat neg : Bool) (a b : Nat → Num) (kmax acc : Nat) : Nat :=
  (List.range (kmax / 16)).foldl (fun acc g =>
    let p := fun i =>
      let x := (a (16 * g + i)).mul (b (16 * g + i))
      if neg then x.neg else x
    groupSum sat (((List.range 16).map p) ++ [f32.value acc])) acc

/-- One element of an integer product (R143, R342). -/
def mmaInt (neg : Bool) (a b : Nat → Int) (kmax : Nat) (acc : Int) : Nat :=
  let sum := (List.range kmax).foldl (fun n k => if neg then n - a k * b k else n + a k * b k) acc
  (sum % (2 ^ 32 : Int)).toNat

/-- MMA performs (R342). -/
def performMma (s : State) (w : Wave) (act : Mask) (sat neg clr : Bool) (t a b : Nat) (ctx : Label) : State :=
  let bench := w.bench
  match claimAt bench a, claimAt bench b with
  | some ca, some cb =>
    let kmax := min (kcap ca.format) (kcap cb.format)
    let integer := decide (ca.format = 7 ∨ ca.format = 8)
    let row := fun r => (List.range 64).map fun n =>
      let old := (tileElem s w.quad t r n).toNat
      let v := if integer then mmaInt neg (benchInt bench ca a r) (benchInt bench cb b n) kmax (if clr then 0 else sextN 32 old)
        else mmaFloat sat neg (benchValue bench ca a r) (benchValue bench cb b n) kmax (if clr then 0 else old)
      BitVec.ofNat 32 v
    let rows := (lanesOf act).map fun r => (r, row r)
    let s := if clr && act == allLanes then cleanTile s w.quad t else s
    let s := rows.foldl (fun s e => setRow s w.quad t e.1 e.2) s
    let lbl := (mmaSlots bench act a b).foldl (fun acc x => acc ||| bench.label x) ctx
    markTile s w.quad t (clr && act == allLanes) lbl
  | _, _ => s

/-- MMA (R341, R342). -/
def execMma (h : Ctl) (sat neg clr : Bool) (t : Fin 8) (a b : Fin 32) (s : State) : Host.Outcome State Fault Refusal :=
  runWord (.mma h sat neg clr t a b) s fun c =>
    match softMatrix s c 0 (mmaSlots (theWave s c).bench c.act a.val b.val) (if clr then [] else [t.val]) with
    | some e => .error e
    | none => .ok (startMatrix s c (!clr) (.mma sat neg clr t.val a.val b.val c.ctx))

/-- ACLR (R342, R343). -/
def execAclr (h : Ctl) (t : Fin 8) (s : State) : Host.Outcome State Fault Refusal :=
  runWord (.aclr h t) s fun c =>
    let quad := c.w.quad
    if !matrixIdle s quad then .error .hold
    else
      let s := (lanesOf c.act).foldl (fun s r => setRow s quad t.val r (List.replicate 64 0)) s
      let s := if c.act = allLanes then cleanTile s quad t.val else s
      .ok (markTile s quad t.val (c.act == allLanes) c.ctx)

/-! ## Tiles and registers (R344) -/

/-- ARD (R344). -/
def execArd (h : Ctl) (bf : Bool) (t g : Fin 8) (rm : Rm) (sat : Bool) (d : Opr) (s : State) : Host.Outcome State Fault Refusal :=
  runWord (.ard h bf t g rm sat d) s fun c =>
    match softMatrix s c 0 [] [t.val] with
    | some e => .error e
    | none => .ok (startMatrix s c false (.ard bf t.val g.val rm sat d.code c.ctx))

/-- The eight register words that ARD gives a row. -/
def ardWords (s : State) (quad : Nat) (bf : Bool) (t g : Nat) (rm : Rm) (sat : Bool) (r : Nat) : List Word :=
  let cv := fun n => bf16.convert rm sat 0 (f32.value (tileElem s quad t r n).toNat)
  (List.range 8).map fun i =>
    if bf then BitVec.ofNat 32 (cv (16 * g + 2 * i) + 65536 * cv (16 * g + 2 * i + 1)) else tileElem s quad t r (8 * g + i)

/-- AWR (R344): the registers are read at issue. -/
def execAwr (h : Ctl) (bf : Bool) (t g : Fin 8) (a : Opr) (s : State) : Host.Outcome State Fault Refusal :=
  runWord (.awr h bf t g a) s fun c =>
    .ok (startMatrix s c false (.awr bf t.val g.val ((lanesOf c.act).map fun l => (l, srcs s c a 8 l)) (labelOf s c a 8 ||| c.ctx)))

/-- The elements of a row that AWR writes. -/
def awrRow (s : State) (quad : Nat) (bf : Bool) (t g r : Nat) (ws : List Word) : State :=
  if bf then ws.zipIdx.foldl (fun s e =>
      let half := fun x => BitVec.ofNat 32 (f32.convert .rne false 0 (bf16.value x))
      let s := setElem s quad t r (16 * g + 2 * e.2) (half (e.1.toNat % 65536))
      setElem s quad t r (16 * g + 2 * e.2 + 1) (half (e.1.toNat / 65536))) s
  else ws.zipIdx.foldl (fun s e => setElem s quad t r (8 * g + e.2) e.1) s

/-- Register words that a matrix-group instruction gives lanes, with their label (R176). -/
def putRegs (s : State) (wid : Nat) (act : Mask) (code n : Nat) (rows : List (Nat × List Word)) (lbl : Label) : State :=
  let s := rows.foldl (fun s e => putWords s wid code e.1 e.2 lbl) s
  if 192 ≤ code ∧ code < 256 then s
  else { s with waves := mmodify s.waves wid fun w => (List.range n).foldl (fun w i => w.setLabel (code + i) act lbl) w }

/-- What the matrix unit does when it reaches an instruction (R332). A discarded region's bench and register results are thrown away (R37); tiles take theirs. (DESIGN CHOICE: log 44) -/
def performMatrix (s : State) (w : Wave) (op : LongOp) (m : MatrixOp) : State :=
  match m with
  | .bst words lbl =>
    if op.dead then s
    else
      let sp := w.split op.split
      let old := words.flatMap fun e => (List.range 4).map fun i => (e.1 + i, w.bench.byte (e.1 + i))
      let labels := words.map fun e => (e.1 / 2048, w.bench.label (e.1 / 2048))
      let w := if sp.serial = op.serial then pushUndo w op.split (.bench [] [] old labels) else w
      let bytes := words.foldl (fun b e => ((leBytes 4 e.2.toNat).zipIdx).foldl (fun b x => mput 0 b (e.1 + x.2) x.1) b) w.bench.bytes
      let marks := words.foldl (fun m e => mput 0 m (e.1 / 2048) (mgetD m (e.1 / 2048) 0 ||| lbl)) w.bench.labels
      putWave s { w with bench := { w.bench with bytes := bytes, labels := marks } }
  | .brd d offs lbl =>
    if op.dead then s
    else
      let lbl := offs.foldl (fun acc e => acc ||| w.bench.label (e.2 / 2048)) lbl
      let rows := offs.map fun e => (e.1, [w.bench.word e.2])
      let rows := if 256 ≤ d then rows.take 1 else rows
      putRegs s w.id op.act d 1 rows lbl
  | .mma sat neg clr t a b lbl => performMma s w op.act sat neg clr t a b lbl
  | .ard bf t g rm sat d lbl =>
    if op.dead then s
    else
      let rows := (lanesOf op.act).map fun r => (r, ardWords s w.quad bf t g rm sat r)
      putRegs s w.id op.act d 8 (if 256 ≤ d then rows.take 1 else rows) (tileLabel s w.quad t ||| lbl)
  | .awr bf t g rows lbl =>
    markTile (rows.foldl (fun s e => awrRow s w.quad bf t g e.1 e.2) s) w.quad t false lbl

/-! ## AST (R345) -/

/-- Bytes of an element that AST writes. -/
def astBytes : AstV → Nat
  | .b32 => 4 | .bf16 => 2 | .f16 => 2 | .e4m3 => 1 | .e5m2 => 1 | .i8 => 1 | .n8 => 1 | .i16 => 2

/-- A value clamped to a range, as bits of a width. -/
def clampBits (lo hi : Int) (n : Nat) (v : Word) : Nat := ((max lo (min hi v.toInt)) % (2 ^ n : Nat)).toNat

/-- An element as AST writes it. (DESIGN CHOICE: log 44) -/
def astElem (v : AstV) (rm : Rm) (sat : Bool) (x : Word) : Nat :=
  match v with
  | .b32 => x.toNat
  | .bf16 => bf16.convert rm sat 0 (f32.value x.toNat)
  | .f16 => f16.convert rm sat 0 (f32.value x.toNat)
  | .e4m3 => e4m3.convert rm sat 0 (f32.value x.toNat)
  | .e5m2 => e5m2.convert rm sat 0 (f32.value x.toNat)
  | .i8 => clampBits (-128) 127 8 x
  | .n8 => clampBits 0 255 8 x
  | .i16 => clampBits (-32768) 32767 16 x

/-- AST (R345): one entry of the pending queue for each active row. (DESIGN CHOICE: log 44) -/
def execAst (h : Ctl) (v : AstV) (d : Opr) (m : MemArg) (s : State) : Host.Outcome State Fault Refusal :=
  runWord (.ast h v d m) s fun c =>
    let ctl := src s c d c.low
    let lbls := operandLabels s c (.ast h v d m)
    if !matrixIdle s c.w.quad then .error .hold
    else
      let t := ctl % 8
      let scr := tb ctl 3
      let n := astBytes v
      let pitch := src s c m.x c.low
      let al := labelOf s c m.base (if scr then 1 else 2) ||| labelOf s c m.x 1
      let e := tileLabel s c.w.quad t ||| badMatrixLabel s c [] [t] ||| softLabel s c.w.id (.ast h v d m) ||| al ||| c.ctx
      let addr := fun r i =>
        if scr then ((src s c m.base r : Int) + m.off.toInt + (r * pitch + i * n : Nat)) % (2 ^ 32 : Int) |>.toNat
        else ((src64 s c m.base r : Int) + m.off.toInt + (r * pitch + i * n : Nat)) % (2 ^ 64 : Int) |>.toNat
      let rows := lanesOf c.act
      let ts := rows.flatMap fun r => (List.range 64).map fun i =>
        (r, if scr then scrTarget s c.w (addr r i) n true else globTarget s c (addr r i) n .write e)
      match stage4 c ts al lbls with
      | .error f => .error f
      | .ok ps => match softMatrix s c lbls [] [t] with
        | some f => .error f
        | none =>
          let s := if scr then ps.foldl (fun s p => granuleOr s p.2.1 e) s else s
          let start := (theWave s c).nextEntry
          let rm := Rm.of (bits ctl 6 4)
          let row := fun r =>
            (((ps.filter fun p => p.1 == r).zipIdx).map fun p =>
              newAccess p.2 p.1.2.1 (addr r p.2) n (leBytes n (astElem v rm (tb ctl 7) (tileElem s c.w.quad t r p.2))) [] e p.1.2.2)
          let s := rows.foldl (fun s r => submit s c .store m.order m.scope m.hint none e al (row r) []) s
          .ok (startLong s c false false (.rows ((List.range rows.length).map fun i => start + 2 * i)))

end Sys2Proof.Machine
end

