-- ==== Sys2Proof/Machine/Element.lean ====
section
/-! DEFINITION. Elements and held records: creation, allocation in the held store, gathers, liveness counts, release and return (R44, R45, R51, R54 to R60, R365, R366). -/
namespace Sys2Proof.Machine

/-! ## Records (R54, R55) -/

/-- The launched entry of a launch. -/
def launchEntry (s : State) (l : Launch) : Option EntryPt := (entryOf s l l.entry).map fun e => e.2

/-- Whether the code object of a launch holds RAY-rate code (R60, R366). -/
def hasRay (s : State) (l : Launch) : Bool :=
  match mget? s.objects l.codeObj with
  | none => false
  | some o => o.hasRay

/-- Whether the records of a launch take units of the held store (R54). -/
def takesUnits (s : State) (l : Launch) : Bool :=
  l.draw.isSome || (match launchEntry s l with
    | some e => !e.held.isEmpty
    | none => false)

/-- Held registers of a section: those of producing rate p and last-consumer rate q. -/
def sectionSize (e : EntryPt) (p q : Nat) : Nat := (e.held.filter fun x => x.2.1 == p && x.2.2 == q).length

/-- The runs of 64-B units that a record of a rate takes: one for the header and one for each section; a RAY record is a header alone (R54, R365). (DESIGN CHOICE: log 55) -/
def recordRuns (s : State) (l : Launch) (r : Rate) : List Nat :=
  if !takesUnits s l then []
  else if r = .ray then [1]
  else match launchEntry s l with
    | none => [1]
    | some e => 1 :: (sectionRates e r.num).map fun q => (sectionSize e r.num q + 7) / 8

/-- 64-B units of a record of a rate: the header and its sections. -/
def recordUnits (s : State) (l : Launch) (r : Rate) : Nat := (recordRuns s l r).foldl (fun n x => n + x) 0

/-- The key of a launch's store on a die. -/
def storeKey (lid die : Nat) : Nat := lid * 8 + die

/-- Units of a launch's held ways on a die, or of its share of the spill region (R55). -/
def storeSize (l : Launch) (spill : Bool) : Nat := if spill then l.spillSize / 8 else l.heldWays * 32768

/-- The lowest offset at which a run of `n` units or granules fits. -/
def findRun (size : Nat) (taken : List (Nat × Nat)) (n : Nat) : Option Nat :=
  let free := fun o => decide (o + n ≤ size) && taken.all fun r => decide (o + n ≤ r.1) || decide (r.1 + r.2 ≤ o)
  minBy? (fun o => o) ((0 :: taken.map fun r => r.1 + r.2).filter free)

/-- The runs of a store that the records of a launch on a die take. -/
def runsTaken (s : State) (lid die : Nat) (spill : Bool) : List (Nat × Nat) :=
  (s.elems.filter fun e => e.2.launch == lid && e.2.die == die && e.2.spill == spill).flatMap fun e => e.2.locs

/-- Places for some runs in a store, each the lowest that is free, or none. -/
def findRuns (size : Nat) : List (Nat × Nat) → List Nat → Option (List (Nat × Nat))
  | _, [] => some []
  | taken, n :: ns => match findRun size taken n with
    | none => none
    | some o => (findRuns size ((o, n) :: taken) ns).map fun rs => (o, n) :: rs

/-- Where runs of units fit for a launch on a die: the held ways (false) or the spill region (true), with their places; or nowhere. -/
def findRoom (s : State) (l : Launch) (die : Nat) (runs : List Nat) : Option (Bool × List (Nat × Nat)) :=
  match findRuns (storeSize l false) (runsTaken s l.id die false) runs with
  | some rs => some (false, rs)
  | none => (findRuns (storeSize l true) (runsTaken s l.id die true) runs).map fun rs => (true, rs)

/-- Whether a split still holds at the TRACE of a hold. -/
def TraceHold.live (s : State) (h : TraceHold) : Bool :=
  match mget? s.waves h.wave with
  | none => false
  | some w => w.place == .resident && w.stop.isNone && (match mget? w.splits h.split with
    | none => false
    | some sp => sp.pc == h.pos && sp.state == .ready)

/-- The creations of a launch that wait on a die, and the TRACEs that hold there: their places in creation order, the runs that they wait for, and the element if it is one (R55, R365). The place of a TRACE is before that of the next element. -/
def waiters (s : State) (l : Launch) (die : Nat) : List (Nat × List Nat × Option Nat) :=
  ((s.elems.filter fun e => e.2.launch == l.id && e.2.die == die && e.2.state == .waiting).map
      fun e => (2 * e.1 + 1, recordRuns s l e.2.rate, some e.1)) ++
    ((s.traceHolds.filter fun h => h.launch == l.id && h.die == die && h.live s).map
      fun h => (2 * h.order, List.replicate h.units 1, none))

/-- Units that the records of a launch on a die leave free, in both stores. -/
def unitsFree (s : State) (l : Launch) (die : Nat) : Nat :=
  let used := fun spill => (runsTaken s l.id die spill).foldl (fun n r => n + r.2) 0
  (storeSize l false - used false) + (storeSize l true - used true)

/-- The first waiter of a launch on a die. -/
def firstWaiter (s : State) (l : Launch) (die : Nat) : Option (Nat × List Nat × Option Nat) := minBy? (fun x => x.1) (waiters s l die)

/-! ## Gathers (R45) -/

/-- The hit entry of an element: the fourth part of the gather key. -/
def Elem.hitEntry (e : Elem) : Nat :=
  match e.hit with
  | some h => h.entry
  | none => 0xFF

/-- The die where an element gathers: for a ray's hit the die that R78 names, else its own. -/
def Elem.gatherDie (e : Elem) : Nat :=
  match e.hit with
  | some h => h.die
  | none => e.die

/-- Whether a gather has the key of an element. -/
def Gather.takes (g : Gather) (e : Elem) : Bool :=
  !g.isSealed && g.die == e.gatherDie && g.launch == e.launch && g.rate == e.rate && g.label == e.ctx0 && g.hitEntry == e.hitEntry

/-- A gather sealed: it moves behind the gathers sealed before it. -/
def sealGather (s : State) (g : Gather) : State :=
  { s with gathers := (s.gathers.filter fun x => !(x == g)) ++ [{ g with isSealed := true }] }

/-- An element enters the open gather of its key, or opens one; a FRAME or LAUNCH element runs alone. -/
def gatherElem (s : State) (id : Nat) : State :=
  match mget? s.elems id with
  | none => s
  | some e =>
    let s := { s with elems := mset s.elems id { e with state := .gathering } }
    let alone := e.rate == .whole
    let fresh : Gather := { die := e.gatherDie, launch := e.launch, rate := e.rate, label := e.ctx0, hitEntry := e.hitEntry, elems := [id],
                            last := s.clock, isSealed := alone }
    match s.gathers.find? fun g => g.takes e with
    | none => { s with gathers := s.gathers ++ [fresh] }
    | some g =>
      let g' := { g with elems := g.elems ++ [id], last := s.clock }
      let s := { s with gathers := s.gathers.map fun x => if x = g then g' else x }
      if g'.elems.length = 32 then sealGather s g' else s

/-! ## Starting a wave (R30, R35, R169, R196) -/

/-- The first clause of an entry. -/
def entryAddr (l : Launch) (e : EntryPt) : DWord := l.code + BitVec.ofNat 64 e.codeOff

/-- The single split with which a wave starts at its entry. -/
def startSplit (s : State) (l : Launch) (e : EntryPt) (mask : Mask) (ctx : Label) : Split :=
  { Split.blank with pc := ⟨entryAddr l e, 0⟩, region := ⟨entryAddr l e, 0⟩, mask := mask, ctx := ctx, readySince := s.clock }

/-- A placed wave whose elements all have their records starts (R45). -/
def startWave (s : State) (wid : Nat) : State :=
  match mget? s.waves wid with
  | none => s
  | some w =>
    let ready := w.elems.all fun e => match mget? s.elems e.2 with
      | some x => x.state != .waiting
      | none => true
    match mget? s.launches w.launch with
    | none => s
    | some l => match entryOf s l w.entry with
      | none => s
      | some (_, e) =>
        let full := (lanesOf w.lanes).all fun l => (mget? w.elems l).isSome
        if ready && full && w.splits.isEmpty && w.exited == 0 && w.lanes != 0 && w.place == .resident then
          let s := { s with elems := w.elems.foldl (fun m x => mmodify m x.2 fun y : Elem => { y with state := .running }) s.elems }
          putWave s { w with splits := [(0, startSplit s l e w.lanes 0)] }
        else s

/-- What an element does once it has its record: rate waves gather it, a BLOCK or LANE element starts its placed wave, a RAY element is its ray in flight. -/
def afterRecord (s : State) (id : Nat) : State :=
  match mget? s.elems id with
  | none => s
  | some e =>
    let running := { s with elems := mset s.elems id { e with state := .running } }
    match e.rate, (match mget? s.launches e.launch with | some l => l.draw.isSome | none => false) with
    | .ray, _ => running
    | .group, false => (match e.wave with
      | some w => startWave running w.1
      | none => running)
    | .fine, false => (match e.wave with
      | some w => startWave running w.1
      | none => running)
    | _, _ => gatherElem s id

/-- The clock from which a launch's creations on a die have waited while nothing of it retired there (R425) is set: by the first wait, nothing waiting before it. -/
def markHold (s : State) (lid die : Nat) (first : Bool) : State :=
  { s with launches := mmodify s.launches lid fun l =>
      if first || (mget? l.holdSince die).isNone then { l with holdSince := mset l.holdSince die s.clock } else l }

/-- That clock put forward by a retirement on the die. -/
def renewHold (s : State) (lid die : Nat) : State :=
  { s with launches := mmodify s.launches lid fun l =>
      if (mget? l.holdSince die).isSome then { l with holdSince := mset l.holdSince die s.clock } else l }

/-! ## Creation (R44, R54 to R56) -/

/-- An element before its creation. -/
def Elem.blank : Elem :=
  { id := 0, launch := 0, die := 0, rate := .fine, parent := none, interp := [], index := 0, state := .waiting, ctx0 := 0, blabel := 0,
    bbits := 0, rayref := 0, counts := [], present := [], released := [], hfreed := [], locs := [], told := [], spill := false, vals := [],
    vlabels := [], start := [], vert := none, lam := [], z := 0, tri := 0, px := 0, py := 0, sample := 0, cover := [], skip := [],
    emit := ⟨0, []⟩, exitCtx := 0, hit := none, outs := [], outLabels := [], outCtx := 0, killed := false, wave := none }

/-- The codes of the rates. -/
def rateCodes : List Nat := List.range 7

/-- A count C_L of an element. -/
def Elem.count (e : Elem) (q : Nat) : Nat := mgetD e.counts q 0

/-- Every count of an element but that of its own rate raised by 1. -/
def Elem.raise (e : Elem) : Elem :=
  { e with counts := rateCodes.foldl (fun m q => if q = e.rate.num then m else mput 0 m q (mgetD m q 0 + 1)) e.counts }

/-- The elements whose counts an element holds: its parent, and a coarse pixel's vertices (R56). -/
def Elem.above (e : Elem) : List Nat := e.parent.toList ++ (if e.rate = .coarse then e.interp else [])

/-- Counts of the parent, and of a coarse pixel's vertices, rise when a creation is requested (R56). -/
def raiseParents (s : State) (e : Elem) : State :=
  { s with elems := e.above.foldl (fun m p => mmodify m p Elem.raise) s.elems }

/-- The sections of a record, by index. -/
def presentSections (s : State) (l : Launch) (r : Rate) : List Nat :=
  match launchEntry s l with
  | none => []
  | some e => List.range (sectionRates e r.num).length

/-- An element takes the record that some places give it. -/
def takeRecord (s : State) (id : Nat) (room : Bool × List (Nat × Nat)) : State :=
  afterRecord { s with elems := mmodify s.elems id fun e => { e with spill := room.1, locs := room.2, state := .gathering } } id

/-- Request the creation of an element: its parents' counts rise, and it takes its record if nothing of its launch waits on the die and its units fit. A TRACE has waited before it creates its RAY elements (R365). -/
def createElem (s : State) (e : Elem) : State :=
  match mget? s.launches e.launch with
  | none => s
  | some l =>
    let e := { e with id := s.nextElem, present := presentSections s l e.rate, state := .waiting }
    let e := if e.rate = .vertex then e.raise else e
    let first := (firstWaiter s l e.die).isNone
    let s := raiseParents { s with nextElem := s.nextElem + 1 } e
    let s := match e.wave with
      | some w => { s with waves := mmodify s.waves w.1 fun x : Wave => { x with elems := mset x.elems w.2 e.id } }
      | none => s
    let runs := recordRuns s l e.rate
    let s := { s with elems := mset s.elems e.id e }
    match (if runs.isEmpty then some (false, []) else if first || e.rate == .ray then findRoom s l e.die runs else none) with
    | none => markHold s e.launch e.die first
    | some room => takeRecord s e.id room

/-! ## Release and return (R57, R59, R60, R366) -/

/-- The last consumer of a section. -/
def sectionLast (s : State) (e : Elem) (k : Nat) : Option Nat :=
  match mget? s.launches e.launch with
  | none => none
  | some l => match launchEntry s l with
    | none => none
    | some ent => (sectionRates ent e.rate.num)[k]?

/-- Sections of a record released. -/
def Elem.release (e : Elem) (ks : List Nat) : Elem :=
  { e with released := ks.foldl (fun r k => if k ∈ e.present then addNat k r else r) e.released }

/-- L-done for a rate (R56): a RAY element for every rate once it has ended. -/
def Elem.isDone (e : Elem) (q : Nat) : Bool :=
  (e.state == .exited || e.state == .returned) && (e.rate == .ray || e.rate.num == q || e.count q == 0)

/-- The finest descendant rate of an element (R60, R366). -/
def finestOf (s : State) (l : Launch) (r : Rate) : Nat := if r = .ray ∨ hasRay s l then 6 else 0

/-- Return a record whose sections are all released, when its element is done for its finest descendant rate, or ray quiescence has come (R60, R366); a RAY record, which has no sections, when the ray is done (R365). FRAME and LAUNCH records stay until the launch ends. -/
def tryReturn (s : State) (id : Nat) : State :=
  match mget? s.elems id with
  | none => s
  | some e => match mget? s.launches e.launch with
    | none => s
    | some l =>
      if e.state == .exited && e.rate != .whole && (e.rate == .ray || e.present.all fun k => k ∈ e.released) &&
          (e.isDone (finestOf s l e.rate) || (l.rayQuiet && hasRay s l)) then
        renewHold { s with elems := mset s.elems id { e with state := .returned, locs := [] } } e.launch e.die
      else s

/-- Whether a section of an exited element whose last consumer is of a rate is released (R57): at exit when that is its own rate, else when the rate's count is zero, and for the lanes of a compute block when their rays are done too (R61). A section whose last consumer is RAY waits for an HFREE with no hit running, or for ray quiescence (R58, R59). -/
def Elem.sectionDone (e : Elem) (draw : Bool) (k q : Nat) : Bool :=
  if q = e.rate.num then true
  else if q = 6 then k ∈ e.hfreed && e.rayref == 0
  else e.count q == 0 && (draw || e.rate != .group || e.count 6 == 0)

/-- Release the sections of an exited element that are done; a LAUNCH element keeps those of finer rates while blocks of its die wait to be placed (R56). -/
def releaseDone (s : State) (id : Nat) : State :=
  match mget? s.elems id with
  | none => s
  | some e =>
    if e.state != .exited then s
    else
      let (draw, unplaced) := match mget? s.launches e.launch with
        | some l => (l.draw.isSome, e.rate == .whole && l.draw.isNone && !(mgetD l.lists e.die []).isEmpty)
        | none => (false, false)
      let ks := e.present.filter fun k => match sectionLast s e k with
        | none => false
        | some q => e.sectionDone draw k q && (q == e.rate.num || !unplaced)
      tryReturn { s with elems := mset s.elems id (e.release ks) } id

/-- C_L of an element falls by 1; an element that has exited and so becomes L-done tells those above it, once. A LAUNCH or FRAME element has none above it; its counts fall to 0 and rise again as blocks are placed. Fuel bounds the height of the tree. -/
def lowerCount : Nat → State → Nat → Nat → State
  | 0, s, _, _ => s
  | fuel + 1, s, id, q =>
    match mget? s.elems id with
    | none => s
    | some e =>
      if e.rate.num = q then s
      else
        let e := { e with counts := mput 0 e.counts q (e.count q - 1) }
        let s := { s with elems := mset s.elems id e }
        if e.isDone q && (q ∉ e.told || e.rate == .whole) then
          let s := releaseDone { s with elems := mset s.elems id { e with told := addNat q e.told } } id
          e.above.foldl (fun s p => lowerCount fuel s p q) s
        else s

/-- The greatest height of the element tree above a RAY element. -/
def treeFuel : Nat := 8

/-- The decrements that an element's end causes: for every rate for which it is done and has not told so, and its releases (R56, R57). -/
def afterExit (s : State) (id : Nat) : State :=
  rateCodes.foldl (fun s q => match mget? s.elems id with
    | none => s
    | some e =>
      if e.isDone q && q ∉ e.told then
        e.above.foldl (fun s p => lowerCount treeFuel s p q) { s with elems := mset s.elems id { e with told := addNat q e.told } }
      else s) (releaseDone s id)

/-- A vertex loses its raster hold in every count (R56). -/
def dropRasterHold (s : State) (id : Nat) : State := rateCodes.foldl (fun s q => lowerCount treeFuel s id q) s

/-- The cluster and object of a hit whose RAYREF changes (R58); a hit that names no element has none. (DESIGN CHOICE: log 56) -/
def hitElems (s : State) (lid obj clu : Nat) : List Nat :=
  match findCluster s lid obj clu with
  | none => []
  | some c => c.id :: c.parent.toList

/-- RAYREF of an element changed; a section that HFREE named is released when it reaches zero (R59). -/
def changeRayref (s : State) (id : Nat) (up : Bool) : State :=
  let s := { s with elems := mmodify s.elems id fun e => { e with rayref := if up then e.rayref + 1 else e.rayref - 1 } }
  match mget? s.elems id with
  | none => s
  | some e =>
    if e.rayref = 0 then
      let ks := e.hfreed.filter fun k => sectionLast s e k == some 6
      tryReturn { s with elems := mset s.elems id (e.release ks) } id
    else s

/-- HFREE of a section of an element (R59). -/
def freeSection (s : State) (id k : Nat) : State :=
  match mget? s.elems id with
  | none => s
  | some e =>
    let e := { e with hfreed := addNat k e.hfreed }
    let e := if sectionLast s e k == some 6 && e.rayref != 0 then e else e.release [k]
    tryReturn { s with elems := mset s.elems id e } id

/-! ## Records in memory (R54, R55) -/

/-- The locator of the n-th run of an element's record: 0 where the record takes no unit. -/
def Elem.locator (e : Elem) (n : Nat) : Nat :=
  match e.locs[n]? with
  | none => 0
  | some r => (if e.spill then 2 ^ 31 else 0) + r.1

/-- The header of an element's record, as a number of 512 bits (R54). PARENT is 0 for an element that has no parent, or whose parent's record has been returned. (DESIGN CHOICE: log 55) -/
def headerOf (s : State) (e : Elem) : Nat :=
  let at4 := fun (f : Nat → Nat) => (List.range 4).foldl (fun n k => n + f k * 2 ^ (32 * k)) 0
  let pend := at4 fun k => if k ∈ e.present then (match sectionLast s e k with
    | some q => if q = e.rate.num then 0 else e.count q
    | none => 0) else 0
  let parent := match e.parent.bind fun p => mget? s.elems p with
    | some p => p.locator 0
    | none => 0
  let flags := fun (ks : List Nat) => ks.foldl (fun n k => n + 2 ^ k) 0
  let exited := e.state == .exited || e.state == .returned
  flags e.present * 2 ^ 52 + flags e.released * 2 ^ 56 + (if exited then 2 ^ 60 else 0) + e.rate.num * 2 ^ 61 +
    e.index % 2 ^ 32 * 2 ^ 64 + parent * 2 ^ 96 + e.bbits.toNat * 2 ^ 128 + at4 (fun k => e.locator (k + 1)) * 2 ^ 192 +
    pend * 2 ^ 320 + e.rayref % 65536 * 2 ^ 464 + e.blabel.toNat * 2 ^ 480

/-- The bytes of section k of an element's record: each register's value, then its label (R54). -/
def sectionImage (ent : EntryPt) (e : Elem) (k n : Nat) : List Byte :=
  let mine := (ent.held.filter fun x => sectionOf ent x.1 == some (e.rate.num, k)).map fun x => x.1
  let bytes := mine.flatMap fun h => leBytes 4 (mgetD e.vals h 0).toNat ++ leBytes 4 (mgetD e.vlabels h 0).toNat
  bytes ++ List.replicate (64 * n - bytes.length) 0

/-- The runs of an element's record with their bytes. -/
def recordImage (s : State) (l : Launch) (e : Elem) : List (Nat × List Byte) :=
  match e.locs with
  | [] => []
  | h :: rest => (h.1, leBytes 64 (headerOf s e)) :: (match launchEntry s l with
    | none => []
    | some ent => rest.zipIdx.map fun r => (r.1.1, sectionImage ent e r.2 r.1.2))

/-- Whether a unit's write waits at its home: behind an earlier one of its line, for a serial-mode transaction's lock (R157), or for the host path (R440). -/
def UnitWrite.waits (s : State) (u : UnitWrite) : Bool :=
  (s.unitWrites.any fun v => v.loc.line == u.loc.line) || lineHeld s u.loc || !hostReady s u.loc

/-- A unit's write at its home. One to the host is discarded once its link has failed (R441). -/
def UnitWrite.apply (s : State) (u : UnitWrite) : State :=
  if poisonHit s u.loc && !u.loc.isDev then s
  else homeWrite (reach s u.part u.die false .dflt u.page u.loc) Agent.outside u.loc u.bytes

/-- A write of a unit of the module: it waits, or it performs. -/
def unitWrite (s : State) (u : UnitWrite) : State :=
  if u.waits s then { s with unitWrites := s.unitWrites ++ [u] } else u.apply s

/-- The writes that waited, taken in order again. -/
def settleUnits (s : State) : State := s.unitWrites.foldl unitWrite { s with unitWrites := [] }

/-- Bytes of a unit, within one line, that the module writes for a launch in a region of its memory. A unit whose page does not translate, or that the partition may not write, is written nowhere. (DESIGN CHOICE: log 55) -/
def regionWrite (s : State) (part die va : Nat) (bs : List Byte) : State :=
  match translateNow s part va .write with
  | .error _ => s
  | .ok (p, leaf) => unitWrite s ⟨part, die, p, leaf.page, bs⟩

/-- A run of a spilled record written in the spill region, unit by unit: the die's share begins at an eighth of the region for each lower die (R55). (DESIGN CHOICE: log 55) -/
def spillWrite (s : State) (l : Launch) (die : Nat) (run : Nat × List Byte) : State :=
  (List.range (run.2.length / 64)).foldl (fun s i =>
    regionWrite s l.part die (l.spillBase.toNat + 64 * (die * (l.spillSize / 8) + run.1 + i)) ((run.2.drop (64 * i)).take 64)) s

/-- The spilled records whose bytes a step has changed, written in their spill regions (R54, R55). -/
def settleRecords (before s : State) : State :=
  if before.elems = s.elems then s
  else s.elems.foldl (fun s x => match (if x.2.spill && !x.2.locs.isEmpty then mget? s.launches x.2.launch else none) with
    | none => s
    | some l =>
      let old := match mget? before.elems x.1 with
        | some o => recordImage before l o
        | none => []
      ((recordImage s l x.2).filter fun r => r ∉ old).foldl (fun s r => spillWrite s l x.2.die r) s) s

/-! ## Ray quiescence (R58) -/

/-- Whether every SAMPLE, COARSE or LANE element of a launch has been created and has exited, and no ray or RAY lane is left. -/
def quietNow (s : State) (l : Launch) : Bool :=
  l.lists.all (fun e => e.2.isEmpty) &&
    s.elems.all (fun e => e.2.launch != l.id || e.2.state == .exited || e.2.state == .returned) &&
    s.clusters.all (fun c => c.2.launch != l.id || c.2.retired) &&
    s.rays.all (fun r => r.2.launch != l.id) &&
    s.waves.all (fun w => w.2.launch != l.id || w.2.role != .rayHit || w.2.allExited)

/-- Ray quiescence of a launch, once: every section whose last consumer is RAY is released. -/
def checkQuiet (s : State) (lid : Nat) : State :=
  match mget? s.launches lid with
  | none => s
  | some l =>
    if l.rayQuiet || l.state != .running || !quietNow s l then s
    else
      let s := { s with launches := mset s.launches lid { l with rayQuiet := true } }
      (s.elems.filter fun e => e.2.launch == lid).foldl (fun s x => match mget? s.elems x.1 with
        | none => s
        | some e =>
          let ks := e.present.filter fun k => sectionLast s e k == some 6
          tryReturn { s with elems := mset s.elems e.id (e.release ks) } e.id) s

end Sys2Proof.Machine
end

