-- ==== Sys2Proof/Machine/Raster.lean ====
section
/-! DEFINITION. Screen positions, coverage, barycentrics and reprojection: the COARSE and SAMPLE elements of a cluster (R63 to R70). -/
namespace Sys2Proof.Machine

/-! ## f32 arithmetic on words, each step one rounding to nearest even -/

/-- The value of an f32 word. -/
def fval (w : Word) : Num := f32.value w.toNat
/-- A value rounded to an f32 word. -/
def fword (x : Num) : Word := BitVec.ofNat 32 (f32.result .rne false 0 x)
/-- a + b. -/
def fadd2 (a b : Word) : Word := fword (Num.add .rne (fval a) (fval b))
/-- a - b. -/
def fsub2 (a b : Word) : Word := fword (Num.add .rne (fval a) (fval b).neg)
/-- a * b. -/
def fmul2 (a b : Word) : Word := fword ((fval a).mul (fval b))
/-- a * b + c, rounded once. -/
def fma3 (a b c : Word) : Word := fword (Num.add .rne ((fval a).mul (fval b)) (fval c))

/-- The quotient of two values in f32, by a rounding mode. -/
def divBits (rm : Rm) (a b : Num) : Nat :=
  match a, b with
  | .nan, _ => f32.nanBits
  | _, .nan => f32.nanBits
  | .inf _, .inf _ => f32.nanBits
  | .inf n, .fin m _ _ => f32.infinity (n != m)
  | .fin n _ _, .inf m => f32.signed (n != m) 0
  | .fin n ma ea, .fin m mb eb =>
    if mb = 0 then (if ma = 0 then f32.nanBits else f32.infinity (n != m))
    else if ma = 0 then f32.signed (n != m) 0
    else
      let k := 64 + mb.log2
      let q := ma * 2 ^ k / mb
      f32.round rm false 0 (n != m) q (ea - eb - k) (ma * 2 ^ k % mb != 0)

/-- a / b. -/
def fdiv2 (a b : Word) : Word := BitVec.ofNat 32 (divBits .rne (fval a) (fval b))

/-- The nearest integer of a finite value, ties to even (R63). -/
def roundInt : Num → Int
  | .fin n m e =>
    let q : Int := (Num.toInteger .rne n m e : Nat)
    if n then -q else q
  | _ => 0

/-- An integer as an f32 word. -/
def fint (x : Int) : Word := fword (Num.ofInt x)

/-! ## Vertices (R63) -/

/-- A vertex as it leaves VERTEX code. The magnitude of a screen coordinate is bounded before it is snapped; one that exceeds 2^23 is unusable. -/
def vertexOut (d : Draw) (x y z w : Word) (label : Label) : VertOut :=
  let nx := fdiv2 x w
  let ny := fdiv2 y w
  let nz := fdiv2 z w
  let c := fdiv2 (fint 1) w
  let hw := fint (d.width / 2)
  let hh := fint (d.height / 2)
  let sx := fma3 nx hw hw
  let sy := fma3 (ny ^^^ 0x80000000) hh hh
  let bounded := fun v : Word => match fval v with
    | .fin _ m e => m == 0 || decide ((m.log2 : Int) + e < 40)
    | _ => false
  let vx := fval sx
  let vy := fval sy
  let ok := bounded sx && bounded sy
  let snap := fun v : Num => roundInt (v.scale 8)
  let px := if ok then snap vx else 0
  let py := if ok then snap vy else 0
  let positive := match fval w with
    | .fin n m _ => !n && m != 0
    | .inf n => !n
    | .nan => false
  let noNan := [x, y, z, w, nx, ny, nz, sx, sy].all fun v => !(fval v).isNan
  { nx := nx, ny := ny, nz := nz, c := c, x := px, y := py,
    usable := positive && noNan && ok && decide (px.natAbs ≤ 2 ^ 23) && decide (py.natAbs ≤ 2 ^ 23), label := label }

/-! ## Triangles (R64 to R66) -/

/-- A triangle of a cluster: its index, its vertices' element numbers, and what they gave. -/
structure Tri where
  idx : Nat
  v : List Nat
  p : List VertOut
  deriving DecidableEq, Repr

/-- The vertex of a triangle, or an unusable one. -/
def Tri.at (t : Tri) (k : Nat) : VertOut := nthD t.p k ⟨0, 0, 0, 0, 0, 0, false, 0⟩

/-- E_k of a triangle at a point (R64). -/
def Tri.edge (t : Tri) (k : Nat) (px py : Int) : Int :=
  let a := t.at ((k + 1) % 3)
  let b := t.at ((k + 2) % 3)
  (b.x - a.x) * (py - a.y) - (b.y - a.y) * (px - a.x)

/-- Twice the signed area. -/
def Tri.area (t : Tri) : Int := t.edge 0 (t.at 0).x (t.at 0).y

/-- Vertices 1 and 2 exchanged. -/
def Tri.flip (t : Tri) : Tri := { t with p := [t.at 0, t.at 2, t.at 1], v := [nthD t.v 0 0, nthD t.v 2 0, nthD t.v 1 0] }

/-- Whether rasterization keeps a triangle (R63, R64). -/
def Tri.kept (t : Tri) (cull : Nat) : Bool :=
  t.p.length == 3 && t.p.all (fun v => v.usable) && t.area != 0 && !(cull == 1 && decide (t.area < 0)) && !(cull == 2 && decide (0 < t.area))

/-- Whether a point is inside a triangle of positive area (R64). -/
def Tri.inside (t : Tri) (px py : Int) : Bool :=
  (List.range 3).all fun k =>
    let a := t.at ((k + 1) % 3)
    let b := t.at ((k + 2) % 3)
    let e := t.edge k px py
    let owns := decide (b.y < a.y) || (b.y == a.y && decide (a.x < b.x))
    decide (0 < e) || (e == 0 && owns)

/-- The barycentrics and the depth at a point, of a kept triangle in its own order (R64, R66): those of the exchanged vertices are given back. -/
def Tri.eval (t : Tri) (px py : Int) : List Word × Word :=
  let f := if t.area < 0 then t.flip else t
  let af := fint f.area
  let l := fun k => fdiv2 (fint (f.edge k px py)) af
  let l0 := l 0
  let (l1, l2) := if t.area < 0 then (l 2, l 1) else (l 1, l 2)
  let nz := fun k => (t.at k).nz
  let z := fma3 l2 (fsub2 (nz 2) (nz 0)) (fma3 l1 (fsub2 (nz 1) (nz 0)) (nz 0))
  ([l0, l1, l2], z)

/-- The offsets of sample s, in sixteenths of a pixel (R65). -/
def sampleOff (samples s : Nat) : Nat × Nat :=
  if samples = 1 then (8, 8)
  else if samples = 2 then (if s = 0 then (4, 4) else (12, 12))
  else nthD [(6, 2), (14, 6), (2, 10), (10, 14)] s (8, 8)

/-- The place of a sample in 1/256 pixel (R65). -/
def samplePos (samples x y s : Nat) : Int × Int :=
  let o := sampleOff samples s
  ((256 * x + 16 * o.1 : Nat), (256 * y + 16 * o.2 : Nat))

/-- Whether a depth lies in [0, 1]. -/
def inUnit (z : Word) : Bool :=
  match fval z with
  | .nan => false
  | v => v.compare (.fin false 0 0) != .lt && v.compare (.fin false 1 0) != .gt

/-- Whether a sample is covered by its triangle (R65). -/
def Tri.covers (t : Tri) (samples x y s : Nat) : Bool :=
  let p := samplePos samples x y s
  let f := if t.area < 0 then t.flip else t
  f.inside p.1 p.2 && inUnit (t.eval p.1 p.2).2

/-! ## Depth comparison (R62, R72) -/

/-- DEPTHCMP of two f32 values: 0 less, 1 lessequal, 2 greater, 3 greaterequal, 4 always. -/
def depthPass (cmp : Nat) (a b : Word) : Bool :=
  if cmp = 4 then true
  else
    let x := fval a
    let y := fval b
    if x.isNan || y.isNan then false
    else match cmp, x.compare y with
      | 0, o => o == .lt
      | 1, o => o != .gt
      | 2, o => o == .gt
      | _, o => o != .lt

/-! ## Reprojection (R68 to R70) -/

/-- An integral f32 or larger value as an integer: the floor. -/
def floorInt : Num → Int
  | .fin n m e =>
    let v : Int := if 0 ≤ e then (m * 2 ^ e.toNat : Nat) else (m / 2 ^ (-e).toNat : Nat)
    let exact : Bool := decide (0 ≤ e) || m % 2 ^ (-e).toNat == 0
    if n then (if exact then -v else -v - 1) else v
  | _ => 0

/-- One entry of VISPREV as a candidate, if it stands (R69). -/
def candidate (d : Draw) (x y v : Nat) : Option Cand :=
  if !tb v 0 then none
  else
    let mvx := f16.value (bits v 79 64)
    let mvy := f16.value (bits v 95 80)
    let q := fun (n : Nat) (mv : Num) => fval (fword (Num.add .rne (.fin false (2 * n + 1) (-1)) mv))
    let qx := q x mvx
    let qy := q y mvy
    let fin := fun a : Num => match a with
      | .fin _ m e => m == 0 || decide ((m.log2 : Int) + e < 40)
      | _ => false
    if !fin qx || !fin qy then none
    else
      let tx := floorInt qx
      let ty := floorInt qy
      let obj := bits v 63 40
      let clu := bits v 39 24
      let known : Bool := match d.objs[obj]? with
        | some o => decide (clu < o.clusters)
        | none => false
      if 0 ≤ tx ∧ tx < d.width ∧ 0 ≤ ty ∧ ty < d.height ∧ known then
        some ⟨tx.toNat, ty.toNat, obj, clu, bits v 22 16, BitVec.ofNat 32 (bits v 127 96), false⟩
      else none

/-- The order of ties between candidates: (OBJ, CLU, TRI). -/
def Cand.key (c : Cand) : Nat := (c.obj * 65536 + c.clu) * 128 + c.tri

/-- Whether a candidate is preferred to the one held at its pixel (R69). -/
def Cand.beats (cmp : Nat) (a b : Cand) : Bool :=
  let o := (fval a.depth).compare (fval b.depth)
  let tie := decide (a.key < b.key)
  if cmp ≤ 1 then o == .lt || (o == .eq && tie)
  else if cmp ≤ 3 then o == .gt || (o == .eq && tie)
  else tie

/-- A candidate put in the map: the first of a pixel stays unless R69 prefers another. (DESIGN CHOICE: log 65) -/
def addCand (cmp : Nat) (m : List Cand) (c : Cand) : List Cand :=
  match m.find? fun x => x.x == c.x && x.y == c.y with
  | none => m ++ [c]
  | some o => if c.beats cmp o then m.map fun x => if x = o then c else x else m

/-- The pixels that a cluster confirms, by triangle (R69). -/
def confirms (d : Draw) (obj clu : Nat) (tris : List Tri) : List Cand :=
  d.cands.filter fun c => !c.confirmed && c.obj == obj && c.clu == clu && (match tris.find? fun t => t.idx == c.tri with
    | none => false
    | some t => t.kept d.cull && (
        let z := (t.eval (256 * c.x + 128 : Nat) (256 * c.y + 128 : Nat)).2
        let diff := (fsub2 c.depth z) &&& 0x7FFFFFFF
        let v := fval diff
        !v.isNan && v.compare (fval d.tol) != .gt))

/-! ## Creating COARSE elements (R67, R70) -/

/-- The samples of a coarse pixel under a triangle, in the order of R67: covered, or of a confirmed pixel. -/
def coarseCover (d : Draw) (t : Tri) (conf : List Cand) (i j : Nat) : List (Nat × Nat × Nat) :=
  [(2 * i, 2 * j), (2 * i + 1, 2 * j), (2 * i, 2 * j + 1), (2 * i + 1, 2 * j + 1)].flatMap fun p =>
    let all := conf.any fun c => c.x == p.1 && c.y == p.2 && c.tri == t.idx
    ((List.range d.samples).filter fun s => all || t.covers d.samples p.1 p.2 s).map fun s => (p.1, p.2, s)

/-- The range of coarse coordinates that the bounding rectangle of a triangle meets, within the frame. -/
def coarseRange (xs : List Int) (size : Nat) : Nat × Nat :=
  let lo := xs.foldl min (nthD xs 0 0)
  let hi := xs.foldl max (nthD xs 0 0)
  (((max lo 0) / 512).toNat, min ((max hi 0) / 512).toNat (size / 2 - 1))

/-- The coarse pixels of a triangle with at least one sample, ascending j and then i: those of its rectangle and those of its confirmed pixels. -/
def coarseList (d : Draw) (t : Tri) (conf : List Cand) : List (Nat × Nat × List (Nat × Nat × Nat)) :=
  let mine := conf.filter fun c => c.tri == t.idx
  let (i0, i1) := coarseRange (t.p.map fun v => v.x) d.width
  let (j0, j1) := coarseRange (t.p.map fun v => v.y) d.height
  let i0 := mine.foldl (fun n c => min n (c.x / 2)) i0
  let i1 := mine.foldl (fun n c => max n (c.x / 2)) i1
  let j0 := mine.foldl (fun n c => min n (c.y / 2)) j0
  let j1 := mine.foldl (fun n c => max n (c.y / 2)) j1
  ((List.range (j1 + 1 - j0)).flatMap fun dj => (List.range (i1 + 1 - i0)).map fun di => (i0 + di, j0 + dj)).filterMap fun p =>
    let c := coarseCover d t conf p.1 p.2
    if c.isEmpty then none else some (p.1, p.2, c)

/-- Whether R70 culls a sample: its pixel is confirmed for another triangle of an opaque object, and its depth fails there. -/
def culled (s : State) (l : Launch) (d : Draw) (self : Cand → Bool) (z : Word) (x y sm : Nat) : Bool :=
  !l.determ && d.cands.any fun c => c.confirmed && c.x == x && c.y == y && !self c &&
    (match d.objs[c.obj]? with | some o => o.isOpaque | none => false) &&
    (match findCluster s l.id c.obj c.clu with
     | none => false
     | some k =>
       let vs := (s.elems.filter fun e => e.2.parent == some k.id && e.2.rate == .vertex).map fun e => e.2
       let tw := nthD k.emit.tris c.tri 0
       let ord := [bits tw.toNat 6 0, bits tw.toNat 14 8, bits tw.toNat 22 16]
       let t : Tri := ⟨c.tri, [], ord.filterMap fun o => (vs.find? fun v => v.index == o).bind fun v => v.vert⟩
       let p := samplePos d.samples x y sm
       t.kept d.cull && !depthPass d.depthCmp z (t.eval p.1 p.2).2)

/-- The triangles of a cluster, in EMITP order; one that names no vertex keeps its index. -/
def clusterTris (s : State) (cl : Elem) : List Tri :=
  let vs := (s.elems.filter fun e => e.2.parent == some cl.id && e.2.rate == .vertex).map fun e => e.2
  cl.emit.tris.zipIdx.map fun tw =>
    let ord := [bits tw.1.toNat 6 0, bits tw.1.toNat 14 8, bits tw.1.toNat 22 16]
    let named := ord.filterMap fun o => vs.find? fun v => v.index == o
    ⟨tw.2, named.map fun v => v.id, named.filterMap fun v => v.vert⟩

/-- The COARSE elements of a cluster whose last vertex has exited (R67, R69, R70). -/
def rasterize (s : State) (l : Launch) (d : Draw) (cl : Elem) (obj : Nat) : State :=
  let tris := clusterTris s cl
  let conf := if d.reproj then confirms d obj cl.index tris else []
  let d := { d with cands := d.cands.map fun c => if c ∈ conf then { c with confirmed := true } else c }
  let s := { s with launches := mmodify s.launches l.id fun x => { x with draw := some d } }
  let made := (tris.filter fun t => t.kept d.cull).flatMap fun t => (coarseList d t conf).map fun c => (t, c)
  made.zipIdx.foldl (fun s m =>
    let t := m.1.1
    let (i, j, cover) := m.1.2
    let lbl := cl.exitCtx ||| cl.blabel ||| t.p.foldl (fun acc v => acc ||| v.label) 0
    let at_ := t.eval (256 * (2 * i + 1) : Nat) (256 * (2 * j + 1) : Nat)
    let skip := cover.filter fun c =>
      let p := samplePos d.samples c.1 c.2.1 c.2.2
      let z := (t.eval p.1 p.2).2
      culled s l d (fun k => k.obj == obj && k.clu == cl.index && k.tri == t.idx) z c.1 c.2.1 c.2.2
    createElem s { Elem.blank with
      launch := l.id, die := cl.die, rate := .coarse, parent := some cl.id, interp := t.v, index := m.2, ctx0 := lbl,
      start := [BitVec.ofNat 32 i, BitVec.ofNat 32 j], lam := at_.1, z := at_.2, tri := t.idx, px := i, py := j, cover := cover, skip := skip }) s

/-- The raster holds of a cluster's vertices drop, once its coarse pixels have been created (R56, R57). -/
def dropRasterHolds (s : State) (cl : Elem) : State :=
  ((s.elems.filter fun e => e.2.parent == some cl.id && e.2.rate == .vertex).map fun e => e.1).foldl dropRasterHold s

/-- The SAMPLE elements of a COARSE element that exits (R67), but those that R70 does not create: of a pixel that had been confirmed for another triangle by the COARSE element's creation or has been since. A sample's index is its place among those created. (DESIGN CHOICE: log 65) -/
def createSamples (s : State) (l : Launch) (d : Draw) (k : Elem) : State :=
  let cl := k.parent.bind fun id => mget? s.elems id
  let obj := (cl.bind fun c => c.parent).bind fun id => mget? s.elems id
  let self := fun (c : Cand) => (obj.any fun o => o.index == c.obj) && (cl.any fun x => x.index == c.clu) && c.tri == k.tri
  let vs := k.interp.filterMap fun id => (mget? s.elems id).bind fun e => e.vert
  let t : Tri := ⟨k.tri, k.interp, vs⟩
  let hidden := fun (c : Nat × Nat × Nat) =>
    let p := samplePos d.samples c.1 c.2.1 c.2.2
    culled s l d self (t.eval p.1 p.2).2 c.1 c.2.1 c.2.2
  ((k.cover.filter fun c => c ∉ k.skip && !hidden c).zipIdx).foldl (fun s c =>
    let (x, y, sm) := c.1
    let p := samplePos d.samples x y sm
    let at_ := t.eval p.1 p.2
    createElem s { Elem.blank with
      launch := k.launch, die := k.die, rate := .fine, parent := some k.id, interp := k.interp, index := c.2, ctx0 := k.ctx0,
      start := [BitVec.ofNat 32 x, BitVec.ofNat 32 y, BitVec.ofNat 32 sm], lam := at_.1, z := at_.2, tri := k.tri, px := x, py := y, sample := sm }) s

end Sys2Proof.Machine
end

