-- ==== Sys2Proof/Machine/Place.lean ====
section
/-! DEFINITION. Footprints and placement: what a quadrant and a core have free, the task reserve, tiles, scratchpad ranges, and a wave put on a quadrant (R28 to R30, R85 to R87, R172, R196, R202, R206, R261, R333, R334). -/
namespace Sys2Proof.Machine

/-! ## What is held (R29, R206, R261, R313) -/

/-- An entry that declares nothing. -/
def EntryPt.none : EntryPt := ⟨0, 0, 0, 0, 0, 0, 0, []⟩

/-- The entry that a wave runs. (DESIGN CHOICE: log 12) -/
def waveEntry (s : State) (w : Wave) : EntryPt :=
  match mget? s.launches w.launch with
  | none => EntryPt.none
  | some l => match entryOf s l w.entry with
    | none => EntryPt.none
    | some e => e.2

/-- A launch is deterministic. -/
def determ (s : State) (lid : Nat) : Bool :=
  match mget? s.launches lid with
  | none => false
  | some l => l.determ

/-- A retired cluster's footprints are freed at once; in a deterministic launch, when every earlier cluster of its die's list has retired (R202, R206). (DEDUCED: log 29) -/
def clusterFreed (s : State) (c : Cluster) : Bool :=
  c.retired && (!determ s c.launch || s.clusters.all fun d => d.2.launch != c.launch || d.2.die != c.die || decide (c.id ≤ d.1) || d.2.retired)

/-- A copy not complete that writes a wave's bench, or scratchpad. -/
def copyTo (s : State) (wid : Nat) (bench : Bool) : Bool :=
  s.copies.any fun e => e.2.wave == wid && !e.2.done && (match e.2.plan with
    | .raw (.scr _ _) _ _ => !bench
    | .box b _ _ _ _ => b == bench
    | .conv .. => bench
    | _ => false)

/-- Whether a wave holds its slot, registers and buffers. -/
def holds (s : State) (w : Wave) : Bool :=
  match w.place with
  | .resident => true
  | .saving => true
  | .ended => (match w.cluster with
    | none => false
    | some id => determ s w.launch && (match mget? s.clusters id with
      | none => false
      | some c => !clusterFreed s c))
  | _ => false

/-- What a quadrant has free. -/
structure Room where
  slots : Nat
  vregs : Nat
  scalars : Nat
  bench : Nat
  bufs : Nat
  deriving DecidableEq, Repr

/-- Waves on a quadrant that hold their footprint; a BLOCK wave stands in its block's wave-0 slot. -/
def holders (s : State) (quad : Nat) : List Wave := (s.waves.filter fun e => e.2.quad == quad && e.2.role != .block && holds s e.2).map fun e => e.2

/-- What a quadrant has free (R29): bench slots of an ended wave stay while copies write them. (DESIGN CHOICE: log 47) -/
def roomOf (s : State) (quad : Nat) : Room :=
  let ws := holders s quad
  let sum := fun (f : EntryPt → Nat) => ws.foldl (fun n w => n + f (waveEntry s w)) 0
  let kept := s.waves.foldl (fun n e =>
    if e.2.quad = quad ∧ e.2.place = .ended ∧ !holds s e.2 ∧ copyTo s e.1 true then n + (waveEntry s e.2).bench else n) 0
  { slots := 16 - ws.length, vregs := 2048 - sum (fun e => (e.vregs + 7) / 8 * 8), scalars := 1024 - sum (fun e => e.scalars),
    bench := 32 - sum (fun e => e.bench) - kept, bufs := 48 - buffersHeld s quad }

/-- Slots of a quadrant that are taken. -/
def slotsTaken (s : State) (quad : Nat) : List Nat := (holders s quad).map fun w => w.slot

/-- The lowest free slot of a quadrant. (DESIGN CHOICE: log 47) -/
def freeSlot (s : State) (quad : Nat) : Nat := ((List.range 16).find? fun k => k ∉ slotsTaken s quad).getD 0

/-- A room takes `n` waves of an entry. -/
def Room.takes (r : Room) (e : EntryPt) (n : Nat) : Bool :=
  decide (n ≤ r.slots) && decide (n * ((e.vregs + 7) / 8 * 8) ≤ r.vregs) && decide (n * e.scalars ≤ r.scalars) &&
    decide (n * e.bench ≤ r.bench) && decide (n ≤ r.bufs)

/-- What is left of a room after `n` waves of an entry. -/
def Room.less (r : Room) (e : EntryPt) (n : Nat) : Room :=
  { slots := r.slots - n, vregs := r.vregs - n * ((e.vregs + 7) / 8 * 8), scalars := r.scalars - n * e.scalars, bench := r.bench - n * e.bench,
    bufs := r.bufs - n }

/-- A launch's waves may be placed on a quadrant: its partition owns it, and its tiles belong to no other launch (R209, R334). -/
def mayUse (s : State) (p : Partition) (lid quad : Nat) : Bool :=
  ownsQuadrant p quad && (match mget? s.tileOwner quad with
    | none => true
    | some o => o == lid)

/-! ## Scratchpad ranges (R85, R86) -/

/-- Granules of a partition's scratchpad space on a core. -/
def spaceSize (p : Partition) (core : Nat) : Nat := (ownedBanks p core).length * 8

/-- A wave of a block, the block's last, keeps its scratchpad while copies write it (R261). -/
def clusterCopies (s : State) (cid : Nat) : Bool := s.waves.any fun e => e.2.cluster == some cid && copyTo s e.1 false

/-- The ranges taken of a partition's space on a core, as first granule and count. A spilled wave's own range is free (R160). -/
def rangesTaken (s : State) (part core : Nat) : List (Nat × Nat) :=
  let partOf := fun lid => match mget? s.launches lid with
    | some l => l.part
    | none => 0
  let cl := s.clusters.flatMap fun e => if partOf e.2.launch == part && (!clusterFreed s e.2 || clusterCopies s e.1) then
    (e.2.ranges.filter fun r => r.1 == core).map fun r => r.2 else []
  let ws := (s.waves.filter fun e => e.2.part == part && e.2.cluster.isNone && e.2.scrSize != 0 && coreOf e.2.quad == core &&
    (e.2.place == .resident || e.2.place == .saving || (e.2.place == .ended && copyTo s e.1 false))).map fun e => (e.2.scrBase, e.2.scrSize)
  cl ++ ws

/-- A range of a partition's space on a core, zeroed with empty granule labels (R87). -/
def zeroRange (s : State) (p : Partition) (core first count : Nat) : State :=
  let inside := fun off => (List.range count).any fun i => spaceByte p core ((first + i) * 1024) / 1024 == off / 1024
  { s with scratch := s.scratch.filter fun c => !(c.1 / 2 ^ 18 == core && inside (c.1 % 2 ^ 18))
           scrLabels := s.scrLabels.filter fun c => !(c.1 / 256 == core && inside (c.1 % 256 * 1024))
           soft := s.soft.filter fun m => match m with
             | .granule k g => !(k == core && inside (g * 1024))
             | .granuleLabel k g => !(k == core && inside (g * 1024))
             | _ => true }

/-! ## Ranges that leave and return (R160, R386) -/

/-- The offset in a partition's scratchpad space of a physical byte of a core's scratchpad. -/
def spaceOff (p : Partition) (core off : Nat) : Option Nat :=
  let i := (ownedBanks p core).findIdx fun b => b == off / 8192
  if i < (ownedBanks p core).length then some (i * 8192 + off % 8192) else none

/-- The offset in a range of a physical byte of its core's scratchpad, if it lies there. -/
def rangeOff (p : Partition) (core first count off : Nat) : Option Nat :=
  (spaceOff p core off).bind fun o => if first * 1024 ≤ o ∧ o < (first + count) * 1024 then some (o - first * 1024) else none

/-- The bytes and labels of a scratchpad range, by offset in it. -/
def saveRange (s : State) (p : Partition) (isCluster : Bool) (owner core first count : Nat) : SavedScr :=
  let bytes := s.scratch.filterMap fun c => if c.1 / 2 ^ 18 = core then (rangeOff p core first count (c.1 % 2 ^ 18)).map fun o => (o, c.2) else none
  let labels := s.scrLabels.filterMap fun c => if c.1 / 256 = core then (rangeOff p core first count (c.1 % 256 * 1024)).map fun o => (o / 1024, c.2) else none
  { cluster := isCluster, owner := owner, pos := core % 4, first := first, count := count, bytes := bytes, labels := labels }

/-- The lines that registrations and read sets name, renamed. -/
def renameLines (s : State) (f : LineKey → LineKey) : State :=
  { s with regs := s.regs.map (fun r => match r.key with
             | .line l => { r with key := .line (f l) }
             | _ => r)
           waves := mmap s.waves fun _ w => { w with tx := { w.tx with reads := w.tx.reads.map fun r => { r with line := f r.line } } } }

/-- A range leaves its core: its bytes and labels stand saved, and registrations and read sets follow its rows (R160). The row of an owner's range on a core position is numbered position × 2,048 + row. (DEDUCED: log 29) -/
def sendAway (s : State) (p : Partition) (isCluster : Bool) (owner core first count : Nat) : State :=
  let r := saveRange s p isCluster owner core first count
  renameLines { s with savedScr := s.savedScr ++ [r] } fun k => match k with
    | .scr c row => if c = core then (match rangeOff p core first count (row * 128) with
        | some o => .away isCluster owner (core % 4 * 2048 + o / 128)
        | none => k) else k
    | _ => k

/-- A saved range put back: zeroed, then its bytes and labels; registrations and read sets follow its rows. -/
def loadRange (s : State) (p : Partition) (x : SavedScr × Nat × Nat) : State :=
  let (r, core, first) := x
  let s := zeroRange s p core first r.count
  let s := r.bytes.foldl (fun s b => writeLoc s (.scr core (spaceByte p core (first * 1024 + b.1))) b.2) s
  let s := { s with scrLabels := r.labels.foldl (fun m (g : Nat × Label) => mput 0 m (granuleKey core (spaceByte p core ((first + g.1) * 1024))) g.2) s.scrLabels }
  let s := renameLines s fun k => match k with
    | .away b o row => if b = r.cluster ∧ o = r.owner ∧ row / 2048 = r.pos then .scr core (spaceByte p core (first * 1024 + row % 2048 * 128) / 128) else k
    | k => k
  if r.cluster then
    { s with clusters := mmodify s.clusters r.owner fun c => { c with pquad := core / 4, ranges := c.ranges ++ [(core, first, r.count)] } }
  else { s with waves := mmodify s.waves r.owner fun w => { w with scrBase := first } }

/-! ## The task reserve (R172) -/

/-- The reserve of a launch: the largest of each item that a task entry declares; none without one. -/
def reserveOf (s : State) (l : Launch) : Option EntryPt :=
  match mget? s.objects l.codeObj with
  | none => none
  | some o =>
    let ts := o.entries.filter fun e => e.kind == 2
    if ts.isEmpty then none
    else
      let top := fun (f : EntryPt → Nat) => ts.foldl (fun n e => max n (f e)) 0
      some { EntryPt.none with vregs := top (fun e => e.vregs), scalars := top (fun e => e.scalars), scratch := top (fun e => e.scratch), bench := top (fun e => e.bench) }

/-- Whether a core keeps the reserve of the launch whose work is placed when some of its quadrants' rooms and its ranges are as given. (DESIGN CHOICE: log 12) -/
def keepsReserve (s : State) (p : Partition) (l : Launch) (core : Nat) (room : Nat → Room) (taken : List (Nat × Nat)) : Bool :=
  match reserveOf s l with
  | none => true
  | some r =>
    ((List.range 4).any fun q => mayUse s p l.id (core * 4 + q) && decide (1 ≤ (room (core * 4 + q)).slots) &&
      Room.takes { (room (core * 4 + q)) with bufs := 48 } r 1) &&
      (r.scratch == 0 || (findRun (spaceSize p core) taken r.scratch).isSome)

/-! ## One wave (R30, R170) -/

/-- Whether a wave of an entry, with scratchpad of its own, fits on a quadrant; a task or trap wave may use the reserve. -/
def fitsOn (s : State) (p : Partition) (l : Launch) (e : EntryPt) (quad : Nat) (task : Bool) : Bool :=
  let core := coreOf quad
  let taken := rangesTaken s l.part core
  let run := if e.scratch = 0 then some 0 else findRun (spaceSize p core) taken e.scratch
  mayUse s p l.id quad && (roomOf s quad).takes e 1 && (match run with
    | none => false
    | some f => task || keepsReserve s p l core (fun q => if q = quad then (roomOf s q).less e 1 else roomOf s q)
        (if e.scratch = 0 then taken else (f, e.scratch) :: taken))

/-- The tiles of a quadrant come to belong to a launch; they are zeroed unless a resume restores them (R333, R334, R450). -/
def takeTiles (s : State) (quad lid : Nat) (zero : Bool) : State :=
  if (mget? s.tileOwner quad).isSome then s
  else
    let s := { s with tileOwner := mset s.tileOwner quad lid }
    if zero then
      { s with tiles := s.tiles.filter (fun e => e.1 / 16384 != quad), tileLabels := s.tileLabels.filter (fun e => e.1 / 8 != quad)
               soft := s.soft.filter fun m => match m with
                 | .tile q _ => q != quad
                 | .tileLabel q _ => q != quad
                 | _ => true }
    else s

/-- The tiles of a quadrant cease to belong to a launch when no wave of it is resident there or spilled from there (R334). -/
def releaseTiles (s : State) (quad : Nat) : State :=
  match mget? s.tileOwner quad with
  | none => s
  | some lid =>
    if s.waves.any fun e => e.2.quad == quad && e.2.launch == lid && (e.2.place == .resident || e.2.place == .spilled || holds s e.2) then s
    else { s with tileOwner := merase s.tileOwner quad }

/-- The tiles of every quadrant that a launch no longer uses cease to belong to it (R206, R334). -/
def releaseLaunch (s : State) (lid : Nat) : State :=
  (s.tileOwner.filter fun e => e.2 == lid).foldl (fun s e => releaseTiles s e.1) s

/-- A wave put on a quadrant in a slot: it takes its number, its age and the tiles. -/
def putNew (s : State) (w : Wave) (quad slot : Nat) : State :=
  let lq := match mget? s.parts w.part with
    | some p => (logicalOf p quad).getD 0
    | none => 0
  let w := { w with id := s.nextWave, quad := quad, slot := slot, lquad := lq, age := s.clock, placedAt := s.clock, place := .resident }
  takeTiles (putWave { s with nextWave := s.nextWave + 1 } w) quad w.launch true

/-- A wave with scratchpad of its own put on a quadrant where it fits, in the lowest free slot. The LAUNCH wave of a compute launch is one: it has a range of its own. (DESIGN CHOICE: log 58) -/
def placeOwn (s : State) (p : Partition) (w : Wave) (quad : Nat) : State :=
  let e := waveEntry s w
  let core := coreOf quad
  if e.scratch = 0 then putNew s w quad (freeSlot s quad)
  else match findRun (spaceSize p core) (rangesTaken s w.part core) e.scratch with
    | none => s
    | some f => putNew (zeroRange s p core f e.scratch) { w with scrBase := f, scrSize := e.scratch } quad (freeSlot s quad)

/-! ## Starting registers (R78, R169, R196) -/

/-- Vector registers of a lane from v0 upward, those of the footprint only. -/
def setStart (w : Wave) (vregs lane : Nat) (ws : List Word) : Wave :=
  (ws.take vregs).zipIdx.foldl (fun w e => w.setVec e.2 (bitOf lane) fun _ => e.1) w

/-- Scalar registers from s0 upward, those of the footprint only. -/
def setScalars (w : Wave) (scalars : Nat) (ws : List Word) : Wave :=
  (ws.take scalars).zipIdx.foldl (fun w e => w.setScalar e.2 e.1) w

/-- Every register of the footprint, and every predicate register, with one label. -/
def labelAll (w : Wave) (e : EntryPt) (lbl : Label) : Wave :=
  let codes := List.range e.vregs ++ (List.range e.scalars).map (fun i => 256 + i) ++ (List.range 8).map fun i => 320 + i
  { w with labels := codes.foldl (fun m c => mput 0 m c lbl) w.labels }

/-! ## Waves that end (R261, R325, R334, R446) -/

/-- Some mailbox slot of a wave is pending (R79). -/
def mboxPending (w : Wave) : Bool := w.mbox.any fun e => e.2.st == .pending

/-- A queue has a launch waiting on a die: one with clusters left there (R203). -/
def queueWaiting (s : State) (part queue die : Nat) : Bool :=
  s.launches.any fun x => x.2.part == part && x.2.queue == queue && x.2.state == .running && !x.2.terminated && !(mgetD x.2.lists die []).isEmpty

/-- A queue's deficit on a die changed; it is 0 without a waiting launch (R203). -/
def setDeficit (s : State) (part queue die : Nat) (f : Int → Int) : State :=
  let w := queueWaiting s part queue die
  { s with parts := mmodify s.parts part fun p => { p with queues := mmodify p.queues queue fun q =>
      { q with deficit := mput 0 q.deficit die (if w then f (mgetD q.deficit die 0) else 0) } } }

/-- A cluster retires when every lane wave of it has exited and the BLOCK waves have (R202); the queue's deficit loses its quadrant-cycles (R203), and tiles that no wave holds any longer belong to no launch (R206). -/
def checkRetire (s : State) (cid : Nat) : State :=
  match mget? s.clusters cid with
  | none => s
  | some c =>
    let ws := (s.waves.filter fun e => e.2.cluster == some cid).map fun e => e.2
    if c.retired || !(ws.all fun w => w.place == .ended || (w.allExited && w.lanes != 0)) then s
    else
      let cycles := ws.foldl (fun n w => n + w.cycles + (if w.place = .ended then 0 else s.clock - w.placedAt)) 0
      let s := { s with clusters := mset s.clusters cid { c with retired := true } }
      match mget? s.launches c.launch with
      | none => s
      | some l => releaseLaunch (setDeficit s l.part l.queue c.die fun d => d - (cycles : Int)) l.id

/-- A wave with no lane left ends when its long-latency instructions are complete and no mailbox slot is pending; then its slot and footprint are free (R261). -/
def checkEnd (s : State) (wid : Nat) : State :=
  match mget? s.waves wid with
  | none => s
  | some w =>
    if w.place == .ended || !w.allExited || w.lanes == 0 || !w.splits.isEmpty || !w.long.isEmpty || mboxPending w then s
    else
      let w := { w with place := .ended, cycles := w.cycles + (if w.place = .resident ∨ w.place = .saving then s.clock - w.placedAt else 0), stop := none }
      let s := putWave { s with regs := s.regs.filter fun r => r.wave != wid } w
      let s := releaseSerial s wid
      releaseTiles s w.quad

/-- What the exit of a wave's last lane does beyond R25: the latched counts of its barriers fall, and its cluster may retire. -/
def lastLane (s : State) (wid : Nat) : State :=
  match mget? s.waves wid with
  | none => s
  | some w =>
    let s := barWaveEnd s w
    match w.cluster with
    | some c => checkRetire s c
    | none => s

end Sys2Proof.Machine
end

