-- ==== Sys2Proof/Machine/Slots.lean ====
section
/-! DEFINITION. Spawn records and gather slots: the spawn queue of a core, the overflow lists in memory, the slots that a queue feeds (R163, R164, R168, R171, R423). -/
namespace Sys2Proof.Machine

/-! ## Spawn records (R163, R164) -/

/-- A spawn record as a number of 256 bits (R163). -/
def SpawnRec.image (r : SpawnRec) : Nat :=
  r.entry % 256 + r.depth % 16 * 2 ^ 28 + r.label.toNat * 2 ^ 32 +
    (List.range 4).foldl (fun n i => n + (nthD r.pay i 0).toNat * 2 ^ (64 + 32 * i)) 0 + r.joinAddr.toNat * 2 ^ 192

/-- The place of a SPAWN in the order of its core: by the clock at which it issues, then the quadrant, then the wave's issue order (R164). (DEDUCED: log 45) -/
def spawnOrder (clock quad issued : Nat) : Nat := (clock * 4 + quad % 4) * 2 ^ 64 + issued

/-- The clock at which the SPAWN of a place in the order issued. -/
def orderClock (n : Nat) : Nat := n / 2 ^ 66

/-! ## The spawn queue and the overflow lists (R164, R171) -/

/-- Records that a core's spawn queue holds. -/
def queueLength (s : State) (core : Nat) : Nat := (mgetD s.spawnQ core []).length

/-- A core's records in the overflow lists of its die, with the keys of their lists. (DEDUCED: log 29) -/
def overflowOf (s : State) (core : Nat) : List (Nat × SpawnRec) :=
  s.overflow.flatMap fun e => if e.1 % 8 = dieOfCore core then (e.2.filter fun x => x.1 == core).map fun x => (e.1, x.2) else []

/-- The cores that have a record in an overflow list. -/
def overflowCores (s : State) : List Nat := dedup (s.overflow.flatMap fun e => e.2.map fun x => x.1)

/-- Records of SPAWNs of a core that have issued and not entered the queue. -/
def inTransit (s : State) (core : Nat) : Nat :=
  s.waves.foldl (fun n e => if coreOf e.2.quad = core then e.2.pending.foldl (fun n x => if x.kind = .spawnAdd then n + x.recs.length else n) n else n) 0

/-- Room for records in a core's queue: none while the core has records in an overflow list. -/
def queueRoom (s : State) (core : Nat) : Nat := if (overflowOf s core).isEmpty then 2048 - queueLength s core else 0

/-- Records that a launch's overflow list of a die can hold: an equal share of its region. -/
def overflowSize (s : State) (lid : Nat) : Nat :=
  match mget? s.launches lid with
  | none => 0
  | some l => l.spawnSize / 8

/-- Room in a launch's overflow list of a die. -/
def overflowRoom (s : State) (lid die : Nat) : Nat := overflowSize s lid - (mgetD s.overflow (storeKey lid die) []).length

/-- Whether `n` more records of a launch fit on a core (R171). -/
def spawnFits (s : State) (core lid n : Nat) : Bool := decide (inTransit s core + n ≤ queueRoom s core + overflowRoom s lid (dieOfCore core))

/-- A record put at the end of its launch's overflow list of a die, and written in the lowest free place of the die's part of the region (R163, R171). (DEDUCED: log 45) -/
def toOverflow (s : State) (core : Nat) (r : SpawnRec) : State :=
  let die := dieOfCore core
  let k := storeKey r.launch die
  let q := mgetD s.overflow k []
  let slot := ((List.range (q.length + 1)).find? fun i => q.all fun x => x.2.slot != i).getD 0
  let s := { s with overflow := mset s.overflow k (q ++ [(core, { r with slot := slot })]) }
  match mget? s.launches r.launch with
  | none => s
  | some l => regionWrite s l.part die (l.spawnBase.toNat + 32 * (die * (l.spawnSize / 8) + slot)) (leBytes 32 r.image)

/-! ## Gather slots (R168) -/

/-- Whether a gather slot has the key of a record. -/
def GatherSlot.keyed (g : GatherSlot) (r : SpawnRec) : Bool := g.launch == r.launch && g.entry == r.entry && g.label == r.label && g.depth == r.depth

/-- The slots of a core, by key core × 8 + number. -/
def slotsOf (s : State) (core : Nat) : List (Nat × GatherSlot) := s.gatherSlots.filter fun e => e.1 / 8 == core

/-- A slot sealed: it takes the next number in sealing order. -/
def sealSlot (s : State) (k : Nat) : State :=
  match mget? s.gatherSlots k with
  | none => s
  | some g =>
    if g.isSealed || g.recs.isEmpty then s
    else { s with gatherSlots := mset s.gatherSlots k { g with isSealed := true, order := s.sealCount }, sealCount := s.sealCount + 1 }

/-- Whether a slot is to be sealed while its core's queue holds `n` records: it is full, 512 clocks have passed without a new record, or the queue holds 1,536 or more. -/
def GatherSlot.due (g : GatherSlot) (clock n : Nat) : Bool := decide (32 ≤ g.recs.length) || decide (g.last + 512 ≤ clock) || decide (1536 ≤ n)

/-- The slots of a core that are to be sealed, sealed. -/
def sealDue (s : State) (core n : Nat) : State := (slotsOf s core).foldl (fun s e => if e.2.due s.clock n then sealSlot s e.1 else s) s

/-- A record enters the slot of its key, or the lowest free slot; none when it waits in the queue. -/
def enterSlot (s : State) (core : Nat) (r : SpawnRec) : Option State :=
  match (slotsOf s core).find? fun e => e.2.keyed r with
  | some (k, g) =>
    if g.isSealed || decide (32 ≤ g.recs.length) then none
    else
      let s := { s with gatherSlots := mset s.gatherSlots k { g with recs := g.recs ++ [r], last := s.clock } }
      some (if g.recs.length = 31 then sealSlot s k else s)
  | none => match (List.range 8).find? fun i => (mget? s.gatherSlots (core * 8 + i)).isNone with
    | none => none
    | some i =>
      let g : GatherSlot := { launch := r.launch, part := r.part, entry := r.entry, label := r.label, depth := r.depth, recs := [r],
                              last := s.clock, isSealed := false, order := 0 }
      some { s with gatherSlots := mset s.gatherSlots (core * 8 + i) g }

/-- Records of a core's queue offered to its slots in order, with those that wait. -/
def feedFrom (core : Nat) : List SpawnRec → State → List SpawnRec → State × List SpawnRec
  | [], s, kept => (s, kept)
  | r :: rest, s, kept =>
    let s := sealDue s core (kept.length + rest.length + 1)
    match enterSlot s core r with
    | some s => feedFrom core rest s kept
    | none => feedFrom core rest s (kept ++ [r])

/-- The slots of a core take the records that they can from its queue, in queue order. -/
def feedSlots (s : State) (core : Nat) : State :=
  let (s, kept) := feedFrom core (mgetD s.spawnQ core []) s []
  { s with spawnQ := mput [] s.spawnQ core kept }

/-- Records placed: in the queue, else in the launch's overflow list of the die (R171). (DEDUCED: log 45) -/
def placeRecords (s : State) (core : Nat) (rs : List SpawnRec) : State :=
  feedSlots (rs.foldl (fun s r =>
    if queueRoom s core = 0 then toOverflow s core r else { s with spawnQ := mset s.spawnQ core (mgetD s.spawnQ core [] ++ [r]) }) s) core

/-- The place of an entry's records in the order of its core's SPAWNs. -/
def Entry.spawnOrder (e : Entry) : Nat := (e.recs.head?.map fun r => r.order).getD 0

/-- Step 3 of R165: the records of a SPAWN whose adds have performed enter the queue, once the clock of its issue has passed, no SPAWN of the core before it waits, and they fit (R164). (DEDUCED: log 45) -/
def spawnEnter (s : State) (w : Wave) (e : Entry) : State :=
  let core := coreOf w.quad
  let before := s.waves.any fun x => coreOf x.2.quad == core && x.2.pending.any fun y => y.kind == .spawnAdd && !y.recs.isEmpty &&
    decide (y.spawnOrder < e.spawnOrder)
  let gone := putWave s { w with pending := w.pending.filter fun x => x.id != e.id }
  if !e.doneAll then s
  else if e.dead || e.recs.isEmpty then gone
  else if before || decide (s.clock ≤ orderClock e.spawnOrder) || decide (queueRoom s core + overflowRoom s w.launch (dieOfCore core) < e.recs.length) then s
  else placeRecords gone core e.recs

/-- The first of a core's records in the overflow lists goes back to its queue, when that has room (R171). (DEDUCED: log 45) -/
def returnRecord (s : State) (core : Nat) : State :=
  match minBy? (fun x : Nat × SpawnRec => x.2.order) (overflowOf s core) with
  | none => s
  | some (k, r) =>
    if 2048 ≤ queueLength s core then s
    else
      let left := (mgetD s.overflow k []).filter fun x => !(x.1 == core && x.2 == r)
      feedSlots { s with overflow := mput [] s.overflow k left, spawnQ := mset s.spawnQ core (mgetD s.spawnQ core [] ++ [r]) } core

end Sys2Proof.Machine
end

