-- ==== Sys2Proof/Machine/Exit.lean ====
section
/-! DEFINITION. EXIT and what lanes leave behind: children, mailbox results, task releases, the end of a wave, the end of a launch by termination (R25, R44, R56, R79, R167, R261, R382, R446). -/
namespace Sys2Proof.Machine

/-! ## Mailboxes (R79) -/

/-- The key of a mailbox slot of a wave. -/
def mboxKey (lane slot : Nat) : Nat := lane * 8 + slot

/-- A free mailbox slot. -/
def Mbox.free : Mbox := ⟨.free, [], []⟩

/-- A mailbox slot of a wave. -/
def Wave.slotOf (w : Wave) (lane slot : Nat) : Mbox := mgetD w.mbox (mboxKey lane slot) Mbox.free

/-- What a slot with an uncorrectable error holds (R444): word 0 with MALFORMED alone. -/
def Mbox.broken : Mbox := ⟨.full, [0x04000000, 0, 0, 0], [0, 0, 0, 0]⟩

/-- A result reaches its slot, and wakes the split that sleeps on it; for a lane that has exited it is discarded, and the slot becomes free. -/
def deliver (s : State) (wid lane slot : Nat) (words : List Word) (labels : List Label) : State :=
  match mget? s.waves wid with
  | none => s
  | some w =>
    if (w.slotOf lane slot).st != .pending then s
    else if bit w.exited lane then
      checkEnd (putWave s { w with mbox := merase w.mbox (mboxKey lane slot) }) wid
    else
      let mark := SoftMark.mbox wid (mboxKey lane slot)
      let box := if mark ∈ s.soft then Mbox.broken else ⟨.full, words, labels⟩
      wordChanged (putWave { s with soft := s.soft.filter fun m => m != mark } { w with mbox := mset w.mbox (mboxKey lane slot) box }) Agent.outside (.mbox wid lane slot)
        [.die (dieOfQuadrant w.quad)]

/-- The four words of R78's first case for a hit. -/
def hitWords (h : HitStart) : List Word :=
  let tri := (nthD h.regs 5 0) &&& 0x7F
  [(if h.bound then 0x03000000 else 0x01000000) ||| tri, nthD h.regs 0 0, nthD h.regs 3 0, nthD h.regs 4 0]

/-! ## Elements that exit (R44, R56, R57, R63, R67) -/

/-- What an element's lane leaves when it exits: its emitted lists, its vertex, its KILL, the context label of its split. -/
def markExit (s : State) (w : Wave) (id lane : Nat) (ctx : Label) : State :=
  match mget? s.elems id with
  | none => s
  | some e =>
    let emit := mgetD w.emit lane ⟨0, []⟩
    let vert := if e.rate = .vertex then
        (match mget? s.launches e.launch with
         | some l => (match l.draw with
           | some d =>
             let lbl := (List.range 4).foldl (fun acc i => acc ||| w.label i) ctx
             some (vertexOut d (w.vec 0 lane) (w.vec 1 lane) (w.vec 2 lane) (w.vec 3 lane) lbl)
           | none => none)
         | none => none)
      else none
    { s with elems := mset s.elems id { e with state := .exited, exitCtx := ctx, emit := emit, vert := vert, killed := e.killed || bit w.killed lane } }

/-- The OBJECT elements of a FRAME instance: the draw-list entries that its die owns, ascending. -/
def createObjects (s : State) (l : Launch) (d : Draw) (e : Elem) : State :=
  d.objs.zipIdx.foldl (fun s o =>
    if o.1.die = e.die then
      createElem s { Elem.blank with
        launch := l.id, die := e.die, rate := .group, parent := some e.id, index := o.2
        start := [BitVec.ofNat 32 o.2, BitVec.ofNat 32 o.1.user.toNat, BitVec.ofNat 32 (o.1.user.toNat / 2 ^ 32)] }
    else s) s

/-- The CLUSTER elements of an object. -/
def createClusters (s : State) (l : Launch) (d : Draw) (e : Elem) : State :=
  (List.range (match d.objs[e.index]? with | some o => o.clusters | none => 0)).foldl (fun s j =>
    createElem s { Elem.blank with
      launch := l.id, die := e.die, rate := .cluster, parent := some e.id, index := j,
      start := [BitVec.ofNat 32 e.index, BitVec.ofNat 32 j] }) s

/-- The VERTEX elements of a cluster. -/
def createVertices (s : State) (l : Launch) (e : Elem) : State :=
  (List.range e.emit.verts).foldl (fun s j =>
    createElem s { Elem.blank with
      launch := l.id, die := e.die, rate := .vertex, parent := some e.id, index := j, start := [BitVec.ofNat 32 j] }) s

/-- The LANE elements of a block, for the waves placed for it (R45, R61). -/
def createLanes (s : State) (l : Launch) (w : Wave) (e : Elem) : State :=
  let ws := sortBy (fun x : Wave => x.wnum) ((s.waves.filter fun x => x.2.role == .lane && x.2.cluster == w.cluster && x.2.lblock == w.lblock).map fun x => x.2)
  ws.foldl (fun s x => (lanesOf x.lanes).foldl (fun s k =>
    createElem s { Elem.blank with
      launch := l.id, die := e.die, rate := .fine, parent := some e.id, index := x.wnum * 32 + k, wave := some (x.id, k) }) s) s

/-- The children of an element that has exited. -/
def createChildren (s : State) (w : Wave) (id : Nat) : State :=
  match mget? s.elems id with
  | none => s
  | some e => match mget? s.launches e.launch with
    | none => s
    | some l => match e.rate, l.draw with
      | .whole, some d => createObjects s l d e
      | .whole, none => { s with launches := mset s.launches l.id { l with dieReady := addNat e.die l.dieReady } }
      | .group, some d => createClusters s l d e
      | .group, none => createLanes s l w e
      | .cluster, _ => createVertices s l e
      | .coarse, some d => createSamples s l d e
      | _, _ => s

/-- The clusters of some vertices whose last vertex has exited, with their objects' indices. -/
def lastVertices (s : State) (ids : List Nat) : List (Elem × Nat) :=
  let cs := dedup (ids.filterMap fun id => (mget? s.elems id).bind fun e => if e.rate = .vertex then e.parent else none)
  cs.filterMap fun c => match mget? s.elems c with
    | none => none
    | some k =>
      if s.elems.all fun e => e.2.parent != some c || e.2.rate != .vertex || e.2.state == .exited || e.2.state == .returned then
        (match k.parent with
         | none => none
         | some o => (mget? s.elems o).map fun x => (k, x.index))
      else none

/-- A RAY lane that exits delivers the words of R78's first case if it has delivered none, and no longer holds its hit's records (R58). -/
def endHit (s : State) (id : Nat) : State :=
  match mget? s.elems id with
  | none => s
  | some e => match e.hit with
    | none => s
    | some h =>
      let s := if h.delivered then s else deliver s h.wave h.lane h.slot (hitWords h) (List.replicate 4 h.label)
      let s := { s with elems := mmodify s.elems id fun x => { x with hit := some { h with delivered := true } } }
      if (match mget? s.launches e.launch with | some l => l.draw.isSome | none => false) then
        (hitElems s e.launch h.obj h.clu).foldl (fun s x => changeRayref s x false) s
      else s

/-- The elements of some lanes exit: marks, then every creation of the event, then every decrement (R57). -/
def exitElems (s : State) (w : Wave) (m : Mask) (ctx : Label) : State :=
  let ids := (lanesOf m).filterMap fun l => (mget? w.elems l).map fun id => (l, id)
  if ids.isEmpty then s
  else
    let s := ids.foldl (fun s x => markExit s w x.2 x.1 ctx) s
    let s := ids.foldl (fun s x => createChildren s w x.2) s
    let done := lastVertices s (ids.map fun x => x.2)
    let s := done.foldl (fun s k => match mget? s.launches w.launch with
      | none => s
      | some l => match l.draw with
        | none => s
        | some d => rasterize s l d k.1 k.2) s
    let s := ids.foldl (fun s x => endHit s x.2) s
    let s := done.foldl (fun s k => dropRasterHolds s k.1) s
    ids.foldl (fun s x => afterExit s x.2) s

/-! ## Termination (R382, R446) -/

/-- The mailboxes and rays of a launch dropped. -/
def dropRays (s : State) (lid : Nat) : State := { s with rays := s.rays.filter fun r => r.2.launch != lid }

/-- A wave of a terminated launch ends: its lanes leave, its registrations, sets, token and locks go; what it has issued still completes. -/
def killWave (s : State) (w : Wave) : State :=
  let w := { w with
    exited := w.lanes ||| w.exited, lanes := w.lanes ||| w.exited, splits := [], joins := [], sers := [], mbox := [], stop := none, step := 0
    tx := { Tx.closed with aborts := 0 }, pendingWake := []
    pending := w.pending.map fun e : Entry => if e.tx = 0 then e else { e with dead := true }
    long := w.long.map fun o : LongOp => { o with dead := true } }
  let s := putWave { s with regs := s.regs.filter fun r => r.wave != w.id } w
  let s := releaseSerial s w.id
  if w.lanes = 0 ∨ w.place = .saved ∨ w.place = .spilled then releaseTiles (putWave s { w with place := .ended }) w.quad else checkEnd s w.id

/-- A launch terminates: its waves end, its unplaced work, records and rays are dropped; it has ended once its copies complete (R382). -/
def terminate (s : State) (lid : Nat) : State :=
  match mget? s.launches lid with
  | none => s
  | some l =>
    if l.terminated || l.state == .ended then s
    else
      let before := s
      let s := { s with launches := mset s.launches lid { l with terminated := true, lists := l.lists.map fun e => (e.1, []) } }
      let s := dropRays s lid
      let keep := fun (r : SpawnRec) => r.launch != lid
      let s := { s with gathers := s.gathers.filter (fun g => g.launch != lid), spawnQ := mmap s.spawnQ (fun _ q => q.filter keep) }
      let s := { s with overflow := mmap s.overflow (fun _ q => q.filter fun x => keep x.2)
                        gatherSlots := s.gatherSlots.filter (fun e => e.2.launch != lid) }
      let s := { s with traceHolds := s.traceHolds.filter (fun h => h.launch != lid)
                        elems := mmap s.elems (fun _ e => if e.launch = lid then { e with state := .returned, locs := [] } else e) }
      let cores := dedup ((before.gatherSlots.filter fun e => e.2.launch == lid).map fun e => e.1 / 8)
      let s := cores.foldl feedSlots s
      let s := (s.waves.filter fun e => e.2.launch == lid && e.2.place != .ended).foldl (fun s e => match mget? s.waves e.1 with
        | none => s
        | some w => killWave s w) s
      let s := (s.clusters.filter fun e => e.2.launch == lid).foldl (fun s e => checkRetire s e.1) s
      (List.range 8).foldl (fun s d => setDeficit s l.part l.queue d fun n => n) s

/-! ## Lanes that leave -/

/-- A transaction whose split has gone is dropped: nothing can commit it. -/
def dropLostTx (s : State) (wid : Nat) : State :=
  match mget? s.waves wid with
  | none => s
  | some w =>
    if w.tx.depth ≠ 0 ∧ (mget? w.splits w.tx.owner).isNone then
      releaseSerial (putWave s { w with
        tx := { w.tx with depth := 0, serial := false, alts := [], reads := [], writes := [], aborts := 0 }
        pending := w.pending.map fun e : Entry => if e.tx = 0 then e else { e with dead := true } }) wid
    else s

/-- A trap wave whose last lane has exited without resolving its split terminates the launch (R382). -/
def trapEnds (s : State) (w : Wave) : State :=
  match w.trapRec with
  | none => s
  | some r => if w.role == .trap && w.allExited && (findHandle s w.part r.handle).isSome then terminate s w.launch else s

/-- Lanes of a split leave the wave (R25, R261): elements, the last lane's effects, the end of the wave, ray quiescence. (DESIGN CHOICE: log 47) -/
def leaveLanes (s : State) (wid k : Nat) (m : Mask) (ctx : Label) : State :=
  match mget? s.waves wid with
  | none => s
  | some w =>
    let w' := exitLanes w k m
    let s := dropLostTx (putWave s w') wid
    let s := exitElems s w m ctx
    let s := if w'.allExited then lastLane s wid else s
    let s := checkEnd s wid
    let s := checkQuiet s w.launch
    trapEnds s w'

/-! ## EXIT (R167, R261) -/

/-- The exit scope of a task entry. -/
def exitScope (e : EntryPt) : Scope := if e.exitScope = 1 then .pkg else if e.exitScope = 2 then .pod else .die

/-- The join-counter update of a task wave's exiting lanes: a release at the exit scope and a subtract at `.die`. -/
def taskRelease (s : State) (c : Ctx) : Except Halt State :=
  if c.w.role != .task then .ok s
  else
    let lanes := (lanesOf c.act).filter fun l => mgetD c.w.joinAddrs l 0 != 0
    let ts := lanes.map fun l =>
      let a := (mgetD c.w.joinAddrs l 0).toNat
      (l, match translate s c.core c.w.part a .both with
        | .fail e => Target.bad e.code (e.info true false) a
        | .walkFor va => .walk va
        | .place p page => .at p page)
    match stage4 c ts 0 0 with
    | .error e => .error e
    | .ok ps =>
      let accs := ps.map fun p => newAccess p.1 p.2.1 (mgetD c.w.joinAddrs p.1 0).toNat 4 (leBytes 4 1) [] c.ctx p.2.2
      let accs := if accs.isEmpty then [noAccess c.low] else accs
      .ok (submit s c .exitSub .rel (exitScope c.ent) .dflt none 0 0 accs [])

/-- EXIT (R261). -/
def execExit (h : Ctl) (s : State) : Host.Outcome State Fault Refusal :=
  runJump (.exit h) s fun c =>
    if c.act = 0 then .ok (advance s c true)
    else match taskRelease s c with
      | .error e => .error e
      | .ok s =>
        let rest := c.sp.mask &&& ~~~c.act
        let s := leaveLanes s c.w.id c.k c.act c.sp.ctx
        if rest = 0 then .ok s else .ok (advance s c true)

end Sys2Proof.Machine
end

