-- ==== Sys2Proof/Machine/Context.lean ====
section
/-! DEFINITION. The context region in device memory: the byte image of a saved or spilled wave, and of a quadrant's tiles and a core's scratchpad (R160, R386, R387). -/
namespace Sys2Proof.Machine

/-! ## The image of a wave (R387)

Where R387 gives a field's place but not its code, the code is the model's. (DESIGN CHOICE: log 54) -/

/-- Byte `i` of a number. (DESIGN CHOICE: log 54) -/
def byteOf (v i : Nat) : Byte := BitVec.ofNat 8 (v / 256 ^ i)

/-- The byte at `off` of a list of numbers of `n` bytes each. -/
def fieldByte (n : Nat) (f : Nat → Nat) (off : Nat) : Byte := byteOf (f (off / n)) (off % n)

/-- A header address, or 0 for none. -/
def rcvNum (r : Option DWord) : Nat := (r.getD 0).toNat

/-- Code of the innermost record of a split. (DESIGN CHOICE: log 54) -/
def nestNum : Nest → Nat
  | .none => 0
  | .join k => 1 + k
  | .ser k => 16 + k

/-- Code of a split's state; 0 for an entry that is not live. (DESIGN CHOICE: log 54) -/
def stateNum : SplitState → Nat
  | .ready => 1
  | .waiting => 2
  | .atJoin => 3
  | .sleeping => 4
  | .parked => 5

/-- A number of at most `n` bytes put at byte `at` of a record. -/
def placed (pos n v : Nat) : Nat := v % 256 ^ n * 256 ^ pos

/-- A split table entry, 64 B (R387). -/
def splitNum (sp : Split) : Nat :=
  placed 0 8 sp.pc.word.toNat + placed 8 8 sp.region.word.toNat + placed 16 8 (rcvNum sp.rcv) + placed 24 4 sp.mask.toNat +
    placed 28 4 sp.ctx.toNat + placed 32 1 (nestNum sp.nest) + placed 33 1 (stateNum sp.state)

/-- A join record, 32 B. (DESIGN CHOICE: log 54) -/
def joinNum (j : JoinRec) : Nat :=
  placed 0 8 j.rcv.toNat + placed 8 8 (rcvNum j.savedRcv) + placed 16 4 j.mask.toNat + placed 20 4 j.savedCtx.toNat + placed 24 1 (nestNum j.savedNest)

/-- A serialisation entry, 32 B. (DESIGN CHOICE: log 54) -/
def serNum (e : SerEntry) : Nat :=
  placed 0 4 e.mask.toNat + placed 4 4 e.pending.toNat + placed 8 4 e.savedCtx.toNat + placed 12 6 (rcvNum e.rcv) + placed 18 6 (rcvNum e.savedRcv) +
    placed 24 6 e.resume.toNat + placed 30 1 (nestNum e.savedNest) + placed 31 1 1

/-- A line or word of a wake table or a read set, 8 B: its space in the top byte. (DESIGN CHOICE: log 54) -/
def lineNum : LineKey → Nat
  | .dev l => placed 7 1 1 + placed 0 5 l
  | .host l => placed 7 1 2 + placed 0 6 l
  | .pkg p l => placed 7 1 3 + placed 5 2 p + placed 0 5 l
  | .scr c r => placed 7 1 4 + placed 5 2 c + placed 0 2 r
  | .away b o r => placed 7 1 (if b then 6 else 5) + placed 3 4 o + placed 0 2 r
  | .phase b => placed 7 1 7 + placed 0 6 b
  | .batch w n => placed 7 1 8 + placed 4 3 w + placed 0 4 n
  | .mbox w l k => placed 7 1 9 + placed 2 5 w + placed 1 1 l + placed 0 1 k

/-- What a registration stands on, 8 B. (DESIGN CHOICE: log 54) -/
def wakeNum : WakeKey → Nat
  | .line l => lineNum l
  | .slice d x => placed 7 1 16 + placed 2 1 d + placed 0 2 x
  | .bankCore c => placed 7 1 17 + placed 0 2 c
  | .barUnit x u => placed 7 1 18 + placed 2 1 x + placed 0 2 u
  | .engine c => placed 7 1 19 + placed 0 2 c
  | .die d => placed 7 1 20 + placed 0 1 d

/-- The transaction state of a wave, 128 B (R148). (DESIGN CHOICE: log 54) -/
def txNum (t : Tx) : Nat :=
  placed 0 1 t.depth + placed 1 1 t.scope.num + placed 2 1 t.owner + placed 3 1 t.serial.toNat +
    placed 4 1 t.aborts + placed 8 8 t.origin.word.toNat +
    (List.range 4).foldl (fun n i => n + placed (16 + 8 * i) 8 (rcvNum (nthD t.alts i none))) 0 +
    placed 48 4 t.mask0.toNat + placed 52 4 t.ctx0.toNat + placed 56 8 (rcvNum t.rcv0) + placed 64 1 (nestNum t.nest0)

/-- An entry of a read set, 8 B: its line, and in byte 6 its level and whether it is live. (DESIGN CHOICE: log 54) -/
def readNum (r : TxRead) : Nat := lineNum r.line % 2 ^ 48 + placed 6 1 (r.level + 8 * r.live.toNat) + placed 7 1 (lineNum r.line / 2 ^ 56)

/-- A bench claim, 8 B, as its reservation descriptor (R335). -/
def claimNum (c : Claim) : Nat :=
  c.first + c.count * 2 ^ 5 + c.format * 2 ^ 11 + c.blk * 2 ^ 15 + c.roleB.toNat * 2 ^ 17 + c.scoff * 2 ^ 32 + c.ssoff * 2 ^ 48

/-- The last arrival of a wave at barrier K of a scope. -/
def lastArrival (s : State) (w : Wave) (sc k : Nat) : Nat :=
  (w.barLast.findSome? fun e => match mget? s.barriers e.1 with
    | some b => if b.scope.num = sc ∧ b.k = k then some e.2 else none
    | none => none).getD 0

/-- The status of one of the 16 newest batches of a wave. -/
def batchWord (s : State) (w : Wave) (i : Nat) : Nat := if w.batchNext + i < 16 then 0 else batchStatus s w (w.batchNext + i - 16)

/-- Age, launch tag, LBLOCK, entry, depth, footprint and BATCHNEXT, 160 B. (DESIGN CHOICE: log 54) -/
def waveNum (s : State) (w : Wave) : Nat :=
  let e := waveEntry s w
  placed 0 8 w.age + placed 8 4 w.launch + placed 12 4 w.lblock.toNat + placed 16 1 w.entry + placed 17 1 w.depth + placed 18 2 e.vregs +
    placed 20 2 e.scalars + placed 22 2 e.scratch + placed 24 2 e.bench + placed 28 4 w.batchNext

/-- What a mailbox slot holds, 32 B: four words, then four labels (R387). -/
def mboxNum (m : Mbox) : Nat :=
  (List.range 4).foldl (fun n i => n + placed (4 * i) 4 (nthD m.words i 0).toNat + placed (16 + 4 * i) 4 (nthD m.labels i 0).toNat) 0

/-- Code of a mailbox slot's state. (DESIGN CHOICE: log 54) -/
def mboxState : MboxState → Nat
  | .free => 0
  | .pending => 1
  | .full => 2

/-- The counts of what a CLUSTER lane has emitted, 8 B: vertices, then triangles. (DESIGN CHOICE: log 54) -/
def emitCounts (e : Emit) : Nat := placed 0 4 e.verts + placed 4 4 e.tris.length

/-- The number that an optional entry of a table stands for; 0 for none. -/
def orZero {α : Type} (f : α → Nat) (x : Option α) : Nat := (x.map f).getD 0

/-- The byte at an offset of the first 8 KiB of a wave context area (R387). -/
def areaHead (s : State) (w : Wave) (off : Nat) : Byte :=
  if off < 0x100 then fieldByte 64 (fun k => orZero splitNum (mget? w.splits k)) off
  else if off < 0x160 then fieldByte 32 (fun k => orZero joinNum (mget? w.joins k)) (off - 0x100)
  else if off < 0x180 then 0
  else if off < 0x200 then byteOf (txNum w.tx) (off - 0x180)
  else if off < 0x400 then fieldByte 8 (fun i => orZero readNum w.tx.reads[i]?) (off - 0x200)
  else if off < 0x408 then byteOf (w.pendingWake.foldl (fun n k => n + 2 ^ k) 0) (off - 0x400)
  else if off < 0x500 then
    fieldByte 8 (fun i => orZero (fun r : Registration => wakeNum r.key) (s.regs.filter fun r => r.wave == w.id)[i]?) (off - 0x408)
  else if off < 0x700 then fieldByte 32 (fun k => orZero serNum (mget? w.sers k)) (off - 0x500)
  else if off < 0x840 then fieldByte 4 (fun i => lastArrival s w (i / 16) (i % 16)) (off - 0x700)
  else if off < 0x880 then fieldByte 4 (batchWord s w) (off - 0x840)
  else if off < 0x980 then fieldByte 8 (fun i => orZero claimNum w.bench.claims[i]?) (off - 0x880)
  else if off < 0xA00 then fieldByte 4 (fun i => (mgetD w.bench.labels i 0).toNat) (off - 0x980)
  else if off < 0xD00 then fieldByte 4 (fun i => (mgetD w.labels i 0).toNat) (off - 0xA00)
  else if off < 0xE20 then fieldByte 4 (fun i => (mgetD w.labels (256 + i) 0).toNat) (off - 0xD00)
  else if off < 0xE40 then 0
  else if off < 0xF40 then fieldByte 4 (fun i => (w.scalar i).toNat) (off - 0xE40)
  else if off < 0xF60 then fieldByte 4 (fun i => (w.pred i).toNat) (off - 0xF40)
  else if off < 0x1000 then byteOf (waveNum s w) (off - 0xF60)
  else if off < 0x1100 then byteOf (mboxState (w.slotOf ((off - 0x1000) / 8) (off % 8)).st) 0
  else 0

/-- The byte at an offset of a wave context area (R387). -/
def areaByte (s : State) (w : Wave) (off : Nat) : Byte :=
  if off < 0x2000 then areaHead s w off
  else if off < 0x8000 then fieldByte 4 (fun i => (mgetD w.vregs i 0).toNat) (off - 0x2000)
  else if off < 0xA000 then fieldByte 32 (fun i => mboxNum (w.slotOf (i / 8) (i % 8))) (off - 0x8000)
  else if off < 0xE000 then
    fieldByte 4 (fun i => orZero (fun e : Emit => (nthD e.tris (i % 128) 0).toNat) (mget? w.emit (i / 128))) (off - 0xA000)
  else if off < 0xE100 then fieldByte 8 (fun l => orZero emitCounts (mget? w.emit l)) (off - 0xE000)
  else if off < 0x10000 then 0
  else mgetD w.bench.bytes (off - 0x10000) 0

/-! ## The context engine (R385, R386) -/

/-- Where a quadrant block stands in device memory; nowhere for a partition whose CTXBASE is 0 (R386). (DESIGN CHOICE: log 54) -/
def blockBase (s : State) (part lq : Nat) : Option Nat :=
  match mget? s.parts part with
  | none => none
  | some p => if p.ctxBase = 0 then none else some (p.ctxBase.toNat + blockBytes * lq)

/-- The context engine writes a line of device memory: no line above its end, and none of another partition's region or a protected area. (DESIGN CHOICE: log 54) -/
def contextLine (s : State) (part pa : Nat) (bs : List Byte) : State :=
  let l := Loc.dev pa
  if decide (2 ^ 40 ≤ pa) || reserved pa then s
  else homeWrite (reach s part (dieOf pa) false .dflt PageAttr.plain l) Agent.outside l bs

/-- The context engine writes `n` lines of a quadrant block from an offset. -/
def contextWrite (s : State) (part lq off n : Nat) (byte : State → Nat → Byte) : State :=
  match blockBase s part lq with
  | none => s
  | some base => (List.range n).foldl (fun t i =>
      contextLine t part (base + off + 128 * i) ((List.range 128).map fun j => byte s (128 * i + j))) s

/-- A wave's context area written: that of its slot in the block of its logical quadrant (R386, R387). -/
def writeArea (s : State) (w : Wave) : State := contextWrite s w.part w.lquad (0x20000 * w.slot) 1024 fun s => areaByte s w

/-- The areas of the waves that were away and have changed: wakes recorded, ray results delivered (R79, R160). -/
def settleContext (before s : State) : State :=
  if s.parts.all fun e => e.2.ctxBase == 0 then s
  else s.waves.foldl (fun t e => match mget? before.waves e.1 with
    | some old =>
      if (old.place == .spilled || old.place == .saved) && e.2.place == old.place && !decide (old = e.2) then writeArea t e.2 else t
    | none => t) s

/-- A quadrant's tiles and their labels written to its block (R386). -/
def writeTiles (s : State) (part lq quad : Nat) : State :=
  let s := contextWrite s part lq 0x200000 512 fun s => fieldByte 4 fun i => (mgetD s.tiles (quad * 16384 + i) 0).toNat
  contextWrite s part lq 0x210000 1 fun s off => if off < 32 then fieldByte 4 (fun t => (mgetD s.tileLabels (quad * 8 + t) 0).toNat) off else 0

/-- The logical number of the lowest quadrant of a core that a partition owns (R386). -/
def lowestOwned (p : Partition) (core : Nat) : Option Nat := (List.range 4).findSome? fun q => logicalOf p (core * 4 + q)

/-- A core's scratchpad and its granule labels written to the block of the core's lowest owned quadrant (R386). -/
def writeScratch (s : State) (part : Nat) (p : Partition) (core : Nat) : State :=
  match lowestOwned p core with
  | none => s
  | some lq =>
    let mine := fun (off : Nat) => off / 8192 ∈ ownedBanks p core
    let s := contextWrite s part lq 0x300000 2048 fun s off => if mine off then readLoc s (.scr core off) else 0
    contextWrite s part lq 0x340000 8 fun s off => if mine (off / 4 * 1024) then byteOf (mgetD s.scrLabels (core * 256 + off / 4) 0).toNat (off % 4) else 0

end Sys2Proof.Machine
end

