-- ==== Sys2Proof/Machine/Spawn.lean ====
section
/-! DEFINITION. SPAWN and SPFL, task waves, victims and spilling, spawn deadlock (R160, R163 to R173, R329, R330, R369, R422 to R424). -/
namespace Sys2Proof.Machine

/-! ## SPAWN and SPFL (R165, R329, R330, R369) -/

/-- The target of a lane's join address: naturally aligned, in device memory of this module; SPAWN_DEPTH for a record of depth 9 (R163, R403, R422). -/
def joinTarget (s : State) (c : Ctx) (addr entry : Nat) : Target :=
  let deep := decide (8 ≤ c.w.depth)
  let t := if addr = 0 then Target.at (.dev 0) PageAttr.plain
    else if addr % 4 ≠ 0 then .bad 4 4 addr
    else match translate s c.core c.w.part addr .both with
      | .fail e => .bad e.code (e.info true false) addr
      | .walkFor va => if deep then .at (.dev 0) PageAttr.plain else .walk va
      | .place (.dev pa) page => .at (.dev pa) page
      | .place _ _ => .bad 6 1 addr
  match t with
  | .bad .. => t
  | t => if deep then .bad 0x0B entry 0 else t

/-- SPAWN (R163 to R165, R171, R369). -/
def execSpawn (h : Ctl) (entry : Byte) (a b : Opr) (s : State) : Host.Outcome State Fault Refusal :=
  runJump (.spawn h entry a b) s fun c =>
    if c.act = 0 then
      let s := submit s c .spawnAdd .rel .die .dflt none 0 0 [noAccess 0] []
      .ok (advance s c true)
    else
      let lanes := lanesOf c.act
      let addr := fun l => src64 s c b l
      match stage4 c (lanes.map fun l => (l, joinTarget s c (addr l) entry.toNat)) (labelOf s c b 2) (operandLabels s c (.spawn h entry a b)) with
      | .error e => .error e
      | .ok ps =>
        if !spawnFits s c.core c.w.launch lanes.length then .error .hold
        else
          let lbl := labelOf s c a 4 ||| labelOf s c b 2 ||| c.ctx
          let recs := lanes.map fun l => ({
            slot := 0, order := spawnOrder s.clock c.w.quad s.issued, launch := c.w.launch, part := c.w.part, entry := entry.toNat, depth := c.w.depth + 1, label := lbl,
            pay := srcs s c a 4 l, joinAddr := BitVec.ofNat 64 (addr l) } : SpawnRec)
          let accs := (ps.filter fun p => addr p.1 != 0).map fun p => newAccess p.1 p.2.1 (addr p.1) 4 (leBytes 4 1) [] lbl p.2.2
          let accs := if accs.isEmpty then [noAccess c.low] else accs
          let s := submit { s with issued := s.issued + 1 } c .spawnAdd .rel .die .dflt none (operandLabels s c (.spawn h entry a b)) (labelOf s c b 2) accs recs
          .ok (advance s c true)

/-- SPFL (R168, R330). -/
def execSpfl (h : Ctl) (s : State) : Host.Outcome State Fault Refusal :=
  runWord (.spfl h) s fun c => .ok ((slotsOf s c.core).foldl (fun s e => sealSlot s e.1) s)

/-- SPAWN_SLOT_SEAL (R168): 32 records, 512 clocks without a new one, or 1,536 records in the queue. -/
def execSpawnSlotSeal (core slot : Nat) (s : State) : Host.Outcome State Fault Refusal :=
  let k := core * 8 + slot % 8
  match mget? s.gatherSlots k with
  | none => .next s
  | some g => if g.due s.clock (queueLength s core) then .next (sealSlot s k) else .next s

/-- SPAWN_OVERFLOW_RETURN (R171): the first record of a core in the overflow lists of its die goes back to its queue. -/
def execSpawnOverflowReturn (core : Nat) (s : State) : Host.Outcome State Fault Refusal := .next (returnRecord s core)

/-! ## Spilling (R160, R173) -/

/-- A partition places waves: it is running, or draining and not yet pre-empted (R212). -/
def places (s : State) (part : Nat) : Bool :=
  match mget? s.parts part with
  | none => false
  | some p => p.state == .running || (p.state == .draining && !p.preempt)

/-- A split asleep in JOIN. -/
def inJoin (s : State) (w : Wave) (sp : Split) : Bool :=
  sp.state == .sleeping && (match nextInstr s w sp with
    | some (_, .join ..) => true
    | _ => false)

/-- The instruction that a split stands at, with the state in which it would issue it. -/
def standing (s : State) (w : Wave) (k : Nat) : Option (State × Instr) :=
  let sp := w.split k
  match nextInstr s w sp, fetchWord s w sp.pc.hdr.toNat with
  | some (_, i), .ok hdr =>
    some (setCursor (putWave s ({ w with place := .resident }.setSplit k { sp with state := .ready })) w k sp.pc hdr, i)
  | _, _ => none

/-- Whether a wave executes the instruction that a split stands at (R47). -/
def executes (s : State) (w : Wave) (sp : Split) (i : Instr) : Bool :=
  match fetchWord s w sp.pc.hdr.toNat, mget? s.launches w.launch with
  | .ok hdr, some l => treat l.draw.isSome w.rate i sp.pc hdr == .execute
  | _, _ => false

/-- A split held at a SPAWN (R171): its wave executes the SPAWN, its records do not fit, and the SPAWN would do nothing. -/
def heldSpawn (s : State) (w : Wave) (k : Nat) : Bool :=
  let sp := w.split k
  sp.state == .ready && sp.begun && (match standing s w k with
    | some (t, .spawn h entry a b) =>
      executes s w sp (.spawn h entry a b) && (match issuerOf (.spawn h entry a b) t with
        | some c => !spawnFits t c.core w.launch (lanesOf c.act).length
        | none => false) && (match execSpawn h entry a b t with
        | .next t' => t' == t
        | _ => false)
    | _ => false)

/-- Every split of a wave is asleep or at join (R160). -/
def asleep (w : Wave) : Bool := !w.splits.isEmpty && w.splits.all fun e => e.2.state == .sleeping || e.2.state == .atJoin

/-- Every split of a wave is asleep, at join, or held at a SPAWN. -/
def descheduled (s : State) (w : Wave) : Bool :=
  !w.splits.isEmpty && w.splits.all fun e => e.2.state == .sleeping || e.2.state == .atJoin || heldSpawn s w e.1

/-- A wave that is descheduled may be a victim: it is resident and not stopped. -/
def mayLeave (w : Wave) : Bool := w.place == .resident && w.stop.isNone

/-- A wave's footprint can be copied away: nothing long-latency is outstanding, and no copy writes its bench or its own scratchpad. -/
def canGo (s : State) (w : Wave) : Bool := w.long.isEmpty && !copyTo s w.id true && (w.scrSize == 0 || !copyTo s w.id false)

/-- A wave leaves its quadrant for its context area with its footprint, its own scratchpad too; registrations stay (R160). (DEDUCED: log 29) -/
def spillWave (s : State) (w : Wave) : State :=
  let w := { w with place := .spilled, cycles := w.cycles + (s.clock - w.placedAt) }
  let s := writeArea (putWave s w) w
  match (if w.cluster.isNone && w.scrSize != 0 then mget? s.parts w.part else none) with
  | some p => sendAway s p false w.id (coreOf w.quad) w.scrBase w.scrSize
  | none => s

/-- The saved scratchpad of a spilled wave. -/
def awayOf (s : State) (wid : Nat) : Option SavedScr := s.savedScr.find? fun r => !r.cluster && r.owner == wid

/-- Where a spilled wave's scratchpad goes on its core: none when it does not fit, granule 0 when it has none. -/
def rangeAgain (s : State) (p : Partition) (w : Wave) : Option Nat :=
  match awayOf s w.id with
  | none => some 0
  | some r => findRun (spaceSize p (coreOf w.quad)) (rangesTaken s w.part (coreOf w.quad)) r.count

/-- Whether a wave fits again on the quadrant that it left. -/
def fitsAgain (s : State) (w : Wave) : Bool :=
  match mget? s.launches w.launch, mget? s.parts w.part with
  | some l, some p => mayUse s p l.id w.quad && (roomOf s w.quad).takes (waveEntry s w) 1 && decide (max 1 w.splits.length ≤ (roomOf s w.quad).bufs) &&
      (rangeAgain s p w).isSome
  | _, _ => false

/-- A spilled wave placed again on its quadrant, its scratchpad on its core (R160, R334). -/
def returnWave (s : State) (w : Wave) : State :=
  let back := fun s : State => { s with waves := mmodify s.waves w.id fun w => { w with place := .resident, slot := freeSlot s w.quad, placedAt := s.clock } }
  match mget? s.parts w.part, awayOf s w.id with
  | some p, some r => (match rangeAgain s p w with
    | none => s
    | some f => back (loadRange { s with savedScr := s.savedScr.filter fun x => x != r } p (r, coreOf w.quad, f)))
  | _, _ => back s

/-- WAVE_SPILL (R160): an asleep wave may be spilled. -/
def execWaveSpill (wave : Nat) (s : State) : Host.Outcome State Fault Refusal :=
  match mget? s.waves wave with
  | none => .next s
  | some w => if asleep w && w.pendingWake.isEmpty && mayLeave w && canGo s w then .next (spillWave s w) else .next s

/-- WAVE_REPLACE (R160, R173): a spilled wave returns on a wake, or, a held spawner, when its records fit, while its partition places waves (R212). -/
def execWaveReplace (wave : Nat) (s : State) : Host.Outcome State Fault Refusal :=
  match mget? s.waves wave with
  | none => .next s
  | some w =>
    if places s w.part && w.place == .spilled && (!w.pendingWake.isEmpty || !descheduled s w) && fitsAgain s w then .next (returnWave s w) else .next s

/-- The victims of R173 on a die, of a partition, in order. (DEDUCED: log 45) -/
def victims (s : State) (part die : Nat) : List Nat :=
  let ws := (s.waves.filter fun e => e.2.part == part && dieOfQuadrant e.2.quad == die && mayLeave e.2 && descheduled s e.2).map fun e => e.2
  let youngest := fun (l : List Wave) => (sortBy (fun w : Wave => w.age * 16 + (15 - w.slot % 16)) l).reverse
  let joins := ws.filter fun w => asleep w && w.splits.any fun e => inJoin s w e.2
  let held := ws.filter fun w => w.splits.any fun e => heldSpawn s w e.1
  ((youngest joins) ++ youngest held).map fun w => w.id

/-! ## Task waves (R166, R169, R170) -/

/-- Where a task or trap wave looks for a quadrant: the core, the rest of its quad, the rest of the die. -/
def searchOrder (core : Nat) : List Nat :=
  let die := dieOfCore core
  let quad := quadOf core
  let own := (List.range 4).map fun q => core * 4 + q
  let near := ((List.range 4).map fun i => quad * 4 + i).filter fun c => c != core
  let far := ((List.range 48).map fun i => die * 48 + i).filter fun c => quadOf c != quad
  own ++ (near ++ far).flatMap fun c => (List.range 4).map fun q => c * 4 + q

/-- The first quadrant where a wave of an entry fits from a core outward; it may use the reserve. -/
def findTaskQuad (s : State) (part lid entry core : Nat) : Option Nat :=
  match mget? s.launches lid, mget? s.parts part with
  | some l, some p => (match entryOf s l entry with
    | none => none
    | some (_, e) => (searchOrder core).find? fun q => fitsOn s p l e q true)
  | _, _ => none

/-- A task wave of a sealed slot (R169). (DEDUCED: log 45) -/
def taskWave (e : EntryPt) (g : GatherSlot) : Wave :=
  let mask := maskOf fun i => decide (i < g.recs.length)
  let w := { Wave.blank with launch := g.launch, part := g.part, role := .task, rate := .fine, entry := g.entry, depth := g.depth, lanes := mask }
  let w := g.recs.zipIdx.foldl (fun (w : Wave) (r : SpawnRec × Nat) =>
    let w := setStart w e.vregs r.2 (r.1.pay ++ [BitVec.ofNat 32 g.depth])
    { w with joinAddrs := if r.1.joinAddr = 0 then w.joinAddrs else mset w.joinAddrs r.2 r.1.joinAddr }) w
  let w := setScalars w e.scalars [BitVec.ofNat 32 g.recs.length]
  labelAll w e g.label

/-- A sealed slot placed on a quadrant: the slot is freed, the wave begins with an acquire at `.die` (R166). -/
def placeTask (s : State) (k : Nat) (g : GatherSlot) (quad : Nat) : State :=
  match mget? s.launches g.launch, mget? s.parts g.part with
  | some l, some p => (match entryOf s l g.entry with
    | none => s
    | some (_, e) =>
      let w := taskWave e g
      let w := { w with splits := [(0, startSplit s l e w.lanes g.label)] }
      let s := acquire (placeOwn s p w quad) (coreOf quad) .die
      feedSlots { s with gatherSlots := merase s.gatherSlots k } (k / 8))
  | _, _ => s

/-- The first sealed slot of each partition on a die, in sealing order. (DEDUCED: log 45) -/
def sealedHeads (s : State) (die : Nat) : List (Nat × GatherSlot) :=
  let all := sortBy (fun e : Nat × GatherSlot => e.2.order) (s.gatherSlots.filter fun e => e.2.isSealed && dieOfCore (e.1 / 8) == die)
  all.foldl (fun acc e => if acc.any fun x => x.2.part == e.2.part then acc else acc ++ [e]) []

/-- Spill victims one at a time until a wave of an entry fits somewhere on the die; a victim whose work is outstanding is waited for. -/
def makeRoom (s : State) (part lid entry core : Nat) : List Nat → State × Option Nat
  | [] => (s, findTaskQuad s part lid entry core)
  | v :: vs => match findTaskQuad s part lid entry core with
    | some q => (s, some q)
    | none => (match mget? s.waves v with
      | none => makeRoom s part lid entry core vs
      | some w => if canGo s w then makeRoom (spillWave s w) part lid entry core vs else (s, none))

/-- TASK_WAVE_PLACE (R170, R173): the first sealed slot of a partition on a die that can be placed, after victims if need be. -/
def execTaskWavePlace (die : Nat) (s : State) : Host.Outcome State Fault Refusal :=
  let heads := (sealedHeads s die).filter fun e => places s e.2.part
  match heads.find? fun e => (findTaskQuad s e.2.part e.2.launch e.2.entry (e.1 / 8)).isSome with
  | some (k, g) => (match findTaskQuad s g.part g.launch g.entry (k / 8) with
    | some q => .next (placeTask s k g q)
    | none => .next s)
  | none => match heads.find? fun e => !(victims s e.2.part die).isEmpty with
    | none => .next s
    | some (k, g) => match makeRoom s g.part g.launch g.entry (k / 8) (victims s g.part die) with
      | (s, some q) => .next (placeTask s k g q)
      | (s, none) => .next s

/-! ## Spawn deadlock (R424) -/

/-- The waves of a launch on a die. -/
def dieWaves (s : State) (lid die : Nat) : List Wave :=
  (s.waves.filter fun e => e.2.launch == lid && e.2.place != .ended && dieOfQuadrant e.2.quad == die).map fun e => e.2

/-- Every wave of a launch on a die is asleep in JOIN, held at SPAWN or at join; nothing of theirs is outstanding, none is woken, and a sealed task wave of the launch has found no place and no victim. -/
def deadNow (s : State) (lid die : Nat) : Bool :=
  let ws := dieWaves s lid die
  !ws.isEmpty && ws.all (fun w =>
    !w.splits.isEmpty && w.long.isEmpty && w.pendingWake.isEmpty && w.stop.isNone &&
    (w.splits.all fun e => inJoin s w e.2 || e.2.state == .atJoin || heldSpawn s w e.1)) &&
  s.copies.all (fun e => e.2.done || e.2.launch != lid || dieOfCore e.2.core != die) && s.rays.all (fun e => e.2.launch != lid || e.2.die != die) &&
  (sealedHeads s die).any fun e => e.2.launch == lid && (findTaskQuad s e.2.part lid e.2.entry (e.1 / 8)).isNone && (victims s e.2.part die).isEmpty

/-- The last clock at which a split of a launch's waves on a die issued. -/
def lastIssue (s : State) (lid die : Nat) : Nat := (dieWaves s lid die).foldl (fun n w => w.splits.foldl (fun n e => max n e.2.readySince) n) 0

/-- The labels of the operands of the instruction at which a split stands. -/
def standingLabels (s : State) (w : Wave) (k : Nat) : Label :=
  match standing s w k with
  | some (t, i) => (match issuerOf i t with
    | some c => operandLabels t c i
    | none => 0)
  | none => 0

/-- The youngest of some waves. -/
def youngestOf (l : List Wave) : Option Wave := (sortBy (fun w : Wave => w.age * 16 + (15 - w.slot % 16)) l).reverse.head?

/-- SPAWN_DEADLOCK (R424): the first check that finds the state notes the clock; when it has held for 10 microseconds the record is written, for the youngest wave held at SPAWN, else the youngest JOIN waiter. -/
def execSpawnDeadlock (lid die : Nat) (s : State) : Host.Outcome State Fault Refusal :=
  match mget? s.launches lid with
  | none => .next s
  | some l =>
    if !deadNow s lid die then .next { s with launches := mset s.launches lid { l with deadSince := merase l.deadSince die } }
    else match mget? l.deadSince die with
      | none => .next { s with launches := mset s.launches lid { l with deadSince := mset l.deadSince die s.clock } }
      | some t =>
        if s.clock < max t (lastIssue s lid die) + 10 * Config.clocksPerMicrosecond then .next s
        else
          let ws := dieWaves s lid die
          let held := ws.filter fun w => w.splits.any fun e => heldSpawn s w e.1
          match (youngestOf held).orElse fun _ => youngestOf (ws.filter fun w => w.splits.any fun e => inJoin s w e.2) with
          | none => .next { s with launches := mset s.launches lid { l with deadSince := merase l.deadSince die } }
          | some w =>
            let k := ((w.splits.find? fun e => heldSpawn s w e.1).orElse fun _ => w.splits.find? fun e => inJoin s w e.2).map fun e => e.1
            match k with
            | none => .next s
            | some k =>
              let t := { s with launches := mset s.launches lid { l with deadSince := merase l.deadSince die } }
              .next (takeFault t w k (w.split k).pc w.rate.num ⟨0x0C, die, 0, (w.split k).mask, 0, standingLabels s w k⟩)

end Sys2Proof.Machine
end

