-- ==== Sys2Proof/Machine/Draw.lean ====
section
/-! DEFINITION. Group 0xC for elements: HFREE, IPA, EMITV, EMITP, OUTS, KILL, and the output unit at the end of a draw (R53, R59, R68, R71, R72, R346 to R350, R355, R356, R367, R405, R406, R432). -/
namespace Sys2Proof.Machine

/-! ## HFREE and IPA -/

/-- HFREE (R59, R347). -/
def execHfree (h : Ctl) (a : Opr) (s : State) : Host.Outcome State Fault Refusal :=
  runWord (.hfree h a) s fun c =>
    match a with
    | .h n => (match sectionOf c.ent n.val with
      | none => .ok s
      | some (_, k) => .ok ((lanesOf c.act).foldl (fun s l => match mget? c.w.elems l with
        | none => s
        | some id => freeSection s id k) s))
    | _ => .ok s

/-- The interpolation of R53. -/
def interpolate (v : IpaV) (lam cs as : List Word) : Word :=
  let l := fun i => nthD lam i 0
  let c := fun i => nthD cs i 0
  let a := fun i => nthD as i 0
  match v with
  | .flat => a 0
  | _ =>
    let q := fun i => if v = .lin then l i else fmul2 (l i) (c i)
    let s := fadd2 (fadd2 (q 0) (q 1)) (q 2)
    let t := fdiv2 (fint 1) s
    let b1 := fmul2 (q 1) t
    let b2 := fmul2 (q 2) t
    let d1 := fsub2 (a 1) (a 0)
    let d2 := fsub2 (a 2) (a 0)
    fma3 b2 d2 (fma3 b1 d1 (a 0))

/-- The interpolation parents of a lane's element. -/
def parentsOf (s : State) (c : Ctx) (l : Nat) : List Elem :=
  match ownElem s c l with
  | none => []
  | some e => e.interp.filterMap fun id => mget? s.elems id

/-- IPA (R53, R348). -/
def execIpa (h : Ctl) (v : IpaV) (d a : Opr) (s : State) : Host.Outcome State Fault Refusal :=
  runWord (.ipa h v d a) s fun c =>
    match a with
    | .h n =>
      let held := fun l => (parentsOf s c l).map fun e => heldIn c.ent e n.val
      let lbl := (lanesOf c.act).foldl (fun acc l => (held l).foldl (fun acc x => acc ||| x.2) acc) c.ctx
      let val := fun l =>
        let cs := (parentsOf s c l).map fun e => (match e.vert with | some x => x.c | none => 0)
        let lam := match ownElem s c l with | some e => e.lam | none => []
        interpolate v lam cs ((held l).map fun x => x.1)
      .ok (writeDst s c d 1 (fun l => [val l]) lbl)
    | _ => .ok s

/-! ## EMITV, EMITP, KILL -/

/-- What a CLUSTER lane has emitted. -/
def emitOf (w : Wave) (l : Nat) : Emit := mgetD w.emit l ⟨0, []⟩

/-- A lane's emitted lists changed, to be undone with its region (R350). -/
def setEmit (w : Wave) (k l : Nat) (e : Emit) : Wave :=
  pushUndo { w with emit := mset w.emit l e } k (.emit l (emitOf w l))

/-- EMITV (R349): more than 128 vertices are an illegal use. -/
def execEmitv (h : Ctl) (a : Opr) (s : State) : Host.Outcome State Fault Refusal :=
  runWord (.emitv h a) s fun c =>
    let w := theWave s c
    let bad := maskOf fun l => bit c.act l && decide (128 < (emitOf w l).verts + src s c a l)
    if bad ≠ 0 then .error (reasonFault bad 7 (labelOf s c a 1))
    else .ok (putWave s ((lanesOf c.act).foldl (fun w l => setEmit w c.k l { emitOf w l with verts := (emitOf w l).verts + src s c a l }) w))

/-- EMITP (R350): a value with another bit set, or a 129th triangle, is an illegal use. -/
def execEmitp (h : Ctl) (a : Opr) (s : State) : Host.Outcome State Fault Refusal :=
  runWord (.emitp h a) s fun c =>
    let w := theWave s c
    let wrong := maskOf fun l => bit c.act l && (readReg s c a 0 l) &&& (~~~(0x007F7F7F : Word)) != 0
    let many := maskOf fun l => bit c.act l && decide (128 ≤ (emitOf w l).tris.length)
    if wrong ≠ 0 then .error (operandFault wrong 1 a.code (labelOf s c a 1))
    else if many ≠ 0 then .error (reasonFault many 7 (labelOf s c a 1))
    else .ok (putWave s ((lanesOf c.act).foldl (fun w l => setEmit w c.k l { emitOf w l with tris := (emitOf w l).tris ++ [readReg s c a 0 l] }) w))

/-- KILL (R356): a discarded region's marks are undone (R37). -/
def execKill (h : Ctl) (s : State) : Host.Outcome State Fault Refusal :=
  runWord (.kill h) s fun c =>
    let w := theWave s c
    .ok (putWave s (pushUndo { w with killed := w.killed ||| c.act } c.k (.kill w.killed)))

/-! ## Targets (R355, R406) -/

/-- Bytes at a place as its page gives them. -/
def readPlace (s : State) (x : Loc × PageAttr) (n : Nat) : List Byte := pageBytes s x.1 n x.2.keyId

/-- A target plat's record, if it can be read and keeps R311: rank and formats of R355. -/
def targetPlat (s : State) (part : Nat) (addr : DWord) (rank : Nat) (formats : List Nat) : Option Plat :=
  if addr = 0 ∨ addr.toNat % 64 ≠ 0 then none
  else match engineAt s part addr .read with
    | .error _ => none
    | .ok l =>
      let p : Plat := ⟨leNat (readPlace s l 64)⟩
      if p.ok && p.rank == rank && p.format ∈ formats then some p else none

/-- A colour target's plat. -/
def colourPlat (s : State) (part : Nat) (d : Draw) (n : Nat) : Option Plat :=
  match targetPlat s part (nthD d.targets n 0) 4 [0, 1, 2, 8] with
  | none => none
  | some p => if p.dim 0 ≤ 3 then some p else none

/-- A place of this module that a target element may be written at. (DESIGN CHOICE: log 31) -/
def targetPlace (s : State) (part : Nat) (va : DWord) (need : Need) : Option (Loc × PageAttr) :=
  match translateNow s part va.toNat need with
  | .ok (.dev pa, leaf) => if isPoisoned s (.dev pa) then none else some (.dev pa, leaf.page)
  | _ => none

/-- A place that the visibility buffer is read or written at: of any home; a read finds no poison (R68, R69, R417). (DESIGN CHOICE: log 31) -/
def visPlace (s : State) (part : Nat) (va : DWord) (need : Need) : Option (Loc × PageAttr) :=
  match translateNow s part va.toNat need with
  | .ok (l, leaf) => if need == .read && poisonHit s l then none else some (l, leaf.page)
  | .error _ => none

/-- Whether a read or write at an address waits for the path to its home (R440). -/
def homeAway (s : State) (part : Nat) (va : DWord) (need : Need) : Bool :=
  match translateNow s part va.toNat need with
  | .ok (l, _) => !hostReady s l
  | .error _ => false

/-- Whether the read of a target's plat record waits for the path to its home (R440). -/
def platAway (s : State) (part : Nat) (addr : DWord) : Bool := addr != 0 && homeAway s part addr .read

/-- The elements of a colour target at a sample: channel and place of each that takes a write. -/
def colourPlaces (s : State) (part : Nat) (p : Plat) (x y sm : Nat) : List (Nat × Loc × PageAttr) :=
  (List.range (p.dim 0 + 1)).filterMap fun (ch : Nat) => match p.element [((ch : Nat) : Int), (sm : Int), (x : Int), (y : Int), 0] with
    | none => none
    | some (va, _) => (targetPlace s part va .write).map fun l => (ch, l)

/-- The address of a pixel's entry of a visibility buffer (R68). -/
def visAddr (base : DWord) (d : Draw) (x y : Nat) : DWord := base + BitVec.ofNat 64 (16 * (y * d.width + x))

/-- The samples that an element writes: its own, or every covered sample of a coarse pixel (R72). -/
def Elem.samples (e : Elem) : List (Nat × Nat × Nat) := if e.rate = .coarse then e.cover else [(e.px, e.py, e.sample)]

/-- The number of a target (R355). -/
def OutT.num : OutT → Nat
  | .colour n => n.val
  | .vis => 7

/-- The places whose frames OUTS checks. -/
def outPlaces (s : State) (part : Nat) (d : Draw) (t : OutT) (e : Elem) : List Loc := List.map Prod.fst <|
  match t with
  | .vis => if d.visCur = 0 then [] else (e.samples.filter fun x => x.2.2 == 0).filterMap fun x => visPlace s part (visAddr d.visCur d x.1 x.2.1) .write
  | .colour n => (match colourPlat s part d n.val with
    | none => []
    | some p => e.samples.flatMap fun x => (colourPlaces s part p x.1 x.2.1 x.2.2).map fun y => y.2)

/-- The plat record that OUTS to a target reads. -/
def OutT.plat (d : Draw) : OutT → DWord
  | .colour n => nthD d.targets n.val 0
  | .vis => 0

/-- OUTS (R355, R432): each element's value and label for the target, checked against the frames of its samples. It holds while its target's plat cannot be read (R440). -/
def execOuts (h : Ctl) (t : OutT) (a : Opr) (s : State) : Host.Outcome State Fault Refusal :=
  runWord (.outs h t a) s fun c =>
    let e := labelOf s c a 4 ||| c.ctx
    match c.launch.draw with
    | none => .ok s
    | some d =>
      if platAway s c.w.part (OutT.plat d t) then .error .hold
      else
      let bad := fun l => match ownElem s c l with
        | none => none
        | some el => (outPlaces s c.w.part d t el).find? fun x => !engineMay s c.w.part e x 1
      let ts := (lanesOf c.act).map fun l => (l, match bad l with
        | some x => Target.bad 7 e.toNat x.addr
        | none => .at (.dev 0) PageAttr.plain)
      match stage4 c ts 0 (labelOf s c a 4) with
      | .error x => .error x
      | .ok _ =>
        .ok ((lanesOf c.act).foldl (fun s l => match mget? c.w.elems l with
          | none => s
          | some id => { s with elems := mmodify s.elems id fun el =>
              { el with outs := mset el.outs (OutT.num t) (srcs s c a 4 l), outLabels := mset el.outLabels (OutT.num t) e,
                        outCtx := el.outCtx ||| c.ctx } }) s)

/-! ## The output unit (R68, R71, R72, R367) -/

/-- The cluster of a COARSE or SAMPLE element. -/
def clusterOf (s : State) (e : Elem) : Option Elem :=
  let up := fun x : Elem => x.parent.bind fun p => mget? s.elems p
  if e.rate = .coarse then up e else (up e).bind up

/-- The primitive key (R71) as one number. -/
def primKey (s : State) (e : Elem) : Nat :=
  match clusterOf s e with
  | none => 0
  | some k =>
    let obj := match k.parent.bind fun p => mget? s.elems p with
      | some o => o.index
      | none => 0
    ((obj * 65536 + k.index) * 128 + e.tri) * 2 + (if e.rate = .coarse then 0 else 1)

/-- A sample's number within a frame. -/
def sampleKey (d : Draw) (x y sm : Nat) : Nat := (y * d.width + x) * 4 + sm

/-- The place of a sample in the depth target. -/
def depthPlace (s : State) (part : Nat) (p : Plat) (x y sm : Nat) (need : Need) : Option (Loc × PageAttr) :=
  match p.element [(sm : Int), x, y, 0, 0] with
  | none => none
  | some (va, _) => targetPlace s part va need

/-- The depth target at draw start: a value for every sample that has one (R72). -/
def depthStart (s : State) (part : Nat) (d : Draw) : Map Word :=
  match targetPlat s part d.depthT 3 [0] with
  | none => []
  | some p =>
    ((List.range d.height).flatMap fun (y : Nat) => (List.range d.width).flatMap fun (x : Nat) => (List.range d.samples).map fun (sm : Nat) => (y, x, sm)).foldl
      (fun (m : Map Word) (q : Nat × Nat × Nat) =>
        match depthPlace s part p q.2.1 q.1 q.2.2 .read with
        | none => m
        | some l => mset m (sampleKey d q.2.1 q.1 q.2.2) (BitVec.ofNat 32 (leNat (readPlace s l 4)))) []

/-- What the loop of R72 holds for a sample: the depth, the values by target, and the element whose outputs took effect last. -/
structure SampleOut where
  depth : Word
  vals : Map (List Word × Label)
  last : Option Elem
  deriving DecidableEq, Repr

/-- One element of the loop of R72. -/
def sampleStep (d : Draw) (o : SampleOut) (e : Elem) : SampleOut :=
  if e.killed || e.outs.isEmpty then o
  else if depthPass d.depthCmp e.z o.depth then
    { depth := e.z, vals := e.outs.foldl (fun m t => mset m t.1 (t.2, mgetD e.outLabels t.1 0)) o.vals, last := some e }
  else o

/-- The depth with which a sample without a depth target starts. -/
def noDepth (cmp : Nat) : Word := if cmp ≤ 1 then 0x7F800000 else 0xFF800000

/-- The bytes of a colour value in a target's format (R355). -/
def colourBytes (format : Nat) (v : Word) : List Byte :=
  if format = 8 then
    let x := fval v
    let one : Num := .fin false 1 0
    let n := if x.isNan then 0
      else if x.compare (.fin false 0 0) == .lt then 0
      else if x.compare one == .gt then 255
      else (roundInt (x.mul (.fin false 255 0))).toNat
    [BitVec.ofNat 8 n]
  else
    let f := if format = 0 then f32 else if format = 1 then f16 else bf16
    leBytes (elemBits format / 8) (f.convert .rne false 0 (fval v))

/-- A write of the output unit: its place, bytes and label. -/
structure OutWrite where
  at' : Loc × PageAttr
  bytes : List Byte
  label : Label
  deriving DecidableEq, Repr

/-- A write of the output unit is made: one that breaks the subset rule is not, nor one to a host whose link has failed (R432, R441). (DESIGN CHOICE: log 31) -/
def outWrite (part : Nat) (s : State) (x : OutWrite) : State :=
  if engineMay s part x.label x.at'.1 x.bytes.length then (UnitWrite.mk part (dieOf x.at'.1.addr) x.at'.1 x.at'.2 x.bytes).apply s else s

/-- Whether a write of the output unit waits: for a serial-mode transaction's lock (R157), or for the host path (R440). -/
def OutWrite.waits (s : State) (x : OutWrite) : Bool := lineHeld s x.at'.1 || !hostReady s x.at'.1

/-- The outputs of one sample: colour targets and the depth target. -/
def sampleWrites (s : State) (part : Nat) (d : Draw) (x y sm : Nat) (o : SampleOut) : List OutWrite :=
  (o.vals.flatMap fun t =>
    if t.1 = 7 then []
    else match colourPlat s part d t.1 with
      | none => []
      | some p => (colourPlaces s part p x y sm).map fun c => ⟨c.2, colourBytes p.format (nthD t.2.1 c.1 0), t.2.2⟩) ++
  (match o.last with
  | none => []
  | some e =>
    if (mget? d.depth0 (sampleKey d x y sm)).isNone then []
    else match targetPlat s part d.depthT 3 [0] with
      | none => []
      | some p => match depthPlace s part p x y sm .write with
        | none => []
        | some l => [⟨l, leBytes 4 o.depth.toNat, e.ctx0 ||| e.outCtx⟩])

/-- An entry of the visibility buffer (R68, R367). (DESIGN CHOICE: log 31) -/
def visEntry (s : State) (o : SampleOut) : List Byte × Label :=
  match o.last with
  | none => (List.replicate 16 0, 0)
  | some e =>
    let k := primKey s e / 2
    let mv := match mget? e.outs 7 with
      | some ws => ws
      | none => []
    let h := fun i => match mget? e.outs 7 with
      | some _ => f16.convert .rne false 0 (fval (nthD mv i 0))
      | none => 0
    let lo := 1 + k % 128 * 2 ^ 16 + k / 128 % 65536 * 2 ^ 24 + k / 2 ^ 23 % 2 ^ 24 * 2 ^ 40
    let hi := h 0 + h 1 * 2 ^ 16 + o.depth.toNat * 2 ^ 32
    (leBytes 8 lo ++ leBytes 8 hi, e.ctx0 ||| e.outCtx ||| mgetD e.outLabels 7 0)

/-- What the output unit writes at the end of a draw: every sample's outputs, and every entry of VISCUR (R72, R367). (DESIGN CHOICE: log 31) -/
def drawWrites (s : State) (l : Launch) (d : Draw) : List OutWrite :=
  let es := (s.elems.filter fun e => e.2.launch == l.id && (e.2.rate == .coarse || e.2.rate == .fine) && !e.2.outs.isEmpty && !e.2.killed).map fun e => e.2
  let es := sortBy (primKey s) es
  let result := fun (x y sm : Nat) =>
    (es.filter fun e => (x, y, sm) ∈ e.samples).foldl (sampleStep d) ⟨mgetD d.depth0 (sampleKey d x y sm) (noDepth d.depthCmp), [], none⟩
  let touched := dedup (es.flatMap fun e => e.samples)
  let vis := if d.visCur = 0 then [] else
    (List.range d.height).flatMap fun y => (List.range d.width).filterMap fun x =>
      (visPlace s l.part (visAddr d.visCur d x y) .write).map fun p =>
        let v := visEntry s (result x y 0)
        (⟨p, v.1, v.2⟩ : OutWrite)
  (touched.flatMap fun x => sampleWrites s l.part d x.1 x.2.1 x.2.2 (result x.1 x.2.1 x.2.2)) ++ vis

/-- Whether the end of a draw waits: for a target's plat record, or for the home of a write (R157, R440). -/
def outputsWait (s : State) (l : Launch) (d : Draw) : Bool :=
  platAway s l.part d.depthT || d.targets.any (platAway s l.part) || (drawWrites s l d).any (OutWrite.waits s)

/-- The end of a draw: the output unit's writes. -/
def drawOutputs (s : State) (l : Launch) (d : Draw) : State := (drawWrites s l d).foldl (outWrite l.part) s

end Sys2Proof.Machine
end

