-- ==== Sys2Proof/Machine/Texture.lean ====
section
/-! DEFINITION. TEX and TLD: texture records, filtering, and the texture engine's reads (R80, R81, R122, R351, R406, R411, R417). -/
namespace Sys2Proof.Machine

/-! ## Texture records (R80) -/

/-- A 64-B texture record as a number. -/
structure TexRec where
  raw : Nat
  deriving DecidableEq, Repr

def TexRec.base (r : TexRec) : Nat := bits r.raw 63 0
def TexRec.width (r : TexRec) : Nat := bits r.raw 79 64 + 1
def TexRec.height (r : TexRec) : Nat := bits r.raw 95 80 + 1
def TexRec.levels (r : TexRec) : Nat := bits r.raw 100 96 + 1
def TexRec.format (r : TexRec) : Nat := bits r.raw 103 101
def TexRec.modeU (r : TexRec) : Nat := bits r.raw 107 106
def TexRec.modeV (r : TexRec) : Nat := bits r.raw 109 108
/-- Channels of a texel. -/
def TexRec.channels (r : TexRec) : Nat := 2 ^ bits r.raw 105 104
/-- A border value. -/
def TexRec.border (r : TexRec) (ch : Nat) : Num := f32.value (r.raw / 2 ^ (384 + 32 * ch) % 2 ^ 32)

/-- A record without a reserved value, with a nonzero field only where one is defined, of 1 to 17 levels (R80) and an aligned base (R406). (DEDUCED: log 62) -/
def TexRec.ok (r : TexRec) : Bool :=
  r.modeU != 3 && r.modeV != 3 && bits r.raw 105 104 != 3 && decide (r.format < 4) && bits r.raw 383 110 == 0 && r.base % 128 == 0 &&
    decide (r.levels ≤ 17)

/-- Bytes of a channel. -/
def TexRec.size (r : TexRec) : Nat := if r.format = 0 then 4 else if r.format = 3 then 1 else 2

/-- Width and height of a level. -/
def TexRec.dims (r : TexRec) (l : Nat) : Nat × Nat := (max 1 (r.width / 2 ^ l), max 1 (r.height / 2 ^ l))

/-- The row pitch of a level. -/
def TexRec.pitch (r : TexRec) (l : Nat) : Nat := ((r.dims l).1 * (r.channels * r.size) + 15) / 16 * 16

/-- The offset of a level from the base. -/
def TexRec.offset (r : TexRec) (l : Nat) : Nat :=
  (List.range l).foldl (fun n k => n + (r.pitch k * (r.dims k).2 + 127) / 128 * 128) 0

/-- A coordinate under an address mode; nothing outside a border. -/
def texWrap (mode : Nat) (i : Int) (n : Nat) : Option Nat :=
  if mode = 0 then some (i % (n : Int)).toNat
  else if mode = 1 then some (min (max i 0) ((n : Int) - 1)).toNat
  else if 0 ≤ i ∧ i < n then some i.toNat else none

/-- A texel: its level and its coordinates before the address modes. -/
structure Texel where
  level : Nat
  i : Int
  j : Int
  deriving DecidableEq, Repr

/-- The address of a texel, or none for a border texel. -/
def TexRec.addr (r : TexRec) (t : Texel) : Option DWord :=
  match texWrap r.modeU t.i (r.dims t.level).1, texWrap r.modeV t.j (r.dims t.level).2 with
  | some i, some j => some (BitVec.ofNat 64 (r.base + r.offset t.level + j * r.pitch t.level + i * (r.channels * r.size)))
  | _, _ => none

/-- A channel's stored pattern as a value; n8 is n/255 rounded to f32. -/
def TexRec.decode (r : TexRec) (v : Nat) : Num :=
  if r.format = 0 then f32.value v else if r.format = 1 then f16.value v else if r.format = 2 then bf16.value v
  else f32.value (divBits .rne (Num.ofInt (v : Int)) (Num.ofInt 255))

/-! ## Coordinates and weights (R81) -/

/-- A coordinate in texels: fma(c, n, -0.5) in f32, within 2^24 of zero. -/
def texCoord (c : Word) (n : Nat) : Num :=
  let v := if (fval c).isNan then Num.ofInt 0 else fval c
  let x := fval (fword (Num.add .rne (v.mul (Num.ofInt (n : Int))) (.fin true 1 (-1))))
  let lim : Num := .fin false 1 24
  if Num.compare x lim = .gt then lim else if Num.compare x lim.neg = .lt then lim.neg else x

/-- The index and the weight in 256ths of a value, the carry applied. -/
def texSplit (x : Num) : Int × Nat :=
  let i := floorInt x
  let w := roundInt ((Num.add .rne x (Num.ofInt i).neg).scale 8)
  if w = 256 then (i + 1, 0) else (i, w.toNat)

/-- a + (b - a) w / 256, exact and rounded once. -/
def texLerp (a b : Num) (w : Nat) : Num :=
  if a.isNan || b.isNan then .nan
  else fval (fword (Num.add .rne a (((Num.add .rne b a.neg).mul (Num.ofInt (w : Int))).scale (-8))))

/-- The level of detail within the record's levels: the lower level and the weight of the next. -/
def TexRec.lod (r : TexRec) (lod : Word) : Nat × Nat :=
  let v := if (fval lod).isNan then Num.ofInt 0 else fval lod
  let top := Num.ofInt ((r.levels - 1 : Nat) : Int)
  let v := if Num.compare v (Num.ofInt 0) = .lt then Num.ofInt 0 else if Num.compare v top = .gt then top else v
  let x := texSplit v
  (x.1.toNat, x.2)

/-- The levels that a filter reads. -/
def TexRec.levelsFor (r : TexRec) (f : TexV) (lod : Word) : List Nat :=
  let l0 := (r.lod lod).1
  let l1 := min (l0 + 1) (r.levels - 1)
  match f with
  | .tri => [l0, l1]
  | _ => [if 128 ≤ (r.lod lod).2 then l1 else l0]

/-- The texels that a filter takes of a level; the nearest one by the pseudocode of R81, floor(x + 0.5). (DEDUCED: log 62) -/
def TexRec.texels (r : TexRec) (f : TexV) (u v : Word) (l : Nat) : List Texel :=
  let x := texCoord u (r.dims l).1
  let y := texCoord v (r.dims l).2
  match f with
  | .near =>
    let half : Num := .fin false 1 (-1)
    [⟨l, floorInt (Num.add .rne x half), floorInt (Num.add .rne y half)⟩]
  | _ =>
    let i := (texSplit x).1
    let j := (texSplit y).1
    [⟨l, i, j⟩, ⟨l, i + 1, j⟩, ⟨l, i, j + 1⟩, ⟨l, i + 1, j + 1⟩]

/-- One channel of a level, filtered from its texels' values. -/
def TexRec.filter (r : TexRec) (f : TexV) (u v : Word) (l : Nat) (val : Texel → Num) : Num :=
  let ts := r.texels f u v l
  let at' := fun (k : Nat) => val (nthD ts k ⟨l, 0, 0⟩)
  match f with
  | .near => at' 0
  | _ =>
    let wx := (texSplit (texCoord u (r.dims l).1)).2
    let wy := (texSplit (texCoord v (r.dims l).2)).2
    texLerp (texLerp (at' 0) (at' 1) wx) (texLerp (at' 2) (at' 3) wx) wy

/-! ## Reading (R122, R351, R411, R417) -/

/-- The texels that a lane reads. -/
def TexRec.needs (r : TexRec) (tld : Bool) (f : TexV) (t : TexLane) : List Texel :=
  if tld then [⟨min t.lod.toNat (r.levels - 1), t.u.toInt, t.v.toInt⟩]
  else (r.levelsFor f t.lod).flatMap fun l => r.texels f t.u t.v l

/-- How an engine read goes: its place, or a missing translation, a translation that fails, a poisoned line; or a host path that is down. -/
inductive EngineRead | at (l : Loc) (page : PageAttr) | miss (va : DWord) | bad | poison (va : DWord) | away
  deriving DecidableEq, Repr

/-- A read of an engine that a master's permissions bind (R218): the texture engine, a traversal unit, or the command processor. (DEDUCED: log 32) -/
def engineReadAs (s : State) (m : Master) (part : Nat) (va : DWord) : EngineRead :=
  match translateAs s m part va.toNat .read with
  | .error .miss => .miss va
  | .error _ => .bad
  | .ok (l, leaf) => if !hostReady s l then .away else if poisonHit s l then .poison va else .at l leaf.page

/-- A read of the texture engine or a traversal unit of a partition. (DEDUCED: log 32) -/
def engineRead (s : State) (part : Nat) (va : DWord) : EngineRead := engineReadAs s (.part part) part va

/-- The number of a lane's read: the four 16-B parts of its record, then its texels. -/
def texKey (lane i : Nat) : Nat := lane * 64 + i

/-- The texture record of a lane, once its parts are read. -/
def TexReq.texRec (q : TexReq) (t : TexLane) : Option TexRec :=
  let parts := (List.range 4).map fun i => (mget? q.got (texKey t.lane i)).bind fun x => x
  if parts.all Option.isSome then some ⟨leNat (parts.flatMap fun x => x.getD [])⟩ else none

/-- Whether a lane receives the canonical NaN: its record's address is misaligned, its record is bad, or one of its reads gives no data (R406, R411, R417). -/
def TexReq.fails (q : TexReq) (t : TexLane) : Bool :=
  t.texRec.toNat % 64 != 0 || q.got.any (fun x => x.1 / 64 == t.lane && x.2.isNone) ||
    (match q.texRec t with
     | some r => !r.ok
     | none => false)

/-- The reads of a lane that are still to be taken: number, address, bytes. -/
def TexReq.laneNeeds (q : TexReq) (t : TexLane) : List (Nat × DWord × Nat) :=
  if q.fails t then []
  else
    let all : List (Nat × DWord × Nat) := match q.texRec t with
      | none => (List.range 4).map fun i => (texKey t.lane i, t.texRec + BitVec.ofNat 64 (16 * i), 16)
      | some r => (r.needs q.tld q.filter t).zipIdx.filterMap fun x => (r.addr x.1).map fun va => (texKey t.lane (4 + x.2), va, r.channels * r.size)
    all.filter fun x => (mget? q.got x.1).isNone

/-- The reads of an operation that are still to be taken. -/
def TexReq.needs (q : TexReq) : List (Nat × DWord × Nat) := q.lanes.flatMap q.laneNeeds

/-- A lane's texel by its place in the order of its texels, in a channel. -/
def TexReq.value (q : TexReq) (r : TexRec) (t : TexLane) (ch : Nat) (x : Texel) : Num :=
  match r.addr x with
  | none => r.border ch
  | some _ =>
    let i := (r.needs q.tld q.filter t).findIdx fun y => y == x
    match (mget? q.got (texKey t.lane (4 + i))).bind fun b => b with
    | some bs => r.decode (leNat ((bs.drop (ch * r.size)).take r.size))
    | none => .nan

/-- The four words that a lane receives. -/
def TexReq.words (q : TexReq) (t : TexLane) : List Word :=
  let nan : Word := 0x7FC00000
  match q.texRec t with
  | none => [nan, nan, nan, nan]
  | some r =>
    if q.fails t then [nan, nan, nan, nan]
    else (List.range 4).map fun ch =>
      if r.channels ≤ ch then 0
      else
        let val := q.value r t ch
        if q.tld then (match r.needs true q.filter t with
          | x :: _ => fword (val x)
          | [] => 0)
        else
          let lv := r.levelsFor q.filter t.lod
          match q.filter with
          | .tri => fword (texLerp (r.filter .bil t.u t.v (nthD lv 0 0) val) (r.filter .bil t.u t.v (nthD lv 1 0) val) (r.lod t.lod).2)
          | f => fword (r.filter f t.u t.v (nthD lv 0 0) val)

/-- A record of an engine that serves a wave's instruction: no handle (R411, R417). (DEDUCED: log 32) -/
def engineRecord (s : State) (w : Wave) (code info : Nat) (va : DWord) (waiting : Bool) (lbl : Label) : State :=
  pushEvent s w.part { eventRecord w.launch code info va.toNat with
    lblock := w.lblock, waiting := waiting, addrLabel := lbl, labels := lbl }

/-- Whether the stores that a wave issued before its last FENCEX have performed (R122). -/
def fencedDone (w : Wave) (after : Nat) : Bool := w.pending.all fun e => decide (after ≤ e.id) || e.kind == .load || e.kind == .fence || e.doneAll

/-- The operation of a wave replaced. -/
def putTex (s : State) (wid id : Nat) (q : TexReq) : State :=
  { s with waves := mmodify s.waves wid fun w => { w with long := w.long.map fun o => if o.id = id then { o with what := .tex q } else o } }

/-- One read of a texture operation, at the home copy; a translation that misses stalls the operation until an INVXL covers the address (R122, R411, R417). (DEDUCED: log 32) -/
def texRead (s : State) (w : Wave) (id : Nat) (q : TexReq) (key : Nat) : State :=
  match q.needs.find? fun x => x.1 == key with
  | none => s
  | some (_, va, n) =>
    if q.stall.isSome || !fencedDone w q.after then s
    else match engineRead s w.part va with
      | .away => s
      | .miss va => engineRecord (putTex s w.id id { q with stall := some va }) w 5 (XErr.miss.info false false) va true q.label
      | .bad => putTex s w.id id { q with got := mset q.got key none }
      | .poison va => engineRecord (putTex s w.id id { q with got := mset q.got key none }) w 0x10 0 va false q.label
      | .at l page =>
        let s := reach s w.part (dieOfQuadrant w.quad) true .dflt page l
        putTex s w.id id { q with got := mset q.got key (some (pageBytes s l n page.keyId)), label := q.label ||| locLabel s w.part l }

/-- The completion event of TEX or TLD, once its reads are taken: every lane receives its words. (DEDUCED: log 32) -/
def performTex (s : State) (w : Wave) (op : LongOp) (q : TexReq) : State :=
  if !q.needs.isEmpty then s
  else finishLong (if op.dead then s else putRegs s w.id op.act q.d 4 (q.lanes.map fun t => (t.lane, q.words t)) q.label) w.id op

/-- Start TEX or TLD: each lane's request goes to the texture engine (R81, R351). -/
def startTex (i : Instr) (s : State) (tld : Bool) (f : TexV) (d a b c_ : Opr) : Host.Outcome State Fault Refusal :=
  runWord i s fun c =>
    let lane := fun (l : Nat) => ({ lane := l, texRec := BitVec.ofNat 64 (src64 s c a l), u := readReg s c b 0 l, v := readReg s c b 1 l,
                                    lod := readReg s c c_ 0 l } : TexLane)
    let q : TexReq := { tld := tld, filter := f, d := d.code, lanes := if d.isScalar then [lane c.low] else (lanesOf c.act).map lane,
                        label := labelOf s c b 2 ||| c.ctx, after := c.w.fenced, stall := none, num := s.nextCopy, got := [] }
    .ok (startLong { s with nextCopy := s.nextCopy + 1 } c false false (.tex q))

/-- TEX (R81, R351). -/
def execTex (h : Ctl) (v : TexV) (d a b c : Opr) (s : State) : Host.Outcome State Fault Refusal := startTex (.tex h v d a b c) s false v d a b c

/-- TLD (R80, R351). -/
def execTld (h : Ctl) (d a b c : Opr) (s : State) : Host.Outcome State Fault Refusal := startTex (.tld h d a b c) s true .near d a b c

end Sys2Proof.Machine
end

