-- ==== Sys2Proof/Machine/Ray.lean ====
section
/-! DEFINITION. Rays: TRACE, traversal, hits and their lanes, RRET and MBOX (R58, R73 to R79, R122, R161, R352 to R354, R365, R411, R428). -/
namespace Sys2Proof.Machine

/-! ## Boxes (R74, R76) -/

/-- A finite value as a whole number of units of 2^-149. -/
def exactInt : Num → Int
  | .fin n m e => let x := exactUnits m e; if n then -x else x
  | _ => 0

/-- The greater and the lesser of two f32 words by value; the first when equal. -/
def maxWord (a b : Word) : Word := if Num.compare (fval a) (fval b) = .lt then b else a
def minWord (a b : Word) : Word := if Num.compare (fval b) (fval a) = .lt then b else a

/-- a ≤ b for words that are no NaN. -/
def leWord (a b : Word) : Bool := Num.compare (fval a) (fval b) != .gt

/-- The parameters at which a ray crosses an axis' two planes, rounded outward; none where it misses. -/
def boxAxis (lo hi : Num) (o d : Word) : Option (Word × Word) :=
  if (fval d).isZero then
    if Num.compare lo (fval o) != .gt && Num.compare (fval o) hi != .gt then some (0xFF800000, 0x7F800000) else none
  else
    let t := fun (rm : Rm) (x : Num) => BitVec.ofNat 32 (divBits rm (Num.add .rne x (fval o).neg) (fval d))
    some (minWord (t .rd lo) (t .rd hi), maxWord (t .ru lo) (t .ru hi))

/-- The near value of a child box that a ray enters; a box with a NaN corner is not entered (R428). -/
def boxNear (r : Ray) (box : Nat) : Option Word :=
  let f := fun (i : Nat) => f16.value (box / 2 ^ (16 * i) % 65536)
  if (List.range 6).any fun i => (f i).isNan then none
  else
    let axes := (List.range 3).map fun a => boxAxis (f a) (f (a + 3)) (nthD r.org a 0) (nthD r.dir a 0)
    if axes.any Option.isNone then none
    else
      let spans := axes.filterMap id
      let near := spans.foldl (fun m x => maxWord m x.1) r.tmin
      let far := spans.foldl (fun m x => minWord m x.2) r.tmax
      if leWord near far then some near else none

/-! ## Triangles (R76) -/

/-- A ratio of integers rounded to f32, ties to even. -/
def ratWord (n d : Int) : Word :=
  let k := 64 + d.natAbs.log2
  let q := n.natAbs * 2 ^ k / d.natAbs
  BitVec.ofNat 32 (if n = 0 then 0 else f32.round .rne false 0 (decide ((n < 0) ≠ (d < 0))) q (-(k : Int)) (n.natAbs * 2 ^ k % d.natAbs != 0))

/-- Whether a ratio with a positive denominator is at most, or at least, a word's value. -/
def ratLe (n d : Int) (w : Word) : Bool :=
  match fval w with
  | .nan => false
  | .inf neg => !neg
  | x => decide (n * 2 ^ 149 ≤ exactInt x * d)

def ratGe (n d : Int) (w : Word) : Bool :=
  match fval w with
  | .nan => false
  | .inf neg => neg
  | x => decide (exactInt x * d ≤ n * 2 ^ 149)

/-- Three-vectors of integers. -/
def vsub (a b : List Int) : List Int := (List.range 3).map fun i => nthD a i 0 - nthD b i 0
def vdot (a b : List Int) : Int := (List.range 3).foldl (fun n i => n + nthD a i 0 * nthD b i 0) 0
def vcross (a b : List Int) : List Int :=
  let g := fun (x : List Int) (i : Nat) => nthD x i 0
  [g a 1 * g b 2 - g a 2 * g b 1, g a 2 * g b 0 - g a 0 * g b 2, g a 0 * g b 1 - g a 1 * g b 0]

/-- Where a ray meets a triangle: t, u, v rounded, and whether the triangle is back-facing. The bound is the one with which the ray was traced, so that the best hit depends on no order of visits. A ray in the triangle's plane meets it nowhere. -/
def triHit (r : Ray) (xs : List Word) : Option (Word × Word × Word × Bool) :=
  let fin := fun (w : Word) => match fval w with | .fin _ _ _ => true | _ => false
  if !xs.all fin then none
  else
    let vec := fun (ws : List Word) => ws.map fun w => exactInt (fval w)
    let v0 := vec (xs.take 3)
    let e1 := vsub (vec ((xs.drop 3).take 3)) v0
    let e2 := vsub (vec ((xs.drop 6).take 3)) v0
    let dir := vec r.dir
    let nrm := vcross e1 e2
    let p := vcross dir e2
    let det := vdot e1 p
    if nrm.all (fun x => x == 0) || det = 0 then none
    else
      let so := vsub (vec r.org) v0
      let q := vcross so e1
      let sg := if det < 0 then -1 else 1
      let d := det * sg
      let u := vdot so p * sg
      let v := vdot dir q * sg
      let t := vdot e2 q * sg
      let back := decide (0 < vdot dir nrm)
      if u < 0 ∨ v < 0 ∨ d < u + v then none
      else if !(ratGe t d r.tmin && ratLe t d r.tmax0) || (back && r.cullback) then none
      else some (ratWord t d, ratWord u d, ratWord v d, back)

/-- A candidate replaces the best hit, or does not (R76). -/
def acceptHit (r : Ray) (die obj clu tri : Nat) (c : Word × Word × Word × Bool) : Option Ray :=
  let key := fun (o k t : Nat) => (o * 65536 + k) * 256 + t
  let o := Num.compare (fval c.1) (fval r.tmax)
  if !r.hit || o == .lt || (o == .eq && decide (key obj clu tri < key r.hitObj r.hitClu r.hitTri)) then
    some { r with hit := true, tmax := c.1, hitU := c.2.1, hitV := c.2.2.1, backface := c.2.2.2, hitObj := obj, hitClu := clu, hitTri := tri,
                  hitDie := die }
  else none

/-! ## Traversal (R73, R77, R122, R411, R417, R428)

A visit reads its node or leaf record by 16-B reads, each a step of its own; when it has them all, the visit is made. -/

/-- The children of a node that a ray enters, by near and then by index, as stack entries with the next to visit first. -/
def nodeChildren (r : Ray) (node : Nat) : List StackEnt :=
  let kids := (List.range 4).filterMap fun (c : Nat) =>
    let ref := node / 2 ^ (384 + 32 * c) % 2 ^ 32
    if ref / 2 ^ 30 = 3 then none
    else (boxNear r (node / 2 ^ (96 * c) % 2 ^ 96)).map fun near => (⟨ref, near⟩ : StackEnt)
  kids.foldl (fun (acc : List StackEnt) (x : StackEnt) => (acc.takeWhile fun y => leWord y.near x.near) ++ [x] ++ (acc.dropWhile fun y => leWord y.near x.near)) []

/-- Whether a leaf record of n triangles keeps its reserved bits zero. -/
def leafOk (bs : List Byte) (n : Nat) : Bool :=
  bits (leNat (bs.take 16)) 127 44 == 0 && (List.range n).all fun i => ((bs.drop (16 + 48 * i + 37)).take 11).all fun b => b == 0

/-- The triangles of a leaf tested in order; under FIRSTHIT the first accepted hit ends the test. -/
def leafTests (bs : List Byte) (die obj clu : Nat) : Nat → Nat → Ray → Ray × Bool
  | 0, _, r => (r, false)
  | fuel + 1, i, r =>
    let at' := bs.drop (16 + 48 * i)
    let ws := (List.range 9).map fun k => BitVec.ofNat 32 (leNat ((at'.drop (4 * k)).take 4))
    let tri := (nthD at' 36 0).toNat % 128
    match (triHit r ws).bind fun c => acceptHit r die obj clu tri c with
    | none => leafTests bs die obj clu fuel (i + 1) r
    | some r' => if r'.first then (r', true) else leafTests bs die obj clu fuel (i + 1) r'

/-- A stack without the entries on top that are dropped without a visit: those whose near exceeds TMAX, and empty children (R77). -/
def liveStack (r : Ray) (st : List StackEnt) : List StackEnt := st.dropWhile fun e => !leWord e.near r.tmax || e.ref / 2 ^ 30 % 4 == 3

/-- The parcel that a ray is in: its number, its base, size and home die once its table entry is read, and the stack in use. -/
structure Place where
  parcel : Nat
  at' : Option (Nat × Nat × Nat)
  stack : List StackEnt
  deriving DecidableEq, Repr

/-- Where a ray is. Parcel 0 is replicated: every die is its home (R73). -/
def Ray.place (r : Ray) : Place :=
  match r.sub with
  | some (p, st) => ⟨p, r.subAt, liveStack r st⟩
  | none => ⟨0, r.root.map fun x => (x.1, x.2, r.die), liveStack r r.stack⟩

/-- Parts of a leaf record of n triangles. -/
def leafParts (n : Nat) : Nat := 1 + 3 * n

/-- A 16-B read that a visit has taken. -/
def Ray.read (r : Ray) (i : Nat) : List Byte := mgetD r.got i []

/-- Triangles of the leaf record whose header a ray has read. -/
def Ray.leafCount (r : Ray) : Nat := bits (leNat (r.read 0)) 43 40

/-- Whether a ray is malformed where it stands, before it reads (R428). -/
def Ray.malformed (l : Launch) (r : Ray) : Bool :=
  let p := r.place
  match p.stack, p.at' with
  | [], _ => false
  | _, none => decide (l.parcelCnt ≤ p.parcel)
  | e :: _, some (_, size, _) =>
    let off := e.ref % 2 ^ 30
    let kind := e.ref / 2 ^ 30 % 4
    if kind = 2 then p.parcel != 0 || off / 65536 != 0 || decide (l.parcelCnt ≤ off)
    else decide (size ≤ off) || (kind == 1 && (mget? r.got 0).isSome && (r.leafCount == 0 || decide (8 < r.leafCount)))

/-- The 16-B reads that a ray has still to take for what it does next, by index and address: its parcel's table entry, a node, or a leaf record, its header first. -/
def Ray.needs (l : Launch) (r : Ray) : List (Nat × DWord) :=
  let p := r.place
  if r.overBy.isSome || r.malformed l then []
  else match p.stack, p.at' with
    | [], _ => []
    | _, none => [(0, l.parcels + BitVec.ofNat 64 (16 * p.parcel))]
    | e :: _, some (base, _, _) =>
      let kind := e.ref / 2 ^ 30 % 4
      let n := if kind = 0 then 4 else if kind = 2 then 0 else if (mget? r.got 0).isNone then 1 else leafParts r.leafCount
      ((List.range n).map fun i => (i, BitVec.ofNat 64 (base + 64 * (e.ref % 2 ^ 30) + 16 * i))).filter fun x => (mget? r.got x.1).isNone

/-- The stack in use replaced. -/
def Ray.setStack (r : Ray) (st : List StackEnt) : Ray :=
  match r.sub with
  | some (p, _) => { r with sub := some (p, st) }
  | none => { r with stack := st }

/-- A ray that has visited ends at the step bound, unless no entry of its stacks is left at this visit. (DEDUCED: log 33) -/
def Ray.bounded (r : Ray) : Ray :=
  let empty := r.stack.isEmpty && r.sub.all (fun x => x.2.isEmpty) && r.outer.all fun x => x.1.2.isEmpty
  if 8192 ≤ r.visits ∧ r.overBy = none ∧ !empty then { r with overBy := some .bound } else r

/-- What a ray does with the reads of a table entry, a node or a leaf record, all taken (R77). (DEDUCED: log 33) -/
def Ray.visit (r : Ray) : Ray :=
  let p := r.place
  let bs := r.got.flatMap fun x => x.2
  let r' := { r with got := [] }
  match p.stack, p.at' with
  | [], _ => r'
  | _, none =>
    let e := leNat bs
    if bits e 127 99 ≠ 0 ∨ bits e 5 0 ≠ 0 then { r' with overBy := some .malformed }
    else if r.sub.isSome then { r' with subAt := some (bits e 63 0, bits e 95 64, bits e 98 96) }
    else { r' with root := some (bits e 63 0, bits e 95 64) }
  | e :: st, some (_, _, die) =>
    let r' := { r' with visits := r.visits + 1 }
    if e.ref / 2 ^ 30 % 4 = 0 then
      let kids := nodeChildren r' (leNat bs)
      if 96 < st.length + (kids.length - 1) then { r' with overBy := some .malformed } else (r'.setStack (kids ++ st)).bounded
    else
      let hdr := leNat (bs.take 16)
      let n := bits hdr 43 40
      if !leafOk bs n then { r' with overBy := some .malformed }
      else
        let res := leafTests bs die (bits hdr 23 0) (bits hdr 39 24) n 0 r'
        if res.2 then { res.1 with overBy := some .done } else (res.1.setStack st).bounded

/-! ## The end of a ray (R56, R58, R78, R79) -/

/-- Whether a ray's reads may go on: accepted, no stall, and the stores before its wave's last FENCEX performed (R122). -/
def rayReady (s : State) (r : Ray) : Bool :=
  r.accepted && r.stall.isNone && (match mget? s.waves r.wave with
    | none => true
    | some w => fencedDone w r.after)

def putRay (s : State) (r : Ray) : State := { s with rays := mset s.rays r.id r }

/-- A missing translation: the ray waits for an INVXL, and its XLATE_MISS record has no handle (R411). -/
def stallRay (s : State) (l : Launch) (r : Ray) (va : DWord) : State :=
  pushEvent (putRay s { r with stall := some va }) l.part { eventRecord l.id 5 (XErr.miss.info false false) va.toNat with
    lblock := (match mget? s.waves r.wave with | some w => w.lblock | none => 0xFFFFFFFF), waiting := true, addrLabel := r.label, labels := r.label }

/-- One 16-B read of a ray, at the home copy, on the die where the ray is; the last read of a visit makes it (R77, R122). The frame of every record that is read adds its label. (DEDUCED: log 33) -/
def rayRead (s : State) (l : Launch) (r : Ray) (i : Nat) : State :=
  match (r.needs l).find? fun x => x.1 == i with
  | none => s
  | some (_, va) =>
    if !rayReady s r then s
    else match engineRead s l.part va with
      | .away => s
      | .miss a => stallRay s l r a
      | .bad => putRay s { r with overBy := some .malformed }
      | .poison _ => putRay s { r with overBy := some .malformed }
      | .at p page =>
        let die := match r.place.at' with
          | some (_, _, d) => d
          | none => r.die
        let s := reach s l.part die true .dflt page p
        let lbl := if r.place.at'.isNone then 0 else locLabel s l.part p
        let r := { r with got := mset r.got i (pageBytes s p 16 page.keyId), label := r.label ||| lbl }
        putRay s (if (r.needs l).isEmpty && !r.malformed l then r.visit else r)

/-- A ray that ends without hit code: its four words are delivered, and its element is done. (DEDUCED: log 33) -/
def rayMiss (s : State) (r : Ray) (words : List Word) : State :=
  let s := { s with rays := merase s.rays r.id, elems := mmodify s.elems r.elem fun e : Elem => { e with state := .exited } }
  let s := deliver s r.wave r.lane r.slot words (List.replicate 4 r.label)
  checkQuiet (afterExit s r.elem) r.launch

/-- The die that runs the hit code of a ray (R78). (DEDUCED: log 33) -/
def hitDieOf (l : Launch) (r : Ray) : Nat :=
  match l.draw with
  | some d => (match d.objs[r.hitObj]? with
    | some o => o.die
    | none => r.die)
  | none => r.hitDie

/-- A hit with an entry: the ray's element is gathered on the die of the hit, with its starting registers, and holds the hit's records. -/
def rayHit (s : State) (l : Launch) (r : Ray) (bound : Bool) : State :=
  let regs := [r.tmax, r.hitU, r.hitV, BitVec.ofNat 32 r.hitObj, BitVec.ofNat 32 r.hitClu,
    BitVec.ofNat 32 (r.hitTri + (if r.backface then 2 ^ 31 else 0))] ++ r.org ++ r.dir
  let h : HitStart := { regs := regs, label := r.label, entry := r.hitEntry, wave := r.wave, lane := r.lane, slot := r.slot, obj := r.hitObj,
                        clu := r.hitClu, die := hitDieOf l r, bound := bound, delivered := false }
  let s := { s with rays := merase s.rays r.id, elems := mmodify s.elems r.elem fun e : Elem => { e with hit := some h, ctx0 := r.label } }
  let s := if l.draw.isSome then (hitElems s l.id r.hitObj r.hitClu).foldl (fun s x => changeRayref s x true) s else s
  gatherElem s r.elem

/-- The words of a malformed ray, of a ray that visits no node, and of any other end without hit code (R78, R352, R428). -/
def endWords (r : Ray) (o : RayOver) : List Word :=
  match o with
  | .malformed => [0x04000000, r.tmax0, 0, 0]
  | o => [BitVec.ofNat 32 ((if r.hit then 2 ^ 24 else 0) + (if o = .bound then 2 ^ 25 else 0) + (if r.hit then r.hitTri else 0)), r.tmax,
          BitVec.ofNat 32 (if r.hit then r.hitObj else 0), BitVec.ofNat 32 (if r.hit then r.hitClu else 0)]

/-- The end of a ray's traversal (R78). -/
def rayOver (s : State) (l : Launch) (r : Ray) (o : RayOver) : State :=
  if r.hit && r.hitEntry != 0xFF && o != .malformed then rayHit s l r (o == .bound) else rayMiss s r (endWords r o)

/-- How a ray's traversal is over, if it is. -/
def Ray.over (l : Launch) (r : Ray) : Option RayOver :=
  if r.overBy.isSome then r.overBy
  else if r.malformed l then some .malformed
  else if r.sub.isNone && r.place.stack.isEmpty then some .done
  else none

/-- TRAVERSAL_END (R77, R78): a ray in its origin die's unit whose traversal is over ends. (DEDUCED: log 33) -/
def execTraversalEnd (ray : Nat) (s : State) : Host.Outcome State Fault Refusal :=
  match mget? s.rays ray with
  | none => .next s
  | some r => match mget? s.launches r.launch with
    | none => .next s
    | some l =>
      if !rayReady s r || r.sub.isSome then .next s
      else match r.over l with
        | some o => .next (rayOver s l r o)
        | none => .next s

/-- PARCEL_LINK_TRAVERSAL (R77): a ray that meets a parcel link goes to the linked parcel's die, where a stack of its own starts; when the parcel is traversed, or the traversal is over, the ray returns and that stack is freed. -/
def execParcelLinkTraversal (ray : Nat) (s : State) : Host.Outcome State Fault Refusal :=
  match mget? s.rays ray with
  | none => .next s
  | some r => match mget? s.launches r.launch with
    | none => .next s
    | some l =>
      if !rayReady s r then .next s
      else match r.sub with
        | some (p, _) =>
          if (r.over l).isSome || r.place.stack.isEmpty then
            (match r.outer with
             | [] => .next (putRay s { r with sub := none, subAt := none, got := [], overBy := r.over l })
             | x :: rest => .next (putRay s { r with sub := some x.1, subAt := x.2, outer := rest, got := [], overBy := r.over l }))
          else (match r.place.stack, r.subAt with
            | e :: st, some at' =>
              if e.ref / 2 ^ 30 % 4 == 2 then
                .next (putRay s { r with sub := some (e.ref % 2 ^ 30, [⟨0, r.tmin⟩]), subAt := none, outer := ((p, st), some at') :: r.outer })
              else .next s
            | _, _ => .next s)
        | none => match r.place.stack, r.root with
          | e :: st, some _ =>
            if r.overBy.isNone && e.ref / 2 ^ 30 % 4 == 2 && !r.malformed l then
              .next (putRay s { r with stack := st, sub := some (e.ref % 2 ^ 30, [⟨0, r.tmin⟩]), subAt := none })
            else .next s
          | _, _ => .next s

/-! ## TRACE (R75, R352, R365, R405) -/

/-- The lane's HITENTRY is none or names a ray-hit entry. -/
def hitEntryOk (c : Ctx) (n : Nat) : Bool :=
  n == 0xFF || (match c.obj.entries[n]? with
    | some e => e.kind == 3
    | none => false)

/-- A launch's hold on a die ends when nothing of it waits there. -/
def clearHold (s : State) (lid die : Nat) : State :=
  match mget? s.launches lid with
  | none => s
  | some l =>
    if (firstWaiter s l die).isNone then { s with launches := mset s.launches lid { l with holdSince := merase l.holdSince die } } else s

/-- The TRACE of a context holds for its records: it takes its place in the creation order, a number of its own, once (R55, R365). -/
def holdTrace (s : State) (c : Ctx) (n : Nat) : State :=
  let live := s.traceHolds.filter fun h => h.live s
  let mine := live.any fun h => h.wave == c.id && h.split == c.k && h.pos == c.pos
  let new : TraceHold := ⟨c.launch.id, c.die, c.id, c.k, c.pos, s.nextElem, n⟩
  let first := (firstWaiter s c.launch c.die).isNone
  markHold (if mine then { s with traceHolds := live } else { s with traceHolds := live ++ [new], nextElem := s.nextElem + 1 }) c.launch.id c.die first

/-- Whether a TRACE of n lanes may take its records now: nothing of its launch on the die waits before it, and n units are free. -/
def traceMay (s : State) (c : Ctx) (n : Nat) : Bool :=
  let before := fun h : TraceHold => h.wave == c.id && h.split == c.k && h.pos == c.pos
  let first := match s.traceHolds.find? before with
    | none => (firstWaiter s c.launch c.die).isNone
    | some h => (waiters s c.launch c.die).all fun w => decide (2 * h.order ≤ w.1)
  first && decide (n ≤ unitsFree s c.launch c.die)

/-- The holds of a TRACE that goes on. -/
def endTraceHold (s : State) (c : Ctx) : State :=
  { s with traceHolds := s.traceHolds.filter fun h => !(h.wave == c.id && h.split == c.k) }

/-- The ray record that a lane sends (R75, R352). A ray that may visit no node has nothing on its stack. (DEDUCED: log 33) -/
def newRay (s : State) (c : Ctx) (slot : Nat) (cullback first : Bool) (xs : List Word) (hitEntry lane elem : Nat) (lbl : Label) : Ray :=
  let fin := fun (w : Word) => match fval w with | .fin _ _ _ => true | _ => false
  let tmin := nthD xs 6 0
  let tmax := nthD xs 7 0
  let good := (xs.take 6).all fin && !((xs.drop 3).take 3).all (fun w => (fval w).isZero) && !(fval tmin).isNan && !(fval tmax).isNan && leWord tmin tmax
  { id := s.nextRay, launch := c.launch.id, part := c.w.part, elem := elem, die := c.die, wave := c.id, lane := lane, slot := slot,
    org := xs.take 3, dir := (xs.drop 3).take 3, tmin := tmin, tmax := tmax, tmax0 := tmax, label := lbl, hitEntry := hitEntry,
    cullback := cullback, first := first, backface := false, visits := 0, hit := false, hitTri := 0, hitClu := 0, hitObj := 0, hitDie := c.die,
    hitU := 0, hitV := 0, stack := if good then [⟨0, tmin⟩] else [], root := none, sub := none, subAt := none, outer := [], num := s.nextCopy, got := [], overBy := none, accepted := false, after := c.w.fenced, stall := none }

/-- TRACE of one lane: its slot is pending, its RAY element is created, its ray record is sent. INDEX of the element is the slot. (DESIGN CHOICE: log 55) -/
def traceLane (s : State) (c : Ctx) (slot : Nat) (cullback first : Bool) (xs : List Word) (hitEntry : Nat) (lbl : Label) (l : Nat) : State :=
  let w := theWave s c
  let s := putWave s { w with mbox := mset w.mbox (mboxKey l slot) ⟨.pending, [], []⟩ }
  let id := s.nextElem
  let s := createElem s { Elem.blank with launch := c.launch.id, die := c.die, rate := .ray, parent := mget? c.w.elems l, index := slot }
  { s with rays := mset s.rays s.nextRay (newRay s c slot cullback first xs hitEntry l id lbl), nextRay := s.nextRay + 1, nextCopy := s.nextCopy + 1 }

/-- TRACE (R352). -/
def execTrace (h : Ctl) (slot : Fin 8) (cullback first : Bool) (a b : Opr) (s : State) : Host.Outcome State Fault Refusal :=
  runWord (.trace h slot cullback first a b) s fun c =>
    let lbl := labelsOf s c [(a, 8), (b, 1)] ||| c.ctx
    let hit := fun (l : Nat) => src s c b l % 256
    let badHit := maskOf fun l => bit c.act l && !hitEntryOk c (hit l)
    let busy := maskOf fun l => bit c.act l && (c.w.slotOf l slot.val).st != .free
    let ops := operandLabels s c (.trace h slot cullback first a b)
    if badHit ≠ 0 then .error (operandFault (badHit ||| busy) 2 b.code ops)
    else if busy ≠ 0 then .error (reasonFault busy 8 ops)
    else
      let lanes := lanesOf c.act
      let n := if takesUnits s c.launch then lanes.length else 0
      if n ≠ 0 && !traceMay s c n then .error (.stay (holdTrace s c n))
      else
        let s := clearHold (endTraceHold s c) c.launch.id c.die
        let first' := s.nextRay
        let s := lanes.foldl (fun u l => traceLane u c slot.val cullback first (srcs s c a 8 l) (hit l) lbl l) s
        .ok (startLong s c true false (.ray first'))

/-! ## RRET and MBOX (R79, R353, R354) -/

/-- RRET (R353). -/
def execRret (h : Ctl) (a : Opr) (s : State) : Host.Outcome State Fault Refusal :=
  runWord (.rret h a) s fun c =>
    let lbl := labelOf s c a 4 ||| c.ctx
    .ok ((lanesOf c.act).foldl (fun s l =>
      match ownElem s c l with
      | none => s
      | some e => match e.hit with
        | none => s
        | some x =>
          if x.delivered then s
          else
            let s := deliver s x.wave x.lane x.slot (srcs s c a 4 l) (List.replicate 4 lbl)
            { s with elems := mset s.elems e.id { e with hit := some { x with delivered := true } } }) s)

/-- What MBOX gives a lane for its slot: the status (R354). -/
def mboxStatus (m : Mbox) : Word :=
  match m.st with
  | .full => 0
  | .pending => 1
  | .free => 2

/-- Slots of the active lanes with an uncorrectable error become full (R444). -/
def breakSlots (s : State) (c : Ctx) (slot : Nat) : State × Ctx :=
  let keys := ((lanesOf c.act).map fun l => mboxKey l slot).filter fun k => SoftMark.mbox c.id k ∈ s.soft
  if keys.isEmpty then (s, c)
  else
    let w := theWave s c
    let w := { w with mbox := keys.foldl (fun m k => mset m k Mbox.broken) w.mbox }
    (putWave { s with soft := s.soft.filter fun m => !(keys.any fun k => m == .mbox c.id k) } w, { c with w := w })

/-- The words and statuses that an MBOX moves, as register writes; a scalar quad takes those of the lowest active lane. -/
def mboxWrites (c : Ctx) (slot : Nat) (d st : Opr) : List RegWrite :=
  let lanes := if d.isScalar then [c.low] else lanesOf c.act
  let got := lanes.filter fun l => (c.w.slotOf l slot).st == .full
  (got.flatMap fun l =>
    let m := c.w.slotOf l slot
    (List.range 4).map fun i => (⟨d.code + i, l, nthD m.words i 0, nthD m.labels i 0 ||| c.ctx⟩ : RegWrite)) ++
  (lanesOf c.act).map fun l => ⟨st.code, l, mboxStatus (c.w.slotOf l slot), c.ctx⟩

/-- Register writes of a completion event, with each register's label (R176). -/
def applyWrites (s : State) (wid : Nat) (ws : List RegWrite) : State :=
  (dedup (ws.map fun x => x.code)).foldl (fun s code =>
    let mine := ws.filter fun x => x.code == code
    putRegs s wid (maskOf fun l => mine.any fun x => x.lane == l) code 1 (mine.map fun x => (x.lane, [x.val]))
      (mine.foldl (fun acc x => acc ||| x.label) 0)) s

/-- The full slots of the active lanes become free; a discarded region gives them back. -/
def mboxTake (s : State) (c : Ctx) (slot : Nat) : State :=
  let full := (lanesOf c.act).filter fun l => (c.w.slotOf l slot).st == .full
  let w := full.foldl (fun (w : Wave) l =>
    pushUndo { w with mbox := merase w.mbox (mboxKey l slot) } c.k (.mbox (mboxKey l slot) (w.slotOf l slot))) (theWave s c)
  putWave s w

/-- MBOX `.try` (R354). -/
def execMboxTry (h : Ctl) (slot : Fin 8) (d c_ : Opr) (s : State) : Host.Outcome State Fault Refusal :=
  runWord (.mboxTry h slot d c_) s fun c =>
    let (s, c) := breakSlots s c slot.val
    .ok (startLong (mboxTake s c slot.val) c false false (.regs (mboxWrites c slot.val d c_)))

/-- MBOX `.wait` (R161, R162, R354): a fixed transaction over the slots of the active lanes. -/
def execMboxWait (h : Ctl) (slot : Fin 8) (d c_ : Opr) (s : State) : Host.Outcome State Fault Refusal :=
  runWord (.mboxWait h slot d c_) s fun c =>
    let (s, c) := breakSlots s c slot.val
    let lanes := lanesOf c.act
    let pend := lanes.filter fun l => (c.w.slotOf l slot.val).st == .pending
    let key := fun (l : Nat) => LineKey.mbox c.id l slot.val
    let take := fun (s : State) => applyWrites (mboxTake s c slot.val) c.id (mboxWrites c slot.val d c_)
    if c.inTx then
      if !txQuiet (theWave s c) then .error .hold
      else match lanes.foldl (fun (acc : Option Wave) l => acc.bind fun w => addRead w (key l) 0 0 w.tx.depth) (some (theWave s c)) with
        | none => .error (overflow s c)
        | some w' =>
          let s := lanes.foldl (fun s l => lockRead s w' (key l)) (putWave s w')
          if pend.isEmpty then .ok (take s) else .error (.stay (retryNow s c.w.id c.k))
    else if pend.isEmpty then .ok (take s)
    else .error (.stay (sleepOn s c.w.id c.k (pend.map key) .fixed))

end Sys2Proof.Machine
end

