-- ==== Sys2Proof/Machine/Gate.lean ====
section
/-! DEFINITION. LBLRD, GREL and the release gate (R181 to R189, R357, R358, R402, R433). -/
namespace Sys2Proof.Machine

/-! ## LBLRD (R357) -/

/-- LBLRD (R357). -/
def execLblrd (h : Ctl) (d a : Opr) (s : State) : Host.Outcome State Fault Refusal :=
  runWord (.lblrd h d a) s fun c =>
    let m := labelOf s c a 1
    .ok (startLong s c false true (.regs [⟨d.code, 0, m, m ||| c.ctx⟩]))

/-! ## GREL (R182, R358, R402) -/

/-- GREL: checked at issue, it enters the copy path, joins the open copies, and stands in the gate unit's queue. (DEDUCED: log 34) -/
def execGrel (h : Ctl) (scr : Bool) (w : Fin 8) (d a b c_ : Opr) (s : State) : Host.Outcome State Fault Refusal :=
  runWord (.grel h scr w d a b c_) s fun c =>
    let lbl := operandLabels s c (.grel h scr w d a b c_)
    let from_ := if scr then src s c a c.low else src64 s c a c.low
    let bs := srcs s c b 2 c.low
    let len := (nthD bs 0 0).toNat
    let off := (nthD bs 1 0).toNat
    let al := labelOf s c a (if scr then 1 else 2)
    let regs := labelOf s c a (if scr then 1 else 2) ||| labelOf s c b 2 ||| labelOf s c c_ 1
    if len % 16 ≠ 0 ∨ len < 16 ∨ 2 ^ 24 < len ∨ off % 16 ≠ 0 then .error (operandFault c.act 2 b.code lbl)
    else if from_ % 16 ≠ 0 then .error (alignFault c 16 from_ al lbl)
    else if scr && tb from_ 20 then .error (.raise ⟨6, 16, from_, c.act, al, lbl⟩)
    else
      let plan : CopyPlan := .gate (rawRef s (theWave s c) (!scr) from_ 0 false) len w.val off (readReg s c c_ 0 c.low)
      match enterCopy s c plan true [] (min 64 ((len + 511) / 512)) regs al with
      | none => .error .hold
      | some (s, cp) => .ok (writeDst { s with gateQ := s.gateQ ++ [cp.id] } c d 1 (fun _ => [cp.handle]) c.ctx)

/-! ## The gate unit (R183, R186 to R189, R433) -/

/-- The 16-B part of a GREL's source at an offset: where it lies now, or the code and address of its failure. -/
def gatePart (s : State) (c : Copy) (src : CopyRef) (i : Nat) : Except (Nat × DWord) (Loc × PageAttr) :=
  match src with
  | .glob va => refPlace s c.part (.glob (va + BitVec.ofNat 64 i)) .read
  | .scr core off => (match mget? s.waves c.wave with
    | none => .ok (.scr core (off + i), PageAttr.plain)
    | some w => match scrRange s w core, mget? s.parts c.part with
      | some (first, count), some p =>
        let at' := (List.range (count * 64)).find? fun k => spaceByte p core (first * 1024 + 16 * k) == off
        (match at' with
         | none => .ok (.scr core (off + i), PageAttr.plain)
         | some k => if 16 * k + i < count * 1024 then refPlace s c.part (.scr core (spaceByte p core (first * 1024 + 16 * k + i))) .read
                     else .error (6, BitVec.ofNat 64 (16 * k + i)))
      | _, _ => .ok (.scr core (off + i), PageAttr.plain))
  | r => refPlace s c.part r .read

/-- Whether the gate unit has accepted a GREL and works on it. -/
def gateHas (s : State) (id : Nat) : Bool := s.gate.any fun g => g.copy == id

/-- A GREL ends: its refusal or its faults stand, or every chunk bit is set together; its batch wakes, and the gate unit is free. -/
def gateEnd (s : State) (c : Copy) : State :=
  let c := { c with done := true }
  batchWake (putCopy { s with gateQ := s.gateQ.filter fun x => x != c.id, gate := none } c) c true

/-- A GREL whose read fails: a copy fault on every chunk, and a record when its wave has ended (R414, R433). (DEDUCED: log 34) -/
def gateFault (s : State) (c : Copy) (code : Nat) (addr : DWord) : State :=
  let ended : Bool := match mget? s.waves c.wave with
    | some w => w.place == .ended
    | none => true
  let s := if ended then pushEvent s c.part (eventRecord c.launch 0x16 (256 * code) addr.toNat) else s
  gateEnd s { c with faults := (List.range c.chunks).map fun k => (k, code, addr) }

/-- One 16-B read of a GREL's source into the gate buffer, data and label in one step, once the gate unit has accepted the GREL (R119, R120, R182, R183). (DEDUCED: log 34) -/
def gateRead (s : State) (c : Copy) (src : CopyRef) (len idx : Nat) : State :=
  let ref := match src with
    | .glob va => CopyRef.glob (va + BitVec.ofNat 64 (16 * idx))
    | r => r
  if !gateHas s c.id ∨ c.done ∨ len / 16 ≤ idx ∨ (mget? c.plat idx).isSome ∨ !fencePassed s c ∨ !refReady s c.part ref .read then s
  else match gatePart s c src (16 * idx) with
    | .error (code, addr) => gateFault s c code addr
    | .ok l =>
      let s := copyReach s c true l
      putCopy s { c with plat := mset c.plat idx (pageBytes s l.1 16 l.2.keyId), platLabel := c.platLabel ||| locLabel s c.part l.1 }

/-- The installed policy of a label. -/
def policyFor (s : State) (l : Label) : Option Policy := s.policies.find? fun p => p.lmask == l

/-- A policy replaced, found by its label. -/
def putPolicy (s : State) (p : Policy) : State := { s with policies := s.policies.map fun x => if x.lmask = p.lmask then p else x }

/-- The period of a policy at a time (R186). -/
def Policy.periodAt (p : Policy) (now : Nat) : Nat := (now - p.installed) / (p.period * 1000)

/-- At the first gate step of a new period, SPENT becomes 0. -/
def Policy.roll (p : Policy) (now : Nat) : Policy :=
  if p.periodAt now = p.periodNo then p else { p with spent := 0, periodNo := p.periodAt now }

/-- The identity of the code object of a launch, as a byte string (R186). -/
def codeIdOf (s : State) (lid : Nat) : List Byte :=
  match (mget? s.launches lid).bind fun l => mget? s.objects l.codeObj with
  | some o => o.identity
  | none => zero32

/-- Whether a window can be written: the host link has not failed and the function is enabled, or a plane to the package remains (R433). A port or package that the pod does not have is not reachable. (DESIGN CHOICE: log 60) -/
def windowOpen (s : State) (w : Window) : Bool :=
  if w.kind = 1 then s.link != .failed && (match mget? s.parts w.target with | some p => p.vfEnabled | none => false)
  else if w.kind = 3 then decide (s.retired.length < 36) && decide (w.target < 144)
  else decide (w.target < 2)

/-- The bytes of a release written to a window. -/
def windowWrite (s : State) (a : Agent) (w : Window) (off : Nat) (data : List Byte) : State :=
  if w.kind = 1 then
    { homeWrite s a (.host (w.base + off)) data with replies := s.replies ++ [.hostWrite (w.base + off) data] }
  else if w.kind = 2 then { s with replies := s.replies ++ [.message w.target (w.base % 65536) data] }
  else homeWrite s a (.pkg w.target (w.base + off)) data

/-- A gate log record (R189), with package time at the debit. -/
def logRecord (s : State) (p : Policy) (c : Copy) (w : Window) (win off len now : Nat) (partly : Bool) (data : List Byte) : List Byte :=
  (shake256 16 data) ++ leBytes 8
    (c.part * 2 ^ 40 + w.target * 2 ^ 48 + b1 partly * 2 ^ 56 + win * 2 ^ 57 + w.kind * 2 ^ 60) ++
  leBytes 8 (w.base + off) ++ leBytes 4 len ++ leBytes 8 p.serial ++ leBytes 4 p.lmask.toNat ++ leBytes 8 now ++ leBytes 8 s.logSeq

/-- A record appended to the gate log and its chain (R188): the ring stands in the protected area. -/
def appendLog (s : State) (rec : List Byte) : State :=
  { writeBytes s (.dev (gateLogBase + 64 * (s.logSeq % 65536))) rec with logSeq := s.logSeq + 1, chain := digest (s.chain ++ rec) }

/-- Whether a write of a window waits at its home: for the host path while the link retrains (R440), or for a serial-mode transaction's lock (R157). -/
def windowWaits (s : State) (w : Window) (off : Nat) : Bool :=
  if w.kind = 1 then !hostReady s (.host (w.base + off)) || lineHeld s (.host (w.base + off))
  else w.kind == 3 && lineHeld s (.pkg w.target (w.base + off))

/-- The checks of R183 on a GREL whose source stands in the gate buffer, and its debit: under the policy now installed for its label, or the one installed when it was accepted, if that has been withdrawn since (R184). It waits while the log has no room (R188). (DEDUCED: log 34) -/
def gateDebit (s : State) (c : Copy) (g : GateWork) (len win off : Nat) (want : Label) : State :=
  let refuse := fun (s : State) (code : Nat) => gateEnd s { c with refusal := code }
  if !subset (c.label ||| c.ctx ||| c.platLabel) want then refuse s 0x30
  else match (policyFor s want).orElse fun _ => g.policy with
    | none => refuse s 0x31
    | some pol =>
      if pol.codeId ≠ zero32 ∧ pol.codeId ≠ codeIdOf s c.launch then refuse s 0x32
      else match (if pol.nwin ≤ win then none else pol.windows[win]?) with
        | none => refuse s 0x33
        | some w =>
          if w.size < off + len ∨ (w.kind = 2 ∧ off ≠ 0) then refuse s 0x33
          else
            let pol := pol.roll s.pkgTime
            let s := putPolicy s pol
            if pol.budget < pol.spent + len then refuse s 0x34
            else if s.logAck + 65536 ≤ s.logSeq then s
            else
              let pol := { pol with spent := pol.spent + len }
              { putPolicy s pol with gate := some { g with debit := some (pol, s.pkgTime) } }

/-- A step of a debited release: its next 16 bytes, or the whole of a message, are written to its window; once all are, or a write fails, the record is appended and the GREL ends (R183, R433). (DEDUCED: log 34) -/
def gateWrite (s : State) (c : Copy) (g : GateWork) (pol : Policy) (now len win off : Nat) : State :=
  match pol.windows[win]? with
  | none => s
  | some w =>
    let data := c.plat.flatMap fun e => e.2
    let finish := fun (partly : Bool) (c : Copy) => gateEnd (appendLog s (logRecord s pol c w win off len now partly data)) c
    if len ≤ g.written then finish false { c with bits := c.full }
    else if !windowOpen s w then finish true { c with refusal := 0x35 }
    else if windowWaits s w (off + g.written) then s
    else
      let n := if w.kind = 2 then len else 16
      { windowWrite s (copyAgent s c) w (off + g.written) ((data.drop g.written).take n) with gate := some { g with written := g.written + n } }

/-- GATE_ACCEPT (R183): a step of the gate unit. It accepts the oldest GREL of its queue; when the source of the one it works on stands in the gate buffer, it checks and debits it; then it writes the window and appends the record. (DEDUCED: log 34) -/
def execGateAccept (s : State) : Host.Outcome State Fault Refusal :=
  match s.gate with
  | none => (match s.gateQ with
    | [] => .next s
    | id :: _ => match (mget? s.copies id).map Copy.plan with
      | some (CopyPlan.gate _ _ _ _ want) => .next { s with gate := some ⟨id, policyFor s want, none, 0⟩ }
      | _ => .next { s with gateQ := s.gateQ.drop 1 })
  | some g => match mget? s.copies g.copy with
    | none => .next { s with gate := none, gateQ := s.gateQ.filter fun x => x != g.copy }
    | some c => match c.plan, g.debit with
      | .gate _ len win off want, none => .next (if c.plat.length < len / 16 then s else gateDebit s c g len win off want)
      | .gate _ len win off _, some (pol, now) => .next (gateWrite s c g pol now len win off)
      | _, _ => .next { s with gate := none, gateQ := s.gateQ.filter fun x => x != g.copy }

end Sys2Proof.Machine
end

