-- ==== Sys2Proof/Machine/System.lean ====
section
/-! DEFINITION. Control registers, trap return and the resolution of a stopped split (R359 to R361, R373, R374, R381, R390, R407, R416). -/
namespace Sys2Proof.Machine

/-! ## Records as words (R373) -/

/-- The sixteen words of a fault record. -/
def Record.words (r : Record) : List Word :=
  let lo := fun (x : DWord) => x.setWidth 32
  let hi := fun (x : DWord) => (x >>> 32).setWidth 32
  let head := r.rate % 8 * 2 ^ 16 + b1 r.waiting * 2 ^ 21 + b1 r.term * 2 ^ 22 + b1 r.trapped * 2 ^ 23 + r.code % 256 * 2 ^ 24
  [r.handle, BitVec.ofNat 32 head, BitVec.ofNat 32 (r.lquad % 65536 + r.pquad % 65536 * 65536), r.lblock, BitVec.ofNat 32 r.launch,
   r.smask, r.mask, r.info, lo r.region, hi r.region, lo r.pc, hi r.pc, lo r.addr, hi r.addr, BitVec.ofNat 32 r.seq, BitVec.ofNat 32 (r.seq / 2 ^ 32)]

/-! ## Resolving a stop (R381, R390, R416) -/

/-- The splits of a stopped wave that a step issues: the named one, or each in entry order; none that sleeps or stands at join. -/
def stepEntries (w : Wave) (k : Nat) (all : Bool) : List Nat :=
  (w.splits.filter fun e => e.2.state == .parked && (all || e.1 == k)).map fun e => e.1

/-- A stopped wave with some parked splits released for a step, whose generations rise (R374): the others stay stopped. -/
def stepRelease (w : Wave) (k : Nat) (ks : List Nat) : Wave :=
  let n := ks.foldl (fun n j => n + 2 ^ j) 0
  let w := { w with
    stop := none, step := n * 17, gens := (dedup (k :: ks)).foldl raiseGen w.gens
    splits := mmap w.splits fun j sp => if sp.state = .parked ∧ j ∈ ks then { sp with walks := [] } else sp }
  Wave.unpark w fun j sp => sp.state == SplitState.parked && decide (j ∈ ks)

/-- Whether a mode is legal for a stop (R381, R390): `.next` and the steps only after TRAP, BREAK and steps, and a step only when some split can issue. (DESIGN CHOICE: log 52) -/
def modeLegal (w : Wave) (k : Nat) (st : Stop) : ResolveMode → Bool
  | .replay => true
  | .finish => true
  | .next => keepsPc st.code
  | .step => keepsPc st.code && !(stepEntries w k false).isEmpty
  | .stepWave => keepsPc st.code && !(stepEntries w k true).isEmpty

/-- The named split of a TRAP, BREAK or step resumes at REGION, wherever it stands (R37, R381); the wave's other splits run from where they stopped. -/
def resumeAtRegion (s : State) (w : Wave) (k : Nat) : State :=
  let s := { s with regs := s.regs.filter fun r => !(r.wave == w.id && r.split == k) }
  let s := if w.inTx k then releaseSerial s w.id else s
  putWave s (resumeWave (parkHere { w with pendingWake := w.pendingWake.filter fun j => j != k } k) k)

/-- What a resolution does to a stopped wave (R381). -/
def applyResolve (s : State) (w : Wave) (k : Nat) (st : Stop) (m : ResolveMode) : State :=
  match m with
  | .replay =>
    let s := st.rerun.foldl (fun s c => rerunCopy s c) s
    takeLate (if st.atPc then resumeAtRegion s w k else putWave s (resumeWave w k)) w.id
  | .next => takeLate (putWave s (resumeWave w k)) w.id
  | .finish =>
    let sp := w.split k
    let s := leaveLanes s w.id k sp.mask sp.ctx
    (match mget? s.waves w.id with
     | none => s
     | some w' => takeLate (putWave s (resumeWave w' k)) w.id)
  | .step => putWave s (stepRelease w k (stepEntries w k false))
  | .stepWave => putWave s (stepRelease w k (stepEntries w k true))

/-- Resolve the stop that a handle names; a stale handle changes nothing. For a saved wave the resolution takes effect when it is restored (R385). -/
def resolve (s : State) (part : Nat) (h : Word) (m : ResolveMode) : State :=
  match findHandle s part h with
  | none => s
  | some (w, k) => match w.stop with
    | none => s
    | some st =>
      if !modeLegal w k st m then s
      else if w.place = .saved ∨ w.place = .saving then
        (if st.deferred.isSome then s else putWave s { w with stop := some { st with deferred := some m } })
      else applyResolve s w k st m

/-- TRET (R361, R407). -/
def execTret (h : Ctl) (mode : TretV) (a : Opr) (s : State) : Host.Outcome State Fault Refusal :=
  runWord (.tret h mode a) s fun c =>
    let hd := readReg s c a 0 c.low
    let m := match mode with
      | .replay => ResolveMode.replay
      | .next => .next
      | .finish => .finish
    .ok (resolve s c.w.part hd m)

/-! ## Control registers (R359, R360) -/

/-- A control register's value in a lane, low word first (R360). PQUAD, PSLOT and PDIE read physical numbers, although R12 says that programs see logical numbers only. (DESIGN CHOICE: log 59) -/
def csrValue (s : State) (c : Ctx) (n l : Nat) : List Word :=
  let w32 := fun (x : Nat) => [BitVec.ofNat 32 x]
  let phys := fun (x : Nat) => if c.launch.determ then w32 0 else w32 x
  if n = 0 then (if c.launch.determ then [0, 0] else toWords 2 s.clock)
  else if n = 2 then phys c.w.quad
  else if n = 3 then phys c.w.slot
  else if n = 4 then phys c.die
  else if n = 5 then phys c.w.lquad
  else if n = 6 then w32 c.w.part
  else if n = 7 then w32 s.pkgNum
  else if n = 0x10 then w32 l
  else if n = 0x11 then [c.sp.mask]
  else if n = 0x12 then [c.sp.ctx]
  else if n = 0x13 then w32 c.w.depth
  else if n = 0x14 then w32 c.w.entry
  else if n = 0x15 then w32 c.w.batchNext
  else if 0x20 ≤ n ∧ n < 0x28 then w32 (leNat ((c.obj.identity.drop (4 * (n - 0x20))).take 4))
  else if 0x30 ≤ n ∧ n < 0x40 then (match c.w.trapRec with
    | some r => [nthD ({ r with pquad := 0 } : Record).words (n - 0x30) 0]
    | none => [0])
  else [0]

/-- CSRR (R359, R360). -/
def execCsrr (h : Ctl) (d : Opr) (csr : BitVec 16) (s : State) : Host.Outcome State Fault Refusal :=
  runWord (.csrr h d csr) s fun c => .ok (writeDst s c d (if csr = 0 then 2 else 1) (csrValue s c csr.toNat) c.ctx)

/-- CSRW (R359, R360): CTXLABEL, the one register marked writable. (DEDUCED: log 41) -/
def execCsrw (h : Ctl) (csr : BitVec 16) (a : Opr) (s : State) : Host.Outcome State Fault Refusal :=
  runWord (.csrw h csr a) s fun c =>
    let w := theWave s c
    let sp := w.split c.k
    .ok (putWave s (w.setSplit c.k { sp with ctx := c.ctx ||| readReg s c a 0 c.low ||| labelOf s c a 1 }))

end Sys2Proof.Machine
end

