-- ==== Sys2Proof/Machine/Launch.lean ====
section
/-! DEFINITION. Launches: the checks of a launch record, the distribution of clusters, the start and the end of a launch, network launches (R192 to R201, R208, R384, R435). -/
namespace Sys2Proof.Machine

/-! ## Records in memory (R384) -/

/-- Bytes of a record at a virtual address, each page of it readable, of home kind 0 and free of poison; the record crosses at most one page boundary. -/
def recordBytes (s : State) (part : Nat) (va n : Nat) : Option (List Byte) :=
  let at' := fun (a : Nat) => match translateAs s .command part (a % 2 ^ 64) .read with
    | .ok (.dev pa, leaf) => some (pa, leaf.keyId)
    | _ => none
  match at' va, at' (va + n - 1) with
  | some p, some q =>
    let pa := fun (i : Nat) => if va / 2 ^ 15 = (va + i) / 2 ^ 15 then (p.1 + i, p.2) else (q.1 + i - (n - 1), q.2)
    if (List.range n).any fun i => isPoisoned s (.dev (pa i).1) then none
    else some ((List.range n).map fun i => pageByte s (.dev (pa i).1) (pa i).2)
  | _, _ => none

/-! ## Parsing (R193, R195) -/

/-- The draw of a draw record and its draw-list entries. -/
def drawOf (r : Nat) (es : List Nat) : Draw :=
  { width := bits r 111 96, height := bits r 127 112, samples := bits r 131 128, cull := bits r 133 132, depthCmp := bits r 136 134,
    reproj := tb r 137, tol := BitVec.ofNat 32 (bits r 191 160), visPrev := BitVec.ofNat 64 (bits r 255 192),
    visCur := BitVec.ofNat 64 (bits r 319 256), depthT := BitVec.ofNat 64 (bits r 383 320),
    targets := (List.range 4).map fun n => BitVec.ofNat 64 (r / 2 ^ (384 + 64 * n)),
    objs := es.map fun e => ⟨BitVec.ofNat 64 (bits e 127 64), tb e 19, bits e 18 16, bits e 15 0 + 1⟩, cands := [], depth0 := [] }

/-- The launch of a launch record, before its draw. -/
def launchOf (id part queue : Nat) (addr : DWord) (codeObj : Nat) (r gx gy gz : Nat) : Launch :=
  { id := id, part := part, queue := queue, addr := addr, state := .waitWays, terminated := false, code := BitVec.ofNat 64 (bits r 63 0),
    codeObj := codeObj, entry := bits r 217 210, trapEntry := bits r 225 218, draw := none, determ := tb r 204,
    gx := gx, gy := gy, gz := gz, cx := bits r 195 192, cy := bits r 199 196, cz := bits r 203 200, blockLanes := bits r 235 226 + 1,
    heldWays := bits r 209 206, ways := 0, constBase := BitVec.ofNat 64 (bits r 319 256), constSize := 128 * bits r 351 320,
    spawnBase := BitVec.ofNat 64 (bits r 511 448), spawnSize := bits r 543 512, spillBase := BitVec.ofNat 64 (bits r 447 384),
    spillSize := bits r 383 352, parcels := BitVec.ofNat 64 (bits r 639 576), parcelCnt := bits r 559 544 + 1, placeMap := bits r 703 640, start := 0, lists := [],
    assigned := [], dieReady := [], rayQuiet := false, epoch := 0, epochBase := 0, detLost := [], holdSince := [], deadSince := [] }

/-! ## Checks (R198, R384) -/

/-- What a quadrant offers when it holds nothing (R29). -/
def Room.whole : Room := { slots := 16, vregs := 2048, scalars := 1024, bench := 32, bufs := 48 }

/-- Waves of a block that stand on quadrant q of its core (R28). -/
def wavesOn (waves q : Nat) : Nat := ((List.range waves).filter fun w => w % 4 == q).length

/-- Blocks of a cluster on a core position (R85). -/
def blocksOn (blocks pos : Nat) : Nat := ((List.range blocks).filter fun c => c % 4 == pos).length

/-- Whether a cluster fits a logical quad with the rooms and ranges given, keeping the reserve of each core (R30, R85, R172, R202). -/
def clusterFits (s : State) (p : Partition) (l : Launch) (e : EntryPt) (pquad : Nat) (room : Nat → Room) (taken : Nat → List (Nat × Nat))
    (own : Nat → Bool) : Bool :=
  (List.range 4).all fun pos =>
    let core := pquad * 4 + pos
    let n := blocksOn (blocksPerCluster l) pos
    let waves := wavesPerBlock l
    n == 0 ||
      ((List.range 4).all (fun q =>
        let m := n * wavesOn waves q
        m == 0 || (own (core * 4 + q) && (room (core * 4 + q)).takes e m)) &&
      (let run := if e.scratch = 0 then some 0 else findRun (spaceSize p core) (taken core) (n * e.scratch)
       match run with
       | none => false
       | some f => keepsReserve s p l core (fun quad => (room quad).less e (n * wavesOn waves (quad % 4)))
           (if e.scratch = 0 then taken core else (f, n * e.scratch) :: taken core)))

/-- Whether some quad of the partition takes a launch's cluster, or a draw's rate wave, when it holds nothing. -/
def fitsEmpty (s : State) (p : Partition) (l : Launch) (e : EntryPt) (isDraw : Bool) : Bool :=
  p.qmap.any fun x => qValid x.2 && (
    if isDraw then (List.range 16).any fun k =>
      let core := qPhys x.2 * 4 + k / 4
      tb (qMask x.2) k && Room.whole.takes e 1 && decide (e.scratch ≤ spaceSize p core) &&
        keepsReserve s p l core (fun q => if q = qPhys x.2 * 16 + k then Room.whole.less e 1 else Room.whole) (if e.scratch = 0 then [] else [(0, e.scratch)])
    else clusterFits s p l e (qPhys x.2) (fun _ => Room.whole) (fun _ => []) (ownsQuadrant p))

/-- Ways of a mask. -/
def wayCount (m : BitVec 16) : Nat := ((List.range 16).filter fun i => tb m.toNat i).length

/-- The loaded code object at a base of a partition's address space. The image at CODE holds the object's sections, its code at offset 0 of it, and no file header: what the launch checks is the header of the object that the loader placed there. (DESIGN CHOICE: log 26) -/
def objectAt (s : State) (part base : Nat) : Option (Nat × CodeObj) :=
  (s.objects.filter fun o => o.2.part == part && o.2.base.toNat == base).getLast?

/-- The failing reasons of a launch record's own fields. -/
def recordReasons (p : Partition) (r gx gy gz : Nat) : List Nat :=
  let isDraw := tb r 205
  let grid := gx ≠ 0 ∨ gy ≠ 0 ∨ gz ≠ 0 ∨ bits r 203 192 ≠ 0
  (if bits r 1023 768 ≠ 0 ∨ bits r 575 560 ≠ 0 ∨ bits r 255 236 ≠ 0 ∨ bits r 127 64 ≠ 0 then [1] else []) ++
  (if isDraw ∧ (grid ∨ bits r 767 704 = 0) then [1] else []) ++
  (if !isDraw ∧ bits r 767 704 ≠ 0 then [1] else []) ++
  (if 16 < (bits r 195 192 + 1) * (bits r 199 196 + 1) * (bits r 203 200 + 1) then [4] else []) ++
  (if 8 < bits r 209 206 ∨ wayCount p.l2ways ≤ bits r 209 206 then [5] else []) ++
  (if bits r 319 256 % 128 ≠ 0 ∨ bits r 447 384 % 64 ≠ 0 ∨ bits r 511 448 % 32 ≠ 0 then [10] else [])

/-- The failing reasons of a launch against its code object and partition. -/
def objectReasons (s : State) (p : Partition) (l : Launch) (o : CodeObj) (isDraw : Bool) : List Nat :=
  let entry := o.entries[l.entry]?
  (if o.magic ≠ 0x534C5254 ∨ o.version ≠ 1 then [2] else []) ++
  (match entry with
   | none => [3]
   | some e => if e.kind ≠ (if isDraw then 1 else 0) then [3] else []) ++
  (if l.trapEntry = 0xFF then [] else match o.entries[l.trapEntry]? with
    | none => [3]
    | some e => if e.kind ≠ 4 then [3] else []) ++
  (match entry with
   | none => []
   | some e =>
     (if fitsEmpty s p l e isDraw then [] else [4]) ++
     (if o.entries.any fun x => x.kind == 3 && x.held != e.held then [6] else []))

/-- The failing reasons of a draw record's fields (R62, R195). -/
def drawReasons (r : Nat) : List Nat :=
  let side := fun n => n % 2 ≠ 0 ∨ n < 2 ∨ 16384 < n
  let tol := fval (BitVec.ofNat 32 (bits r 191 160))
  (if bits r 1023 720 ≠ 0 ∨ bits r 159 138 ≠ 0 ∨ 4 < bits r 136 134 ∨ bits r 133 132 = 3 ∨ bits r 131 128 ∉ [1, 2, 4] ∨
      side (bits r 111 96) ∨ side (bits r 127 112) ∨ bits r 95 64 = 0 ∨ 2 ^ 24 < bits r 95 64 ∨ tol.isNan ∨ tol.compare (Num.ofInt 0) = .lt
   then [7] else []) ++
  (if bits r 63 0 % 16 ≠ 0 then [10] else [])

/-- The failing reasons of draw-list entries. -/
def listReasons (p : Partition) (es : List Nat) : List Nat :=
  if es.any fun e => bits e 63 20 != 0 || quadCount p (bits e 18 16) == 0 then [8] else []

/-- The draw record of a launch and its list, or the reasons why not. -/
def readDraw (s : State) (p : Partition) (part addr : Nat) : List Nat × Option (Nat × List Nat) :=
  match recordBytes s part addr 128 with
  | none => ((if addr % 64 ≠ 0 then [10] else []) ++ [11], none)
  | some bs =>
    let r := leNat bs
    let n := min (bits r 95 64) (2 ^ 24)
    let es := (List.range n).map fun i => recordBytes s part (bits r 63 0 + 16 * i) 16
    let nums := es.filterMap fun e => e.map leNat
    ((if addr % 64 ≠ 0 then [10] else []) ++ drawReasons r ++ listReasons p nums ++ (if es.any Option.isNone then [11] else []), some (r, nums))

/-- Check a launch (R198, R384): the INFO of its refusal, or the launch. `counts` are the values of LAUNCH_INDIRECT, or why they cannot be read. (DESIGN CHOICE: log 26) -/
def checkLaunch (s : State) (p : Partition) (part queue : Nat) (addr : DWord) (rec : Option (List Byte)) (counts : Option (Option (Nat × Nat × Nat))) :
    Except Word Launch :=
  let refuse := fun (rs : List Nat) => (BitVec.ofNat 32 (2 ^ 31 + (minBy? (fun x => x) rs).getD 0) : Word)
  let misaligned := if addr.toNat % 64 ≠ 0 then [10] else []
  match rec with
  | none => .error (refuse (misaligned ++ [11]))
  | some bs =>
    let r := leNat bs
    let grid := match counts with
      | some (some (x, y, z)) => (x - 1, y - 1, z - 1)
      | _ => (bits r 159 128, bits r 175 160, bits r 191 176)
    let excess : List Nat := match counts with
      | some (some (_, y, z)) => if 65536 < y ∨ 65536 < z then [9] else []
      | some none => [11]
      | none => []
    let code := bits r 63 0
    let isDraw := tb r 205
    let readable := (recordBytes s part code 128).isSome
    let obj := if readable then objectAt s part code else none
    let l := launchOf s.nextLaunch part queue addr ((obj.map fun o => o.1).getD 0) r grid.1 grid.2.1 grid.2.2
    let dr := if isDraw ∧ bits r 767 704 ≠ 0 then readDraw s p part (bits r 767 704) else ([], none)
    let missing := match obj with
      | none => none
      | some o => (List.range 128).find? fun i => tb o.2.feature.toNat i && !tb s.capFeature.toNat i
    match missing with
    | some i => .error (BitVec.ofNat 32 i)
    | none =>
      let rs := misaligned ++ recordReasons p r grid.1 grid.2.1 grid.2.2 ++ excess ++ dr.1 ++
        (if !readable then [11] else match obj with
          | none => [2]
          | some o => objectReasons s p l o.2 isDraw)
      if rs.isEmpty then
        match dr.2 with
        | none => .ok l
        | some (d, es) => .ok { l with draw := some (drawOf d es), parcels := BitVec.ofNat 64 (bits d 703 640), parcelCnt := bits d 719 704 + 1 }
      else .error (refuse rs)

/-! ## Distribution (R199 to R201) -/

/-- A cell of the curve from its distance (R199); fuel bounds the doublings. -/
def d2xy (n : Nat) : Nat → Nat → Nat → Nat → Nat → Nat × Nat
  | 0, x, y, _, _ => (x, y)
  | fuel + 1, x, y, t, sz =>
    if n ≤ sz then (x, y)
    else
      let rx := t / 2 % 2
      let ry := (t ^^^ rx) % 2
      let p := if ry = 0 then (if rx = 1 then (sz - 1 - y, sz - 1 - x) else (y, x)) else (x, y)
      d2xy n fuel (p.1 + sz * rx) (p.2 + sz * ry) (t / 4) (sz * 2)

/-- The least power of two at least n. -/
def ceilPow2 (n : Nat) : Nat := if n ≤ 1 then 1 else 2 ^ ((n - 1).log2 + 1)

/-- The curve list of a grid, as logical cluster indices (R194, R199). -/
def curveList (l : Launch) : List Nat :=
  let n := ceilPow2 (max (l.gx + 1) (l.gy + 1))
  (List.range (l.gz + 1)).flatMap fun z => (List.range (n * n)).filterMap fun d =>
    let (x, y) := d2xy n 40 0 0 d 1
    if l.gx < x ∨ l.gy < y then none else some (x + (l.gx + 1) * (y + (l.gy + 1) * z))

/-- The die that runs a position of the curve list without a placement map (R200). -/
def dieAt (p : Partition) (n pos : Nat) : Nat :=
  let q := (List.range 8).map fun d => quadCount p d
  let total := q.foldl (fun a b => a + b) 0
  let before := fun d => (q.take d).foldl (fun a b => a + b) 0
  ((List.range 8).find? fun d => decide (n * before d / total ≤ pos) && decide (pos < n * (before d + nthD q d 0) / total)).getD 0

/-- The votes of a cluster's placement-map entry for each die (R201). -/
def mapVotes (s : State) (p : Partition) (part pm lci : Nat) : List Nat :=
  match recordBytes s part (pm + 32 * lci) 32 with
  | none => []
  | some bs => (List.range 4).filterMap fun k =>
    let a := leNat ((bs.drop (8 * k)).take 8)
    if a = 0 then none
    else match (if canonical a then walkAs s .command part a else .error .miss) with
      | .ok leaf => (match leaf.place a with
        | .dev pa => if quadCount p (dieOf pa) = 0 then none else some (dieOf pa)
        | _ => none)
      | .error _ => none

/-- The die of a cluster: by its votes, ties to the lower die; else by its position. -/
def clusterDie (s : State) (p : Partition) (l : Launch) (pm n pos lci : Nat) : Nat :=
  let votes := if pm = 0 then [] else mapVotes s p l.part pm lci
  if votes.isEmpty then dieAt p n pos
  else (minBy? (fun d => (4 - (votes.filter fun v => v == d).length) * 8 + d) (List.range 8)).getD 0

/-- The lists of the dies, each in curve-list order. -/
def dieLists (s : State) (p : Partition) (l : Launch) (pm : Nat) : Map (List Nat) :=
  let cl := curveList l
  let ds := cl.zipIdx.map fun x => (clusterDie s p l pm cl.length x.2 x.1, x.1)
  ((List.range 8).filter fun d => quadCount p d != 0).map fun d => (d, (ds.filter fun x => x.1 == d).map fun x => x.2)

/-! ## Starting (R44, R69, R72, R192, R208) -/

/-- The free ways of a partition's mask, highest first. -/
def freeWays (s : State) (p : Partition) (part : Nat) : List Nat :=
  ((List.range 16).reverse).filter fun i => tb p.l2ways.toNat i && !tb (waysHeld s part) i

/-- The candidate map of a draw (R69). -/
def drawCands (s : State) (part : Nat) (d : Draw) : List Cand :=
  if !d.reproj then []
  else ((List.range d.height).flatMap fun y => (List.range d.width).map fun x => (x, y)).foldl (fun m q =>
    match visPlace s part (visAddr d.visPrev d q.1 q.2) .read with
    | none => m
    | some l => match candidate d q.1 q.2 (leNat (readPlace s l 16)) with
      | none => m
      | some c => addCand d.depthCmp m c) []

/-- The size of a launch's spawn overflow region: 0 where some page of it does not translate to writable memory of home kind 0 (R423). -/
def overflowUnits (s : State) (l : Launch) : Nat :=
  let first := l.spawnBase.toNat / 2 ^ 15
  let last := (l.spawnBase.toNat + 32 * l.spawnSize - 1) / 2 ^ 15
  let ok := fun (pg : Nat) => match translateNow s l.part (pg * 2 ^ 15 % 2 ^ 64) .write with
    | .ok (.dev _, _) => true
    | _ => false
  if l.spawnSize ≠ 0 ∧ (List.range (last + 1 - first)).all fun i => ok (first + i) then l.spawnSize else 0

/-- A launch starts: its ways, its lists, its draw's maps, and a LAUNCH or FRAME element on each die with quadrants. -/
def beginLaunch (s : State) (p : Partition) (l : Launch) : State :=
  let ways := ((freeWays s p l.part).take l.heldWays).foldl (fun m i => m + 2 ^ i) 0
  let lists := if l.draw.isSome then [] else dieLists s p l l.placeMap
  let draw := l.draw.map fun d => { d with cands := drawCands s l.part d, depth0 := depthStart s l.part d }
  let l := { l with state := .running, ways := ways, spawnSize := overflowUnits s l, start := s.clock, lists := lists, assigned := lists.map fun x => (x.1, x.2.length), draw := draw }
  let s := l2Clear { s with launches := mset s.launches l.id l } ways
  ((List.range 8).filter fun d => quadCount p d != 0).foldl (fun s d =>
    createElem s { Elem.blank with launch := l.id, die := d, rate := .whole }) s

/-- Whether the start of a draw waits for the path to what it reads: the depth target's plat, and the entries of VISPREV under REPROJ (R69, R72, R440). -/
def drawAway (s : State) (l : Launch) : Bool :=
  match l.draw with
  | none => false
  | some d => platAway s l.part d.depthT ||
    d.reproj && (List.range d.height).any fun y => (List.range d.width).any fun x => homeAway s l.part (visAddr d.visPrev d x y) .read

/-- A launch that has passed its checks starts, or waits at the head of its queue for ways (R208). -/
def startOrWait (s : State) (p : Partition) (l : Launch) : State × Bool :=
  let s := { s with nextLaunch := s.nextLaunch + 1 }
  if (freeWays s p l.part).length < l.heldWays + 1 then ({ s with launches := mset s.launches l.id l }, false)
  else (beginLaunch s p l, true)

/-- A refused launch: its record; it counts as ended (R383). (DEDUCED: log 27) -/
def refuseLaunch (s : State) (part : Nat) (addr : DWord) (info : Word) : State :=
  pushRecord { s with nextLaunch := s.nextLaunch + 1 } part (eventRecord s.nextLaunch 0x21 info.toNat addr.toNat)

/-! ## The end of a launch (R88, R192, R207, R382) -/

/-- What a launch has issued to memory has performed, and its copies are complete. -/
def launchStored (s : State) (lid : Nat) : Bool :=
  s.waves.all (fun e => e.2.launch != lid || e.2.pending.all fun x => x.doneAll) && s.copies.all fun c => c.2.launch != lid || c.2.done

/-- Nothing of a launch is left to run. -/
def launchDone (s : State) (l : Launch) : Bool :=
  quietNow s l && s.waves.all (fun e => e.2.launch != l.id || e.2.allExited) && s.gathers.all (fun g => g.launch != l.id) &&
    s.gatherSlots.all (fun g => g.2.launch != l.id) && s.spawnQ.all (fun q => q.2.all fun r => r.launch != l.id) &&
    s.overflow.all (fun q => q.2.all fun r => r.2.launch != l.id) && launchStored s l.id

/-- The end of a launch: a draw's outputs are written, its constant lines leave L1, its records and ways return, its last epoch ends. -/
def endLaunch (s : State) (l : Launch) : State :=
  let s := checkQuiet s l.id
  let s := match l.draw with
    | some d => if l.terminated then s else drawOutputs s l d
    | none => s
  let s := endEpoch s l.id
  let s := { s with l1 := s.l1.filter fun x => x.constant != some l.id }
  let s := { s with elems := s.elems.filter fun e => e.2.launch != l.id }
  let s := { s with traceHolds := s.traceHolds.filter fun h => h.launch != l.id }
  releaseLaunch { s with launches := mmodify s.launches l.id fun x : Launch => { x with state := .ended } } l.id

/-- LAUNCH_END (R192): a launch of which nothing is left to run and whose outputs wait for nothing, or a terminated launch whose copies are complete. -/
def execLaunchEnd (lid : Nat) (s : State) : Host.Outcome State Fault Refusal :=
  match mget? s.launches lid with
  | none => .next s
  | some l =>
    if l.state ≠ .running then .next s
    else if l.terminated then
      (if s.copies.all fun c => c.2.launch != lid || c.2.done then .next (endLaunch s l) else .next s)
    else if launchDone s l && !(match l.draw with
        | some d => outputsWait s l d
        | none => false) then .next (endLaunch s l) else .next s

end Sys2Proof.Machine
end

