-- ==== Sys2Proof/Machine/Command.lean ====
section
/-! DEFINITION. Command queues: the doorbell, the commands, the queue of network launches (R101, R190 to R192, R197, R208, R383, R435). -/
namespace Sys2Proof

/-- The FENCE bit of a command (R191). -/
def Instr.fenced : Instr → Bool
  | .cmdNop f => f | .launch f _ => f | .launchIndirect f _ _ => f | .cmdLoop f _ _ => f | .cmdIf f _ _ _ _ => f
  | .cmdWait f _ _ _ => f | .signal f _ _ _ => f | .invxl f _ _ => f
  | _ => false

namespace Machine

/-! ## Queues (R190) -/

/-- A queue that software has not set up: its weight is the least that R190 allows. (DESIGN CHOICE: log 4; DESIGN CHOICE: log 11) -/
def Queue.blank : Queue :=
  { ringBase := 0, ringSize := 0, head := 0, tailIdx := 0, weight := 1, wait := .none, loops := [], deficit := [], net := [] }

/-- The queue of network launches: weight 1 (R197). (DESIGN CHOICE: log 28) -/
def Queue.network : Queue := { Queue.blank with weight := 1 }

/-- A queue of a partition. -/
def queueOf (p : Partition) (q : Nat) : Queue := mgetD p.queues q (if q = 8 then Queue.network else Queue.blank)

/-- A queue replaced. -/
def putQueue (s : State) (part q : Nat) (x : Queue) : State :=
  { s with parts := mmodify s.parts part fun p => { p with queues := mset p.queues q x } }

/-- An index in the ring. (DESIGN CHOICE: log 26) -/
def Queue.wrap (x : Queue) (n : Nat) : Nat := n % x.ringSize.toNat

/-- Words from an index up to another. -/
def Queue.span (x : Queue) (a b : Nat) : Nat := (x.wrap b + x.ringSize.toNat - x.wrap a) % x.ringSize.toNat

/-- The address of a word of the ring. -/
def Queue.addr (x : Queue) (i : Nat) : DWord := x.ringBase + BitVec.ofNat 64 (8 * x.wrap i)

/-- A word of the ring, as the home slice holds it: the command processor reads it (R218). A shadow of its line is folded into the value and stays attached. (DESIGN CHOICE: log 26) -/
def ringWord (s : State) (part : Nat) (x : Queue) (i : Nat) : Option DWord :=
  match translateAs s .command part (x.addr i).toNat .read with
  | .error _ => none
  | .ok (l, leaf) => if !hostReady s l || poisonHit s l then none else some (BitVec.ofNat 64 (leNat (pageBytes s l 8 leaf.keyId)))

/-- The words of the command at HEAD, if all of them lie before TAIL. -/
def commandWords (s : State) (part : Nat) (x : Queue) : Option (List DWord) :=
  if x.ringSize = 0 ∨ x.span x.head x.tailIdx = 0 then none
  else match ringWord s part x x.head with
    | none => none
    | some hd =>
      let n := bits hd.toNat 55 51 + 1
      if x.span x.head x.tailIdx < n then none
      else
        let ws := (List.range n).map fun i => ringWord s part x (x.head + i)
        if ws.any Option.isNone then none else some (ws.filterMap id)

/-- Loops whose body ends at HEAD start again or end (R191). Fuel bounds the nesting. (DEDUCED: log 27) -/
def closeLoops : Nat → Queue → Queue
  | 0, x => x
  | fuel + 1, x => match x.loops with
    | [] => x
    | f :: fs =>
      if x.head ≠ f.stop then x
      else if 1 < f.left then { x with head := f.start, loops := { f with left := f.left - 1 } :: fs }
      else closeLoops fuel { x with loops := fs }

/-- HEAD moved past `n` words. A skip past the end of a loop's body leaves the loop. -/
def Queue.advance (x : Queue) (n : Nat) : Queue :=
  let kept := x.loops.filter fun f => decide (n ≤ x.span x.head f.stop)
  closeLoops 5 { x with head := x.wrap (x.head + n), loops := kept }

/-- Every launch that a queue has started has ended. -/
def queueIdle (s : State) (part q : Nat) : Bool := s.launches.all fun l => l.2.part != part || l.2.queue != q || l.2.state == .ended

/-- Run a command of the cursor's queue: with FENCE it waits for every earlier launch of the queue. (DESIGN CHOICE: log 35) -/
def runCommand (i : Instr) (s : State) (body : Nat → Nat → Partition → Queue → State) : Host.Outcome State Fault Refusal :=
  let (part, q) := s.curQueue
  match mget? s.parts part with
  | none => .fault .noQueue
  | some p => match mget? p.queues q with
    | none => .fault .noQueue
    | some x => if i.fenced && !queueIdle s part q then .next s else .next (body part q p x)

/-- The command that a queue takes next: it waits for nothing, its partition runs, and all the words of the command lie before TAIL (R190, R212). -/
def fetchCommand (s : State) (part q : Nat) : Option Instr :=
  match mget? s.parts part with
  | none => none
  | some p => match mget? p.queues q with
    | none => none
    | some x =>
      if p.state = .running ∧ x.wait = .none ∧ q < 8 then (commandWords s part x).map decodeCommand else none

/-! ## Commands (R191, R383) -/

/-- A request from outside ends package sleep (R217). -/
def wakePackage (s : State) : State := { s with power := s.power.filter fun e => e.st != .packageSleep }

/-- TAIL: the doorbell (R190); a stopped queue reads its command again (R383). -/
def execTail (part q : Nat) (v : DWord) (s : State) : Host.Outcome State Fault Refusal :=
  match mget? s.parts part with
  | none => .next s
  | some p =>
    if !p.vfEnabled || decide (7 < q) then .next s
    else
      let x := queueOf p q
      .next (putQueue (wakePackage s) part q { x with tailIdx := x.wrap v.toNat, wait := if x.wait = .stopped then .none else x.wait })

/-- NOP, of any length. -/
def execCmdNop (fence : Bool) (s : State) : Host.Outcome State Fault Refusal :=
  runCommand (.cmdNop fence) s fun part q _ x =>
    match ringWord s part x x.head with
    | none => s
    | some hd => putQueue s part q (x.advance (bits hd.toNat 55 51 + 1))

/-- A launch taken by a queue: refused, started, or waiting for ways with HEAD at its command (R208); while what its start reads cannot be reached, the command waits (R440). -/
def takeLaunch (s : State) (part q : Nat) (p : Partition) (x : Queue) (words : Nat) (addr : DWord) (r : Except Word Launch) : State :=
  match r with
  | .error info => putQueue (refuseLaunch s part addr info) part q (x.advance words)
  | .ok l => if drawAway s l then s else match startOrWait s p l with
    | (s, true) => putQueue s part q (x.advance words)
    | (s, false) => putQueue s part q { x with wait := .ways l.id }

/-- LAUNCH (R191, R198, R384). -/
def execLaunch (fence : Bool) (addr : DWord) (s : State) : Host.Outcome State Fault Refusal :=
  runCommand (.launch fence addr) s fun part q p x =>
    takeLaunch s part q p x 2 addr (checkLaunch s p part q addr (recordBytes s part addr.toNat 128) none)

/-- LAUNCH_INDIRECT (R191, R384): a zero count ends the launch at once. (DESIGN CHOICE: log 26) -/
def execLaunchIndirect (fence : Bool) (addr counts : DWord) (s : State) : Host.Outcome State Fault Refusal :=
  runCommand (.launchIndirect fence addr counts) s fun part q p x =>
    let c := (recordBytes s part counts.toNat 12).map fun bs =>
      let n := leNat bs
      (n % 2 ^ 32, n / 2 ^ 32 % 2 ^ 32, n / 2 ^ 64)
    match checkLaunch s p part q addr (recordBytes s part addr.toNat 128) (some c) with
    | .ok l =>
      (match c with
       | some (a, b, d) =>
         if a = 0 ∨ b = 0 ∨ d = 0 then
           putQueue { s with nextLaunch := s.nextLaunch + 1, launches := mset s.launches l.id { l with state := .ended } } part q (x.advance 3)
         else takeLaunch s part q p x 3 addr (.ok l)
       | none => takeLaunch s part q p x 3 addr (.ok l))
    | r => takeLaunch s part q p x 3 addr r

/-- A queue stops with a CMD_ILLEGAL record; HEAD stays at the command (R383). -/
def stopQueue (s : State) (part q : Nat) (x : Queue) (info : Nat) : State :=
  pushRecord (putQueue s part q { x with wait := .stopped }) part (eventRecord 0 0x20 info (x.addr x.head).toNat)

/-- LOOP: a body of no words or a count of 0 is skipped; a body that crosses the end of an enclosing one, or a fifth nesting, stops the queue. (DEDUCED: log 27) -/
def execCmdLoop (fence : Bool) (body : BitVec 16) (count : Word) (s : State) : Host.Outcome State Fault Refusal :=
  runCommand (.cmdLoop fence body count) s fun part q _ x =>
    let start := x.wrap (x.head + 1)
    let n := body.toNat
    let crosses := match x.loops with
      | f :: _ => decide (x.span start f.stop < n)
      | [] => false
    if crosses || decide (4 ≤ x.loops.length) then stopQueue s part q x (3 + 2 ^ 9)
    else if n = 0 ∨ count = 0 then putQueue s part q (x.advance (1 + n))
    else putQueue s part q { x with head := start, loops := ⟨start, x.wrap (start + n), count.toNat⟩ :: x.loops }

/-- A compare of IF and WAIT (R191). -/
def CCmp.holds (c : CCmp) (a b : Nat) : Bool :=
  match c with
  | .eq => a == b | .ne => a != b | .lt => decide (a < b) | .ge => decide (b ≤ a)

/-- The place of a word that a command names, read through its home, and its value; none while it cannot be read. (DESIGN CHOICE: log 26) -/
def commandWord (s : State) (part : Nat) (addr : DWord) : Option (Loc × Nat) :=
  match engineReadAs s .command part addr with
  | .at l page => some (l, leNat (pageBytes s l 8 page.keyId))
  | _ => none

/-- The state in which the command processor has read a word: a read folds a standard shadow (R145). -/
def readWord (s : State) (part : Nat) (addr : DWord) : State :=
  match engineReadAs s .command part addr with
  | .at l page => reach s part (dieOf l.addr) true .dflt page l
  | _ => s

/-- IF: the next SKIP words are skipped when the compare fails. The queue waits while its word cannot be read. (DEDUCED: log 27) -/
def execCmdIf (fence : Bool) (skip : BitVec 16) (cmp : CCmp) (addr val : DWord) (s : State) : Host.Outcome State Fault Refusal :=
  runCommand (.cmdIf fence skip cmp addr val) s fun part q _ x =>
    match commandWord s part addr with
    | none => s
    | some (_, v) => putQueue (readWord s part addr) part q (x.advance (if CCmp.holds cmp v val.toNat then 3 else 3 + skip.toNat))

/-- WAIT: the queue is held until the compare holds: it registers in the wake table of the word's home slice, and a wake makes it read again (R161, R191). A word that cannot be read is read again. (DESIGN CHOICE: log 26; DEDUCED: log 27) -/
def execCmdWait (fence : Bool) (cmp : CCmp) (addr val : DWord) (s : State) : Host.Outcome State Fault Refusal :=
  runCommand (.cmdWait fence cmp addr val) s fun part q _ x =>
    match commandWord s part addr with
    | none => s
    | some (l, v) =>
      let s := readWord s part addr
      putQueue s part q (if CCmp.holds cmp v val.toNat then x.advance 3 else { x with wait := .word (queueKey s l) false })

/-- CMD_WAIT_WAKE: a woken queue re-reads the command at HEAD (R161, R191). (DEDUCED: log 27) -/
def execCmdWaitWake (part q : Nat) (s : State) : Host.Outcome State Fault Refusal :=
  match mget? s.parts part with
  | none => .next s
  | some p =>
    let x := queueOf p q
    match x.wait with
    | .word _ true => .next (putQueue s part q { x with wait := .none })
    | _ => .next s

/-- SIGNAL: a release at `.sys` once every earlier launch of the queue has ended (R191). The queue waits while its word cannot be written, and at a line that a serial-mode transaction holds (R157). A write to the host is discarded once its link has failed (R441). (DESIGN CHOICE: log 26) -/
def execSignal (fence add : Bool) (addr val : DWord) (s : State) : Host.Outcome State Fault Refusal :=
  runCommand (.signal fence add addr val) s fun part q _ x =>
    if !queueIdle s part q then s
    else match translateAs s .command part addr.toNat (if add then .both else .write) with
      | .error _ => s
      | .ok (l, leaf) =>
        if !hostReady s l || lineHeld s l then s
        else if poisonHit s l && !l.isDev then putQueue s part q (x.advance 3)
        else
          let s := foldAt (reach s part (dieOf l.addr) false .dflt leaf.page l) l
          let v := if add then (leNat (readBytes s l 8) + val.toNat) % 2 ^ 64 else val.toNat
          let s := homeWrite s Agent.outside l (leBytes 8 v)
          putQueue s part q (x.advance 3)

/-- INVXL: the queue waits until the range has been dropped (R101). -/
def execInvxl (fence : Bool) (base size : DWord) (s : State) : Host.Outcome State Fault Refusal :=
  runCommand (.invxl fence base size) s fun part q _ x =>
    let s := { s with parts := mmodify s.parts part fun p => { p with invals := p.invals ++ [(q, base, size)] } }
    putQueue s part q { (x.advance 3) with wait := .invxl }

/-- Whether a virtual address lies in a range. -/
def inRange (base size va : DWord) : Bool := decide ((va - base).toNat < size.toNat)

/-- Whether a range meets a page of a leaf's level. -/
def pageMeets (base size : DWord) (level page : Nat) : Bool :=
  let n := 2 ^ pageBits level
  let lo := page * n
  let b := base.toNat % 2 ^ 55
  size != 0 && decide (lo < b + size.toNat) && decide (b < lo + n)

/-- Whether a range and a TLB entry meet. -/
def tlbMeets (base size : DWord) (e : TlbEntry) : Bool := pageMeets base size e.level e.page

/-- Whether an address was translated through an entry that a range meets: anywhere in the entry's page. -/
def pageIn (base size va : DWord) (page : PageAttr) : Bool := pageMeets base size page.level (pageOf page.level va.toNat)

/-- Whether a wave has an access translated through an entry of a range that has not performed: an entry of its pending queue, a buffered store, or a lane of an LDC. -/
def translatedIn (w : Wave) (base size : DWord) : Bool :=
  (w.pending.any fun e => e.accs.any fun a : Access => !a.done && a.bytes != 0 && !a.loc.isScr && pageIn base size a.va a.page) ||
  (w.tx.depth != 0 && w.tx.writes.any fun b => !b.loc.isScr && pageIn base size b.va b.page) ||
  (w.long.any fun o => match o.what with
    | .const _ _ lanes _ _ _ => lanes.any fun x => pageIn base size x.2.2.2 x.2.2.1
    | _ => false)

/-- INVXL_COMPLETE (R101, R411): the accesses already translated through the range have performed, the range leaves every TLB, engines that wait on it try again, and the queue goes on. -/
def execInvxlComplete (part q : Nat) (s : State) : Host.Outcome State Fault Refusal :=
  match mget? s.parts part with
  | none => .next s
  | some p => match p.invals.find? fun x => x.1 == q with
    | none => .next s
    | some (_, base, size) =>
      let open' := s.waves.any fun w => w.2.part == part && translatedIn w.2 base size
      if open' then .next s
      else
        let s := { s with tlb := s.tlb.filter fun e => !(e.part == part && tlbMeets base size e) }
        let s := { s with rays := mmap s.rays fun _ (r : Ray) =>
          if r.part = part ∧ (match r.stall with | some va => inRange base size va | none => false) = true then { r with stall := none } else r }
        let clear := fun (o : LongOp) => match o.what with
          | .tex q => if (match q.stall with | some va => inRange base size va | none => false) then { o with what := LongWhat.tex { q with stall := none } } else o
          | _ => o
        let s := { s with waves := mmap s.waves fun _ (w : Wave) => if w.part = part then { w with long := w.long.map clear } else w }
        let s := { s with parts := mmodify s.parts part fun p => { p with invals := p.invals.filter fun x => x.1 != q } }
        match mget? s.parts part with
        | none => .next s
        | some p => let x := queueOf p q
          .next (putQueue s part q { x with wait := if x.wait = .invxl then .none else x.wait })

/-- CMD_ILLEGAL (R383): an unassigned opcode, a length that the table does not give, or a CMP code of 4 to 7. -/
def execCmdIllegal (info : Word) (s : State) : Host.Outcome State Fault Refusal :=
  runCommand (.cmdIllegal info) s fun part q _ x => stopQueue s part q x info.toNat

/-! ## Launches that wait, and those of the network (R197, R208, R435) -/

/-- The next accepted network launch of a partition starts, is refused, or waits for ways. (DESIGN CHOICE: log 28) -/
def takeNetwork (s : State) (part : Nat) (p : Partition) : State :=
  let x := queueOf p 8
  match x.net with
  | [] => s
  | rec :: rest =>
    let x := { x with net := rest }
    match checkLaunch s p part 8 0 (some rec) none with
    | .error info => putQueue (refuseLaunch s part 0 info) part 8 x
    | .ok l => if drawAway s l then s else match startOrWait s p l with
      | (s, true) => putQueue s part 8 x
      | (s, false) => putQueue s part 8 { x with wait := .ways l.id }

/-- LAUNCH_HELD_WAYS_START (R208): a launch that waits for ways starts once enough are free. For queue 8 without such a launch, the next network launch is taken. -/
def execLaunchHeldWaysStart (part q : Nat) (s : State) : Host.Outcome State Fault Refusal :=
  match mget? s.parts part with
  | none => .next s
  | some p =>
    if p.state ≠ .running then .next s
    else
      let x := queueOf p q
      match x.wait with
      | .ways lid => (match mget? s.launches lid with
        | none => .next (putQueue s part q { x with wait := .none })
        | some l =>
          if (freeWays s p part).length < l.heldWays + 1 || drawAway s l then .next s
          else
            let s := beginLaunch s p l
            let x := { x with wait := .none }
            let n := if q = 8 then 0 else match ringWord s part x x.head with
              | some hd => bits hd.toNat 55 51 + 1
              | none => 2
            .next (putQueue s part q (if q = 8 then x else x.advance n)))
      | .none => if q = 8 then .next (takeNetwork s part p) else .next s
      | _ => .next s

/-- The header, record and tag of a network launch packet verify under a tenant's key (R197). -/
def tagOk (t : Tenant) (tenant : Byte) (seq : DWord) (rec tag : List Byte) : Bool :=
  let header := tenant :: List.replicate 7 0 ++ leBytes 8 seq.toNat
  kmac256 t.key (header ++ rec) 32 [] == tag

/-- Clocks of the launches that a tenant had accepted within the last millisecond. -/
def recentLaunches (s : State) (tenant : Nat) : List Nat :=
  (mgetD s.netTimes tenant []).filter fun t => decide (s.clock < t + Config.clocksPerMillisecond)

/-- NETWORK_LAUNCH_PACKET (R197, R435): accepted into the partition's ninth queue, dropped with a NET_REJECT, or dropped without a record. (DESIGN CHOICE: log 28) -/
def execNetworkLaunchPacket (tenant : Byte) (seq : DWord) (rec tag : List Byte) (s : State) : Host.Outcome State Fault Refusal :=
  match mget? s.tenants tenant.toNat with
  | none => .next s
  | some t => match mget? s.parts t.part with
    | none => .next s
    | some p =>
      let reject := fun (reason : Nat) => Host.Outcome.next (pushRecord s t.part (eventRecord 0 0x39 (tenant.toNat + reason * 256) 0))
      if rec.length ≠ 128 ∨ !tagOk t tenant seq rec tag then reject 1
      else if (match t.lastSeq with | some n => decide (seq.toNat ≤ n) | none => false) then reject 2
      else if !(match objectAt s t.part (bits (leNat rec) 63 0) with | some o => decide (o.2.identity ∈ t.identities) | none => false) then reject 3
      else if t.rateLimit ≤ (recentLaunches s tenant.toNat).length then reject 4
      else
        let s := { s with tenants := mset s.tenants tenant.toNat { t with lastSeq := some seq.toNat }
                          netTimes := mset s.netTimes tenant.toNat (recentLaunches s tenant.toNat ++ [s.clock]) }
        let x := queueOf p 8
        .next (putQueue s t.part 8 { x with net := x.net ++ [rec] })

end Machine
end Sys2Proof
end

