-- ==== Sys2Proof/Machine/Control.lean ====
section
/-! DEFINITION. Group 0x0 but for EXIT: positions, divergence, indirect branches, calls, traps (R22 to R27, R47 to R50, R178, R255 to R262, R398, R429). -/
namespace Sys2Proof.Machine

/-- NOP (R255). -/
def execNop (h : Ctl) (s : State) : Host.Outcome State Fault Refusal := runWord (.nop h) s fun _ => .ok s

/-- REGION (R35, R255): the region entry is the instruction after it; with no active lane it only moves on (R251). -/
def execRegion (h : Ctl) (s : State) : Host.Outcome State Fault Refusal :=
  runJump (.region h) s fun c => .ok (advance s c (c.act != 0))

/-- BRA (R256). -/
def execBra (h : Ctl) (tgt : BitVec 20) (s : State) : Host.Outcome State Fault Refusal :=
  runJump (.bra h tgt) s fun c => .ok (putWave s (moveSplit (theWave s c) c.k ⟨branchAddr c.pos.hdr tgt, 0⟩))

/-! ## Divergence (R22, R27, R178) -/

/-- A divergence of the executing split: the taken lanes stay and go to `target`, the others go to `other`, in a split of their own or pending in a serialisation entry. Both take the context label OR `lbl`. With `setRegion` each new position is a region entry (R35). The new split's entry, if there is one. (DEDUCED: log 49) -/
def diverge (s : State) (c : Ctx) (w : Wave) (taken : Mask) (target other : Pos) (rcv : Option DWord) (lbl : Label) (setRegion : Bool) :
    Except Halt (Wave × Option Nat) :=
  let sp := w.split c.k
  let rest := sp.mask &&& ~~~taken
  let ctx := sp.ctx ||| lbl
  let put := fun (w : Wave) (n : Nest) =>
    let sp' := { (sp.goto target) with mask := taken, rcv := rcv, nest := n, ctx := ctx, state := .ready }
    w.setSplit c.k (if setRegion then w.regionAt c.k sp' target else sp')
  match (if w.inTx c.k then none else freeSplit (putWave s w) w), mfree w.joins 3 with
  | some j, some r =>
    let new := { Split.blank with
      pc := other, begun := decide (other.idx ≠ 0), mask := rest, rcv := rcv, nest := .join r, ctx := ctx, readySince := s.clock, serial := freshSerial w j
      region := if setRegion then other else sp.region }
    let w := { w with joins := mset w.joins r ⟨sp.mask, rcv.getD 0, sp.rcv, sp.nest, sp.ctx⟩ }
    .ok ((put w (.join r)).setSplit j new, some j)
  | _, _ => match mfree w.sers 16 with
    | none => .error (reasonFault c.act 2 0)
    | some i =>
      let w := { w with sers := mset w.sers i ⟨sp.mask, rcv, sp.rcv, sp.nest, sp.ctx, rest, other.hdr, sp.mask⟩ }
      .ok (put w (.ser i), none)

/-- Arrivals of the splits that a divergence leaves (R24). -/
def settleBoth (w : Wave) (k : Nat) (j : Option Nat) : Wave :=
  let w := settle settleFuel w k
  match j with
  | some j => settle settleFuel w j
  | none => w

/-- The reconvergence address of the record that a split is inside. -/
def nestRcv (w : Wave) (n : Nest) : Option DWord :=
  match n with
  | .none => none
  | .join j => (mget? w.joins j).map fun r => r.rcv
  | .ser i => (mget? w.sers i).bind fun e => e.rcv

/-- A BRC after its condition (R22, R35, R178, R257). -/
def branchOn (s : State) (c : Ctx) (w : Wave) (taken : Mask) (lbl : Label) (target rcv : DWord) : Except Halt State :=
  let sp := w.split c.k
  let fall : Pos := ⟨nextHeader c.pos.hdr c.hdr, 0⟩
  if taken ≠ 0 ∧ taken ≠ sp.mask then
    match diverge s c w taken ⟨target, 0⟩ fall (some rcv) lbl true with
    | .error e => .error e
    | .ok (w, j) => .ok (putWave s (settleBoth w c.k j))
  else
    let dest : Pos := if taken = 0 then fall else ⟨target, 0⟩
    let go := fun (w : Wave) (sp : Split) =>
      Except.ok (putWave s (settle settleFuel (w.setSplit c.k (w.regionAt c.k (sp.goto dest) dest)) c.k))
    if subset lbl sp.ctx then go w sp
    else if nestRcv w sp.nest = some rcv then go w { sp with ctx := sp.ctx ||| lbl }
    else match mfree w.sers 16 with
      | none => .error (reasonFault c.act 2 0)
      | some i =>
        let w := { w with sers := mset w.sers i ⟨sp.mask, some rcv, sp.rcv, sp.nest, sp.ctx, 0, dest.hdr, sp.mask⟩ }
        go w { sp with rcv := some rcv, nest := .ser i, ctx := sp.ctx ||| lbl }

/-- The held branch bit and branch label of a lane's own record written (R49). -/
def writeBranchBit (s : State) (c : Ctx) (k l : Nat) (v : Bool) (lbl : Label) : State :=
  match mget? c.w.elems l with
  | none => s
  | some id => { s with elems := mmodify s.elems id fun e =>
      let b : DWord := BitVec.ofNat 64 (2 ^ k)
      { e with bbits := if v then e.bbits ||| b else e.bbits &&& ~~~b, blabel := e.blabel ||| lbl } }

/-- The lanes whose ancestor at the instruction's rate has a branch bit set, and the OR of the ancestors' branch labels (R50). An ancestor whose header has been returned is read as it last stood. (DESIGN CHOICE: log 55) -/
def replayed (s : State) (c : Ctx) (k : Nat) : Mask × Label :=
  (lanesOf c.sp.mask).foldl (fun acc l => match elemAt s c c.h.rate l with
    | none => acc
    | some e => (if e.bbits.toNat.testBit k then acc.1 ||| bitOf l else acc.1, acc.2 ||| e.blabel)) (0, 0)

/-- BRC (R257): at its own rate from the predicate that GUARD names, else from the ancestors' branch bits. -/
def execBrc (h : Ctl) (tgt rcv : BitVec 20) (hb : BitVec 6) (s : State) : Host.Outcome State Fault Refusal :=
  runJump (.brc h tgt rcv hb) s fun c =>
    let target := branchAddr c.pos.hdr tgt
    let rc := branchAddr c.pos.hdr rcv
    if c.w.rate = h.rate then
      let taken := guardMask c
      let lbl := mgetD c.w.labels (320 + h.guard.val) 0
      let s := if h.rate = .fine ∨ h.rate = .ray then s
        else (lanesOf c.sp.mask).foldl (fun s l => writeBranchBit s c hb.toNat l (bit taken l) lbl) s
      labelled lbl (branchOn s c (theWave s c) taken lbl target rc)
    else
      let r := replayed s c hb.toNat
      labelled r.2 (branchOn s c (theWave s c) r.1 r.2 target rc)

/-! ## Indirect branches (R258 to R260, R398, R429) -/

/-- Whether a lane's target is one that R398 allows. -/
def goodTarget (s : State) (c : Ctx) (t : Nat) (landing : Bool) : Bool :=
  t % 8 == 0 && (match fetchLeaf s c.core c.w.part t with
    | .error _ => false
    | .ok (l, leaf) => !landing || hostReady s l && tb (leNat (pageBytes s l 8 leaf.keyId)) 38)

/-- Whether the header at a lane's target cannot be read while the host link is down (R440). -/
def targetWaits (s : State) (c : Ctx) (t : Nat) (landing : Bool) : Bool :=
  landing && t % 8 == 0 && (match fetchPlace s c.core c.w.part t with
    | .error _ => false
    | .ok l => !hostReady s l)

/-- BRX, CALLX and RET: aw the target, `rcv` the reconvergence address, `lbl` the label that R178 adds, `link` the destination of CALLX. -/
def indirect (s : State) (c : Ctx) (a : Opr) (landing : Bool) (rcv : Option DWord) (lbl : Label) (link : Option Opr) : Except Halt State :=
  let here : Pos := ⟨c.pos.hdr, 0⟩
  let next : Pos := ⟨nextHeader c.pos.hdr c.hdr, 0⟩
  let w := theWave s c
  if c.act = 0 then .ok (putWave s (moveSplit w c.k next))
  else if c.act ≠ c.sp.mask then
    let lbl := mgetD c.w.labels (320 + c.h.guard.val) 0
    match diverge s c w c.act here next rcv lbl false with
    | .error e => .error (e.labelled lbl)
    | .ok (w, j) => .ok (putWave s (settleBoth w c.k j))
  else
    let target := fun l => src64 s c a l
    let bad := maskOf fun l => bit c.act l && !goodTarget s c (target l) landing
    let fault : FaultArgs := ⟨0x0F, 0, target (lowest bad), bad, labelOf s c a 2, labelOf s c a 2⟩
    if (lanesOf c.act).any fun l => targetWaits s c (target l) landing then .error .hold
    else if bad = c.act then .error (.raise fault)
    else
      -- the bad lanes leave for a split or a serialisation entry at the branch
      match (if bad = 0 then .ok (w, none) else diverge s c w (c.act &&& ~~~bad) here here rcv 0 false) with
      | .error e => .error e
      | .ok (w, badSplit) =>
        let good := c.act &&& ~~~bad
        let t := target (lowest good)
        let dest : Pos := ⟨BitVec.ofNat 64 t, 0⟩
        let taken := maskOf fun l => bit good l && target l == t
        let moved := if taken = good then
            let sp := w.split c.k
            .ok (w.setSplit c.k { (sp.goto dest) with ctx := sp.ctx ||| lbl }, none)
          else diverge s c w taken dest here rcv lbl false
        match moved with
        | .error e => .error e
        | .ok (w, j) =>
          let sp := w.split c.k
          -- no lane with a good target may lose work to the fault of the others: those that stand at the branch run again from it
          let w := if bad = 0 then w else w.setSplit c.k (w.regionAt c.k sp dest)
          let w := match j with
            | some x => if bad = 0 then w else w.setSplit x (w.regionAt x (w.split x) here)
            | none => w
          let s := putWave s (settleBoth w c.k j)
          let s := match link with
            | none => s
            | some d => writeDst s { c with act := good } d 2 (fun _ => toWords 2 next.hdr.toNat) c.ctx
          match badSplit with
          | none => .ok s
          | some b =>
            let w := theWave s c
            let w := w.setSplit b { (w.split b) with region := here }
            .ok (takeFault (putWave s w) w b here c.h.rate.num fault)

/-- BRX (R258). -/
def execBrx (h : Ctl) (a b : Opr) (s : State) : Host.Outcome State Fault Refusal :=
  runJump (.brx h a b) s fun c =>
    labelled (operandLabels s c (.brx h a b)) (indirect s c a true (some (BitVec.ofNat 64 (src64 s c b c.low))) (labelOf s c a 2) none)

/-- CALL (R259): every lane of the split takes the return address. -/
def execCall (h : Ctl) (tgt : BitVec 20) (link : BitVec 6) (s : State) : Host.Outcome State Fault Refusal :=
  runJump (.call h tgt link) s fun c =>
    let n := 2 * link.toNat
    let ret := (nextHeader c.pos.hdr c.hdr).toNat
    let s := if hn : n < 192 then writeDst s c (.v ⟨n, hn⟩) 2 (fun _ => toWords 2 ret) c.ctx else s
    .ok (putWave s (moveSplit (theWave s c) c.k ⟨branchAddr c.pos.hdr tgt, 0⟩))

/-- CALLX (R259). -/
def execCallx (h : Ctl) (d a : Opr) (s : State) : Host.Outcome State Fault Refusal :=
  runJump (.callx h d a) s fun c =>
    labelled (operandLabels s c (.callx h d a)) (indirect s c a true (some (nextHeader c.pos.hdr c.hdr)) (labelOf s c a 2) (some d))

/-- RET (R260): its target needs no LANDING. -/
def execRet (h : Ctl) (a : Opr) (s : State) : Host.Outcome State Fault Refusal :=
  runJump (.ret h a) s fun c => labelled (operandLabels s c (.ret h a)) (indirect s c a false c.sp.rcv 0 none)

/-! ## Traps (R262, R378) -/

/-- TRAP and BKPT: the instruction has issued, and the record's PC is the next instruction of the split that its lanes then stand in. -/
def trapWith (i : Instr) (code imm : Nat) (s : State) : Host.Outcome State Fault Refusal :=
  runJump i s fun c =>
    let s := advance s c false
    if c.act = 0 then .ok s
    else
      let w := theWave s c
      let k := if (mget? w.splits c.k).isSome then c.k
        else ((w.splits.find? fun e => e.2.mask &&& c.act != 0).map fun e => e.1).getD c.k
      .ok (takeFault s w k (w.split k).pc c.h.rate.num ⟨code, imm, 0, c.act, 0, 0⟩)

/-- TRAP (R262). -/
def execTrap (h : Ctl) (code : BitVec 20) (s : State) : Host.Outcome State Fault Refusal := trapWith (.trap h code) 0x13 code.toNat s

/-- BKPT (R262). -/
def execBkpt (h : Ctl) (code : BitVec 20) (s : State) : Host.Outcome State Fault Refusal := trapWith (.bkpt h code) 0x14 code.toNat s

end Sys2Proof.Machine
end

