-- ==== Sys2Proof/Machine/Gather.lean ====
section
/-! DEFINITION. Gathers and rate waves, held records that wait, and the placement of clusters by the dispatchers (R28, R44, R45, R54, R55, R61, R85 to R87, R172, R196, R202, R203, R333, R365, R425). -/
namespace Sys2Proof.Machine

/-! ## Rate waves (R45) -/

/-- What a rate wave of a launch runs. -/
def roleOfRate (isDraw : Bool) (r : Rate) : Role :=
  match r with
  | .whole => if isDraw then .frame else .launch
  | .group => .object
  | .cluster => .cluster
  | .vertex => .vertex
  | .coarse => .coarse
  | .fine => .sample
  | .ray => .rayHit

/-- The scalars with which a FRAME or LAUNCH lane starts (R196). -/
def wholeScalars (l : Launch) : List Word :=
  if l.draw.isSome then [1, 1, 1] else [BitVec.ofNat 32 (l.gx + 1), BitVec.ofNat 32 (l.gy + 1), BitVec.ofNat 32 (l.gz + 1)]

/-- The entry that a gather's wave runs. -/
def Gather.entry (g : Gather) (l : Launch) : Nat := if g.rate = .ray then g.hitEntry else l.entry

/-- The registers with which an element's lane starts. -/
def Elem.startRegs (e : Elem) : List Word :=
  match e.hit with
  | some h => h.regs
  | none => e.start

/-- A rate wave of a sealed gather: its lanes, elements and starting registers; the hit lanes' registers carry the gather's label (R78). -/
def rateWave (s : State) (l : Launch) (e : EntryPt) (g : Gather) : Wave :=
  let mask := maskOf fun i => decide (i < g.elems.length)
  let w := { Wave.blank with launch := g.launch, part := l.part, role := roleOfRate l.draw.isSome g.rate, rate := g.rate, entry := g.entry l, lanes := mask,
                             elems := g.elems.zipIdx.map fun x => (x.2, x.1) }
  let w := g.elems.zipIdx.foldl (fun w x => match mget? s.elems x.1 with
    | none => w
    | some el => setStart w e.vregs x.2 el.startRegs) w
  let w := if g.rate = .whole then setScalars w e.scalars (wholeScalars l) else w
  if g.rate = .ray then labelAll w e g.label else w

/-- A sealed gather placed on a quadrant: its wave starts, and its elements run. -/
def placeGather (s : State) (p : Partition) (l : Launch) (e : EntryPt) (g : Gather) (quad : Nat) : State :=
  let w := rateWave s l e g
  let id := s.nextWave
  let elems := g.elems.zipIdx.foldl (fun m x => mmodify m x.1 fun y : Elem => { y with state := .running, wave := some (id, x.2) }) s.elems
  let s := { s with gathers := s.gathers.filter fun x => !(x == g), elems := elems }
  placeOwn s p { w with splits := [(0, startSplit s l e w.lanes g.label)] } quad

/-- RATE_GATHER_SEAL (R45): the open gather of a number on a die, when it is full or 512 clocks have passed without a new element. -/
def execRateGatherSeal (die g : Nat) (s : State) : Host.Outcome State Fault Refusal :=
  match (s.gathers.filter fun x => x.die == die && !x.isSealed)[g]? with
  | none => .next s
  | some x => if decide (32 ≤ x.elems.length) || decide (x.last + 512 ≤ s.clock) then .next (sealGather s x) else .next s

/-- The first quadrant of a partition on a die, in ascending logical number, where a wave of an entry fits without the reserve. (DESIGN CHOICE: log 12) -/
def rateQuad (s : State) (p : Partition) (l : Launch) (e : EntryPt) (die : Nat) : Option Nat :=
  ((quadrantsOn p die).filterMap fun q => physicalOf p q).find? fun q => fitsOn s p l e q false

/-- RATE_WAVE_PLACE (R45): the first sealed gather of a die, of a partition that places waves, goes to the first quadrant where it fits; the later ones wait behind it. (DESIGN CHOICE: log 12) -/
def execRateWavePlace (die : Nat) (s : State) : Host.Outcome State Fault Refusal :=
  let head := s.gathers.find? fun g => g.isSealed && g.die == die && (match mget? s.launches g.launch with
    | some l => places s l.part
    | none => false)
  match head with
  | none => .next s
  | some g => match mget? s.launches g.launch with
    | none => .next s
    | some l => match mget? s.parts l.part, entryOf s l (g.entry l) with
      | some p, some (_, e) => (match rateQuad s p l e die with
        | none => .next s
        | some q => .next (placeGather s p l e g q))
      | _, _ => .next s

/-! ## Records that wait (R55, R365, R425) -/

/-- The creation that may take its record next on a die: of the launches whose first waiter is an element that fits, the oldest; with the launch and the places. (DEDUCED: log 57) -/
def nextRecord (s : State) (die : Nat) : Option (Nat × Nat × Bool × List (Nat × Nat)) :=
  minBy? (fun x => x.2.1) (s.launches.filterMap fun x => match firstWaiter s x.2 die with
    | some (_, runs, some id) => (findRoom s x.2 die runs).map fun room => (x.1, id, room)
    | _ => none)

/-- HELD_RECORD_ALLOCATE (R44, R54, R55): the oldest creation that waits on a die and that its launch's store has room for takes its record. -/
def execHeldRecordAllocate (die : Nat) (s : State) : Host.Outcome State Fault Refusal :=
  match nextRecord s die with
  | none => .next s
  | some (lid, id, room) => .next (clearHold (takeRecord s id room) lid die)

/-- HOLD_EXHAUSTED (R425): creations of a launch on a die have waited 100 microseconds while nothing of it retired there. The record names the rate of the oldest waiting creation; the launch terminates. -/
def execHoldExhausted (lid die : Nat) (s : State) : Host.Outcome State Fault Refusal :=
  match mget? s.launches lid with
  | none => .next s
  | some l => match mget? l.holdSince die with
    | none => .next s
    | some t =>
      if l.state != .running || l.terminated || decide (s.clock < t + 100 * Config.clocksPerMicrosecond) then .next s
      else match firstWaiter s l die with
      | none => .next { s with launches := mset s.launches lid { l with holdSince := merase l.holdSince die } }
      | some w =>
        let rate := match w with
          | (_, _, some id) => (match mget? s.elems id with
            | some e => e.rate.num
            | none => 6)
          | _ => 6
        .next (terminate (pushRecord s l.part { eventRecord lid 0x0D rate 0 with term := true }) lid)

/-! ## Clusters (R28, R85, R202, R203) -/

/-- The cluster coordinates of a logical cluster index (R194). -/
def clusterXyz (l : Launch) (lci : Nat) : Nat × Nat × Nat := (lci % (l.gx + 1), lci / (l.gx + 1) % (l.gy + 1), lci / ((l.gx + 1) * (l.gy + 1)))

/-- The scalars with which the lanes of a block start (R196). -/
def blockScalars (l : Launch) (lci c lblock wnum : Nat) : List Word :=
  let (x, y, z) := clusterXyz l lci
  [x, y, z, c, lblock, wnum].map fun (n : Nat) => BitVec.ofNat 32 n

/-- The free slots of a quadrant, ascending. -/
def freeSlots (s : State) (quad : Nat) : List Nat := (List.range 16).filter fun k => k ∉ slotsTaken s quad

/-- A LANE wave of a block, placed and not begun (R45, R61). -/
def laneWave (l : Launch) (e : EntryPt) (cid lci c lblock wnum : Nat) : Wave :=
  let lanes := maskOf fun i => decide (wnum * 32 + i < l.blockLanes)
  let w := { Wave.blank with launch := l.id, part := l.part, role := .lane, rate := .fine, entry := l.entry, cluster := some cid, block := c,
                             lblock := BitVec.ofNat 32 lblock, wnum := wnum, lanes := lanes }
  let w := (lanesOf lanes).foldl (fun w i => setStart w e.vregs i [BitVec.ofNat 32 (wnum * 32 + i)]) w
  setScalars w e.scalars (blockScalars l lci c lblock wnum)

/-- The BLOCK wave of a block: one lane in the wave-0 slot of its block. -/
def blockWave (l : Launch) (e : EntryPt) (cid lci c lblock : Nat) : Wave :=
  let w := { Wave.blank with launch := l.id, part := l.part, role := .block, rate := .group, entry := l.entry, cluster := some cid, block := c,
                             lblock := BitVec.ofNat 32 lblock, lanes := 1 }
  setScalars w e.scalars (blockScalars l lci c lblock 0)

/-- The LAUNCH element of a launch on a die. (DEDUCED: log 13) -/
def launchElem (s : State) (lid die : Nat) : Option Nat :=
  (s.elems.find? fun e => e.2.launch == lid && e.2.die == die && e.2.rate == .whole).map fun e => e.1

/-- One block put on its core: its BLOCK wave and its LANE waves, wave w on quadrant w mod 4, and its BLOCK element. (DEDUCED: log 13) -/
def placeBlock (s : State) (l : Launch) (e : EntryPt) (cid lci die core c : Nat) : State :=
  let lblock := lci * blocksPerCluster l + c
  let slot0 := freeSlot s (core * 4)
  let bid := s.nextWave
  let s := putNew s (blockWave l e cid lci c lblock) (core * 4) slot0
  let s := (List.range (wavesPerBlock l)).foldl (fun s n =>
    let quad := core * 4 + n % 4
    putNew s (laneWave l e cid lci c lblock n) quad (freeSlot s quad)) s
  createElem s { Elem.blank with launch := l.id, die := die, rate := .group, parent := launchElem s l.id die, index := lblock, wave := some (bid, 0) }

/-- The head cluster of a launch on a die put on a physical quad: its ranges, zeroed, and its blocks. -/
def placeCluster (s : State) (p : Partition) (l : Launch) (e : EntryPt) (die lquad pquad lci : Nat) : State :=
  let cid := s.nextCluster
  let n := blocksPerCluster l
  let ranges := if e.scratch = 0 then [] else (List.range 4).filterMap fun pos =>
    let core := pquad * 4 + pos
    let size := blocksOn n pos * e.scratch
    if size = 0 then none else (findRun (spaceSize p core) (rangesTaken s l.part core) size).map fun f => (core, f, size)
  let s := ranges.foldl (fun s r => zeroRange s p r.1 r.2.1 r.2.2) s
  let cl : Cluster := { id := cid, launch := l.id, die := die, lci := lci, lquad := lquad, pquad := pquad, ranges := ranges, retired := false }
  let s := { s with clusters := mset s.clusters cid cl, nextCluster := cid + 1,
                    launches := mmodify s.launches l.id fun x : Launch => { x with lists := mset x.lists die ((mgetD x.lists die []).drop 1) } }
  (List.range n).foldl (fun s c => placeBlock s l e cid lci die (pquad * 4 + c % 4) c) s

/-- The oldest running launch of a queue that has clusters left on a die where its LAUNCH lane has exited. -/
def headLaunch (s : State) (part queue die : Nat) : Option Launch :=
  (s.launches.find? fun x => x.2.part == part && x.2.queue == queue && x.2.state == .running && !x.2.terminated && x.2.draw.isNone &&
    !(mgetD x.2.lists die []).isEmpty && die ∈ x.2.dieReady).map fun x => x.2

/-- The lowest logical quad of a partition on a die that takes the head cluster of a launch: its logical and physical numbers. -/
def headQuad (s : State) (p : Partition) (l : Launch) (e : EntryPt) (die : Nat) : Option (Nat × Nat) :=
  (p.qmap.find? fun x => qValid x.2 && qPhys x.2 / 12 == die &&
    clusterFits s p l e (qPhys x.2) (roomOf s) (rangesTaken s l.part) (mayUse s p l.id)).map fun x => (x.1, qPhys x.2)

/-- The head cluster of a queue on a die that can be placed now. -/
def headFit (s : State) (p : Partition) (part queue die : Nat) : Option (Launch × EntryPt × Nat × Nat) :=
  match headLaunch s part queue die with
  | none => none
  | some l => match entryOf s l l.entry with
    | none => none
    | some (_, e) => (headQuad s p l e die).map fun q => (l, e, q.1, q.2)

/-- Place a queue's head clusters while its deficit is positive and they fit; fuel bounds their number. (DESIGN CHOICE: log 12) -/
def placeHeads (part queue die : Nat) : Nat → State → State
  | 0, s => s
  | fuel + 1, s => match mget? s.parts part with
    | none => s
    | some p => match mget? p.queues queue with
      | none => s
      | some q =>
        if mgetD q.deficit die 0 ≤ 0 then s
        else match headFit s p part queue die with
          | none => s
          | some (l, e, lq, pq) => match mgetD l.lists die [] with
            | [] => s
            | lci :: _ => placeHeads part queue die fuel (placeCluster s p l e die lq pq lci)

/-- The clusters that a package can hold at once are no more than its wave slots. -/
def clusterFuel : Nat := 24576

/-- The key of a dispatcher's place in its round of queues. -/
def roundKey (part die : Nat) : Nat := part * 8 + die

/-- CLUSTER_PLACE (R202, R203): one visit of a partition's dispatcher on a die. It has work when some queue's head cluster fits; the visited queue, its launch waiting, gains WEIGHT × 65,536 and places its heads; one without a waiting launch has deficit 0. (DESIGN CHOICE: log 12) -/
def execClusterPlace (part die : Nat) (s : State) : Host.Outcome State Fault Refusal :=
  match mget? s.parts part with
  | none => .next s
  | some p =>
    if p.state ≠ .running || !(p.queues.any fun q => (headFit s p part q.1 die).isSome) then .next s
    else
      let at' := mgetD s.bankRR (roundKey part die) 0
      let q := ((p.queues.find? fun x => decide (at' ≤ x.1)).orElse fun _ => p.queues.head?).map fun x => x.1
      match q with
      | none => .next s
      | some q =>
        let s := { s with bankRR := mput 0 s.bankRR (roundKey part die) (q + 1) }
        let weight := (mgetD p.queues q Queue.blank).weight
        let s := setDeficit s part q die fun d => d + (weight * 65536 : Nat)
        .next (setDeficit (placeHeads part q die clusterFuel s) part q die fun d => d)

end Sys2Proof.Machine
end

