-- ==== Sys2Proof/Machine/Events.lean ====
section
/-! DEFINITION. The steps of the ordering machine: completion events, table walks, accesses that perform on their own or through queues, wakes, aborts, copies (R31, R32, R39, R88, R92, R99, R100, R105 to R120, R126 to R128, R153, R154, R157, R159, R160). -/
namespace Sys2Proof.Machine

/-! ## Completion events (R32) -/

/-- The label that held registers of the active lanes carry once a load is complete. -/
def heldLabels (s : State) (w : Wave) (act : Mask) (n regs : Nat) (lbl : Label) : State :=
  (lanesOf act).foldl (fun s l => match mget? w.elems l with
    | none => s
    | some id => { s with elems := mmodify s.elems id fun e : Elem =>
        { e with vlabels := (List.range regs).foldl (fun m i => mput 0 m (n + i) (mgetD m (n + i) 0 ||| lbl)) e.vlabels } }) s

/-- The label of a load's or atomic's destination, set by R176 when every active lane is written. -/
def accessLabel (s : State) (w : Wave) (op : LongOp) (e : Entry) : State :=
  match e.dst with
  | none => s
  | some d =>
    if e.dead || op.dead then s
    else if 192 ≤ d.code ∧ d.code < 256 then heldLabels s w op.act (d.code - 192) d.regs e.label
    else { s with waves := mmodify s.waves w.id fun w => (List.range d.regs).foldl (fun w i => w.setLabel (d.code + i) op.act e.label) w }

/-- Entries leave the pending queue of a wave. -/
def removeEntries (s : State) (wid : Nat) (ids : List Nat) : State :=
  { s with waves := mmodify s.waves wid fun w => { w with pending := w.pending.filter fun e => e.id ∉ ids } }

/-- Whether an entry of a wave is wholly performed and acknowledged. -/
def entryDone (s : State) (w : Wave) (id : Nat) : Bool :=
  match findEntry w id with
  | none => true
  | some e => e.doneAll && hostDone s w.id id

/-- Whether a core's L1 holds the line of a place as a constant line of a launch. -/
def constHeld (s : State) (core launch : Nat) (l : Loc) : Bool :=
  match l with
  | .dev pa => (match l1Find s core (pa / 128) with
    | some x => x.constant == some launch
    | none => false)
  | _ => false

/-- The line that an LDC reads, through the core's L1: a line that the launch has not filled as constant is read at home, and filled where its page is cached (R88, R93). (DESIGN CHOICE: log 40) -/
def constFill (s : State) (w : Wave) (l : Loc) (page : PageAttr) : State :=
  let core := coreOf w.quad
  if constHeld s core w.launch l then s
  else
    let s := reach s w.part (dieOfCore core) true .dflt page l
    match l with
    | .dev pa => if page.cache = 0 then l1Fill s core w.part (pa / 128) (some w.launch) else s
    | _ => s

/-- The bytes that an LDC takes. -/
def constBytes (s : State) (core : Nat) (l : Loc) (page : PageAttr) (n : Nat) : List Byte :=
  match l with
  | .dev pa => (match (if page.cache = 0 then l1Find s core (pa / 128) else none) with
    | some x => (List.range n).map fun i => nthD x.data (pa % 128 + i) 0
    | none => pageBytes s l n page.keyId)
  | l => pageBytes s l n page.keyId

/-- The completion event of an LDC: its values, or POISON for the lanes that meet a poisoned line (R417). -/
def performConst (s : State) (w : Wave) (op : LongOp) (d bytes : Nat) (lanes : List (Nat × Loc × PageAttr × DWord)) (lbl alabel : Label) (pos : Pos) : State :=
  let core := coreOf w.quad
  if lanes.any fun x => !hostReady s x.2.1 then s
  else match lanes.filter fun x => poisonHit s x.2.1 && !constHeld s core w.launch x.2.1 with
    | x :: bad =>
      let s := finishLong s w.id op
      (match mget? s.waves w.id with
        | none => s
        | some w =>
          if op.dead || w.place == .ended then s
          else issuedFault s w op.split pos w.rate.num none ⟨0x10, 0, x.2.2.2.toNat, maskOf fun l => (x :: bad).any fun y => y.1 == l, alabel, lbl⟩)
    | [] =>
      let s := lanes.foldl (fun s x => constFill s w x.2.1 x.2.2.1) s
      let rows := lanes.map fun x => (x.1, extendWords bytes false (leNat (constBytes s core x.2.1 x.2.2.1 bytes)))
      let lbl := lanes.foldl (fun acc x => acc ||| locLabel s w.part x.2.1) lbl
      finishLong (if op.dead then s else putRegs s w.id op.act d ((bytes + 3) / 4) rows lbl) w.id op

/-- The values of a load or atomic written by its completion event: they replace what a fixed-latency instruction has written since (R34). -/
def rewriteResults (s : State) (wid : Nat) (op : LongOp) (e : Entry) : State :=
  match e.dst with
  | none => s
  | some d => if e.dead || op.dead then s else e.accs.foldl (fun s a => putWords s wid d.code a.lane a.res e.label) s

/-- What a completion event does, when it may come. -/
def complete (s : State) (w : Wave) (op : LongOp) : State :=
  match op.what with
  | .access id =>
    if !entryDone s w id then s
    else match findEntry w id with
      | none => finishLong s w.id op
      | some e => finishLong (removeEntries (accessLabel (rewriteResults s w.id op e) w op e) w.id [id]) w.id op
  | .rows ids => if ids.all fun id => entryDone s w id then finishLong (removeEntries s w.id ids) w.id op else s
  | .regs ws => finishLong (if op.dead then s else applyWrites s w.id ws) w.id op
  | .const d bytes lanes lbl alabel pos => performConst s w op d bytes lanes lbl alabel pos
  | .tex q => performTex s w op q
  | .ray first =>
    let mine := (List.range (lanesOf op.act).length).map fun i => first + i
    finishLong { s with rays := mmap s.rays fun k (r : Ray) => if k ∈ mine then { r with accepted := true } else r } w.id op
  | .matrix m => if matrixFirst s w.quad op.id then finishLong (performMatrix s w op m) w.id op else s

/-- COMPLETION_EVENT (R32): an outstanding long-latency instruction of a wave completes, if it may. -/
def execCompletionEvent (wave op : Nat) (s : State) : Host.Outcome State Fault Refusal :=
  match mget? s.waves wave with
  | none => .next s
  | some w => match findLong w op with
    | none => .next s
    | some o => .next (checkEnd (complete s w o) wave)

/-! ## Table walks (R97 to R100) -/

/-- A page's leaf, as the die's TLB holds it or else the tables, installed in the TLBs of a core and of its die (R99). (DESIGN CHOICE: log 39) -/
def installWalk (s : State) (core part : Nat) (va : DWord) : State :=
  match missLeaf s core part va.toNat with
  | .error _ => s
  | .ok l => tlbInstall (tlbInstall s false core part va.toNat l) true (dieOfCore core) part va.toNat l

/-- TABLE_WALK_COMPLETE (R99, R100): the walks of a parked split end, and it is runnable again and replays its region; one of a stopped wave stays parked. (DESIGN CHOICE: log 39) -/
def execTableWalkComplete (wave split : Nat) (s : State) : Host.Outcome State Fault Refusal :=
  match mget? s.waves wave with
  | none => .next s
  | some w => match mget? w.splits split with
    | none => .next s
    | some sp =>
      if sp.walks.isEmpty then .next s
      else
        let s := sp.walks.foldl (fun s va => installWalk s (coreOf w.quad) w.part va) s
        let w := w.setSplit split { sp with walks := [] }
        .next (putWave s (if w.stop.isNone then w.unpark fun j sp => j == split && sp.state == .parked else w))

/-! ## Accesses that perform (R108 to R111, R113, R126, R128) -/

/-- The CXL completion that a write to host memory waits for (R128). -/
def noteHost (s : State) (w : Wave) (e : Entry) (a : Access) : State :=
  match a.loc with
  | .host _ =>
    if e.kind == .load || a.bytes == 0 then s else hostSend s w.id e.id a.lane
  | _ => s

/-- Whether an access goes by a fabric path: it performs only when the other package applies it. -/
def Access.abroad (a : Access) : Bool :=
  match a.loc with
  | .pkg _ _ => a.bytes != 0
  | _ => false

/-- An access performs, with what follows in its wave: a release's markers are spent, entries without a completion event leave, the wave may end. -/
def performStep (s : State) (w : Wave) (e : Entry) (a : Access) (fill : Bool) : State :=
  let s := noteHost (performAccess s w e a fill) w e a
  let s := afterRelease s w.id e.id
  checkEnd (dropDone s w.id) w.id

/-! ### Writes that reach a slice in one clock (R117) -/

/-- The lane access of a queue entry, not yet performed. -/
def queuedAccess (s : State) (q : QueueEnt) : Option (Wave × Entry × Access) :=
  (mget? s.waves q.wave).bind fun w => (findEntry w q.entry).bind fun e =>
    (e.accs.find? fun a => a.lane == q.lane && !a.done).map fun a => (w, e, a)

/-- The key of a writer (R117): block waves by logical block index and wave number, then the others by physical quadrant and slot, trap waves among them. (DEDUCED: log 45) -/
def writerKey (w : Wave) : Nat :=
  if w.lblock = 0xFFFFFFFF then 2 ^ 48 + w.quad * 16 + w.slot else w.lblock.toNat * 64 + w.wnum

/-- Whether an entry of a home queue waits for another that reached the slice in the same clock and writes overlapping bytes under a lower key. -/
def tieWaits (s : State) (all : List QueueEnt) (q : QueueEnt) : Bool :=
  match queuedAccess s q with
  | none => false
  | some (w, e, a) => e.kind != .load && all.any fun x => x.clock == q.clock && (match queuedAccess s x with
    | none => false
    | some (w', e', a') => e'.kind != .load && a.meets a' && decide (writerKey w' < writerKey w))

/-- An access that stands or performs at a home slice of this package: none of a transaction's, and none that performs in L1. -/
def reaches (e : Entry) (a : Access) : Bool := e.kind != .load && e.tx == 0 && a.loc.isDev && a.bytes != 0 && !inL1 e a

/-- Whether a write that would reach its slice now has been passed by one with a higher key that reached it in this clock; it reaches the slice in a later one. -/
def passed (s : State) (w : Wave) (e : Entry) (a : Access) : Bool :=
  reaches e a && s.reached.any fun x => x.clock == s.clock && x.loc.overlaps x.bytes a.loc a.bytes && decide (writerKey w < x.key)

/-- A write that has reached its slice in this clock and been applied, noted. -/
def noteReached (s : State) (clock : Nat) (w : Wave) (e : Entry) (a : Access) : State :=
  if reaches e a && clock == s.clock then
    { s with reached := (s.reached.filter fun x => x.clock == s.clock) ++ [⟨clock, a.loc, a.bytes, writerKey w⟩] }
  else s

/-- The queue of the slice that homes a place. -/
def sliceQueue (s : State) (l : Loc) : List QueueEnt :=
  match l with
  | .dev pa => mgetD s.homeQ (homeOf pa) []
  | _ => []

/-- An access of one of some kinds performs on its own, off the fabric paths, unless the order of writes that reach a slice in one clock holds it back. -/
def performHere (s : State) (wave entry lane : Nat) (fill : Bool) (kinds : EntKind → Bool) : State :=
  match readyAccess s wave entry lane false with
  | none => s
  | some (w, e, a) =>
    if kinds e.kind && !a.abroad && !passed s w e a && !(reaches e a && tieWaits s (sliceQueue s a.loc) ⟨wave, entry, lane, s.clock⟩) then
      noteReached (performStep s w e a fill) s.clock w e a
    else s

/-- LOAD_PERFORM (R109): a lane access of a load takes its value; with `fill` the core's L1 takes the line. -/
def execLoadPerform (wave entry lane : Nat) (fill : Bool) (s : State) : Host.Outcome State Fault Refusal :=
  .next (performHere s wave entry lane fill fun k => k == .load)

/-- STORE_PERFORM (R108, R110): a lane access of a store, or a write-through, is applied. -/
def execStorePerform (wave entry lane : Nat) (s : State) : Host.Outcome State Fault Refusal :=
  .next (performHere s wave entry lane false fun k => k == .store || k == .writeThrough)

/-- ATOMIC_PERFORM (R108, R111): the lanes of an atomic that name one location are applied; SPAWN's adds and a task's subtract too (R112). -/
def execAtomicPerform (wave entry lane : Nat) (s : State) : Host.Outcome State Fault Refusal :=
  .next (performHere s wave entry lane false fun k => match k with
    | .atomAcc _ => true
    | .cas _ => true
    | .red _ => true
    | .spawnAdd => true
    | .exitSub => true
    | _ => false)

/-- FENCE_PERFORM (R115): a FENCE performs in the first step that R113 allows; a SPAWN whose adds have performed places its records, in the order of its core's SPAWNs (R164, R165). -/
def execFencePerform (wave entry : Nat) (s : State) : Host.Outcome State Fault Refusal :=
  match mget? s.waves wave with
  | none => .next s
  | some w => match findEntry w entry with
    | none => .next s
    | some e => match e.kind with
      | .spawnAdd => .next (checkEnd (spawnEnter s w e) wave)
      | .fence => (match e.accs.find? fun a => mayPerform s w e a with
        | none => .next s
        | some _ =>
          let s := putWave s (w.putEntry (e.finish fun _ => true))
          let s := if e.isAcquire then acquire s (coreOf w.quad) e.scope else s
          .next (checkEnd (dropDone (afterRelease s wave entry) wave) wave))
      | _ => .next s

/-! ## Queues (R105, R117, R118, R126) -/

/-- The number of the fabric paths among the queues, and of the host path; lower numbers are home slices. -/
def fabricQueue : Nat := 512
/-- The number of the host path. -/
def hostQueue : Nat := 513

/-- A lane access marked as standing in a queue. -/
def markQueued (s : State) (w : Wave) (e : Entry) (lane : Nat) : State :=
  putWave s (w.putEntry { e with accs := e.accs.map fun a => if a.lane = lane ∧ !a.done then { a with queued := true } else a })

/-- HOME_QUEUE_ENQUEUE (R117, R126): a lane access that R113 allows moves onto its home queue, its fabric path or the host path. Scratchpad accesses, those of transactions and those that perform in L1 take no queue. -/
def execHomeQueueEnqueue (wave entry lane : Nat) (s : State) : Host.Outcome State Fault Refusal :=
  match readyAccess s wave entry lane false with
  | none => .next s
  | some (w, e, a) =>
    if e.tx != 0 || inL1 e a || a.bytes == 0 || e.kind == .fence || passed s w e a then .next s
    else
      let q : QueueEnt := ⟨wave, entry, lane, s.clock⟩
      match a.loc with
      | .dev pa => .next (markQueued { s with homeQ := mset s.homeQ (homeOf pa) (mgetD s.homeQ (homeOf pa) [] ++ [q]) } w e lane)
      | .pkg p pa => .next (markQueued { s with fabricQ := s.fabricQ ++ [(p, planeNow s pa, q)] } w e lane)
      | .host _ => .next (markQueued { s with homeQ := mset s.homeQ hostQueue (mgetD s.homeQ hostQueue [] ++ [q]) } w e lane)
      | .scr _ _ => .next s

/-- What a queue does with one of its entries: the access performs, or the entry leaves when its access has performed with another lane's. -/
inductive Applied | stays | leaves (s : State)

/-- Apply a queue entry. -/
def applyEntry (s : State) (q : QueueEnt) : Applied :=
  match queuedAccess s q with
  | none => .leaves s
  | some (w, e, a) =>
    if a.queued && !lockHeld s w e a && hostReady s a.loc then .leaves (noteReached (performStep s w e a false) q.clock w e a) else .stays

/-- A list without the element at an index. -/
def dropAt {α : Type} (l : List α) (i : Nat) : List α := l.take i ++ l.drop (i + 1)

/-- HOME_QUEUE_APPLY (R117, R118, R126): a queue applies one of its entries. Accesses to one line of another package keep their order on their fabric path. -/
def execHomeQueueApply (queue idx : Nat) (s : State) : Host.Outcome State Fault Refusal :=
  if queue = fabricQueue then
    match s.fabricQ[idx]? with
    | none => .next s
    | some (p, plane, q) =>
      let line := (queuedAccess s q).map fun x => x.2.2.loc.line
      let before := (s.fabricQ.take idx).any fun x => x.1 == p && x.2.1 == plane && line.isSome && ((queuedAccess s x.2.2).map fun y => y.2.2.loc.line) == line
      if before then .next s
      else match applyEntry s q with
        | .stays => .next s
        | .leaves s => .next { s with fabricQ := dropAt s.fabricQ idx }
  else
    let all := mgetD s.homeQ queue []
    match all[idx]? with
    | none => .next s
    | some q =>
      if tieWaits s all q then .next s
      else match applyEntry s q with
        | .stays => .next s
        | .leaves s => .next { s with homeQ := mput [] s.homeQ queue (dropAt all idx) }

/-- FLUSH_MARKER_GATHERED (R126): every access of a wave to a package on a plane before a marker has performed. -/
def execFlushMarkerGathered (wave pkg plane : Nat) (s : State) : Host.Outcome State Fault Refusal :=
  match mget? s.waves wave with
  | none => .next s
  | some w =>
    let open' := fun (bound : Nat) => w.pending.any fun e => decide (e.id < bound) && e.accs.any fun a => !a.done && a.bytes != 0 && (match a.loc with
      | .pkg p pa => p == pkg && planeNow s pa == plane
      | _ => false)
    .next { s with markers := s.markers.map fun m =>
      if m.wave = wave ∧ m.pkg = pkg ∧ m.plane = plane ∧ s.retired.length < 36 ∧ !open' m.bound then { m with gathered := true } else m }

/-! ## Wakes, L1 lines, aborts (R39, R109, R153, R154, R157, R159) -/

/-- WAKE_RESTART (R39, R154, R388): a woken split removes its registrations and, if it still sleeps, runs; a sleeper of RETRY restarts at ORIGIN, a new point of reading. -/
def execWakeRestart (wave split : Nat) (s : State) : Host.Outcome State Fault Refusal :=
  match mget? s.waves wave with
  | none => .next s
  | some w =>
    if split ∉ w.pendingWake ∨ w.place ≠ .resident ∨ w.stop ≠ none then .next s
    else
      let w := { w with pendingWake := w.pendingWake.filter fun k => k != split }
      match mget? w.splits split with
      | none => .next (putWave s w)
      | some sp =>
        let s := { s with regs := s.regs.filter fun r => !(r.wave == wave && r.split == split) }
        if sp.state ≠ .sleeping then .next (putWave s w)
        else
          let w := if sp.sleep = .retry then { w with tx := { w.tx with reads := freshKept w.tx.reads } } else w
          .next (putWave s (w.setSplit split { sp with state := .ready, readySince := s.clock }))

/-- L1_LINE_DROP (R109): any line that is not marked constant may leave an L1. (DESIGN CHOICE: log 40) -/
def execL1LineDrop (core line : Nat) (s : State) : Host.Outcome State Fault Refusal :=
  match l1Find s core line with
  | none => .next s
  | some x => if x.constant.isSome then .next s else .next (l1Drop s core line)

/-- TRANSACTION_ABORT (R153, R157): a write to a live line aborts a transaction that is not in serial mode. -/
def execTransactionAbort (wave : Nat) (s : State) : Host.Outcome State Fault Refusal :=
  match mget? s.waves wave with
  | none => .next s
  | some w =>
    if w.tx.depth ≠ 0 ∧ !w.tx.serial ∧ (w.tx.reads.any fun r => r.live && r.conflict) then .next (abortTx s wave (min 16 (w.tx.aborts + 1)))
    else .next s

/-- SERIAL_TOKEN_GRANT (R157): the free serial token goes to the first wave that asked for it. -/
def execSerialTokenGrant (s : State) : Host.Outcome State Fault Refusal :=
  match s.token, s.tokenQ with
  | none, w :: rest => .next { s with token := some w, tokenQ := rest }
  | _, _ => .next s

/-! ## Copies (R119, R313) -/

/-- The texture operation that a number names, with its wave and instruction. -/
def texOf (s : State) (num : Nat) : Option (Wave × Nat × TexReq) :=
  s.waves.findSome? fun e => e.2.long.findSome? fun o => match o.what with
    | .tex q => if q.num = num then some (e.2, o.id, q) else none
    | _ => none

/-- A read of a texture operation or of a ray, by its number (R122). -/
def engineStep (s : State) (num idx : Nat) : State :=
  match texOf s num with
  | some (w, id, q) => texRead s w id q idx
  | none => match s.rays.find? fun r => r.2.num == num with
    | none => s
    | some r => (match mget? s.launches r.2.launch with
      | none => s
      | some l => rayRead s l r.2 idx)

/-- COPY_READ (R119, R122, R182, R312): a read of a copy, named by unit × 64 + piece; of a copy's plat record, of a GREL's source, of a texture operation or of a ray, by its number. -/
def execCopyRead (copy unit : Nat) (s : State) : Host.Outcome State Fault Refusal :=
  match mget? s.copies copy with
  | none => .next (engineStep s copy unit)
  | some c =>
    let s := match c.plan with
      | .gate src len _ _ _ => gateRead s c src len unit
      | _ => copyReadStep s copy unit
    .next (checkEnd s c.wave)

/-- COPY_WRITE (R119, R127): a 16-B write of a copy; the number after the last unit is the signal of a CPYSIG. -/
def execCopyWrite (copy unit : Nat) (s : State) : Host.Outcome State Fault Refusal :=
  let s := copyWriteStep s copy unit
  match mget? s.copies copy with
  | none => .next s
  | some c => .next (checkEnd s c.wave)

/-- CXL_COMPLETION (R128): the host has completed a write. (DEDUCED: log 50) -/
def execCxlCompletion (id : Nat) (s : State) : Host.Outcome State Fault Refusal :=
  .next { s with hostPending := s.hostPending.filter fun h => h.1 != id }

end Sys2Proof.Machine
end

