-- ==== Sys2Proof/Machine/Faults.lean ====
section
/-! DEFINITION. The fault queue, trap waves, the watchdog, the registers that resolve stops, and the trap of a word that is no instruction (R371, R375 to R382, R390, R391, R396, R431, R446). -/
namespace Sys2Proof.Machine

/-! ## Fault records (R373 to R379) -/

/-- log2 of the records that a fault queue holds (R375). -/
def fqLog (p : Partition) : Nat := bits p.faultq.toNat 4 0

/-- The base of a fault queue. -/
def fqBase (p : Partition) : Nat := bits p.faultq.toNat 63 16 * 2 ^ 16

/-- A fault queue that software has set up: 64 to 65,536 records. -/
def fqSet (p : Partition) : Bool := decide (6 ≤ fqLog p) && decide (fqLog p ≤ 16)

/-- Whether the queue has room for a record (R376). -/
def fqRoom (p : Partition) : Bool := (p.fqprod - p.fqcons).toNat != 2 ^ fqLog p

/-- Whether every long-latency instruction of the wave that a record stops has completed (R378), and the record's write, a release at `.sys`, may perform (R376). (DESIGN CHOICE: log 14) -/
def recordReady (s : State) (r : Record) : Bool :=
  match r.wave with
  | none => true
  | some id => match mget? s.waves id with
    | none => true
    | some w => w.long.isEmpty && releaseReady s w .sys

/-- A record with its number and its handle, as the write forms them. -/
def numbered (s : State) (p : Partition) (r : Record) : Record :=
  let h := match r.wave.bind fun id => mget? s.waves id with
    | some w => handleOf w r.split
    | none => 0
  { r with seq := p.recSeq, handle := h }

/-- The queue copy of a record (R377): ADDR rounded down to 32 KiB when its labels are not empty, INFO of LABEL 0. (DESIGN CHOICE: log 14) -/
def queueCopy (r : Record) : Record :=
  { r with addr := if r.addrLabel = 0 then r.addr else BitVec.ofNat 64 (r.addr.toNat / 2 ^ 15 * 2 ^ 15), info := if r.code = 7 then 0 else r.info }

/-- The 64 bytes of a record. -/
def Record.bytes (r : Record) : List Byte := r.words.flatMap fun w => leBytes 4 w.toNat

/-- The MSI-X vector of a partition's fault queue: one vector for each queue, and one for the fault queue (R214). (DESIGN CHOICE: log 15) -/
def faultVector : Nat := 8

/-- An MSI-X message: delivered, or held until the link is up (R441). (DESIGN CHOICE: log 15; DEDUCED: log 50) -/
def sendMsix (s : State) (part vector : Nat) : State :=
  if s.link = .up then { s with replies := s.replies ++ [.msix part vector] } else { s with msixHeld := s.msixHeld ++ [(part, vector)] }

/-- The stop of a record's wave, written: from now on its handle names it (R374). -/
def markWritten (s : State) (r : Record) : State :=
  match r.wave with
  | none => s
  | some id => { s with waves := mmodify s.waves id fun w : Wave => { w with stop := w.stop.map fun st : Stop =>
      if st.split = r.split ∧ st.code = r.code then { st with written := true } else st } }

/-- Write one record: at its place in the queue, if there is one, then FQPROD, then the signal; a trap wave waits to start, or the launch terminates (R376, R379, R382). -/
def writeRecord (s : State) (part : Nat) (p : Partition) (r : Record) (place : Option (Loc × PageAttr)) : State :=
  let r := numbered s p r
  let s := match place with
    | some (l, page) => homeWrite (reach s part (dieOf l.addr) false .dflt page l) Agent.outside l (queueCopy r).bytes
    | none => s
  let s := { s with parts := mmodify s.parts part fun p => { p with
    fqprod := p.fqprod + 1, recSeq := p.recSeq + 1, trapQueue := if r.trapped then p.trapQueue ++ [r] else p.trapQueue } }
  let s := markWritten (sendMsix s part faultVector) r
  if r.term then terminate s r.launch else s

/-- Where the next record of a partition goes: nowhere, where no queue is set up; none while the queue is full or not writable, or its line is locked (R157). (DESIGN CHOICE: log 14) -/
def recordPlace (s : State) (part : Nat) (p : Partition) : Option (Option (Loc × PageAttr)) :=
  if !fqSet p then some none
  else if !fqRoom p then none
  else match translateNow s part (fqBase p + 64 * (p.fqprod.toNat % 2 ^ fqLog p)) .write with
    | .ok (.dev pa, leaf) => if lineHeld s (.dev pa) then none else some (some (.dev pa, leaf.page))
    | _ => none

/-- FAULT_RECORD_WRITE (R376): one of the records that wait, once its wave's work is complete and the queue has room. A queue that is not writable keeps the record waiting; with none set up, the record is counted and signalled and its bytes go nowhere. (DESIGN CHOICE: log 14) -/
def execFaultRecordWrite (part idx : Nat) (s : State) : Host.Outcome State Fault Refusal :=
  match mget? s.parts part with
  | none => .next s
  | some p => match p.records[idx]? with
    | none => .next s
    | some r =>
      if p.state = .disabled ∨ !recordReady s r then .next s
      else match recordPlace s part p with
        | some place => .next (writeRecord { s with parts := mmodify s.parts part fun p => { p with records := dropAt p.records idx } } part p r place)
        | none => .next s

/-! ## Trap waves (R380) -/

/-- The core from which a record's trap wave is placed: its split's core now. -/
def faultCore (s : State) (r : Record) : Nat :=
  match r.wave.bind fun id => mget? s.waves id with
  | some w => coreOf w.quad
  | none => coreOf r.pquad

/-- The trap wave of a record: one lane of the trap entry. -/
def trapWave (l : Launch) (r : Record) : Wave :=
  { Wave.blank with launch := l.id, part := l.part, role := .trap, rate := if l.draw.isSome then .whole else .fine, entry := l.trapEntry, lanes := 1, trapRec := some r }

/-- A record leaves the list of those whose trap waves wait to start. -/
def dropTrap (s : State) (part : Nat) (r : Record) : State :=
  { s with parts := mmodify s.parts part fun p => { p with trapQueue := p.trapQueue.filter fun x => !(x == r) } }

/-- The quadrant on which a record's trap wave fits, from the faulting core outward. -/
def trapQuad (s : State) (part : Nat) (r : Record) : Option (Launch × Nat) :=
  match mget? s.launches r.launch with
  | none => none
  | some l => (findTaskQuad s part l.id l.trapEntry (faultCore s r)).map fun q => (l, q)

/-- The first waiting record of each die, in SEQ order, of launches that run. -/
def trapHeads (s : State) (p : Partition) : List Record :=
  (p.trapQueue.foldl (fun (acc : List (Nat × Record)) r =>
    let die := dieOfCore (faultCore s r)
    if acc.any fun x => x.1 == die then acc else acc ++ [(die, r)]) []).map fun x => x.2

/-- TRAP_WAVE_START (R380): the first record of some die whose trap wave fits gets it. A record whose launch has terminated gets none. -/
def execTrapWaveStart (part : Nat) (s : State) : Host.Outcome State Fault Refusal :=
  match mget? s.parts part with
  | none => .next s
  | some p =>
    let gone := p.trapQueue.find? fun r => match mget? s.launches r.launch with
      | some l => l.terminated || l.state == .ended
      | none => true
    match gone with
    | some r => .next (dropTrap s part r)
    | none =>
      if !places s part then .next s
      else match (trapHeads s p).findSome? fun r => (trapQuad s part r).map fun x => (r, x) with
        | none => .next s
        | some (r, l, q) => match entryOf s l l.trapEntry with
          | none => .next s
          | some (_, e) =>
            let w := trapWave l r
            .next (placeOwn (dropTrap s part r) p { w with splits := [(0, startSplit s l e 1 r.labels)] } q)

/-! ## The watchdog (R375, R382) -/

/-- WATCHDOG: a launch that has run longer than WDLIM milliseconds writes one record, and terminates. -/
def execWatchdog (lid : Nat) (s : State) : Host.Outcome State Fault Refusal :=
  match mget? s.launches lid with
  | none => .next s
  | some l => match mget? s.parts l.part with
    | none => .next s
    | some p =>
      if p.wdlim = 0 ∨ l.state ≠ .running ∨ l.terminated ∨ s.clock ≤ l.start + p.wdlim.toNat * Config.clocksPerMillisecond then .next s
      else .next (terminate (pushRecord s l.part { eventRecord lid 0x12 0 0 with term := true }) lid)

/-! ## FQCONS and FQRESOLVE (R375, R376, R381, R390) -/

/-- FQCONS written: a value beyond FQPROD is ignored. -/
def setFqcons (p : Partition) (v : DWord) : Partition :=
  let n : Word := v.setWidth 32
  if (n - p.fqcons).toNat ≤ (p.fqprod - p.fqcons).toNat then { p with fqcons := n } else p

/-- FQCONS (R376). -/
def execFqcons (part : Nat) (v : DWord) (s : State) : Host.Outcome State Fault Refusal :=
  .next { s with parts := mmodify s.parts part fun p => setFqcons p v }

/-- FQRESOLVE with mode 0 (R381). -/
def execFqresolveReplay (part : Nat) (handle : Word) (s : State) : Host.Outcome State Fault Refusal := .next (resolve s part handle .replay)
/-- FQRESOLVE with mode 1 (R381). -/
def execFqresolveNext (part : Nat) (handle : Word) (s : State) : Host.Outcome State Fault Refusal := .next (resolve s part handle .next)
/-- FQRESOLVE with mode 2 (R381). -/
def execFqresolveEnd (part : Nat) (handle : Word) (s : State) : Host.Outcome State Fault Refusal := .next (resolve s part handle .finish)
/-- FQRESOLVE with mode 3 (R390). -/
def execFqresolveStep (part : Nat) (handle : Word) (s : State) : Host.Outcome State Fault Refusal := .next (resolve s part handle .step)
/-- FQRESOLVE with mode 4 (R390). -/
def execFqresolveStepWave (part : Nat) (handle : Word) (s : State) : Host.Outcome State Fault Refusal := .next (resolve s part handle .stepWave)

/-- A write of the FQRESOLVE register: modes 5 to 7 are ignored. -/
def writeResolve (s : State) (part : Nat) (v : DWord) : State :=
  let h : Word := v.setWidth 32
  match bits v.toNat 34 32 with
  | 0 => resolve s part h .replay
  | 1 => resolve s part h .next
  | 2 => resolve s part h .finish
  | 3 => resolve s part h .step
  | 4 => resolve s part h .stepWave
  | _ => s

/-! ## Words and headers that are no instructions (R234, R391 to R397) -/

/-- The fault of a clause header whose zero field or flag fields fail (R391, R394). -/
def headerFault (c : Ctx) (w : DWord) : Option FaultArgs :=
  (headerErr w.toNat).map fun b => ⟨3, b * 65536 + 8, 0, c.sp.mask, 0, 0⟩

/-- The fault of a word at stages 2 and 3: no assigned opcode, a rate that the program or the instruction does not allow, the lowest illegal field (R391, R396). -/
def wordFault (s : State) (c : Ctx) (word : DWord) : Option FaultArgs :=
  let w := word.toNat
  match build (wOp w) (ctlOf w) (wBody w) with
  | none => some ⟨1, w / 2 ^ 32, 0, c.act, 0, 0⟩
  | some i =>
    if wRate w = 7 || rateErr s c i then some ⟨2, wRate w, 0, c.act, 0, operandLabels s c i⟩
    else (lowestErr (operandErrs s c (wOp w) i (wBody w))).map fun e =>
      ⟨3, e.2 * 65536 + e.1, 0, c.act, 0, operandLabels s c i⟩

/-- The lanes that MASK names for a word: the active ones; a branch, TXB and TXE have no guard (R223, R393). -/
def wordMask (w : DWord) (c : Ctx) : Mask :=
  match build (wOp w.toNat) (ctlOf w.toNat) (wBody w.toNat) with
  | some i => if i.unguarded then c.sp.mask else guardMask c
  | none => guardMask c

/-- ILLEGAL_OP (R396): what the issuing step runs when a header or a word fails its checks. A word that passes them changes nothing. (DEDUCED: log 46) -/
def execIllegalOp (header : Bool) (w : DWord) (s : State) : Host.Outcome State Fault Refusal :=
  let h := ctlOf w.toNat
  match issuer s h (fun c => if header then c.sp.mask else wordMask w c) with
  | none => .fault .noIssuer
  | some c => match (if header then headerFault c w else wordFault s c w) with
    | none => .next s
    | some f => .next (takeFault s (theWave s c) c.k c.pos (if header then c.w.rate.num else wRate w.toNat) f)

end Sys2Proof.Machine
end

