-- ==== Sys2Proof/Machine/Partition.lean ====
section
/-! DEFINITION. Partitions: suspension, pre-emption, resume, their registers, enabling and disabling (R208 to R213, R375, R385 to R389, R436, R437, R450). -/
namespace Sys2Proof.Machine

/-- A partition's registers, as reset leaves them if nothing has written them. -/
def partOf (s : State) (part : Nat) : Partition := mgetD s.parts part Partition.reset

/-- A partition replaced. -/
def putPart (s : State) (part : Nat) (p : Partition) : State := { s with parts := mset s.parts part p }

/-- The partition of a launch. -/
def partOfLaunch (s : State) (lid : Nat) : Option Nat := (mget? s.launches lid).map fun l => l.part

/-! ## Pre-emption (R37, R153, R385, R389) -/

/-- Park a wave for its save: issue stops and every split, asleep and at join too, stands at its region entry, or at ORIGIN in a transaction; the release of a sleeper of RETRY is its restart (R154). Registrations and recorded wakes stay (R160), and the serial token and locks go (R157). A wave already stopped is saved stopped; one in a step keeps the splits that have stepped. -/
def preemptWave (s : State) (w : Wave) : State :=
  if w.place ≠ .resident then s
  else if w.stop.isSome then putWave s { w with place := .saving }
  else
    let ks := (w.splits.filter fun e => !(e.2.state == .parked && e.2.walks.isEmpty)).map fun e => e.1
    let parked := ks.foldl parkHere w
    let again := fun (k : Nat) => (mget? w.splits k).any fun sp => sp.state == .sleeping && sp.sleep == .retry
    let splits := mmap parked.splits fun k sp => if again k then { sp with restarts := true } else sp
    putWave (releaseSerial s w.id) { parked with place := .saving, splits := splits }

/-- A wave whose issued work and copies are complete is written to its context area; its footprint is free (R385). (DESIGN CHOICE: log 30) -/
def saveWave (s : State) (w : Wave) : State :=
  if w.place = .saving ∧ w.long = [] ∧ s.copies.all (fun c => c.2.wave != w.id || c.2.done) then
    let w := { w with place := .saved, cycles := w.cycles + (s.clock - w.placedAt) }
    writeArea (putWave s w) w
  else s

/-- The waves of a partition. -/
def wavesOf (s : State) (part : Nat) : List Wave := (s.waves.filter fun e => e.2.part == part).map fun e => e.2

/-- A wave that has still to be saved. -/
def Wave.staying (w : Wave) : Bool := w.place == .resident || w.place == .saving

/-- Nothing of a partition will read or write a core's scratchpad: no wave there to save, no access and no copy of its quad under way (R386). -/
def scratchIdle (s : State) (part core : Nat) : Bool :=
  (wavesOf s part).all (fun w => (!w.staying || coreOf w.quad != core) && w.pending.all fun e => e.accs.all fun a : Access => a.done || (match a.loc with
    | .scr c _ => c != core
    | _ => true)) &&
  s.copies.all fun c => c.2.part != part || c.2.done || c.2.core / 4 != core / 4

/-- The ranges of a core that a partition's clusters and saved waves hold: whether a cluster's, its owner, first granule and count. -/
def rangesOn (s : State) (part core : Nat) : List (Bool × Nat × Nat × Nat) :=
  (s.clusters.filter fun e => partOfLaunch s e.2.launch == some part && !clusterFreed s e.2).flatMap (fun e =>
    (e.2.ranges.filter fun r => r.1 == core).map fun r => (true, e.1, r.2)) ++
  ((wavesOf s part).filter fun w => w.cluster.isNone && w.scrSize != 0 && w.place == .saved && coreOf w.quad == core &&
    !(s.savedScr.any fun r => !r.cluster && r.owner == w.id)).map fun w => (false, w.id, w.scrBase, w.scrSize)

/-- A core's scratchpad saved when the last wave on it is (R386): written to the context region, and every range that the partition holds there leaves the core. (DEDUCED: log 29) -/
def saveCore (s : State) (part : Nat) (p : Partition) (core : Nat) : State :=
  let rs := rangesOn s part core
  if rs.isEmpty || !scratchIdle s part core then s
  else
    let s := rs.foldl (fun s r => sendAway s p r.1 r.2.1 core r.2.2.1 r.2.2.2) (writeScratch s part p core)
    { s with clusters := mmap s.clusters fun _ c => if partOfLaunch s c.launch = some part then { c with ranges := c.ranges.filter fun r => r.1 != core } else c }

/-- The key of a logical quadrant's saved tiles. (DESIGN CHOICE: log 30) -/
def tileSaveKey (part lq : Nat) : Nat := part * 1536 + lq

/-- The tiles of a quadrant saved when the last wave of their launch there is: they go to the context region and belong to no launch (R334, R386). -/
def saveTiles (s : State) (part lq quad : Nat) : State :=
  match mget? s.tileOwner quad with
  | none => s
  | some lid =>
    if partOfLaunch s lid ≠ some part ∨ (wavesOf s part).any fun w => w.launch == lid && w.quad == quad && w.staying then s
    else
      let s := writeTiles s part lq quad
      let mine := (s.tiles.filter fun e => e.1 / 16384 == quad).map fun e => (e.1 % 16384, e.2)
      let labels := (s.tileLabels.filter fun e => e.1 / 8 == quad).map fun e => (e.1 % 8, e.2)
      { s with savedTiles := mset s.savedTiles (tileSaveKey part lq) (mine, labels), tileOwner := merase s.tileOwner quad
               tiles := s.tiles.filter (fun e => e.1 / 16384 != quad), tileLabels := s.tileLabels.filter fun e => e.1 / 8 != quad }

/-- The physical quadrants of a partition with their logical numbers. -/
def quadsOf (p : Partition) : List (Nat × Nat) := (List.range 1536).filterMap fun lq => (physicalOf p lq).map fun q => (lq, q)

/-- The cores on which a partition has a quadrant. -/
def coresOf (p : Partition) : List Nat := (List.range 384).filter fun c => (lowestOwned p c).isSome

/-- The save goes on: waves whose work is complete are saved, with the tiles and scratchpads that they were the last to use; when every wave is, and every copy of the partition is complete (R213), STATE becomes suspended (R212). -/
def goOnSaving (s : State) (part : Nat) : State :=
  let p := partOf s part
  let s := (wavesOf s part).foldl (fun s w => match mget? s.waves w.id with
    | some w => saveWave s w
    | none => s) s
  let s := (quadsOf p).foldl (fun s q => saveTiles s part q.1 q.2) s
  let s := (coresOf p).foldl (fun s c => saveCore s part p c) s
  if ((wavesOf s part).any fun w => w.staying) || s.copies.any (fun c => c.2.part == part && !c.2.done) then s
  else { s with parts := mmodify s.parts part fun p => { p with state := .suspended, preempt := false } }

/-- Pre-emption begins (step 3 of R212): every resident wave of the partition is parked. (DESIGN CHOICE: log 30) -/
def beginPreempt (s : State) (part : Nat) : State :=
  let s := { s with parts := mmodify s.parts part fun p => { p with state := .draining, preempt := true } }
  goOnSaving ((wavesOf s part).foldl preemptWave s) part

/-! ## Suspension (R210, R212) -/

/-- PART_CTL command 1. -/
def startDrain (s : State) (part : Nat) : State :=
  match mget? s.parts part with
  | none => s
  | some p => if p.state = .running then putPart s part { p with state := .draining, drainSince := s.clock, preempt := false } else s

/-- PART_CTL command 2: from running or draining. A repeated command lets the save go on. -/
def suspendNow (s : State) (part : Nat) : State :=
  match mget? s.parts part with
  | none => s
  | some p =>
    if p.state = .running ∨ (p.state = .draining ∧ !p.preempt) then beginPreempt s part
    else if p.state = .draining then goOnSaving s part
    else s

/-- SUSPEND_BY_DRAINING (R212). -/
def execSuspendByDraining (part : Nat) (s : State) : Host.Outcome State Fault Refusal := .next (startDrain s part)

/-- SUSPEND_AT_ONCE (R212, R385). -/
def execSuspendAtOnce (part : Nat) (s : State) : Host.Outcome State Fault Refusal := .next (suspendNow s part)

/-- Nothing of a partition remains resident, and no sealed gather of it waits for a place. -/
def drained (s : State) (part : Nat) : Bool :=
  (wavesOf s part).all (fun w => w.place != .resident) && s.gatherSlots.all (fun (g : Nat × GatherSlot) => g.2.part != part || !g.2.isSealed) &&
    s.gathers.all (fun (g : Gather) => !g.isSealed || partOfLaunch s g.launch != some part)

/-- DRAIN_COMPLETE (R212): a draining partition of which nothing remains resident is suspended; one whose waves are being saved goes on. -/
def execDrainComplete (part : Nat) (s : State) : Host.Outcome State Fault Refusal :=
  match mget? s.parts part with
  | none => .next s
  | some p =>
    if p.state ≠ .draining then .next s
    else if p.preempt then .next (goOnSaving s part)
    else if drained s part then .next (beginPreempt s part)
    else .next s

/-- DRAIN_LIMIT_EXPIRY (R212): DRAINLIM microseconds have passed; every wave still resident is pre-empted. -/
def execDrainLimitExpiry (part : Nat) (s : State) : Host.Outcome State Fault Refusal :=
  match mget? s.parts part with
  | none => .next s
  | some p =>
    if p.state = .draining ∧ !p.preempt ∧ p.drainSince + p.drainlim.toNat * Config.clocksPerMicrosecond ≤ s.clock then .next (beginPreempt s part)
    else .next s

/-! ## Resume (R213, R388, R436, R450) -/

/-- Valid entries of a quadrant map. -/
def validEntries (p : Partition) : List Word := (p.qmap.filter fun e => qValid e.2).map fun e => e.2

/-- Two entries name one physical quad. -/
def quadTwice (p : Partition) : Bool :=
  let qs := (validEntries p).map qPhys
  decide ((dedup qs).length ≠ qs.length)

/-- A map overlaps the quadrants of another enabled partition. -/
def overlapsOther (s : State) (part : Nat) (p : Partition) : Bool :=
  s.parts.any fun o => o.1 != part && o.2.state != .disabled && (validEntries o.2).any fun a => (validEntries p).any fun b =>
    qPhys a == qPhys b && (List.range 16).any fun i => tb (qMask a) i && tb (qMask b) i

/-- BANKOWN of a core that has a quadrant of the partition gives a bank to a quadrant that the partition does not own. (DESIGN CHOICE: log 30) -/
def badBanks (p : Partition) : Bool :=
  p.bankown.any fun e => ((List.range 4).any fun q => ownsQuadrant p (e.1 * 4 + q)) &&
    (List.range 32).any fun k => !ownsQuadrant p (e.1 * 4 + bankQuad p e.1 k)

/-- The logical quad that the owner of a saved range held. -/
def savedQuad (s : State) (r : SavedScr) : Option Nat :=
  if r.cluster then (mget? s.clusters r.owner).map fun c => c.lquad else (mget? s.waves r.owner).map fun w => w.lquad / 16

/-- The partition that owns a saved range. (DESIGN CHOICE: log 30) -/
def savedPart (s : State) (r : SavedScr) : Option Nat :=
  if r.cluster then (mget? s.clusters r.owner).bind fun c => partOfLaunch s c.launch else (mget? s.waves r.owner).map fun w => w.part

/-- Where saved ranges go: on the cores of their logical quads, at the granule that they held where it is free, else at the lowest that fits; none when one finds no place. (DESIGN CHOICE: log 30) -/
def planRanges (s : State) (p : Partition) : List SavedScr → List (SavedScr × Nat × Nat) → Option (List (SavedScr × Nat × Nat))
  | [], acc => some acc
  | r :: rs, acc =>
    match (savedQuad s r).bind fun lq => mget? p.qmap lq with
    | none => none
    | some e =>
      if !qValid e then none
      else
        let core := qPhys e * 4 + r.pos
        let taken := (acc.filter fun a => a.2.1 == core).map fun a => (a.2.2, a.1.count)
        let size := spaceSize p core
        let same := decide (r.first + r.count ≤ size) && taken.all fun t => decide (r.first + r.count ≤ t.1) || decide (t.1 + t.2 ≤ r.first)
        match if same then some r.first else findRun size taken r.count with
        | none => none
        | some f => planRanges s p rs (acc ++ [(r, core, f)])

/-- The saved ranges of a partition. -/
def savedOf (s : State) (part : Nat) : List SavedScr := s.savedScr.filter fun r => savedPart s r == some part

/-- Waves that a resume must find a quadrant for: those saved, spilled, or holding a footprint of a deterministic launch. -/
def needsQuad (s : State) (part : Nat) : List Wave := (wavesOf s part).filter fun w => w.place == .saved || w.place == .spilled || holds s w

/-- Why a resume is refused (R436): its reason and die. (DESIGN CHOICE: log 30) -/
def resumeErr (s : State) (part : Nat) (p : Partition) : Option (Nat × Nat) :=
  if quadTwice p || overlapsOther s part p || badBanks p then some (1, 0)
  else if (needsQuad s part).any (fun w => (physicalOf p w.lquad).isNone) || (planRanges s p (savedOf s part) []).isNone then some (2, 0)
  else
    let busy := fun (d : Nat) => quadCount p d == 0 && s.launches.any fun l => l.2.part == part && l.2.state == .running &&
      (!(mgetD l.2.lists d []).isEmpty || s.clusters.any fun c => c.2.launch == l.1 && c.2.die == d && !c.2.retired)
    ((List.range 8).find? busy).map fun d => (3, d)

/-- The tiles saved under a logical quadrant put on the physical quadrant that has its number now (R450); they belong to the launch of the waves there. -/
def loadTiles (s : State) (part lq quad : Nat) : State :=
  match mget? s.savedTiles (tileSaveKey part lq), (wavesOf s part).find? fun w => w.quad == quad && w.place != .ended with
  | some (ts, ls), some w =>
    let tiles := ts.foldl (fun m e => mput 0 m (quad * 16384 + e.1) e.2) (s.tiles.filter fun e => e.1 / 16384 != quad)
    let labels := ls.foldl (fun m e => mput 0 m (quad * 8 + e.1) e.2) (s.tileLabels.filter fun e => e.1 / 8 != quad)
    { s with tiles := tiles, tileLabels := labels, tileOwner := mset s.tileOwner quad w.launch, savedTiles := merase s.savedTiles (tileSaveKey part lq) }
  | _, _ => { s with savedTiles := merase s.savedTiles (tileSaveKey part lq) }

/-- A saved wave's parked splits run again from their stop points; in a step only those that have still to issue. -/
def releaseSaved (s : State) (w : Wave) : Wave :=
  let free := fun (k : Nat) (sp : Split) => sp.state == .parked && (w.step == 0 || tb (w.step % 16) k)
  let ks := (w.splits.filter fun e => free e.1 e.2).map fun e => e.1
  let w := w.unpark free
  let w := { w with splits := mmap w.splits fun k sp => if k ∈ ks then { sp with readySince := s.clock } else sp }
  ks.foldl (fun w k => settle settleFuel w k) w

/-- A saved wave resident again, in its slot and with its age (R388): its parked splits run, a placed wave that had not begun may begin, and a resolution that came while it was saved takes effect. -/
def restoreWave (s : State) (w : Wave) : State :=
  let w := { w with place := .resident, placedAt := s.clock }
  match w.stop with
  | none => startWave (putWave s (releaseSaved s w)) w.id
  | some st => (match st.deferred with
    | none => putWave s w
    | some m =>
      let st := { st with deferred := none }
      let w := { w with stop := some st }
      applyResolve (putWave s w) w st.split st m)

/-- Broad waiters of a spilled wave follow its core when a resume moves it (R160, R421). -/
def moveBroad (s : State) (p : Partition) (ws : List Wave) : State :=
  { s with regs := s.regs.map fun r => match (ws.find? fun w => w.id == r.wave).bind fun w => (physicalOf p w.lquad).map fun q => (w.quad, q) with
    | none => r
    | some (old, new) => (match r.key with
      | .bankCore c => if c / 4 = old / 16 then { r with key := .bankCore (new / 16 * 4 + c % 4) } else r
      | .engine c => if c = coreOf old then { r with key := .engine (coreOf new) } else r
      | _ => r) }

/-- PART_CTL command 3: a suspended partition runs again on the quadrants that QMAP names now, or writes RESUME_HELD. -/
def resumePart (s : State) (part : Nat) : State :=
  match mget? s.parts part with
  | none => s
  | some p =>
    if p.state ≠ .suspended then s
    else match resumeErr s part p, planRanges s p (savedOf s part) [] with
      | some (r, d), _ => pushRecord s part (eventRecord 0 0x3C (r + 256 * d) 0)
      | none, none => s
      | none, some ranges =>
        let back := needsQuad s part
        let s := moveBroad s p back
        let s := { s with parts := mmodify s.parts part fun p => { p with state := .running } }
        let s := back.foldl (fun s w => { s with waves := mmodify s.waves w.id fun w => { w with quad := (physicalOf p w.lquad).getD w.quad } }) s
        let quadAt := fun (c : Cluster) => match mget? p.qmap c.lquad with
          | some e => if qValid e then qPhys e else c.pquad
          | none => c.pquad
        let clusters := s.clusters.map fun e => if partOfLaunch s e.2.launch = some part then (e.1, { e.2 with pquad := quadAt e.2 }) else e
        let s := { s with clusters := clusters }
        let s := ranges.foldl (fun s x => loadRange s p x) { s with savedScr := s.savedScr.filter fun r => savedPart s r != some part }
        let s := (quadsOf p).foldl (fun s q => loadTiles s part q.1 q.2) s
        (back.filter fun w => w.place == .saved).foldl (fun s w => match mget? s.waves w.id with
          | some w => restoreWave s w
          | none => s) s

/-- RESUME (R212, R388, R436). -/
def execResume (part : Nat) (s : State) : Host.Outcome State Fault Refusal := .next (resumePart s part)

/-! ## Registers (R208 to R211, R375) -/

/-- Enabling (R211): the virtual function is enabled and a valid entry stands in QMAP; the partition starts with no waves and empty queues. -/
def enableIfReady (s : State) (part : Nat) : State :=
  let p := partOf s part
  if p.state = .disabled ∧ p.vfEnabled ∧ !p.wipe ∧ !(validEntries p).isEmpty then
    putPart s part { p with state := .running, preempt := false, records := [], trapQueue := []
                            queues := mmap p.queues fun _ x => { x with tailIdx := x.head, wait := .none, loops := [], deficit := [], net := [] } }
  else s

/-- Step 7 of the start completes with the first enabled partition (R220). -/
def startDone (s : State) (part : Nat) : State :=
  { s with bootStep := if s.bootStep = 6 ∧ (partOf s part).state = .running then 7 else s.bootStep }

/-- A write of a queue's registers (R190). HEAD is read-only; TAIL rings the doorbell. -/
def writeQueueReg (s : State) (part q off : Nat) (v : DWord) : State :=
  let x := queueOf (partOf s part) q
  let put := fun (x : Queue) => putPart s part { partOf s part with queues := mset (partOf s part).queues q x }
  match off with
  | 0x00 => put { x with ringBase := v }
  | 0x08 => put { x with ringSize := v }
  | 0x18 => (match execTail part q v s with
    | .next s => s
    | _ => s)
  | 0x20 => put { x with weight := v.toNat % 256 }
  | _ => s

/-- A write of a register of a virtual function's BAR0 (R210, R375). Reserved bits and read-only registers are ignored. -/
def writePartReg (s : State) (part off : Nat) (v : DWord) : State :=
  let p := partOf s part
  let n := v.toNat
  let low : Word := v.setWidth 32
  if !p.vfEnabled || decide (31 < part) then s
  else if off = 0x18 then
    (match n % 4 with
     | 1 => startDrain s part
     | 2 => suspendNow s part
     | 3 => resumePart s part
     | _ => s)
  else if off = 0x20 then putPart s part { p with xlroot := BitVec.ofNat 64 (bits n 45 13 * 2 ^ 13) }
  else if off = 0x28 then putPart s part { p with lattol := low }
  else if off = 0x30 then putPart s part { p with drainlim := low }
  else if off = 0x48 then putPart s part { p with ctxBase := BitVec.ofNat 64 (n / 2 ^ 16 * 2 ^ 16) }
  else if off = 0x50 then putPart s part { p with faultq := BitVec.ofNat 64 (bits n 63 16 * 2 ^ 16 + bits n 4 0) }
  else if off = 0x60 then putPart s part (setFqcons p v)
  else if off = 0x68 then writeResolve s part v
  else if off = 0x70 then putPart s part { p with wdlim := low }
  else if 0x100 ≤ off ∧ off < 0x300 then writeQueueReg s part ((off - 0x100) / 0x40) ((off - 0x100) % 0x40) v
  else s

/-- Code of STATE in PART_CTL (R210). -/
def stateCode : PartState → Nat
  | .running => 0
  | .draining => 1
  | .suspended => 2
  | .disabled => 3

/-- What a register of a queue reads as (R190, R210). (DESIGN CHOICE: log 16) -/
def readQueueReg (p : Partition) (q off : Nat) : Nat :=
  let x := queueOf p q
  match off with
  | 0x00 => x.ringBase.toNat
  | 0x08 => x.ringSize.toNat
  | 0x10 => x.head
  | 0x18 => x.tailIdx
  | 0x20 => x.weight
  | _ => 0

/-- What a read of a virtual function's BAR0 gives, 8 bytes at an offset, fields zero-extended (R210, R375); a register that is not readable reads as 0. No event of the table reads one: the host does. (DESIGN CHOICE: log 16) -/
def readPartReg (s : State) (part off : Nat) : DWord :=
  let p := partOf s part
  let caps := s.capFeature.toNat
  BitVec.ofNat 64 (
    if off = 0x00 then caps % 2 ^ 64
    else if off = 0x08 then caps / 2 ^ 64
    else if off = 0x10 then part % 32
    else if off = 0x18 then stateCode p.state * 256
    else if off = 0x38 then p.boundMask.toNat
    else if off = 0x40 then (List.range 8).foldl (fun n d => n + quadCount p d % 256 * 256 ^ d) 0
    else if off = 0x50 then p.faultq.toNat
    else if off = 0x58 then p.fqprod.toNat
    else if off = 0x60 then p.fqcons.toNat
    else if off = 0x70 then p.wdlim.toNat
    else if 0x100 ≤ off ∧ off < 0x300 then readQueueReg p ((off - 0x100) / 0x40) ((off - 0x100) % 0x40)
    else if 0x400 ≤ off ∧ off < 0x400 + 4 * 96 then (mgetD p.qmap ((off - 0x400) / 4) 0).toNat
    else 0)

/-- Offsets within a partition's block of the physical function's BAR0: DESIGN CHOICE, R211 gives none. (DESIGN CHOICE: log 16) -/
def pfQmap : Nat := 0x0400
def pfL1ways : Nat := 0x0600
def pfL2ways : Nat := 0x0608
def pfBankown : Nat := 0x1000

/-- A write of a partition's configuration through the physical function (R211): only while STATE is suspended or disabled, and once the command processor runs (R220). The first enabled partition completes step 7. -/
def writeConfigReg (s : State) (part off : Nat) (v : DWord) : State :=
  let p := partOf s part
  if decide (31 < part) || decide (s.bootStep < 6) || s.bootStat.msb || !(p.state == .suspended || p.state == .disabled) then s
  else if pfQmap ≤ off ∧ off < pfQmap + 4 * 96 ∧ off % 4 = 0 then
    let e : Word := v.setWidth 32 &&& 0x807FFFFF
    startDone (enableIfReady (putPart s part { p with qmap := mput 0 p.qmap ((off - pfQmap) / 4) e }) part) part
  else if off = pfL1ways then putPart s part { p with l1ways := v.setWidth 16 }
  else if off = pfL2ways then putPart s part { p with l2ways := v.setWidth 16 }
  else if pfBankown ≤ off ∧ off < pfBankown + 8 * 384 ∧ off % 8 = 0 then putPart s part { p with bankown := mset p.bankown ((off - pfBankown) / 8) v }
  else s

/-- REGISTER_WRITE (R210, R211, R375): an offset of a virtual function's BAR0, or of a partition's block of the physical function's. (DESIGN CHOICE: log 16) -/
def execRegisterWrite (pf : Bool) (part off : Nat) (v : DWord) (s : State) : Host.Outcome State Fault Refusal :=
  let s := wakePackage s
  .next (if pf then writeConfigReg s part off v else writePartReg s part off v)

/-! ## Enabling and disabling (R211, R437, R445) -/

/-- Whether a virtual function can be enabled: the module has come up without a failure (R220, R445). -/
def mayEnable (s : State) : Bool := decide (6 ≤ s.bootStep) && !s.bootStat.msb

/-- VF_ENABLE (R211). -/
def execVfEnable (part : Nat) (s : State) : Host.Outcome State Fault Refusal :=
  if 31 < part ∨ !mayEnable s then .next s
  else .next (startDone (enableIfReady (putPart s part { partOf s part with vfEnabled := true }) part) part)

/-- A copy of a disabled partition finishes the chunks whose writes have begun and writes no other chunk; its signal stays unless every chunk is written (R437). A GREL that has been debited goes on (R433); another is dropped. (DEDUCED: log 34) -/
def cutCopy (s : State) (c : Copy) : State :=
  match c.plan with
  | .gate .. =>
    let mine := s.gate.any fun g => g.copy == c.id
    if mine && s.gate.any (fun g => g.debit.isSome) then s
    else putCopy { s with gateQ := s.gateQ.filter (fun x => x != c.id), gate := if mine then none else s.gate } { c with done := true }
  | _ =>
    let begun := fun (k : Nat) => c.units.any fun u => u.chunk == k && u.done
    let cut := !c.planned || c.units.any fun u => !begun u.chunk
    let c := { c with planned := true, units := c.units.filter (fun u => begun u.chunk), sigDone := c.sigDone || cut }
    checkDone (putCopy s c) c

/-- A wave of a disabled partition ends; what it has issued to memory still performs. -/
def dropWave (s : State) (w : Wave) : State :=
  let w := { w with
    place := .ended, lanes := w.lanes ||| w.exited, exited := w.lanes ||| w.exited, splits := [], joins := [], sers := [], long := []
    flags := [], stop := none, late := [], step := 0, trapRec := none }
  putWave (releaseSerial { s with regs := s.regs.filter fun r => r.wave != w.id } w.id) w

/-- The registers, bench slots and mailboxes of a wave zeroed with empty labels. -/
def zeroWave (w : Wave) : Wave :=
  { w with vregs := [], sregs := [], preds := [], labels := [], bench := ⟨[], [], []⟩, mbox := [], emit := [] }

/-- A launch of a disabled partition is over. -/
def dropLaunch (s : State) (lid : Nat) : State :=
  let s := terminate s lid
  let s := { s with elems := s.elems.filter fun e => e.2.launch != lid }
  { s with launches := mmodify s.launches lid (fun l : Launch => { l with state := .ended, terminated := true }), l1 := s.l1.filter fun x => x.constant != some lid }

/-- Registers, bench slots, scratchpad banks, tiles and saved state of a partition zeroed with empty labels. -/
def zeroPart (s : State) (part : Nat) (p : Partition) : State :=
  let s := { s with waves := mmap s.waves fun _ (w : Wave) => if w.part = part then zeroWave w else w }
  let bankOf := fun (core off : Nat) => off / 8192 ∈ ownedBanks p core
  let s := { s with scratch := s.scratch.filter (fun c => !bankOf (c.1 / 2 ^ 18) (c.1 % 2 ^ 18))
                    scrLabels := s.scrLabels.filter fun c => !bankOf (c.1 / 256) (c.1 % 256 * 1024) }
  let mine := fun (q : Nat) => ownsQuadrant p q
  { s with tiles := s.tiles.filter (fun e => !mine (e.1 / 16384)), tileLabels := s.tileLabels.filter (fun e => !mine (e.1 / 8))
           tileOwner := s.tileOwner.filter (fun e => !mine e.1), savedTiles := s.savedTiles.filter (fun e => e.1 / 1536 != part)
           savedScr := s.savedScr.filter fun r => savedPart s r != some part }

/-- A partition disabled (R437). -/
def disablePart (s : State) (part : Nat) : State :=
  match mget? s.parts part with
  | none => s
  | some p =>
    let s := putPart s part { p with vfEnabled := false, state := .disabled, preempt := false, wipe := true, records := [], trapQueue := [], invals := [] }
    let s := { s with unitWrites := s.unitWrites.filter fun u => u.part != part }
    let s := (s.copies.filter fun c => c.2.part == part && !c.2.done).foldl (fun s c => cutCopy s c.2) s
    let s := (s.launches.filter fun l => l.2.part == part && l.2.state != .ended).foldl (fun s l => dropLaunch s l.1) s
    let s := ((wavesOf s part).filter fun w => w.place != .ended).foldl dropWave s
    { s with tlb := s.tlb.filter fun e => e.part != part }

/-- Whether the copies of a partition, and its waves' accesses to scratchpad, are over. -/
def partQuiet (s : State) (part : Nat) : Bool :=
  s.copies.all (fun c => c.2.part != part || c.2.done) &&
    s.waves.all fun w => w.2.part != part || w.2.pending.all fun e => e.accs.all fun a : Access => a.done || !a.loc.isScr

/-- A disabled partition whose copies are over has its storage zeroed (R437); a function enabled meanwhile then comes into use. -/
def settleWipe (s : State) : State :=
  (s.parts.filter fun e => e.2.wipe && partQuiet s e.1).foldl (fun s e =>
    startDone (enableIfReady (putPart (zeroPart s e.1 e.2) e.1 { e.2 with wipe := false }) e.1) e.1) s

/-- VF_DISABLE (R437): one virtual function, or all of them. -/
def execVfDisable (part : Option Nat) (s : State) : Host.Outcome State Fault Refusal :=
  match part with
  | some n => .next (disablePart s n)
  | none => .next ((s.parts.map fun e => e.1).foldl disablePart s)

end Sys2Proof.Machine
end

