-- ==== Sys2Proof/Machine/Xmss.lean ====
section
/-! DEFINITION. XMSS verification as RFC 8391 gives it, with SHAKE256, n = 32, w = 16 and tree height 20 (R174, R184, R216, R219). The prefixes of the four keyed hashes are those of SP 800-208. (DESIGN CHOICE: log 5) -/
namespace Sys2Proof.Machine

/-- A number as `n` bytes, most significant first. (DESIGN CHOICE: log 5) -/
def toByte (v n : Nat) : List Byte := (leBytes n v).reverse

/-- A keyed hash: F is function 0, H 1, H_msg 2, PRF 3. -/
def keyed (fn : Nat) (key m : List Byte) : List Byte := shake256 32 (toByte fn 32 ++ key ++ m)

/-- A hash address: its type and the four words after it. Layer and tree are 0 in a single tree. -/
structure Adrs where
  kind : Nat
  w4 : Nat
  w5 : Nat
  w6 : Nat
  mask : Nat
  deriving DecidableEq, Repr

/-- The 32 bytes of a hash address. -/
def Adrs.bytes (a : Adrs) : List Byte := toByte 0 12 ++ toByte a.kind 4 ++ toByte a.w4 4 ++ toByte a.w5 4 ++ toByte a.w6 4 ++ toByte a.mask 4

/-- The pseudorandom value of an address. -/
def prf (seed : List Byte) (a : Adrs) (mask : Nat) : List Byte := keyed 3 seed { a with mask := mask }.bytes

/-- Two byte strings added bit by bit. -/
def xorBytes (a b : List Byte) : List Byte := List.zipWith (· ^^^ ·) a b

/-- RAND_HASH of two nodes. -/
def randHash (l r seed : List Byte) (a : Adrs) : List Byte :=
  keyed 1 (prf seed a 0) (xorBytes l (prf seed a 1) ++ xorBytes r (prf seed a 2))

/-- `steps` steps of a WOTS+ chain from position `i`. -/
def wotsChain : Nat → List Byte → Nat → List Byte → Adrs → List Byte
  | 0, x, _, _, _ => x
  | steps + 1, x, i, seed, a =>
    let here := { a with w6 := i }
    wotsChain steps (keyed 0 (prf seed here 0) (xorBytes x (prf seed here 1))) (i + 1) seed a

/-- The base-16 digits of a message digest and of its checksum: 64 and 3. -/
def wotsDigits (m : List Byte) : List Nat :=
  let ds := m.flatMap fun b => [b.toNat / 16, b.toNat % 16]
  let sum := ds.foldl (fun n d => n + (15 - d)) 0
  ds ++ [sum / 256 % 16, sum / 16 % 16, sum % 16]

/-- The WOTS+ public key that a signature of a digest gives. -/
def wotsKey (sig : List (List Byte)) (m seed : List Byte) (leaf : Nat) : List (List Byte) :=
  (List.zip sig (wotsDigits m)).zipIdx.map fun e => wotsChain (15 - e.1.2) e.1.1 e.1.2 seed ⟨0, leaf, e.2, 0, 0⟩

/-- One level of an L-tree: neighbours are hashed, an odd last one goes up as it is. -/
def ltreeLevel (seed : List Byte) (a : Adrs) : Nat → List (List Byte) → List (List Byte)
  | i, l :: r :: rest => randHash l r seed { a with w6 := i } :: ltreeLevel seed a (i + 1) rest
  | _, ns => ns

/-- The L-tree over a WOTS+ public key: 67 nodes meet after seven levels. -/
def ltree (seed : List Byte) (leaf : Nat) (ns : List (List Byte)) : List Byte :=
  nthD ((List.range 7).foldl (fun ns h => ltreeLevel seed ⟨1, leaf, h, 0, 0⟩ 0 ns) ns) 0 []

/-- From a leaf to the root by the authentication path. -/
def climb (seed : List Byte) (leaf : Nat) (node : List Byte) (auth : List (List Byte)) : List Byte :=
  auth.zipIdx.foldl (fun node e =>
    let a : Adrs := ⟨2, 0, e.2, leaf / 2 ^ (e.2 + 1), 0⟩
    if leaf / 2 ^ e.2 % 2 = 0 then randHash node e.1 seed a else randHash e.1 node seed a) node

/-- A byte string cut into strings of 32 bytes. -/
def cut32 (n : Nat) (bs : List Byte) : List (List Byte) := (List.range n).map fun i => (bs.drop (32 * i)).take 32

/-- The bytes of a signature: index, randomizer, 67 chain values, 20 nodes of the path (R174). -/
def xmssSigBytes : Nat := 4 + 32 + 67 * 32 + 20 * 32

/-- The root that a signature of a message gives. -/
def xmssRoot (root seed message sig : List Byte) : List Byte :=
  let leaf := leNat (sig.take 4).reverse
  let m := keyed 2 ((sig.drop 4).take 32 ++ root ++ toByte leaf 32) message
  climb seed leaf (ltree seed leaf (wotsKey (cut32 67 (sig.drop 36)) m seed leaf)) (cut32 20 (sig.drop (36 + 67 * 32)))

/-- The bytes of a public key: an algorithm number, the root, the seed. -/
def xmssKeyBytes : Nat := 4 + 32 + 32

/-- The algorithm number of XMSS-SHAKE256_20_256. -/
def xmssAlgorithm : Nat := 0x12

/-- Verification of a signature of a message under a public key (R174, R184, R216). (DESIGN CHOICE: log 5) -/
def xmssVerify (key message sig : List Byte) : Bool :=
  let root := (key.drop 4).take 32
  key.length == xmssKeyBytes && leNat (key.take 4).reverse == xmssAlgorithm && sig.length == xmssSigBytes &&
    decide (leNat (sig.take 4).reverse < 2 ^ 20) && xmssRoot root (key.drop 36) message sig == root

end Sys2Proof.Machine
end

