-- ==== Sys2Proof/Machine/Security.lean ====
section
/-! DEFINITION. The security processor: principals, egress windows, tenants, bound masks, policies, the gate log, package time, quotes, the label domain, frame labels (R102, R103, R174, R175, R180, R181, R184 to R188, R197, R216, R219, R432 to R434). -/
namespace Sys2Proof

/-- A kind that R181 gives a window: host, scale-out or package. -/
def Window.named (w : Window) : Bool := decide (1 ≤ w.kind) && decide (w.kind ≤ 3)

/-- A destination that R181 gives: partition 0 to 31, port 0 or 1, package 0 to 143. (DESIGN CHOICE: log 60) -/
def Window.reachable (w : Window) : Bool :=
  match w.kind with
  | 1 => decide (w.target < 32)
  | 2 => decide (w.target < 2)
  | 3 => decide (w.target < 144)
  | _ => false

/-- The 128-B body of a quote (R219). (DESIGN CHOICE: log 19) -/
def Quote.body (q : Quote) : List Byte := q.m ++ q.nonce ++ q.identity ++ q.config

end Sys2Proof

namespace Sys2Proof.Machine

/-- An answer on the command channel, a link or a pin. -/
def reply (s : State) (r : Reply) : State := { s with replies := s.replies ++ [r] }

/-! ## Registrations (R174, R175, R180, R197) -/

/-- PRINCIPAL_REGISTRATION (R174): principals are numbered 0 to 31. -/
def execPrincipalRegistration (n : Nat) (key : List Byte) (s : State) : Host.Outcome State Fault Refusal :=
  if 31 < n then .next s else .next { s with principals := mset s.principals n key }

/-- EGRESS_WINDOW_REGISTRATION (R180, R181): window `idx` of 8 of a principal; KIND 0 frees it, and reserved bits are ignored (R6). KIND 4 to 15, or a TARGET that R181 does not give, changes nothing. (DESIGN CHOICE: log 60) -/
def execEgressWindowRegistration (principal idx : Nat) (w : Window) (s : State) : Host.Outcome State Fault Refusal :=
  if 31 < principal ∨ 7 < idx then .next s
  else if w.kind = 0 then .next { s with windows := merase s.windows (principal * 8 + idx) }
  else if w.reachable then .next { s with windows := mset s.windows (principal * 8 + idx) { w with reserved := 0 } }
  else .next s

/-- TENANT_TABLE_WRITE (R197): one of 64 entries. -/
def execTenantTableWrite (idx : Nat) (t : Tenant) (s : State) : Host.Outcome State Fault Refusal :=
  if 63 < idx ∨ 31 < t.part ∨ 4 < t.identities.length then .next s else .next { s with tenants := mset s.tenants idx t }

/-- BOUND_MASK_SET (R175). -/
def execBoundMaskSet (part : Nat) (mask : Label) (s : State) : Host.Outcome State Fault Refusal :=
  if 31 < part then .next s else .next (putPart s part { partOf s part with boundMask := mask })

/-! ## Policies (R184, R185, R433) -/

/-- A window read from 128 bits (R181). -/
def windowOf (n : Nat) : Window :=
  { kind := bits n 127 124, target := bits n 123 116, reserved := bits n 115 104, size := bits n 103 64, base := bits n 63 0 }

/-- A policy read from its body (R185). -/
def policyOf (b : Nat) : Policy :=
  { codeId := leBytes 32 (bits b 2047 1792), windows := (List.range 8).map fun k => windowOf (bits b (895 + 128 * k) (768 + 128 * k)),
    budget := bits b 767 704, period := bits b 703 672, lmask := BitVec.ofNat 32 (bits b 671 640), serial := bits b 639 576,
    nwin := bits b 575 568, spent := 0, installed := 0, periodNo := 0 }

/-- The principals of a label, ascending. -/
def principalsOf (l : Label) : List Nat := (List.range 32).filter fun i => bit l i

/-- One signature per principal, in ascending order, over the digest of the body (R184). -/
def signedByAll (s : State) (l : Label) (body : List Byte) (sigs : List (List Byte)) : Bool :=
  let ps := principalsOf l
  ps.length == sigs.length && (ps.zip sigs).all fun (x : Nat × List Byte) => match mget? s.principals x.1 with
    | some key => xmssVerify key (digest body) x.2
    | none => false

/-- Whether a body breaks R185 or R433 on its own. -/
def policyBad (b : Nat) : Bool :=
  let p := policyOf b
  p.lmask == 0 || p.nwin == 0 || decide (8 < p.nwin) || bits b 567 560 != 1 || p.period == 0 || bits b 559 0 != 0 ||
    (p.windows.any fun w => w.reserved != 0) || ((p.windows.take p.nwin).any fun w => !w.named)

/-- Install a policy: one with a higher SERIAL keeps SPENT and the period of the one it replaces (R184). (DESIGN CHOICE: log 19) -/
def installPolicy (s : State) (p : Policy) : Option State :=
  match policyFor s p.lmask with
  | some old =>
    if p.serial ≤ old.serial then none
    else
      let old := old.roll s.pkgTime
      let p := { p with spent := old.spent, installed := old.installed }
      some (putPolicy s { p with periodNo := p.periodAt s.pkgTime })
  | none =>
    if 64 ≤ s.policies.length then none else some { s with policies := s.policies ++ [{ p with installed := s.pkgTime }] }

/-- POLICY_INSTALL (R184, R433): refused with the installed set unchanged, or installed; a status on the command channel. -/
def execPolicyInstall (body : List Byte) (sigs : List (List Byte)) (s : State) : Host.Outcome State Fault Refusal :=
  let b := leNat body
  if body.length ≠ 256 ∨ policyBad b ∨ !signedByAll s (policyOf b).lmask body sigs then .next (reply s (.policyStatus false))
  else match installPolicy s (policyOf b) with
    | some s => .next (reply s (.policyStatus true))
    | none => .next (reply s (.policyStatus false))

/-- What a withdrawal signs: the label mask of the policy. (DESIGN CHOICE: log 5) -/
def withdrawMessage (l : Label) : List Byte := leBytes 4 l.toNat

/-- POLICY_WITHDRAW (R184): signed by any one principal of LMASK. -/
def execPolicyWithdraw (lmask : Label) (principal : Nat) (sig : List Byte) (s : State) : Host.Outcome State Fault Refusal :=
  let signed : Bool := match mget? s.principals principal with
    | some key => xmssVerify key (digest (withdrawMessage lmask)) sig
    | none => false
  if bit lmask principal && signed && (policyFor s lmask).isSome then
    .next (reply { s with policies := s.policies.filter fun p => p.lmask != lmask } (.policyStatus true))
  else .next (reply s (.policyStatus false))

/-! ## Time, log and measurement (R187, R188, R219) -/

/-- PACKAGE_TIME_READ (R187). -/
def execPackageTimeRead (s : State) : Host.Outcome State Fault Refusal := .next (reply s (.time s.pkgTime))

/-- The latest SEQ of the gate log, if a record has been appended (R189). -/
def latestSeq (s : State) : Option Nat := if s.logSeq = 0 then none else some (s.logSeq - 1)

/-- What GATE_LOG_SIGN signs: H and the latest SEQ (R188). (DESIGN CHOICE: log 19) -/
def logMessage (s : State) : List Byte :=
  s.chain ++ (match latestSeq s with
    | some n => leBytes 8 n
    | none => [])

/-- GATE_LOG_SIGN (R188). -/
def execGateLogSign (s : State) : Host.Outcome State Fault Refusal :=
  .next (reply s (.logSig (Config.xmssSign s.serialNum (logMessage s)) s.chain (latestSeq s)))

/-- GATE_LOG_ACK (R188): software acknowledges the records below `n`, of those appended. (DESIGN CHOICE: log 19) -/
def execGateLogAck (n : Nat) (s : State) : Host.Outcome State Fault Refusal := .next { s with logAck := max s.logAck (min n s.logSeq) }

/-- The package serial and number as a quote holds them (R219). (DESIGN CHOICE: log 19) -/
def identityBytes (serial num : Nat) : List Byte := leBytes 24 serial ++ leBytes 8 num

/-- This package's quote. -/
def quoteOf (s : State) (nonce : List Byte) : Quote :=
  { m := s.measured, nonce := nonce, identity := identityBytes s.serialNum s.pkgNum, config := s.configDigest }

/-- QUOTE_REQUEST (R219): a nonce is 32 B. -/
def execQuoteRequest (nonce : List Byte) (s : State) : Host.Outcome State Fault Refusal :=
  let n := (nonce ++ zero32).take 32
  .next (reply s (.quote (quoteOf s n).body (Config.xmssSign s.serialNum (quoteOf s n).body)))

/-- The measurement register extended (R219). -/
def extend (m d : List Byte) : List Byte := digest (m ++ d)

/-! ## The label domain (R216, R434) -/

/-- The principal keys that a peer names, as a map. -/
def peerKeys (keys : List (Nat × List Byte)) : Map (List Byte) := keys.foldl (fun (m : Map (List Byte)) (k : Nat × List Byte) => mset m k.1 k.2) []

/-- Whether a peer's quote verifies and names the peer (R216, R219). (DESIGN CHOICE: log 19) -/
def quoteGood (pkg : Nat) (q : Quote) (sig key : List Byte) : Bool :=
  xmssVerify key q.body sig && q.m.length == 32 && q.nonce.length == 32 && q.config.length == 32 && q.identity.length == 32 &&
    leNat (q.identity.drop 24) == pkg

/-- The writes to a package that are issued and not performed. -/
def outstandingTo (s : State) (pkg : Nat) : List (Nat × Nat × Nat) :=
  s.waves.flatMap fun e => (e.2.pending.filter fun x => x.kind != .load && x.accs.any fun a => !a.done && (match a.loc with
    | .pkg p _ => p == pkg
    | _ => false)).map fun x => (e.1, x.id, pkg)

/-- A peer that fails: out of the domain, its packets barred, what is under way to it discarded, ATTEST_FAIL written (R434). (DEDUCED: log 18) -/
def barPeer (s : State) (pkg : Nat) : State :=
  let s := { s with cut := if pkg ∈ s.domain then s.cut ++ outstandingTo s pkg else s.cut }
  packageEvent { s with domain := s.domain.filter fun p => p != pkg, peerM := merase s.peerM pkg, barred := addNat pkg s.barred } 0x3E pkg 0

/-- PEER_ADMIT (R216, R434): both checks admit a peer; a failure, or another measurement of a member, removes it. (DEDUCED: log 18) -/
def execPeerAdmit (pkg : Nat) (q : Quote) (sig key : List Byte) (keys : List (Nat × List Byte)) (s : State) : Host.Outcome State Fault Refusal :=
  if 143 < pkg ∨ pkg = s.pkgNum then .next s
  else if !quoteGood pkg q sig key ∨ peerKeys keys ≠ s.principals then .next (barPeer s pkg)
  else if pkg ∈ s.domain ∧ mget? s.peerM pkg ≠ some q.m then .next (barPeer s pkg)
  else .next { s with domain := addNat pkg s.domain, peerM := mset s.peerM pkg q.m, barred := s.barred.filter fun p => p != pkg }

/-! ## Frame labels (R102, R103, R432) -/

/-- Frames of device memory (R102). -/
def frameCount : Nat := 2 ^ 25

/-- Whether a place lies in a frame. -/
def inFrame (frame : Nat) : Loc → Bool
  | .dev pa => pa / 2 ^ 15 == frame
  | _ => false

/-- An access checked against a frame's label has not performed: a store, atomic or RED under way, or an output recorded and not written (R432). (DESIGN CHOICE: log 24) -/
def frameBusy (s : State) (frame : Nat) : Bool :=
  (s.waves.any fun e => e.2.pending.any fun x => x.tx == 0 && x.kind != .load && x.kind != .fence && x.accs.any fun a => !a.done && a.bytes != 0 && inFrame frame a.loc) ||
  (s.elems.any fun e => !e.2.outs.isEmpty && e.2.state != .returned)

/-- Whether a TLB entry's page covers a frame. -/
def TlbEntry.coversFrame (e : TlbEntry) (frame : Nat) : Bool :=
  let l : Leaf := ⟨e.leaf.toNat, e.level⟩
  l.homeKind == 0 && decide (l.base ≤ frame * 2 ^ 15) && decide (frame * 2 ^ 15 < l.base + 2 ^ pageBits l.level)

/-- Every line of a frame written back and dropped from every cache: the home slice folds and drops it, with every remote copy (R92, R96). (DESIGN CHOICE: log 24) -/
def dropFrame (s : State) (frame : Nat) : State :=
  let held := (s.l2.map (fun x => x.line) ++ s.bands.map fun e => e.1).filter fun l => l / 256 == frame
  let s := held.foldl l2Drop s
  { s with l1 := s.l1.filter fun x => x.line / 256 != frame
           rdc := s.rdc.filter fun x => x.host || x.line / 256 != frame
           tlb := s.tlb.filter fun e => e.onDie || !e.coversFrame frame }

/-- FRAME_LABEL_CHANGE (R103, R432): waits until every access checked against the old label has performed. (DESIGN CHOICE: log 24) -/
def execFrameLabelChange (frame : Nat) (idx : Byte) (s : State) : Host.Outcome State Fault Refusal :=
  if frameCount ≤ frame ∨ frameBusy s frame then .next s
  else .next (writeLoc (dropFrame s frame) (.dev (frameTable + frame)) idx)

end Sys2Proof.Machine
end

