-- ==== Sys2Proof/Machine/Loader.lean ====
section
/-! DEFINITION. Code objects: the file's records, the checks of a loader, relocation, measurement (R186, R219, R239 to R248). -/
namespace Sys2Proof.Machine

/-- A table of records of a file: `n` records of `size` bytes from an offset, as numbers. -/
def fileTable (file : List Byte) (off size n : Nat) : List Nat :=
  (List.range n).map fun i => leNat ((file.drop (off + size * i)).take size)

/-- The header fields of a code object file (R240). -/
structure ObjHeader where
  feature : Nat
  name : Nat
  prefBase : Nat
  imageSize : Nat
  relOff : Nat
  relCount : Nat
  nameOff : Nat
  nameCount : Nat
  entryCount : Nat
  sectCount : Nat
  entryOff : Nat
  sectOff : Nat
  gotOff : Nat
  gotCount : Nat
  rest : Nat
  version : Nat
  magic : Nat
  deriving DecidableEq, Repr

/-- The header of a file. -/
def fileHeader (file : List Byte) : ObjHeader :=
  let h := leNat (file.take 128)
  { feature := bits h 1023 896, name := bits h 895 768, prefBase := bits h 767 704, imageSize := bits h 703 672, relOff := bits h 671 640,
    relCount := bits h 639 608, nameOff := bits h 607 576, nameCount := bits h 575 560, entryCount := bits h 559 552,
    sectCount := bits h 551 544, entryOff := bits h 543 512, sectOff := bits h 511 480, gotOff := bits h 479 448,
    gotCount := bits h 447 432, rest := bits h 431 64, version := bits h 63 32, magic := bits h 31 0 }

/-- A section record (R241). -/
structure Sect where
  fileOff : Nat
  fileSize : Nat
  loadOff : Nat
  loadSize : Nat
  rest : Nat
  kind : Nat
  deriving DecidableEq, Repr

def sectOf (n : Nat) : Sect :=
  { fileOff := bits n 255 224, fileSize := bits n 223 192, loadOff := bits n 191 160, loadSize := bits n 159 128, rest := bits n 127 4, kind := bits n 3 0 }

/-- A relocation record (R245). -/
structure Reloc where
  rest : Nat
  addend : Nat
  site : Nat
  anchor : Nat
  kind : Nat
  deriving DecidableEq, Repr

def relocOf (n : Nat) : Reloc :=
  { rest := bits n 255 192 + bits n 63 8, addend := bits n 191 128, site := bits n 127 96, anchor := bits n 95 64, kind := bits n 7 0 }

/-- The bytes of a page (R240). -/
def page : Nat := 32768

/-- ASCII characters, then zeros (R240, R243). -/
def asciiPadded (bs : List Byte) : Bool :=
  let text := bs.takeWhile fun b => b != 0
  text.all (fun b => decide (b.toNat < 128)) && (bs.drop text.length).all fun b => b == 0

/-- Whether a table lies in the file on its alignment. -/
def tableFits (file : List Byte) (off size n align : Nat) : Bool := off % align == 0 && decide (off + size * n ≤ file.length)

/-- A section's pages in the image, as first and first beyond. -/
def Sect.pages (x : Sect) : Nat × Nat := (x.loadOff / page, (x.loadOff + x.loadSize + page - 1) / page)

/-- Whether a section obeys R241 on its own. -/
def Sect.good (x : Sect) (h : ObjHeader) (file : List Byte) : Bool :=
  x.rest == 0 && decide (x.kind ≤ 4) && x.loadOff % page == 0 && decide (x.fileSize ≤ x.loadSize) && (x.kind != 3 || x.fileSize == 0) &&
    decide (x.fileOff + x.fileSize ≤ file.length) && decide (x.loadOff + x.loadSize ≤ h.imageSize)

/-- Whether no two sections share a page (R241). -/
def apart : List Sect → Bool
  | [] => true
  | x :: xs => (xs.all fun y => decide (x.pages.2 ≤ y.pages.1) || decide (y.pages.2 ≤ x.pages.1)) && apart xs

/-- The held registers that an entry declares: number, producing rate code, last-consumer rate code (R242). -/
def heldOf (n : Nat) : List (Nat × Nat × Nat) :=
  (List.range 64).filterMap fun k =>
    let c := bits n (128 + 6 * k + 5) (128 + 6 * k)
    if c = 63 then none else some (k, c % 8, c / 8)

/-- An entry record (R242). -/
def entryPtOf (n : Nat) : EntryPt :=
  { codeOff := bits n 127 96, kind := bits n 63 61, vregs := 8 * bits n 60 56, scalars := bits n 55 49, scratch := bits n 48 40,
    bench := bits n 39 34, exitScope := bits n 33 32, held := heldOf n }

/-- Whether a pair of rates is one that R51 allows in a program kind. -/
def heldGood (draw : Bool) (p l : Nat) : Bool :=
  decide (p < 7) && decide (l < 7) && rateLegal draw (Rate.of p) && rateLegal draw (Rate.of l) &&
    (p == l || onChain draw (Rate.of l) (Rate.of p) || (p == 2 && (l == 0 || l == 1 || l == 6)))

/-- Whether an entry record obeys R242. -/
def entryGood (draw : Bool) (n : Nat) : Bool :=
  let e := entryPtOf n
  bits n 95 64 == 0 && bits n 31 0 == 0 && decide (e.kind ≤ 4) && decide (8 ≤ e.vregs) && decide (e.vregs ≤ 192) && decide (e.scalars ≤ 64) &&
    decide (e.scratch ≤ 256) && decide (e.bench ≤ 32) && e.codeOff % 8 == 0 && decide (e.exitScope ≤ if e.kind = 2 then 2 else 0) &&
    e.held.all fun (x : Nat × Nat × Nat) => heldGood draw x.2.1 x.2.2

/-- Whether a name record obeys R243. -/
def nameGood (entries n : Nat) : Bool :=
  let kind := bits n 31 24
  let entry := bits n 23 16
  bits n 15 0 == 0 && decide (kind ≤ 1) && asciiPadded (leBytes 24 (bits n 255 64)) && (if kind = 1 then decide (entry < entries) else entry == 0)

/-- Whether a relocation is PC-relative (R245). -/
def Reloc.pcRel (r : Reloc) : Bool := r.kind == 3 || r.kind == 4 || r.kind == 5 || r.kind == 6

/-- Whether a relocation record's fields obey R245; SITE and ANCHOR are judged when it is applied (R247). -/
def Reloc.good (r : Reloc) : Bool := r.rest == 0 && decide (1 ≤ r.kind) && decide (r.kind ≤ 7) && (r.pcRel || r.anchor == 0)

/-- Whether records stand in ascending order of SITE (R245). -/
def ascending : List Reloc → Bool
  | a :: b :: rest => decide (a.site ≤ b.site) && ascending (b :: rest)
  | _ => true

/-- Whether a low part shares its ADDEND, and a PC-relative one its ANCHOR, with a high part (R245). (DESIGN CHOICE: log 20) -/
def Reloc.paired (r : Reloc) (rs : List Reloc) : Bool :=
  match r.kind with
  | 2 => rs.any fun x => x.kind == 1 && x.addend == r.addend
  | 4 => rs.any fun x => (x.kind == 3 || x.kind == 5) && x.addend == r.addend && x.anchor == r.anchor
  | _ => true

/-- Whether each entry of the GOT is the SITE of one REL_ABS64 record (R244). -/
def gotGood (h : ObjHeader) (rs : List Reloc) : Bool :=
  (List.range h.gotCount).all fun i => (rs.filter fun r => r.kind == 7 && r.site == h.gotOff + 8 * i).length == 1

/-- A file read whole: its header and tables. -/
structure ObjFile where
  header : ObjHeader
  sects : List Sect
  entries : List Nat
  names : List Nat
  relocs : List Reloc
  deriving DecidableEq, Repr

def objFileOf (file : List Byte) : ObjFile :=
  let h := fileHeader file
  { header := h, sects := (fileTable file h.sectOff 32 h.sectCount).map sectOf, entries := fileTable file h.entryOff 64 h.entryCount,
    names := fileTable file h.nameOff 32 h.nameCount, relocs := (fileTable file h.relOff 32 h.relCount).map relocOf }

/-- Whether an object is a draw program: one of its entries is a draw entry (R42, R242). -/
def ObjFile.isDraw (o : ObjFile) : Bool := o.entries.any fun n => (entryPtOf n).kind == 1

/-- Step 2 of a loader (R246): MAGIC, VERSION, every count and reserved field, and every table. -/
def ObjFile.good (o : ObjFile) (file : List Byte) : Bool :=
  let h := o.header
  decide (128 ≤ file.length) && h.magic == 0x534C5254 && h.version == 1 && h.rest == 0 && decide (1 ≤ h.entryCount) &&
    decide (1 ≤ h.sectCount) && decide (h.sectCount ≤ 16) && h.prefBase % page == 0 && canonical h.prefBase && h.imageSize % page == 0 &&
    asciiPadded (leBytes 16 h.name) && tableFits file h.sectOff 32 h.sectCount 32 && tableFits file h.entryOff 64 h.entryCount 64 &&
    tableFits file h.nameOff 32 h.nameCount 32 && tableFits file h.relOff 32 h.relCount 32 &&
    o.sects.all (fun x => x.good h file) && apart o.sects &&
    (if h.gotCount = 0 then h.gotOff == 0 else o.sects.any fun x => x.kind == 4 && x.loadOff == h.gotOff && decide (8 * h.gotCount ≤ x.loadSize)) &&
    o.entries.all (entryGood o.isDraw) && o.names.all (nameGood h.entryCount) && o.relocs.all (fun r => r.good && r.paired o.relocs) && ascending o.relocs && gotGood h o.relocs

/-! ## Relocation (R247) -/

/-- A section staged: its kind, image offset and bytes. -/
abbrev Staged := Nat × Nat × List Byte

/-- A section's bytes with zeros up to LOADSIZE (R246). -/
def stage (file : List Byte) (x : Sect) : Staged :=
  (x.kind, x.loadOff, (file.drop x.fileOff).take x.fileSize ++ List.replicate (x.loadSize - x.fileSize) 0)

/-- A field of a word replaced. -/
def putField (w hi lo v : Nat) : Nat := w - bits w hi lo * 2 ^ lo + v % 2 ^ (hi + 1 - lo) * 2 ^ lo

/-- The word that a record patches, patched; none where R247 rejects it. -/
def applyReloc (r : Reloc) (base w : Nat) : Option Nat :=
  let target := sextN 64 (base + r.addend)
  if r.kind = 7 then
    let t := (target % (2 ^ 64 : Nat)).toNat
    if canonical t then some t else none
  else
    let v : Int := if r.kind = 1 ∨ r.kind = 2 then target else target - sextN 64 (base + r.anchor)
    let imm := fun (x : Int) (n : Nat) => (x % (2 ^ n : Nat)).toNat
    if r.kind = 6 then
      if fmtOf (wOp w) = .b ∧ v % 8 = 0 ∧ -(2 ^ 19 : Int) ≤ v / 8 ∧ v / 8 ≤ 2 ^ 19 - 1 then some (putField w 45 26 (imm (v / 8) 20)) else none
    else
      let hi := (v + 2048) / 4096
      let lo := v - hi * 4096
      if hi < -(2 ^ 19 : Int) ∨ 2 ^ 19 - 1 < hi then none
      else if r.kind = 1 then (if wOp w = 209 then some (putField w 27 8 (imm hi 20)) else none)
      else if r.kind = 3 ∨ r.kind = 5 then (if wOp w = 210 then some (putField w 27 8 (imm hi 20)) else none)
      else if fmtOf (wOp w) = .m then some (putField w 18 7 (imm lo 12))
      else if fmtOf (wOp w) = .i then some (putField w 27 8 (imm lo 20))
      else none

/-- One record applied to the staged sections (R245, R247). -/
def relocate (base : Nat) (secs : List Staged) (r : Reloc) : Option (List Staged) :=
  let holds := fun (x : Staged) => decide (x.2.1 ≤ r.site) && decide (r.site + 8 ≤ x.2.1 + x.2.2.length)
  let anchored := !r.pcRel || (r.anchor % 8 == 0 && secs.any fun (x : Staged) => x.1 == 0 && decide (x.2.1 ≤ r.anchor) && decide (r.anchor < x.2.1 + x.2.2.length))
  if !anchored then none
  else match secs.find? holds with
    | none => none
    | some x =>
      let i := r.site - x.2.1
      (applyReloc r base (leNat ((x.2.2.drop i).take 8))).map fun w =>
        secs.map fun (y : Staged) => if y = x then (y.1, y.2.1, y.2.2.take i ++ leBytes 8 w ++ y.2.2.drop (i + 8)) else y

/-- Every record applied in table order; the first that is rejected, with its SITE. -/
def relocateAll (base : Nat) : List Reloc → Nat → List Staged → Except (Nat × Nat) (List Staged)
  | [], _, secs => .ok secs
  | r :: rs, i, secs => match relocate base secs r with
    | none => .error (i, r.site)
    | some secs => relocateAll base rs (i + 1) secs

/-- Whether the clauses of a code section, read word by word, hold an instruction of rate RAY (R221, R222); `left` counts the instruction words that the clause still has. -/
def rayWords : List Nat → Nat → Bool
  | [], _ => false
  | h :: ws, 0 => rayWords ws (hdrCount h)
  | w :: ws, left + 1 => wRate w == Rate.ray.num || rayWords ws left

/-- Whether an object holds RAY-rate code (R60). -/
def holdsRay (file : List Byte) (o : ObjFile) : Bool :=
  o.sects.any fun x => x.kind == 0 && rayWords (fileTable file x.fileOff 8 (x.fileSize / 8)) 0

/-- The object that a partition's launches name. -/
def codeObjOf (part : Nat) (base : DWord) (file : List Byte) (o : ObjFile) : CodeObj :=
  { part := part, base := base, magic := o.header.magic, version := o.header.version, feature := BitVec.ofNat 128 o.header.feature,
    identity := digest file, draw := o.isDraw, hasRay := holdsRay file o, entries := o.entries.map entryPtOf }

/-- Whether the bytes of an image are free at a base in a partition's address space: its table maps no page of them. (DESIGN CHOICE: log 20) -/
def baseFree (s : State) (part base size : Nat) : Bool :=
  (List.range (size / page)).all fun i => match walk s part (base + page * i) with
    | .ok _ => false
    | .error _ => true

/-- Step 3 of a loader (R246): a canonical multiple of 32 KiB at which the image is free, and the preferred base where that is. -/
def baseGood (s : State) (part base : Nat) (h : ObjHeader) : Bool :=
  canonical base && base % page == 0 && baseFree s part base h.imageSize && (base == h.prefBase || !baseFree s part h.prefBase h.imageSize)

/-- CODE_OBJECT_SUBMIT (R219, R246): the file is measured; the loader's checks and relocations at the base that it chose reject it, or give the staged image and the object that the base names. (DESIGN CHOICE: log 20) -/
def execCodeObjectSubmit (part : Nat) (base : DWord) (bytes : List Byte) (s : State) : Host.Outcome State Fault Refusal :=
  let s := { s with measured := extend s.measured (digest bytes) }
  let o := objFileOf bytes
  if !o.good bytes ∨ !baseGood s part base.toNat o.header ∨ 31 < part then .next (reply s (.loadStatus false none))
  else match relocateAll base.toNat o.relocs 0 (o.sects.map (stage bytes)) with
    | .error e => .next (reply s (.loadStatus false (some e)))
    | .ok secs =>
      let id := s.objects.foldl (fun n e => max n (e.1 + 1)) 0
      .next (reply (reply { s with objects := mset s.objects id (codeObjOf part base bytes o) } (.image part base secs)) (.loadStatus true none))

end Sys2Proof.Machine
end

