-- ==== Sys2Proof/Machine/Fabric.lean ====
section
/-! DEFINITION. The outside world's requests to device memory, the pod fabric and the host link (R94, R126 to R128, R179, R180, R215, R217, R218, R432, R434, R439 to R441, R452). -/
namespace Sys2Proof.Machine

/-! ## Requests from outside -/

/-- Bytes of device memory (R90). -/
def deviceSize : Nat := 2 ^ 40

/-- Lines that a run of bytes touches. -/
def linesOf (pa n : Nat) : List Nat := (List.range ((pa + n + 127) / 128 - pa / 128)).map fun i => pa / 128 + i

/-- A request for a run of bytes from outside has reached the module: package sleep ends, and the idle state of every die that homes a line of it (R217). -/
def noteOutside (s : State) (pa n : Nat) : State :=
  let dies := (linesOf pa n).map fun l => dieOf (l * 128)
  let s := wakePackage s
  { s with lastOutside := s.clock, power := s.power.filter fun e => e.st != .dieIdle || !dies.contains e.unit }

/-- Data cut at line boundaries: the address and the bytes that fall into each line. -/
def linePieces (pa : Nat) (data : List Byte) : List (Nat × List Byte) :=
  (List.range ((pa + data.length + 127) / 128 - pa / 128)).filterMap fun i =>
    let line := pa / 128 + i
    let lo := max pa (line * 128)
    let bs := (data.drop (lo - pa)).take ((line + 1) * 128 - lo)
    if bs.isEmpty then none else some (lo, bs)

/-- Frames that a run of bytes touches. -/
def framesOf (pa n : Nat) : List Nat := (List.range ((pa + n + 32767) / 32768 - pa / 32768)).map fun i => pa / 32768 + i

/-- Whether the write of a run of bytes waits for a serial transaction's lock (R157). -/
def lineLocked (s : State) (pa n : Nat) : Bool := s.txLocks.any fun x => match x.2 with
  | .dev l => decide (pa < (l + 1) * 128) && decide (l * 128 < pa + n)
  | _ => false

/-- The OR of the labels of the frames that a run of bytes touches. -/
def runLabel (s : State) (pa n : Nat) : Label := (framesOf pa n).foldl (fun acc f => acc ||| frameLabel s f) 0

/-- One line's part of a write from outside performs at home; a whole line clears the mark of poison (R417). -/
def outsideWrite (s : State) (x : Nat × List Byte) : State :=
  let s := homeWrite s Agent.outside (.dev x.1) x.2
  if x.2.length = 128 then unpoison s (x.1 / 128) else s

/-- The lines of a run of bytes, folded for a read. -/
def foldRun (s : State) (pa n : Nat) : State :=
  (linesOf pa n).foldl (fun s l => foldForRead s (.dev (l * 128))) s

/-- Whether a run of bytes meets a poisoned line. -/
def runPoisoned (s : State) (pa n : Nat) : Bool := s.poisoned.any fun l => decide (pa < (l + 1) * 128) && decide (l * 128 < pa + n)

/-- Whether part of a run of bytes lies in a reserved range (R452), which ends each die's share of the addresses. -/
def runReserved (pa n : Nat) : Bool := reserved pa || reserved (pa + n - 1) || pa / 2 ^ 37 != (pa + n - 1) / 2 ^ 37

/-- Whether the access tables let a master read or write a run of bytes (R218, R452). -/
def runOpen (s : State) (m : Master) (wr : Bool) (pa n : Nat) : Bool := !runReserved pa n && mayReach s m wr pa n

/-! ## CXL.mem (R128, R180, R214, R432) -/

/-- Whether a table maps a frame of this module, from a node of a level (R97, R214). -/
def mapsFrom (s : State) (frame : Nat) : Nat → Nat → Bool
  | 0, _ => false
  | level + 1, node => (List.range 1024).any fun i =>
    let e := devNat s (node + 8 * i) 8
    tb e 0 && !entryBad level e &&
      (if tb e 4 then
        let l : Leaf := ⟨e, level⟩
        l.homeKind == 0 && decide (l.base ≤ frame * 2 ^ 15) && decide (frame * 2 ^ 15 < l.base + 2 ^ pageBits level)
       else mapsFrom s frame level (bits e 45 13 * 2 ^ 13))

/-- Whether the decoder of a function covers a read or write of a run of bytes (R208, R214, R437, R452). Function 0 is the physical function; function n is partition n - 1. (DESIGN CHOICE: log 17) -/
def decodes (s : State) (vf : Nat) (wr : Bool) (pa n : Nat) : Bool :=
  runOpen s (.cxl vf) wr pa n && (vf == 0 || match mget? s.parts (vf - 1) with
    | none => false
    | some p => p.vfEnabled && (framesOf pa n).all fun f => mapsFrom s f 4 p.xlroot.toNat)

/-- The bound mask of a function (R175). (DESIGN CHOICE: log 17) -/
def boundOf (s : State) (vf : Nat) : Label :=
  if vf = 0 then 0 else match mget? s.parts (vf - 1) with
    | some p => p.boundMask
    | none => 0

/-- CXL_MEM_READ (R128, R180, R432): performs at home; a label beyond the bound mask, a poisoned line or an address that no decoder covers gives a poisoned completion. Waits while the link is down (R440). (DESIGN CHOICE: log 17; DESIGN CHOICE: log 35) -/
def execCxlMemRead (vf pa len : Nat) (s : State) : Host.Outcome State Fault Refusal :=
  if deviceSize < pa + len then .fault .noSuchAddress
  else if s.link ≠ .up ∨ len = 0 then .next s
  else
    let s := noteOutside s pa len
    if !decodes s vf false pa len || !subset (runLabel s pa len) (boundOf s vf) || runPoisoned s pa len then .next (reply s (.cxlPoison vf pa))
    else
      let s := foldRun s pa len
      .next (reply s (.cxlData vf pa (homeBytes s (.dev pa) len)))

/-- One line's part of a host write: performed, or discarded with HOST_LABEL (R177, R180, R430, R432). -/
def hostLineWrite (vf : Nat) (s : State) (x : Nat × List Byte) : State :=
  if subset (boundOf s vf) (frameLabel s (x.1 / 2 ^ 15)) then outsideWrite s x
  else pushEvent s (vf - 1) (eventRecord 0 0x3F (vf - 1) x.1)

/-- CXL_MEM_WRITE (R128, R180, R432): carries the bound mask as its label. (DESIGN CHOICE: log 17) -/
def execCxlMemWrite (vf pa : Nat) (data : List Byte) (s : State) : Host.Outcome State Fault Refusal :=
  if deviceSize < pa + data.length then .fault .noSuchAddress
  else if s.link ≠ .up ∨ data.isEmpty ∨ lineLocked s pa data.length then .next s
  else
    let s := noteOutside s pa data.length
    if decodes s vf true pa data.length then .next ((linePieces pa data).foldl (hostLineWrite vf) s) else .next s

/-! ## Packets from other packages (R126, R127, R179, R180, R215, R216, R434, R439) -/

/-- The number of a source package's sequence on a plane. (DEDUCED: log 18) -/
def seqKey (src plane : Nat) : Nat := src * 64 + plane

/-- Bytes that a packet reads or writes. -/
def packetBytes (p : Packet) : Nat :=
  match p.kind with
  | .write data => data.length
  | .read len => len
  | _ => 8

/-- Whether a packet writes. -/
def packetWrites (p : Packet) : Bool := match p.kind with | .read _ => false | _ => true

/-- Bytes that a packet stores. -/
def packetStore (s : State) (p : Packet) : List Byte :=
  match p.kind with
  | .write data => data
  | .setSignal v => leBytes 8 v.toNat
  | .addSignal v => leBytes 8 ((leNat (homeBytes s (.dev p.pa) 8) + v.toNat) % 2 ^ 64)
  | .read _ => []

/-- What a packet does once it is accepted. (DEDUCED: log 18) -/
def takePacket (s : State) (p : Packet) : State :=
  let n := packetBytes p
  if n = 0 ∨ !runOpen s .network (packetWrites p) p.pa n then s
  else match p.kind with
    | .read _ =>
      let l := runLabel s p.pa n
      if p.src ∉ s.domain ∧ l ≠ 0 then s
      else if runPoisoned s p.pa n then reply s (.fabricPoison p.src p.plane)
      else
        let s := foldRun s p.pa n
        reply s (.fabric p.src p.plane l (homeBytes s (.dev p.pa) n))
    | _ =>
      if (framesOf p.pa n).any fun f => !subset p.label (frameLabel s f) then s
      else
        let s := foldRun s p.pa n
        (linePieces p.pa (packetStore s p)).foldl outsideWrite s

/-- FABRIC_PACKET (R179), once the start sequence has brought the links up (R220): an intact packet ends a run of failed flits; one of a barred peer or a duplicate is discarded; a write is checked against the frame's label; a read is answered with the label of what it read. (DEDUCED: log 18; DESIGN CHOICE: log 35) -/
def execFabricPacket (p : Packet) (s : State) : Host.Outcome State Fault Refusal :=
  if deviceSize < p.pa + packetBytes p then .fault .noSuchAddress
  else if s.bootStep < 6 ∨ 143 < p.src ∨ p.src = s.pkgNum ∨ 35 < p.plane ∨ lineLocked s p.pa (packetBytes p) then .next s
  else
    let s := noteOutside { s with flitFails := merase s.flitFails p.plane } p.pa (packetBytes p)
    if p.src ∈ s.barred ∨ p.seq < mgetD s.rxSeq (seqKey p.src p.plane) 0 then .next s
    else .next (takePacket { s with rxSeq := mset s.rxSeq (seqKey p.src p.plane) (p.seq + 1) } p)

/-! ## Failed planes (R439) -/

/-- Planes that are not retired. -/
def survivors (s : State) : Nat := 36 - s.retired.length

/-- The next surviving plane from a plane upward. -/
def planeAfter (s : State) (plane : Nat) : Nat := (((List.range 36).map fun i => (plane + i) % 36).find? fun k => k ∉ s.retired).getD plane

/-- A plane leaves: what stands on it takes the surviving plane of its line, in its order; releases send their markers again on the planes that survive; one PLANE_RETIRED is written. -/
def retirePlane (s : State) (plane : Nat) : State :=
  if 35 < plane ∨ plane ∈ s.retired then s
  else
    let s := { s with retired := addNat plane s.retired, flitFails := merase s.flitFails plane }
    let s := { s with fabricQ := s.fabricQ.map fun (q : Nat × Nat × QueueEnt) =>
                        if q.2.1 = plane then (q.1, planeAfter s plane, q.2.2) else q
                      markers := (s.markers.filter fun m => m.plane != plane || survivors s == 0).map fun m => { m with gathered := false, sent := s.clock } }
    packageEvent s 0x3A (plane + 256 * survivors s) 0

/-- A plane failed for this package: retired and announced. -/
def failPlane (s : State) (plane : Nat) : State :=
  if 35 < plane ∨ plane ∈ s.retired then s else reply (retirePlane s plane) (.announce plane)

/-- Consecutive failed retries of a flit after which a plane has failed. (DESIGN CHOICE: log 23) -/
def retryLimit : Nat := 64

/-- FLIT_CRC_FAILURE (R439): the first failure is the transmission's own; each further one is a failed retry, and the plane fails with the 64th. (DESIGN CHOICE: log 23) -/
def execFlitCrcFailure (plane : Nat) (s : State) : Host.Outcome State Fault Refusal :=
  if 35 < plane ∨ plane ∈ s.retired then .next s
  else
    let n := mgetD s.flitFails plane 0 + 1
    if n ≤ retryLimit then .next { s with flitFails := mset s.flitFails plane n } else .next (failPlane s plane)

/-- FLIT_RETRY_LIMIT (R439): the link level reports 64 consecutive failed retries. (DESIGN CHOICE: log 23) -/
def execFlitRetryLimit (plane : Nat) (s : State) : Host.Outcome State Fault Refusal := .next (failPlane s plane)

/-- Clocks after which a marker not gathered makes the package probe the plane. -/
def markerLimit : Nat := 50 * Config.clocksPerMicrosecond

/-- FLUSH_MARKER_TIMEOUT (R439): the plane answers the probe and the marker is sent again, or the plane has failed. -/
def execFlushMarkerTimeout (wave pkg plane : Nat) (answered : Bool) (s : State) : Host.Outcome State Fault Refusal :=
  let late := fun (m : Marker) => m.wave == wave && m.pkg == pkg && m.plane == plane && !m.gathered && decide (m.sent + markerLimit ≤ s.clock)
  if !s.markers.any late then .next s
  else if answered then .next { s with markers := s.markers.map fun m => if late m then { m with sent := s.clock } else m }
  else .next (failPlane s plane)

/-- PLANE_RETIREMENT_ANNOUNCE (R439): another package has retired the plane. (DESIGN CHOICE: log 23) -/
def execPlaneRetirementAnnounce (plane : Nat) (s : State) : Host.Outcome State Fault Refusal := .next (retirePlane s plane)

/-! ## The host link (R94, R440, R441) -/

/-- Clocks after which a link that stays down has failed. -/
def linkLimit : Nat := 10 * Config.clocksPerMillisecond

/-- MSI-X messages held while the link was not up are delivered. -/
def linkUp (s : State) : State :=
  { s with link := .up, msixHeld := [], replies := s.replies ++ s.msixHeld.map fun (m : Nat × Nat) => Reply.msix m.1 m.2 }

/-- HOST_LINK_DOWN (R440). -/
def execHostLinkDown (s : State) : Host.Outcome State Fault Refusal :=
  if s.link = .up then .next { s with link := .down s.clock } else .next s

/-- HOST_LINK_RETRAINED (R440): within 10 ms, and once the start sequence has brought the link up (R220). -/
def execHostLinkRetrained (s : State) : Host.Outcome State Fault Refusal :=
  match s.link with
  | .down since => if s.clock < since + linkLimit ∧ 6 ≤ s.bootStep then .next (linkUp s) else .next s
  | _ => .next s

/-- HOST_LINK_FAILED (R441): the RDCs drop host lines, and no release waits for a write to the host. -/
def execHostLinkFailed (s : State) : Host.Outcome State Fault Refusal :=
  match s.link with
  | .down since =>
    if since + linkLimit ≤ s.clock ∧ 6 ≤ s.bootStep then
      .next (packageEvent { s with link := .failed, rdc := s.rdc.filter fun x => !x.host, hostPending := [] } 0x3B 1 0)
    else .next s
  | _ => .next s

/-- HOST_LINK_RECOVERED (R441). -/
def execHostLinkRecovered (s : State) : Host.Outcome State Fault Refusal :=
  if s.link = .failed then .next (packageEvent (linkUp s) 0x3B 2 0) else .next s

/-- CXL_CACHE_SNOOP (R94): an invalidation drops a host line from a die's RDC; a downgrade finds a read copy and leaves it. (DESIGN CHOICE: log 40) -/
def execCxlCacheSnoop (die line : Nat) (downgrade : Bool) (s : State) : Host.Outcome State Fault Refusal :=
  if downgrade then .next s else .next { s with rdc := s.rdc.filter fun x => !(x.host && x.die == die && x.line == line) }

end Sys2Proof.Machine
end

