-- ==== Sys2Proof/Machine/Float.lean ====
section
/-! DEFINITION. Groups 0x4 and 0x5: floating arithmetic, compare, dot products, special functions and conversions (R279 to R295). -/
namespace Sys2Proof.Machine

/-- The format of a variant of group 0x4. -/
def FTy.fmt : FTy → Format
  | .f32 => Machine.f32 | .f16x2 => Machine.f16 | .bf16x2 => Machine.bf16

/-- Whether a variant is a packed pair. -/
def FTy.pair (t : FTy) : Bool := t != .f32

/-- A source of a variant: a packed pair's inline constant fills both halves (R229). -/
def srcF (s : State) (c : Ctx) (t : FTy) (o : Opr) (l : Nat) : Nat := if FTy.pair t then srcPair s c (FTy.fmt t) o l else src s c o l

/-- The low or high half of a register. -/
def half (hi : Bool) (v : Nat) : Nat := if hi then v / 65536 % 65536 else v % 65536

/-- A result computed once for f32, or for each half of a pair; the argument says which half (R279). -/
def perHalf (t : FTy) (f : Bool → Nat) : List Word :=
  if FTy.pair t then toWords 1 (f false + 65536 * f true) else toWords 1 (f false)

/-- The part of a source that one computation takes. -/
def part (t : FTy) (hi : Bool) (v : Nat) : Nat := if FTy.pair t then half hi v else v

/-- The random byte of a rounding: [7:0], or [15:8] for a high half (R284). -/
def rndByte (hi : Bool) (v : Nat) : Nat := if hi then v / 256 % 256 else v % 256

/-- FADD, FMUL: an exact value rounded once, with the random operand c (R284). -/
def binary (f : Rm → Num → Num → Num) (t : FTy) (rm : Rm) (sat : Bool) (a b r : Nat) : List Word :=
  perHalf t fun hi => (FTy.fmt t).result rm sat (rndByte hi r) (f rm ((FTy.fmt t).value (part t hi a)) ((FTy.fmt t).value (part t hi b)))

/-- FADD (R284). -/
def execFadd (h : Ctl) (t : FTy) (rm : Rm) (sat : Bool) (d a b c : Opr) (s : State) : Host.Outcome State Fault Refusal :=
  runAlu (.fadd h t rm sat d a b c) s d 1 fun x l => binary Num.add t rm sat (srcF s x t a l) (srcF s x t b l) (src s x c l)

/-- FMUL (R284). -/
def execFmul (h : Ctl) (t : FTy) (rm : Rm) (sat : Bool) (d a b c : Opr) (s : State) : Host.Outcome State Fault Refusal :=
  runAlu (.fmul h t rm sat d a b c) s d 1 fun x l =>
    binary (fun _ p q => Num.mul p q) t rm sat (srcF s x t a l) (srcF s x t b l) (src s x c l)

/-- FFMA (R284). -/
def execFfma (h : Ctl) (t : FTy) (rm : Rm) (sat : Bool) (d a b c : Opr) (s : State) : Host.Outcome State Fault Refusal :=
  runAlu (.ffma h t rm sat d a b c) s d 1 fun x l =>
    let v := fun o hi => (FTy.fmt t).value (part t hi (srcF s x t o l))
    perHalf t fun hi => (FTy.fmt t).result rm sat 0 (Num.add rm (Num.mul (v a hi) (v b hi)) (v c hi))

/-- FSCALE (R284): zeros and infinities are returned unchanged. -/
def execFscale (h : Ctl) (t : FTy) (rm : Rm) (sat : Bool) (d a b c : Opr) (s : State) : Host.Outcome State Fault Refusal :=
  runAlu (.fscale h t rm sat d a b c) s d 1 fun x l =>
    perHalf t fun hi =>
      let k := if FTy.pair t then sextN 16 (half hi (srcF s x t b l)) else sextN 32 (src s x b l)
      (FTy.fmt t).result rm sat (rndByte hi (src s x c l)) (((FTy.fmt t).value (part t hi (srcF s x t a l))).scale k)

/-- The lesser or the greater of two values, per half (R285). -/
def pickHalves (greater : Bool) (t : FTy) (a b : Nat) : List Word :=
  perHalf t fun hi => (FTy.fmt t).result .rne false 0 (Num.pick greater ((FTy.fmt t).value (part t hi a)) ((FTy.fmt t).value (part t hi b)))

/-- FMIN (R285). -/
def execFmin (h : Ctl) (t : FTy) (d a b : Opr) (s : State) : Host.Outcome State Fault Refusal :=
  runAlu (.fmin h t d a b) s d 1 fun c l => pickHalves false t (srcF s c t a l) (srcF s c t b l)

/-- FMAX (R285). -/
def execFmax (h : Ctl) (t : FTy) (d a b : Opr) (s : State) : Host.Outcome State Fault Refusal :=
  runAlu (.fmax h t d a b) s d 1 fun c l => pickHalves true t (srcF s c t a l) (srcF s c t b l)

/-- FCMP (R286). -/
def execFcmp (h : Ctl) (t : FTy) (cmp : FCmpOp) (comb : Comb) (sel : HalfSel) (d a b pc : Opr) (s : State) :
    Host.Outcome State Fault Refusal :=
  runAlu (.fcmp h t cmp comb sel d a b pc) s d 1 fun c l =>
    let test := fun hi => FCmpOp.test cmp ((FTy.fmt t).value (part t hi (srcF s c t a l))) ((FTy.fmt t).value (part t hi (srcF s c t b l)))
    let out := fun r => Comb.apply comb r (srcP c pc l)
    if !FTy.pair t then [if out (test false) then 0xFFFFFFFF else 0]
    else match d with
      | .p _ =>
        let r := match sel with
          | .lo => test false
          | .hi => test true
          | .both => test false && test true
        [if out r then 1 else 0]
      | _ => toWords 1 ((if out (test false) then 0xFFFF else 0) + (if out (test true) then 0xFFFF0000 else 0))

/-- FCLASS (R287). -/
def execFclass (h : Ctl) (t : FTy) (test : BitVec 9) (hi : Bool) (d a : Opr) (s : State) : Host.Outcome State Fault Refusal :=
  runAlu (.fclass h t test hi d a) s d 1 fun c l =>
    let cls := fun hi => (FTy.fmt t).classBit (part t hi (srcF s c t a l))
    match d with
    | .p _ => [if test.toNat.testBit (cls hi) then 1 else 0]
    | _ => perHalf t fun hi => 2 ^ cls hi

/-- FRND (R288). -/
def execFrnd (h : Ctl) (t : FTy) (rm : Rm) (d a : Opr) (s : State) : Host.Outcome State Fault Refusal :=
  runAlu (.frnd h t rm d a) s d 1 fun c l =>
    perHalf t fun hi => (FTy.fmt t).integral rm ((FTy.fmt t).value (part t hi (srcF s c t a l)))

/-- FFRAC (R288). -/
def execFfrac (h : Ctl) (d a : Opr) (s : State) : Host.Outcome State Fault Refusal :=
  runAlu (.ffrac h d a) s d 1 fun c l => toWords 1 (fracBits (f32.value (src s c a l)))

/-- FDOT2 (R141, R289). -/
def execFdot2 (h : Ctl) (bf : Bool) (sat : Bool) (d a b c : Opr) (s : State) : Host.Outcome State Fault Refusal :=
  let f := if bf then bf16 else f16
  runAlu (.fdot2 h bf sat d a b c) s d 1 fun x l =>
    let v := fun o hi => f.value (half hi (srcPair s x f o l))
    toWords 1 (groupSum sat [(v a false).mul (v b false), (v a true).mul (v b true), f32.value (src s x c l)])

/-- FDOT4 (R141, R289). -/
def execFdot4 (h : Ctl) (e5 : Bool) (sat : Bool) (d a b c : Opr) (s : State) : Host.Outcome State Fault Refusal :=
  let f := if e5 then e5m2 else e4m3
  runAlu (.fdot4 h e5 sat d a b c) s d 1 fun x l =>
    let v := fun o i => f.value (src s x o l / 256 ^ i % 256)
    toWords 1 (groupSum sat (((List.range 4).map fun i => (v a i).mul (v b i)) ++ [f32.value (src s x c l)]))

/-- FRCP (R290). -/
def execFrcp (h : Ctl) (rm : Rm) (d a : Opr) (s : State) : Host.Outcome State Fault Refusal :=
  runAlu (.frcp h rm d a) s d 1 fun c l => toWords 1 (rcpBits rm (f32.value (src s c a l)))

/-- FRSQ (R290). -/
def execFrsq (h : Ctl) (rm : Rm) (d a : Opr) (s : State) : Host.Outcome State Fault Refusal :=
  runAlu (.frsq h rm d a) s d 1 fun c l => toWords 1 (rsqBits rm (f32.value (src s c a l)))

/-- FSQRT (R290). -/
def execFsqrt (h : Ctl) (rm : Rm) (d a : Opr) (s : State) : Host.Outcome State Fault Refusal :=
  runAlu (.fsqrt h rm d a) s d 1 fun c l => toWords 1 (sqrtBits rm (f32.value (src s c a l)))

/-- FEXP2 (R290). -/
def execFexp2 (h : Ctl) (rm : Rm) (d a : Opr) (s : State) : Host.Outcome State Fault Refusal :=
  runAlu (.fexp2 h rm d a) s d 1 fun c l => toWords 1 (exp2Bits rm (f32.value (src s c a l)))

/-- FLOG2 (R290). -/
def execFlog2 (h : Ctl) (rm : Rm) (d a : Opr) (s : State) : Host.Outcome State Fault Refusal :=
  runAlu (.flog2 h rm d a) s d 1 fun c l => toWords 1 (log2Bits rm (f32.value (src s c a l)))

/-- FSINPI (R290). -/
def execFsinpi (h : Ctl) (rm : Rm) (d a : Opr) (s : State) : Host.Outcome State Fault Refusal :=
  runAlu (.fsinpi h rm d a) s d 1 fun c l => toWords 1 (sinpiBits rm (f32.value (src s c a l)))

/-- FCOSPI (R290). -/
def execFcospi (h : Ctl) (rm : Rm) (d a : Opr) (s : State) : Host.Outcome State Fault Refusal :=
  runAlu (.fcospi h rm d a) s d 1 fun c l => toWords 1 (cospiBits rm (f32.value (src s c a l)))

/-- The least and greatest value of an integer type. -/
def itypeRange (t : IType) : Int × Int :=
  if itypeSigned t then (-(2 ^ (itypeBits t - 1) : Nat), (2 ^ (itypeBits t - 1) : Nat) - 1) else (0, (2 ^ itypeBits t : Nat) - 1)

/-- F2I (R139, R291). -/
def execF2i (h : Ctl) (t : IType) (rm : Rm) (d a : Opr) (s : State) : Host.Outcome State Fault Refusal :=
  runAlu (.f2i h t rm d a) s d t.regs fun c l =>
    let r := itypeRange t
    intWords t.regs (Num.toInt rm r.1 r.2 (f32.value (src s c a l)))

/-- I2F (R291). -/
def execI2f (h : Ctl) (t : IType) (rm : Rm) (d a b : Opr) (s : State) : Host.Outcome State Fault Refusal :=
  runAlu (.i2f h t rm d a b) s d 1 fun c l =>
    let v := itypeValue t (srcW s c (if t.regs = 2 then .w64 else .w32) a l)
    toWords 1 (f32.result rm false (src s c b l % 256) (Num.ofInt v))

/-- The value that a conversion reads and the format that it writes (R279, R292). -/
def cvtFrom (v : CvtV) (x : Nat) : Num :=
  match v with
  | .f16f32 => f16.value x | .bf16f32 => bf16.value x | .e4m3f32 => e4m3.value x | .e5m2f32 => e5m2.value x
  | .e2m1f32 => e2m1.value x | .e8m0f32 => e8m0Value x
  | .f16bf16 => f16.value x | .bf16f16 => bf16.value x | .f16e4m3 => f16.value x | .f16e5m2 => f16.value x
  | .bf16e4m3 => bf16.value x
  | _ => f32.value x

/-- The target format of a conversion. -/
def cvtTo : CvtV → Format
  | .f32f16 => f16 | .f32bf16 => bf16 | .f32e4m3 => e4m3 | .f32e5m2 => e5m2 | .f32e2m1 => e2m1
  | .f16bf16 => bf16 | .bf16f16 => f16 | .f16e4m3 => e4m3 | .f16e5m2 => e5m2 | .bf16e4m3 => e4m3
  | _ => f32

/-- FCVT (R292). -/
def execFcvt (h : Ctl) (v : CvtV) (rm : Rm) (sat : Bool) (d a b : Opr) (s : State) : Host.Outcome State Fault Refusal :=
  runAlu (.fcvt h v rm sat d a b) s d 1 fun c l =>
    toWords 1 ((cvtTo v).convert rm sat (src s c b l % 256) (cvtFrom v (src s c a l)))

/-- The format of a PACK or UNPACK variant, and its bits. -/
def PackV.fmt : PackV → Format
  | .f16 => Machine.f16 | .bf16 => Machine.bf16 | .e4m3 => Machine.e4m3 | .e5m2 => Machine.e5m2
/-- The bits of an element. -/
def PackV.bits : PackV → Nat
  | .f16 => 16 | .bf16 => 16 | .e4m3 => 8 | .e5m2 => 8

/-- PACK (R293): the byte forms read d, and its label too. -/
def execPack (h : Ctl) (v : PackV) (rm : Rm) (sat hi : Bool) (d a b c : Opr) (s : State) : Host.Outcome State Fault Refusal :=
  runWord (.pack h v rm sat hi d a b c) s fun x =>
    let cv := fun o l k => (PackV.fmt v).convert rm sat (rndByte k (src s x c l)) (f32.value (src s x o l))
    let lbl := resultLabel s x (.pack h v rm sat hi d a b c) ||| (if PackV.bits v = 8 then labelOf s x d 1 else 0)
    .ok (writeDst s x d 1 (fun l =>
      if PackV.bits v = 16 then toWords 1 (cv a l false + 65536 * cv b l true)
      else
        let new := cv a l false + 256 * cv b l true
        let old := src s x d l
        toWords 1 (if hi then old % 65536 + 65536 * new else old / 65536 * 65536 + new)) lbl)

/-- UNPACK (R294). -/
def execUnpack (h : Ctl) (v : PackV) (k : Fin 4) (d a : Opr) (s : State) : Host.Outcome State Fault Refusal :=
  runAlu (.unpack h v k d a) s d 1 fun c l =>
    toWords 1 (f32.convert .rne false 0 ((PackV.fmt v).value ((if PackV.bits v = 16 then srcPair s c (PackV.fmt v) a l else src s c a l) / 2 ^ (PackV.bits v * k.val) % 2 ^ PackV.bits v)))

/-- GQDEC (R136, R295). -/
def execGqdec (h : Ctl) (half16 : Bool) (n : Fin 8) (rm : Rm) (sat : Bool) (d a b c : Opr) (s : State) :
    Host.Outcome State Fault Refusal :=
  runAlu (.gqdec h half16 n rm sat d a b c) s d 1 fun x l =>
    let q := src s x b l
    let scale := f32.value (src s x c l)
    let el := fun k => gq4Value (src s x a l / 16 ^ k % 16) (q % 256) scale
    if half16 then
      toWords 1 (f16.convert rm sat (q / 256 % 256) (el (2 * n.val)) + 65536 * f16.convert rm sat (q / 65536 % 256) (el (2 * n.val + 1)))
    else toWords 1 (f32.convert rm sat (q / 256 % 256) (el n.val))

end Sys2Proof.Machine
end

