-- ==== Sys2Proof/Machine/Integer.lean ====
section
/-! DEFINITION. Groups 0x1 and 0x2: integer arithmetic (R263, R264), bit and logic (R265 to R267). -/
namespace Sys2Proof.Machine

/-- The width in bits. -/
def wbits : Width → Nat
  | .w32 => 32
  | .w64 => 64

/-- A value read as signed or unsigned. -/
def readInt (sg : Bool) (w v : Nat) : Int := if sg then sextN w v else ((v % 2 ^ w : Nat) : Int)

/-- A value clamped to a range. -/
def clampInt (lo hi x : Int) : Int := if x < lo then lo else if hi < x then hi else x

/-- fit(x) of a W-bit result (R264). -/
def fitInt (sat : Sat) (w : Nat) (x : Int) : Int :=
  match sat with
  | .wrap => x
  | .ss => clampInt (-(2 ^ (w - 1) : Nat)) ((2 ^ (w - 1) : Nat) - 1) x
  | .us => clampInt 0 ((2 ^ w : Nat) - 1) x

/-- A W-bit operation of two sources whose operands are read as SAT has them. -/
def arith (op : Int → Int → Int) (sat : Sat) (w : Width) (a b : Nat) : List Word :=
  let sg := sat == .ss
  intWords w.regs (fitInt sat (wbits w) (op (readInt sg (wbits w) a) (readInt sg (wbits w) b)))

/-- IADD (R264). -/
def execIadd (h : Ctl) (w : Width) (sat : Sat) (d a : Opr) (b : Src) (s : State) : Host.Outcome State Fault Refusal :=
  runAlu (.iadd h w sat d a b) s d w.regs fun c l => arith (fun x y => x + y) sat w (srcW s c w a l) (srcB s c w b l)

/-- ISUB (R264). -/
def execIsub (h : Ctl) (w : Width) (sat : Sat) (d a b : Opr) (s : State) : Host.Outcome State Fault Refusal :=
  runAlu (.isub h w sat d a b) s d w.regs fun c l => arith (fun x y => x - y) sat w (srcW s c w a l) (srcW s c w b l)

/-- IADDW (R264). -/
def execIaddw (h : Ctl) (signed : Bool) (d a b : Opr) (s : State) : Host.Outcome State Fault Refusal :=
  runAlu (.iaddw h signed d a b) s d 2 fun c l =>
    intWords 2 (readInt signed 32 (src s c a l) + readInt signed 32 (src s c b l))

/-- IMUL (R264). -/
def execImul (h : Ctl) (w : Width) (d a : Opr) (b : Src) (s : State) : Host.Outcome State Fault Refusal :=
  runAlu (.imul h w d a b) s d w.regs fun c l => arith (fun x y => x * y) .wrap w (srcW s c w a l) (srcB s c w b l)

/-- IMULHI (R264): bits [63:32] of the product. -/
def execImulhi (h : Ctl) (signed : Bool) (d a b : Opr) (s : State) : Host.Outcome State Fault Refusal :=
  runAlu (.imulhi h signed d a b) s d 1 fun c l =>
    (intWords 2 (readInt signed 32 (src s c a l) * readInt signed 32 (src s c b l))).drop 1

/-- The saturation of an IMAD variant. -/
def madSat : MadV → Sat
  | .i32ss => .ss
  | .n32us => .us
  | _ => .wrap

/-- IMAD (R264). -/
def execImad (h : Ctl) (v : MadV) (d a b c : Opr) (s : State) : Host.Outcome State Fault Refusal :=
  let w : Width := if v = .b64 then .w64 else .w32
  runAlu (.imad h v d a b c) s d v.regs fun x l =>
    let rd := fun o => readInt (madSat v == .ss) (wbits w) (srcW s x w o l)
    intWords v.regs (fitInt (madSat v) (wbits w) (rd a * rd b + rd c))

/-- IMADW (R264). -/
def execImadw (h : Ctl) (signed : Bool) (d a b c : Opr) (s : State) : Host.Outcome State Fault Refusal :=
  runAlu (.imadw h signed d a b c) s d 2 fun x l =>
    intWords 2 (readInt signed 32 (src s x a l) * readInt signed 32 (src s x b l) + readInt signed 64 (src64 s x c l))

/-- The quotient truncated toward zero; division by 0 gives 2^W - 1 (R264). -/
def divInt (w : Nat) (a b : Int) : Int := if b = 0 then (2 ^ w : Nat) - 1 else Int.tdiv a b

/-- The remainder with the sign of a; division by 0 gives a (R264). -/
def remInt (a b : Int) : Int := if b = 0 then a else Int.tmod a b

/-- IDIV (R264). -/
def execIdiv (h : Ctl) (w : Width) (signed : Bool) (d a b : Opr) (s : State) : Host.Outcome State Fault Refusal :=
  runAlu (.idiv h w signed d a b) s d w.regs fun c l =>
    intWords w.regs (divInt (wbits w) (readInt signed (wbits w) (srcW s c w a l)) (readInt signed (wbits w) (srcW s c w b l)))

/-- IREM (R264). -/
def execIrem (h : Ctl) (w : Width) (signed : Bool) (d a b : Opr) (s : State) : Host.Outcome State Fault Refusal :=
  runAlu (.irem h w signed d a b) s d w.regs fun c l =>
    intWords w.regs (remInt (readInt signed (wbits w) (srcW s c w a l)) (readInt signed (wbits w) (srcW s c w b l)))

/-- IMIN (R264). -/
def execImin (h : Ctl) (w : Width) (signed : Bool) (d a b : Opr) (s : State) : Host.Outcome State Fault Refusal :=
  runAlu (.imin h w signed d a b) s d w.regs fun c l =>
    intWords w.regs (min (readInt signed (wbits w) (srcW s c w a l)) (readInt signed (wbits w) (srcW s c w b l)))

/-- IMAX (R264). -/
def execImax (h : Ctl) (w : Width) (signed : Bool) (d a b : Opr) (s : State) : Host.Outcome State Fault Refusal :=
  runAlu (.imax h w signed d a b) s d w.regs fun c l =>
    intWords w.regs (max (readInt signed (wbits w) (srcW s c w a l)) (readInt signed (wbits w) (srcW s c w b l)))

/-- IABS (R264): the least value gives itself, or the greatest under `.ss`. -/
def execIabs (h : Ctl) (w : Width) (ss : Bool) (d a : Opr) (s : State) : Host.Outcome State Fault Refusal :=
  runAlu (.iabs h w ss d a) s d w.regs fun c l =>
    let x : Int := ((sextN (wbits w) (srcW s c w a l)).natAbs : Nat)
    intWords w.regs (if ss then fitInt .ss (wbits w) x else x)

/-! ## Bit and logic -/

/-- AND (R266). -/
def execAnd (h : Ctl) (w : Width) (d a : Opr) (b : Src) (s : State) : Host.Outcome State Fault Refusal :=
  runAlu (.and h w d a b) s d w.regs fun c l => toWords w.regs (srcW s c w a l &&& srcB s c w b l)

/-- OR (R266). -/
def execOr (h : Ctl) (w : Width) (d a : Opr) (b : Src) (s : State) : Host.Outcome State Fault Refusal :=
  runAlu (.or h w d a b) s d w.regs fun c l => toWords w.regs (srcW s c w a l ||| srcB s c w b l)

/-- XOR (R266). -/
def execXor (h : Ctl) (w : Width) (d a : Opr) (b : Src) (s : State) : Host.Outcome State Fault Refusal :=
  runAlu (.xor h w d a b) s d w.regs fun c l => toWords w.regs (srcW s c w a l ^^^ srcB s c w b l)

/-- A number from the bits that a test gives. -/
def ofBits (n : Nat) (f : Nat → Bool) : Nat := (List.range n).foldl (fun acc i => if f i then acc + 2 ^ i else acc) 0

/-- BCOND (R266, R267). -/
def execBcond (h : Ctl) (w : Width) (g1 g0 : Fn2) (d a b c : Opr) (s : State) : Host.Outcome State Fault Refusal :=
  runAlu (.bcond h w g1 g0 d a b c) s d w.regs fun x l =>
    let va := srcW s x w a l
    let vb := srcW s x w b l
    let vc := srcW s x w c l
    toWords w.regs (ofBits (wbits w) fun i => if tb vc i then Fn2.eval g1 (tb va i) (tb vb i) else Fn2.eval g0 (tb va i) (tb vb i))

/-- The count of a shift or rotate: b read as n32; an immediate is zero-extended (R265, R266). -/
def shiftCount (s : State) (c : Ctx) (b : Src) (l : Nat) : Nat :=
  match b with
  | .reg o => src s c o l
  | .imm i => i.toNat

/-- SHL (R266). -/
def execShl (h : Ctl) (w : Width) (d a : Opr) (b : Src) (s : State) : Host.Outcome State Fault Refusal :=
  runAlu (.shl h w d a b) s d w.regs fun c l =>
    let k := shiftCount s c b l
    toWords w.regs (if k ≥ wbits w then 0 else srcW s c w a l * 2 ^ k)

/-- SHR (R266). -/
def execShr (h : Ctl) (w : Width) (d a : Opr) (b : Src) (s : State) : Host.Outcome State Fault Refusal :=
  runAlu (.shr h w d a b) s d w.regs fun c l =>
    let k := shiftCount s c b l
    toWords w.regs (if k ≥ wbits w then 0 else srcW s c w a l / 2 ^ k)

/-- SAR (R266): a count of W or more gives W copies of the top bit. -/
def execSar (h : Ctl) (w : Width) (d a : Opr) (b : Src) (s : State) : Host.Outcome State Fault Refusal :=
  runAlu (.sar h w d a b) s d w.regs fun c l =>
    let k := min (shiftCount s c b l) (wbits w)
    intWords w.regs (Int.fdiv (sextN (wbits w) (srcW s c w a l)) (2 ^ k : Nat))

/-- ROTL (R266). -/
def execRotl (h : Ctl) (w : Width) (d a : Opr) (b : Src) (s : State) : Host.Outcome State Fault Refusal :=
  runAlu (.rotl h w d a b) s d w.regs fun c l =>
    let k := shiftCount s c b l % wbits w
    let v := srcW s c w a l
    toWords w.regs (v * 2 ^ k + v / 2 ^ (wbits w - k))

/-- BFE (R266). -/
def execBfe (h : Ctl) (w : Width) (signed : Bool) (d a b c : Opr) (s : State) : Host.Outcome State Fault Refusal :=
  runAlu (.bfe h w signed d a b c) s d w.regs fun x l =>
    let pos := srcW s x w b l % 256
    let len := srcW s x w c l % 256
    if len = 0 ∨ pos ≥ wbits w then toWords w.regs 0
    else
      let n := min len (wbits w - pos)
      let v := srcW s x w a l / 2 ^ pos % 2 ^ n
      intWords w.regs (readInt signed n v)

/-- BFI (R266). -/
def execBfi (h : Ctl) (w : Width) (d a b c : Opr) (s : State) : Host.Outcome State Fault Refusal :=
  runAlu (.bfi h w d a b c) s d w.regs fun x l =>
    let pos := srcW s x w c l % 256
    let len := srcW s x w c l / 256 % 256
    let v := srcW s x w a l
    if len = 0 ∨ pos ≥ wbits w then toWords w.regs v
    else
      let n := min len (wbits w - pos)
      toWords w.regs (ofBits (wbits w) fun i => if pos ≤ i ∧ i < pos + n then tb (srcW s x w b l) (i - pos) else tb v i)

/-- Ones among the low bits of a number. -/
def ones (n v : Nat) : Nat := ((List.range n).filter fun i => tb v i).length

/-- POPC (R266). -/
def execPopc (h : Ctl) (w : Width) (d a : Opr) (s : State) : Host.Outcome State Fault Refusal :=
  runAlu (.popc h w d a) s d 1 fun c l => toWords 1 (ones (wbits w) (srcW s c w a l))

/-- CLZ (R266): W for 0. -/
def execClz (h : Ctl) (w : Width) (d a : Opr) (s : State) : Host.Outcome State Fault Refusal :=
  runAlu (.clz h w d a) s d 1 fun c l =>
    let v := srcW s c w a l
    toWords 1 (if v = 0 then wbits w else wbits w - 1 - v.log2)

/-- BREV (R266). -/
def execBrev (h : Ctl) (w : Width) (d a : Opr) (s : State) : Host.Outcome State Fault Refusal :=
  runAlu (.brev h w d a) s d w.regs fun c l => toWords w.regs (ofBits (wbits w) fun i => tb (srcW s c w a l) (wbits w - 1 - i))

end Sys2Proof.Machine
end

