-- ==== Sys2Proof/Machine/Lane.lean ====
section
/-! DEFINITION. Groups 0x6 and the predicate forms of group 0x6: lane permutes, votes, reductions, scans (R271 to R278, R144). -/
namespace Sys2Proof.Machine

/-- The lane that LPERM reads (R273): group size g, lane l, operand k. -/
def permLane (v : PermV) (g l k : Nat) : Nat :=
  let base := l - l % g
  match v with
  | .lane => base + k % g
  | .back => base + (l % g + g - k % g) % g
  | .fwd => base + (l % g + k) % g
  | .xmask => base + ((l % g) ^^^ (k % g))

/-- The label of a source of which an instruction reads the lanes given: a held register's is that of the records read, whether their lanes are active or not (R52, R272). -/
def lanesLabel (s : State) (c : Ctx) (o : Opr) (n : Nat) (ls : List Nat) : Label :=
  match o with
  | .h k => (List.range n).foldl (fun acc i => ls.foldl (fun acc l => acc ||| (readHeld s c (k.val + i) l).2) acc) 0
  | o => labelOf s c o n

/-- LPERM (R272, R273): a lane that is not active is read as its register stands. -/
def execLperm (h : Ctl) (v : PermV) (grp : Fin 6) (d a b : Opr) (s : State) : Host.Outcome State Fault Refusal :=
  runWord (.lperm h v grp d a b) s fun c =>
    let from' := fun l => permLane v (32 / 2 ^ grp.val) l (src s c b l)
    .ok (writeDst s c d 1 (fun l => [readReg s c a 0 (from' l)]) (lanesLabel s c a 1 ((lanesOf c.act).map from') ||| labelOf s c b 1 ||| c.ctx))

/-- The active lanes in which a predicate source is 1. -/
def voters (c : Ctx) (a : Opr) : List Nat := (lanesOf c.act).filter fun l => srcP c a l

/-- The compare of PGATH `.cnt` (R274). -/
def CntCmp.test (t : CntCmp) (n total : Nat) : Bool :=
  match t with
  | .some => n != 0 | .every => n == total | .none => n == 0 | .notevery => decide (n < total)

/-- PGATH `.cnt` (R274). -/
def execPgathCnt (h : Ctl) (cmp : CntCmp) (d a : Opr) (s : State) : Host.Outcome State Fault Refusal :=
  runAlu (.pgathCnt h cmp d a) s d 1 fun c _ =>
    let n := (voters c a).length
    match d with
    | .p _ => [if CntCmp.test cmp n (lanesOf c.act).length then 1 else 0]
    | _ => toWords 1 n

/-- PGATH `.rank` (R274). -/
def execPgathRank (h : Ctl) (d a : Opr) (s : State) : Host.Outcome State Fault Refusal :=
  runAlu (.pgathRank h d a) s d 1 fun c l => toWords 1 ((voters c a).filter fun j => decide (j < l)).length

/-- PGATH `.mask` (R274). -/
def execPgathMask (h : Ctl) (d a : Opr) (s : State) : Host.Outcome State Fault Refusal :=
  runAlu (.pgathMask h d a) s d 1 fun c _ => [maskOf fun l => bit c.act l && srcP c a l]

/-- LFIRST (R274): a predicate that is 1 in the lowest active lane, or that lane's index. -/
def execLfirst (h : Ctl) (d : Opr) (s : State) : Host.Outcome State Fault Refusal :=
  runAlu (.lfirst h d) s d 1 fun c l =>
    match d with
    | .p _ => [if l = c.low then 1 else 0]
    | _ => toWords 1 c.low

/-- LKIN (R274). -/
def execLkin (h : Ctl) (w : Width) (d a : Opr) (s : State) : Host.Outcome State Fault Refusal :=
  runAlu (.lkin h w d a) s d w.regs fun c l =>
    let kin := (lanesOf c.act).filter fun j => srcW s c w a j == srcW s c w a l
    toWords w.regs (kin.headD 0 + kin.length * 256)

/-- LREAD (R275). -/
def execLread (h : Ctl) (w : Width) (d a b : Opr) (s : State) : Host.Outcome State Fault Refusal :=
  runWord (.lread h w d a b) s fun c =>
    let lane := srcW s c w b c.low % 32
    .ok (writeDst s c d w.regs (fun _ => toWords w.regs (srcW s c w a lane)) (lanesLabel s c a w.regs [lane] ||| labelOf s c b w.regs ||| c.ctx))

/-- A value reduced over the active lanes, in any order (R276). -/
def SrdV.apply (v : SrdV) (x y : Nat) : Nat :=
  match v with
  | .addB32 => (x + y) % 2 ^ 32
  | .addB64 => (x + y) % 2 ^ 64
  | .minI32 => if sextN 32 x ≤ sextN 32 y then x else y
  | .maxI32 => if sextN 32 x ≤ sextN 32 y then y else x
  | .minN32 => min x y
  | .maxN32 => max x y
  | .and => x &&& y
  | .or => x ||| y
  | .xor => x ^^^ y

/-- Reduce a list that is not empty. -/
def reduceList (f : Nat → Nat → Nat) : List Nat → Nat
  | [] => 0
  | x :: xs => xs.foldl f x

/-- SRD (R276). -/
def execSrd (h : Ctl) (v : SrdV) (d a : Opr) (s : State) : Host.Outcome State Fault Refusal :=
  let w : Width := if v = .addB64 then .w64 else .w32
  runAlu (.srd h v d a) s d w.regs fun c _ =>
    toWords w.regs (reduceList (SrdV.apply v) ((lanesOf c.act).map fun l => srcW s c w a l))

/-- One application of a DRED operation on 32-bit patterns (R144, R277). -/
def DredV.apply (v : DredV) (x y : Nat) : Nat :=
  match v with
  | .addF32 => f32.result .rne false 0 (Num.add .rne (f32.value x) (f32.value y))
  | .minF32 => f32.result .rne false 0 (Num.pick false (f32.value x) (f32.value y))
  | .maxF32 => f32.result .rne false 0 (Num.pick true (f32.value x) (f32.value y))
  | .addI32 => (x + y) % 2 ^ 32
  | .minI32 => if sextN 32 x ≤ sextN 32 y then x else y
  | .maxI32 => if sextN 32 x ≤ sextN 32 y then y else x

/-- What a lane that is not active contributes (R277). -/
def DredV.identity : DredV → Nat
  | .addF32 => 0 | .minF32 => 0x7F800000 | .maxF32 => 0xFF800000
  | .addI32 => 0 | .minI32 => 0x7FFFFFFF | .maxI32 => 0x80000000

/-- One level of the tree: neighbours combined. -/
def pairUp (f : Nat → Nat → Nat) : List Nat → List Nat
  | x :: y :: rest => f x y :: pairUp f rest
  | xs => xs

/-- The fixed tree of R144 over 32 values. -/
def dredTree (f : Nat → Nat → Nat) (vs : List Nat) : Nat :=
  nthD (pairUp f (pairUp f (pairUp f (pairUp f (pairUp f vs))))) 0 0

/-- DRED (R144, R277). -/
def execDred (h : Ctl) (v : DredV) (d a : Opr) (s : State) : Host.Outcome State Fault Refusal :=
  runAlu (.dred h v d a) s d 1 fun c _ =>
    toWords 1 (dredTree (DredV.apply v) ((List.range 32).map fun l => if bit c.act l then src s c a l else DredV.identity v))

/-- The operation of a SCAN (R278). -/
def ScanV.apply (v : ScanV) (x y : Nat) : Nat :=
  match v with
  | .addI32Incl => DredV.apply .addI32 x y | .addI32Excl => DredV.apply .addI32 x y
  | .addF32Incl => DredV.apply .addF32 x y | .addF32Excl => DredV.apply .addF32 x y
  | .minI32Incl => DredV.apply .minI32 x y | .maxI32Incl => DredV.apply .maxI32 x y
  | .minF32Incl => DredV.apply .minF32 x y | .maxF32Incl => DredV.apply .maxF32 x y

/-- Whether a SCAN is exclusive. -/
def ScanV.exclusive : ScanV → Bool
  | .addI32Excl => true | .addF32Excl => true
  | _ => false

/-- SCAN (R278): lanes in ascending order; an exclusive scan gives its first lane zero. -/
def execScan (h : Ctl) (v : ScanV) (d a : Opr) (s : State) : Host.Outcome State Fault Refusal :=
  runAlu (.scan h v d a) s d 1 fun c l =>
    toWords 1 (reduceList (ScanV.apply v)
      (((lanesOf c.act).filter fun j => if ScanV.exclusive v then decide (j < l) else decide (j ≤ l)).map fun j => src s c a j))

/-- PCOND (R267, R271). -/
def execPcond (h : Ctl) (g1 g0 : Fn2) (d a b c : Opr) (s : State) : Host.Outcome State Fault Refusal :=
  runTest (.pcond h g1 g0 d a b c) s d fun x l =>
    if srcP x c l then Fn2.eval g1 (srcP x a l) (srcP x b l) else Fn2.eval g0 (srcP x a l) (srcP x b l)

/-- The labels of the predicate registers. -/
def predLabels (w : Wave) : Label := (List.range 8).foldl (fun acc k => acc ||| w.label (320 + k)) 0

/-- PMOV `.get` (R271). -/
def execPmovGet (h : Ctl) (d : Opr) (s : State) : Host.Outcome State Fault Refusal :=
  runWord (.pmovGet h d) s fun c =>
    .ok (writeDst s c d 1 (fun l => toWords 1 (ofBits 8 fun k => bit (c.w.pred k) l)) (predLabels c.w ||| c.ctx))

/-- PMOV `.set` (R271). -/
def execPmovSet (h : Ctl) (mask : BitVec 8) (a : Opr) (s : State) : Host.Outcome State Fault Refusal :=
  runWord (.pmovSet h mask a) s fun c =>
    let ks := (List.range 8).filter fun k => k != 0 && mask.toNat.testBit k
    let lbl := resultLabel s c (.pmovSet h mask a)
    .ok (putWave s (ks.foldl (fun w k =>
      (w.setPred k c.act fun l => (readReg s c a 0 l).toNat.testBit k).setLabel (320 + k) c.act lbl) (theWave s c)))

end Sys2Proof.Machine
end

