-- ==== Sys2Proof/Machine/Move.lean ====
section
/-! DEFINITION. Group 0x3: compare, select and move (R268 to R270). -/
namespace Sys2Proof.Machine

/-- The second source of ICMP; the 16-bit variants use its low 16 bits. -/
def cmpB (s : State) (c : Ctx) (t : IType) (b : Src) (l : Nat) : Nat := srcB s c (if t.regs = 2 then .w64 else .w32) b l

/-- ICMP (R268). -/
def execIcmp (h : Ctl) (t : IType) (cmp : Cmp) (comb : Comb) (d a : Opr) (b : Src) (pc : Opr) (s : State) :
    Host.Outcome State Fault Refusal :=
  runTest (.icmp h t cmp comb d a b pc) s d fun c l =>
    let va := srcW s c (if t.regs = 2 then .w64 else .w32) a l
    Comb.apply comb (Cmp.test cmp (itypeValue t va) (itypeValue t (cmpB s c t b l))) (srcP c pc l)

/-- SEL (R269). -/
def execSel (h : Ctl) (w : Width) (d a b pc : Opr) (s : State) : Host.Outcome State Fault Refusal :=
  runAlu (.sel h w d a b pc) s d w.regs fun c l => toWords w.regs (if srcP c pc l then srcW s c w a l else srcW s c w b l)

/-- MOV (R269). -/
def execMov (h : Ctl) (w : Width) (d a : Opr) (s : State) : Host.Outcome State Fault Refusal :=
  runAlu (.mov h w d a) s d w.regs fun c l => toWords w.regs (srcW s c w a l)

/-- MOVI (R269). -/
def execMovi (h : Ctl) (wide : Bool) (d : Opr) (imm : Word) (s : State) : Host.Outcome State Fault Refusal :=
  runAlu (.movi h wide d imm) s d (if wide then 2 else 1) fun _ _ => if wide then intWords 2 imm.toInt else [imm]

/-- sext(imm20, 20) times 4,096 (R270). -/
def imm20Page (imm : BitVec 20) : Int := imm.toInt * 4096

/-- MOVHI (R270). -/
def execMovhi (h : Ctl) (d : Opr) (imm : BitVec 20) (s : State) : Host.Outcome State Fault Refusal :=
  runAlu (.movhi h d imm) s d 2 fun _ _ => intWords 2 (imm20Page imm)

/-- ADDPC (R270). -/
def execAddpc (h : Ctl) (d : Opr) (imm : BitVec 20) (s : State) : Host.Outcome State Fault Refusal :=
  runAlu (.addpc h d imm) s d 2 fun c _ => intWords 2 ((c.pos.hdr.toNat : Int) + imm20Page imm)

end Sys2Proof.Machine
end

