-- ==== Sys2Proof/Machine/Power.lean ====
section
/-! DEFINITION. Power states, the power monitor, the start sequence and the module reset (R13, R15, R187, R217, R218, R220, R439, R445). -/
namespace Sys2Proof.Machine

/-! ## Power states (R217) -/

/-- Exit latency in nanoseconds. (DESIGN CHOICE: log 9) -/
def exitLatency : Power → Nat
  | .quadrantGate => 50
  | .coreRetention => 2000
  | .dieIdle => 40000
  | .packageSleep => 2000000

/-- Whether a unit is in a power state. -/
def inPower (s : State) (st : Power) (unit : Nat) : Bool := s.power.any fun e => e.st == st && e.unit == unit

/-- Whether a unit has been in a power state for some clocks. -/
def inPowerFor (s : State) (st : Power) (unit clocks : Nat) : Bool :=
  s.power.any fun e => e.st == st && e.unit == unit && decide (e.since + clocks ≤ s.clock)

/-- Whether a state affects a partition. -/
def affects (st : Power) (unit : Nat) (p : Partition) : Bool :=
  match st with
  | .quadrantGate => ownsQuadrant p unit
  | .coreRetention => (List.range 4).any fun q => ownsQuadrant p (unit * 4 + q)
  | _ => p.state != .disabled

/-- Whether every affected partition tolerates the exit latency. (DESIGN CHOICE: log 25) -/
def tolerated (s : State) (st : Power) (unit : Nat) : Bool :=
  s.parts.all fun e => !affects st unit e.2 || decide (exitLatency st ≤ e.2.lattol.toNat)

/-- Whether no wave stands on a quadrant. -/
def quadEmpty (s : State) (quad : Nat) : Bool := s.waves.all fun e => e.2.quad != quad || !(e.2.place == .resident || e.2.place == .saving)

/-- A place of device memory homed on a die. -/
def Loc.onDie (l : Loc) (die : Nat) : Bool := match l with | .dev pa => dieOf pa == die | _ => false

/-- A global address of a partition that lies in device memory homed on a die. -/
def vaOnDie (s : State) (part die : Nat) (va : DWord) : Bool :=
  match translateNow s part va.toNat .read with
  | .ok (l, _) => l.onDie die
  | .error _ => false

/-- Whether a long-latency instruction has still to read from a die: an LDC its lanes, a texture operation what it needs. -/
def LongOp.onDie (s : State) (part die : Nat) (o : LongOp) : Bool :=
  match o.what with
  | .const _ _ lanes _ _ _ => lanes.any fun x => x.2.1.onDie die
  | .tex q => q.needs.any fun n => vaOnDie s part die n.2.1
  | _ => false

/-- Whether a home access to a die is pending: in a home queue, or of a wave, a copy, the gate or a ray. -/
def dieBusy (s : State) (die : Nat) : Bool :=
  (s.homeQ.any fun q => decide (q.1 < 512) && q.1 / 64 == die && !q.2.isEmpty) ||
  (s.waves.any fun e => (e.2.pending.any fun x => x.accs.any fun a => !a.done && a.bytes != 0 && a.loc.onDie die) ||
    e.2.long.any fun o => o.onDie s e.2.part die) ||
  (s.copies.any fun e => e.2.globals.any fun va => vaOnDie s e.2.part die va) || (s.unitWrites.any fun u => u.loc.onDie die) ||
  s.rays.any fun e => match mget? s.launches e.2.launch with
    | some l => (e.2.needs l).any fun n => vaOnDie s l.part die n.2
    | none => false

/-- Units of a state in the package. -/
def unitsOf : Power → Nat
  | .quadrantGate => 1536
  | .coreRetention => 384
  | .dieIdle => 8
  | .packageSleep => 1

/-- What a state needs as long as it lasts. -/
def holdsFor (s : State) (st : Power) (unit since : Nat) : Bool :=
  match st with
  | .quadrantGate => quadEmpty s unit
  | .coreRetention => (List.range 4).all fun q => inPower s .quadrantGate (unit * 4 + q)
  | .dieIdle => (List.range 48).all (fun c => inPower s .coreRetention (unit * 48 + c)) && !dieBusy s unit
  | .packageSleep => (List.range 8).all (fun d => inPower s .dieIdle d) && decide (s.lastOutside ≤ since)

/-- The entry condition of a state. (DESIGN CHOICE: log 25) -/
def mayEnter (s : State) (st : Power) (unit : Nat) : Bool :=
  decide (unit < unitsOf st) && tolerated s st unit && !inPower s st unit && holdsFor s st unit s.clock &&
    (match st with
     | .coreRetention => (List.range 4).all fun q => inPowerFor s .quadrantGate (unit * 4 + q) (20 * Config.clocksPerMicrosecond)
     | .packageSleep => decide (s.lastOutside + Config.clocksPerMillisecond ≤ s.clock)
     | _ => true)

/-- States whose condition has ceased have been left: each exit ends the deeper states that rest on it. (DESIGN CHOICE: log 25) -/
def settlePower (s : State) : State :=
  if s.power.isEmpty then s
  else
    let once := fun (s : State) => { s with power := s.power.filter fun e => holdsFor s e.st e.unit e.since }
    once (once (once (once s)))

/-- POWER_STATE_ENTRY (R217). (DESIGN CHOICE: log 25) -/
def execPowerStateEntry (st : Power) (unit : Nat) (s : State) : Host.Outcome State Fault Refusal :=
  if mayEnter s st unit then .next { s with power := s.power ++ [⟨st, unit, s.clock⟩] } else .next s

/-- POWER_STATE_EXIT (R217). (DESIGN CHOICE: log 25) -/
def execPowerStateExit (st : Power) (unit : Nat) (s : State) : Host.Outcome State Fault Refusal :=
  .next (settlePower { s with power := s.power.filter fun e => !(e.st == st && e.unit == unit) })

/-- POWER_MONITOR_WITHHOLD (R15): 0 withholds nothing, 1 the issue of group 0xB, 2 vector-class issue too. (DESIGN CHOICE: log 10) -/
def execPowerMonitorWithhold (level : Nat) (s : State) : Host.Outcome State Fault Refusal := .next { s with withhold := min level 2 }

/-- The power state that the module enters by itself: the deepest that one of its parts may enter (R217). (DESIGN CHOICE: log 25) -/
def powerEntry (s : State) : Option Instr :=
  if s.bootStep < 6 then none
  else
    let first := fun (st : Power) => ((List.range (unitsOf st)).find? (mayEnter s st)).map fun u => Instr.powerStateEntry st u
    [Power.packageSleep, .dieIdle, .coreRetention, .quadrantGate].findSome? first

/-! ## Start (R220, R445) -/

/-- BOOTSTAT after a failure. R445 gives a unit only for steps 4 and 6. (DEDUCED: log 22) -/
def bootStatOf (step unit : Nat) : Word :=
  let u := if step = 4 ∨ step = 6 then unit % 256 else (Config.bootStatUnit step unit).toNat
  BitVec.ofNat 32 (step + 256 * u + 2 ^ 31)

/-- A step of the start fails: no die starts, or the physical function alone is reached, by CXL.io. -/
def startFailure (s : State) (a : StartArg) : State :=
  let s := { s with bootStat := bootStatOf a.step a.unit }
  if a.step ≤ 3 then reply s .faultPin else { s with link := .ioOnly }

/-- CAP_FEATURE of this module: bits 0 to 9 (R210). -/
def moduleFeatures : BitVec 128 := 0x3FF

/-- The composition of R11, as the counts of its table in their order. -/
def moduleParts : List Nat := [8, 96, 384, 1536, 16, 1, 1, 96, 36, 2, 1]

/-- Step 1: the configuration record's signature verifies under the key of the security processor's ROM, and the record describes this module (R11, R13). A record of another composition fails as an unsigned one does. (DESIGN CHOICE: log 21) -/
def recordGood (r : ConfigRecord) : Bool := xmssVerify Config.recordKey r.body r.sig && r.composition == moduleParts &&
  Config.recordOf r.body == (r.pkgNum, r.serialNum, r.archLevel, r.composition)

/-- Whether a step of the start succeeds: step 1 by what it verifies, the others as the outside world says. -/
def stepSucceeds (a : StartArg) : Bool := if a.step = 1 then recordGood a.record else a.ok

/-- The tables and keys of step 3 written: label sets but entry 0, frame labels, access tables, memory and link keys (R95, R102, R214, R218). -/
def writeTables (s : State) (a : StartArg) : State :=
  let s := { s with access := a.access, hbmKeys := a.memKeys.foldl (fun (m : Map (List Byte)) e => mset m e.1 e.2) s.hbmKeys
                    linkKeys := a.linkKeys.foldl (fun (m : Map (List Byte)) e => mset m e.1 e.2) s.linkKeys
                    labelSets := a.labelSets.foldl (fun (m : Map Label) (e : Nat × Label) => if e.1 = 0 ∨ 255 < e.1 then m else mput 0 m e.1 e.2) s.labelSets }
  a.frameLabels.foldl (fun (s : State) (e : Nat × Byte) => if frameCount ≤ e.1 then s else writeLoc s (.dev (frameTable + e.1)) e.2) s

/-- A step of the start completes: the record's contents, the measured firmware, the tables, the links (R13, R219, R220). -/
def startStep (s : State) (a : StartArg) : State :=
  let s := match a.step with
    | 1 => { s with configDigest := digest a.record.body, pkgNum := a.record.pkgNum, serialNum := a.record.serialNum
                    archLevel := a.record.archLevel, composition := a.record.composition }
    | 2 => { s with measured := extend s.measured (digest a.image) }
    | 3 => writeTables s a
    | 5 => { s with measured := extend s.measured (digest a.image) }
    | 6 => { s with capFeature := moduleFeatures, featureSet := true, link := .up }
    | _ => s
  { s with bootStep := a.step }

/-- The unit number from which a failure of step 6 names a Celide link; smaller ones name dies. (DEDUCED: log 22) -/
def celideUnit : Nat := 8

/-- Whether the module has the stack, die or link that a failure names (R11): 16 stacks at step 4, 8 dies and 36 links at step 6. (DEDUCED: log 22) -/
def unitThere (step unit : Nat) : Bool :=
  match step with
  | 4 => decide (unit < 16)
  | 6 => decide (unit < celideUnit + 36)
  | _ => true

/-- START_SEQUENCE (R220, R445): the next step of the start, which completes or fails. A Celide link that does not train at step 6 retires its plane, and the step goes on. Step 7 completes with the first enabled partition. -/
def execStartSequence (a : StartArg) (s : State) : Host.Outcome State Fault Refusal :=
  if a.step ≠ s.bootStep + 1 ∨ 6 < a.step ∨ s.bootStat.msb then .next s
  else if stepSucceeds a then .next (startStep s a)
  else if !unitThere a.step a.unit then .next s
  else if a.step = 6 ∧ celideUnit ≤ a.unit then .next (failPlane s (a.unit - celideUnit))
  else .next (startFailure s a)

/-- MODULE_RESET (R187, R220, R439): the module as power-on leaves it. The configuration record's identity, the host's memory and the other packages' stay, and so does the model's own agenda. (DESIGN CHOICE: log 2; DESIGN CHOICE: log 21) -/
def execModuleReset (s : State) : Host.Outcome State Fault Refusal :=
  .next { State.reset with agenda := s.agenda, replies := s.replies, pkgNum := s.pkgNum, serialNum := s.serialNum,
                           archLevel := s.archLevel, composition := s.composition, host := s.host,
                           pod := s.pod, podLabels := s.podLabels }

end Sys2Proof.Machine
end

