-- ==== Sys2Proof/Machine/Dispatch.lean ====
section
/-! DEFINITION. One arm for each step of the opcode table: a direct call of its meaning. -/
namespace Sys2Proof.Machine

/-- The meaning of a step of the opcode table. -/
def exec (i : Instr) (s : State) : Host.Outcome State Fault Refusal :=
  match i with
  | .nop h => Sys2Proof.Machine.execNop h s
  | .region h => Sys2Proof.Machine.execRegion h s
  | .bra h tgt => Sys2Proof.Machine.execBra h tgt s
  | .brc h tgt rcv hb => Sys2Proof.Machine.execBrc h tgt rcv hb s
  | .brx h a b => Sys2Proof.Machine.execBrx h a b s
  | .call h tgt link => Sys2Proof.Machine.execCall h tgt link s
  | .callx h d a => Sys2Proof.Machine.execCallx h d a s
  | .ret h a => Sys2Proof.Machine.execRet h a s
  | .exit h => Sys2Proof.Machine.execExit h s
  | .trap h code => Sys2Proof.Machine.execTrap h code s
  | .bkpt h code => Sys2Proof.Machine.execBkpt h code s
  | .iadd h w sat d a b => Sys2Proof.Machine.execIadd h w sat d a b s
  | .isub h w sat d a b => Sys2Proof.Machine.execIsub h w sat d a b s
  | .iaddw h signed d a b => Sys2Proof.Machine.execIaddw h signed d a b s
  | .imul h w d a b => Sys2Proof.Machine.execImul h w d a b s
  | .imulhi h signed d a b => Sys2Proof.Machine.execImulhi h signed d a b s
  | .imad h v d a b c => Sys2Proof.Machine.execImad h v d a b c s
  | .imadw h signed d a b c => Sys2Proof.Machine.execImadw h signed d a b c s
  | .idiv h w signed d a b => Sys2Proof.Machine.execIdiv h w signed d a b s
  | .irem h w signed d a b => Sys2Proof.Machine.execIrem h w signed d a b s
  | .imin h w signed d a b => Sys2Proof.Machine.execImin h w signed d a b s
  | .imax h w signed d a b => Sys2Proof.Machine.execImax h w signed d a b s
  | .iabs h w ss d a => Sys2Proof.Machine.execIabs h w ss d a s
  | .and h w d a b => Sys2Proof.Machine.execAnd h w d a b s
  | .or h w d a b => Sys2Proof.Machine.execOr h w d a b s
  | .xor h w d a b => Sys2Proof.Machine.execXor h w d a b s
  | .bcond h w g1 g0 d a b c => Sys2Proof.Machine.execBcond h w g1 g0 d a b c s
  | .shl h w d a b => Sys2Proof.Machine.execShl h w d a b s
  | .shr h w d a b => Sys2Proof.Machine.execShr h w d a b s
  | .sar h w d a b => Sys2Proof.Machine.execSar h w d a b s
  | .rotl h w d a b => Sys2Proof.Machine.execRotl h w d a b s
  | .bfe h w signed d a b c => Sys2Proof.Machine.execBfe h w signed d a b c s
  | .bfi h w d a b c => Sys2Proof.Machine.execBfi h w d a b c s
  | .popc h w d a => Sys2Proof.Machine.execPopc h w d a s
  | .clz h w d a => Sys2Proof.Machine.execClz h w d a s
  | .brev h w d a => Sys2Proof.Machine.execBrev h w d a s
  | .icmp h t cmp comb d a b pc => Sys2Proof.Machine.execIcmp h t cmp comb d a b pc s
  | .sel h w d a b pc => Sys2Proof.Machine.execSel h w d a b pc s
  | .mov h w d a => Sys2Proof.Machine.execMov h w d a s
  | .movi h wide d imm => Sys2Proof.Machine.execMovi h wide d imm s
  | .movhi h d imm => Sys2Proof.Machine.execMovhi h d imm s
  | .addpc h d imm => Sys2Proof.Machine.execAddpc h d imm s
  | .fadd h t rm sat d a b c => Sys2Proof.Machine.execFadd h t rm sat d a b c s
  | .fmul h t rm sat d a b c => Sys2Proof.Machine.execFmul h t rm sat d a b c s
  | .ffma h t rm sat d a b c => Sys2Proof.Machine.execFfma h t rm sat d a b c s
  | .fscale h t rm sat d a b c => Sys2Proof.Machine.execFscale h t rm sat d a b c s
  | .fmin h t d a b => Sys2Proof.Machine.execFmin h t d a b s
  | .fmax h t d a b => Sys2Proof.Machine.execFmax h t d a b s
  | .fcmp h t cmp comb half d a b pc => Sys2Proof.Machine.execFcmp h t cmp comb half d a b pc s
  | .fclass h t test hi d a => Sys2Proof.Machine.execFclass h t test hi d a s
  | .frnd h t rm d a => Sys2Proof.Machine.execFrnd h t rm d a s
  | .ffrac h d a => Sys2Proof.Machine.execFfrac h d a s
  | .fdot2 h bf sat d a b c => Sys2Proof.Machine.execFdot2 h bf sat d a b c s
  | .fdot4 h e5 sat d a b c => Sys2Proof.Machine.execFdot4 h e5 sat d a b c s
  | .frcp h rm d a => Sys2Proof.Machine.execFrcp h rm d a s
  | .frsq h rm d a => Sys2Proof.Machine.execFrsq h rm d a s
  | .fsqrt h rm d a => Sys2Proof.Machine.execFsqrt h rm d a s
  | .fexp2 h rm d a => Sys2Proof.Machine.execFexp2 h rm d a s
  | .flog2 h rm d a => Sys2Proof.Machine.execFlog2 h rm d a s
  | .fsinpi h rm d a => Sys2Proof.Machine.execFsinpi h rm d a s
  | .fcospi h rm d a => Sys2Proof.Machine.execFcospi h rm d a s
  | .f2i h t rm d a => Sys2Proof.Machine.execF2i h t rm d a s
  | .i2f h t rm d a b => Sys2Proof.Machine.execI2f h t rm d a b s
  | .fcvt h v rm sat d a b => Sys2Proof.Machine.execFcvt h v rm sat d a b s
  | .pack h v rm sat hi d a b c => Sys2Proof.Machine.execPack h v rm sat hi d a b c s
  | .unpack h v k d a => Sys2Proof.Machine.execUnpack h v k d a s
  | .gqdec h f16 n rm sat d a b c => Sys2Proof.Machine.execGqdec h f16 n rm sat d a b c s
  | .lperm h v grp d a b => Sys2Proof.Machine.execLperm h v grp d a b s
  | .pgathCnt h cmp d a => Sys2Proof.Machine.execPgathCnt h cmp d a s
  | .pgathRank h d a => Sys2Proof.Machine.execPgathRank h d a s
  | .pgathMask h d a => Sys2Proof.Machine.execPgathMask h d a s
  | .lfirst h d => Sys2Proof.Machine.execLfirst h d s
  | .lkin h w d a => Sys2Proof.Machine.execLkin h w d a s
  | .lread h w d a b => Sys2Proof.Machine.execLread h w d a b s
  | .srd h v d a => Sys2Proof.Machine.execSrd h v d a s
  | .dred h v d a => Sys2Proof.Machine.execDred h v d a s
  | .scan h v d a => Sys2Proof.Machine.execScan h v d a s
  | .pcond h g1 g0 d a b c => Sys2Proof.Machine.execPcond h g1 g0 d a b c s
  | .pmovGet h d => Sys2Proof.Machine.execPmovGet h d s
  | .pmovSet h mask a => Sys2Proof.Machine.execPmovSet h mask a s
  | .ld h w d m => Sys2Proof.Machine.execLd h w d m s
  | .st h w d m => Sys2Proof.Machine.execSt h w d m s
  | .lds h w d m => Sys2Proof.Machine.execLds h w d m s
  | .sts h w d m => Sys2Proof.Machine.execSts h w d m s
  | .ldc h w d m => Sys2Proof.Machine.execLdc h w d m s
  | .pref h m => Sys2Proof.Machine.execPref h m s
  | .cinv h m => Sys2Proof.Machine.execCinv h m s
  | .atom h v d m => Sys2Proof.Machine.execAtom h v d m s
  | .atoms h v d m => Sys2Proof.Machine.execAtoms h v d m s
  | .cas h v d m => Sys2Proof.Machine.execCas h v d m s
  | .casx h d m => Sys2Proof.Machine.execCasx h d m s
  | .red h v d m => Sys2Proof.Machine.execRed h v d m s
  | .fence h order scope => Sys2Proof.Machine.execFence h order scope s
  | .fencex h => Sys2Proof.Machine.execFencex h s
  | .cpy h v d a b c => Sys2Proof.Machine.execCpy h v d a b c s
  | .cpyp h bench d a b c => Sys2Proof.Machine.execCpyp h bench d a b c s
  | .cpyc h d a b c => Sys2Proof.Machine.execCpyc h d a b c s
  | .cpysig h set d a b c => Sys2Proof.Machine.execCpysig h set d a b c s
  | .cseal h d => Sys2Proof.Machine.execCseal h d s
  | .cwait h a => Sys2Proof.Machine.execCwait h a s
  | .cwaitSt h d a => Sys2Proof.Machine.execCwaitSt h d a s
  | .ctest h d a b => Sys2Proof.Machine.execCtest h d a b s
  | .txb h alt scope => Sys2Proof.Machine.execTxb h alt scope s
  | .txe h => Sys2Proof.Machine.execTxe h s
  | .retry h => Sys2Proof.Machine.execRetry h s
  | .txx h => Sys2Proof.Machine.execTxx h s
  | .bar h scope k a => Sys2Proof.Machine.execBar h scope k a s
  | .bara h scope k a => Sys2Proof.Machine.execBara h scope k a s
  | .barw h scope k => Sys2Proof.Machine.execBarw h scope k s
  | .waitc h v d m => Sys2Proof.Machine.execWaitc h v d m s
  | .spawn h entry a b => Sys2Proof.Machine.execSpawn h entry a b s
  | .join h m => Sys2Proof.Machine.execJoin h m s
  | .spfl h => Sys2Proof.Machine.execSpfl h s
  | .bclaim h a => Sys2Proof.Machine.execBclaim h a s
  | .brel h a => Sys2Proof.Machine.execBrel h a s
  | .bst h d m => Sys2Proof.Machine.execBst h d m s
  | .brd h d m => Sys2Proof.Machine.execBrd h d m s
  | .mma h sat neg clr t a b => Sys2Proof.Machine.execMma h sat neg clr t a b s
  | .aclr h t => Sys2Proof.Machine.execAclr h t s
  | .ard h bf t g rm sat d => Sys2Proof.Machine.execArd h bf t g rm sat d s
  | .awr h bf t g a => Sys2Proof.Machine.execAwr h bf t g a s
  | .ast h v d m => Sys2Proof.Machine.execAst h v d m s
  | .hfree h a => Sys2Proof.Machine.execHfree h a s
  | .ipa h v d a => Sys2Proof.Machine.execIpa h v d a s
  | .emitv h a => Sys2Proof.Machine.execEmitv h a s
  | .emitp h a => Sys2Proof.Machine.execEmitp h a s
  | .tex h v d a b c => Sys2Proof.Machine.execTex h v d a b c s
  | .tld h d a b c => Sys2Proof.Machine.execTld h d a b c s
  | .trace h slot cullback first a b => Sys2Proof.Machine.execTrace h slot cullback first a b s
  | .rret h a => Sys2Proof.Machine.execRret h a s
  | .mboxTry h slot d c => Sys2Proof.Machine.execMboxTry h slot d c s
  | .mboxWait h slot d c => Sys2Proof.Machine.execMboxWait h slot d c s
  | .outs h t a => Sys2Proof.Machine.execOuts h t a s
  | .kill h => Sys2Proof.Machine.execKill h s
  | .lblrd h d a => Sys2Proof.Machine.execLblrd h d a s
  | .grel h scr w d a b c => Sys2Proof.Machine.execGrel h scr w d a b c s
  | .csrr h d csr => Sys2Proof.Machine.execCsrr h d csr s
  | .csrw h csr a => Sys2Proof.Machine.execCsrw h csr a s
  | .tret h mode a => Sys2Proof.Machine.execTret h mode a s
  | .tail part q v => Sys2Proof.Machine.execTail part q v s
  | .cmdNop fence => Sys2Proof.Machine.execCmdNop fence s
  | .launch fence addr => Sys2Proof.Machine.execLaunch fence addr s
  | .launchIndirect fence addr counts => Sys2Proof.Machine.execLaunchIndirect fence addr counts s
  | .cmdLoop fence body count => Sys2Proof.Machine.execCmdLoop fence body count s
  | .cmdIf fence skip cmp addr val => Sys2Proof.Machine.execCmdIf fence skip cmp addr val s
  | .cmdWait fence cmp addr val => Sys2Proof.Machine.execCmdWait fence cmp addr val s
  | .cmdWaitWake part q => Sys2Proof.Machine.execCmdWaitWake part q s
  | .signal fence add addr val => Sys2Proof.Machine.execSignal fence add addr val s
  | .invxl fence base size => Sys2Proof.Machine.execInvxl fence base size s
  | .invxlComplete part q => Sys2Proof.Machine.execInvxlComplete part q s
  | .cmdIllegal info => Sys2Proof.Machine.execCmdIllegal info s
  | .launchHeldWaysStart part q => Sys2Proof.Machine.execLaunchHeldWaysStart part q s
  | .launchEnd lid => Sys2Proof.Machine.execLaunchEnd lid s
  | .networkLaunchPacket tenant seq rec_ tag => Sys2Proof.Machine.execNetworkLaunchPacket tenant seq rec_ tag s
  | .clusterPlace part die => Sys2Proof.Machine.execClusterPlace part die s
  | .rateGatherSeal die g => Sys2Proof.Machine.execRateGatherSeal die g s
  | .rateWavePlace die => Sys2Proof.Machine.execRateWavePlace die s
  | .heldRecordAllocate die => Sys2Proof.Machine.execHeldRecordAllocate die s
  | .holdExhausted lid die => Sys2Proof.Machine.execHoldExhausted lid die s
  | .spawnSlotSeal core slot => Sys2Proof.Machine.execSpawnSlotSeal core slot s
  | .taskWavePlace die => Sys2Proof.Machine.execTaskWavePlace die s
  | .spawnOverflowReturn core => Sys2Proof.Machine.execSpawnOverflowReturn core s
  | .spawnDeadlock lid die => Sys2Proof.Machine.execSpawnDeadlock lid die s
  | .completionEvent wave op => Sys2Proof.Machine.execCompletionEvent wave op s
  | .tableWalkComplete wave split => Sys2Proof.Machine.execTableWalkComplete wave split s
  | .loadPerform wave entry lane fill => Sys2Proof.Machine.execLoadPerform wave entry lane fill s
  | .storePerform wave entry lane => Sys2Proof.Machine.execStorePerform wave entry lane s
  | .atomicPerform wave entry lane => Sys2Proof.Machine.execAtomicPerform wave entry lane s
  | .fencePerform wave entry => Sys2Proof.Machine.execFencePerform wave entry s
  | .homeQueueEnqueue wave entry lane => Sys2Proof.Machine.execHomeQueueEnqueue wave entry lane s
  | .homeQueueApply queue idx => Sys2Proof.Machine.execHomeQueueApply queue idx s
  | .wakeRestart wave split => Sys2Proof.Machine.execWakeRestart wave split s
  | .l1LineDrop core line => Sys2Proof.Machine.execL1LineDrop core line s
  | .transactionAbort wave => Sys2Proof.Machine.execTransactionAbort wave s
  | .serialTokenGrant => Sys2Proof.Machine.execSerialTokenGrant s
  | .copyRead copy unit => Sys2Proof.Machine.execCopyRead copy unit s
  | .copyWrite copy unit => Sys2Proof.Machine.execCopyWrite copy unit s
  | .flushMarkerGathered wave pkg plane => Sys2Proof.Machine.execFlushMarkerGathered wave pkg plane s
  | .fabricPacket p => Sys2Proof.Machine.execFabricPacket p s
  | .gateAccept => Sys2Proof.Machine.execGateAccept s
  | .traversalEnd ray => Sys2Proof.Machine.execTraversalEnd ray s
  | .parcelLinkTraversal ray => Sys2Proof.Machine.execParcelLinkTraversal ray s
  | .trapWaveStart part => Sys2Proof.Machine.execTrapWaveStart part s
  | .faultRecordWrite part idx => Sys2Proof.Machine.execFaultRecordWrite part idx s
  | .watchdog lid => Sys2Proof.Machine.execWatchdog lid s
  | .fqcons part v => Sys2Proof.Machine.execFqcons part v s
  | .fqresolveReplay part handle => Sys2Proof.Machine.execFqresolveReplay part handle s
  | .fqresolveNext part handle => Sys2Proof.Machine.execFqresolveNext part handle s
  | .fqresolveEnd part handle => Sys2Proof.Machine.execFqresolveEnd part handle s
  | .fqresolveStep part handle => Sys2Proof.Machine.execFqresolveStep part handle s
  | .fqresolveStepWave part handle => Sys2Proof.Machine.execFqresolveStepWave part handle s
  | .suspendByDraining part => Sys2Proof.Machine.execSuspendByDraining part s
  | .drainComplete part => Sys2Proof.Machine.execDrainComplete part s
  | .drainLimitExpiry part => Sys2Proof.Machine.execDrainLimitExpiry part s
  | .suspendAtOnce part => Sys2Proof.Machine.execSuspendAtOnce part s
  | .resume part => Sys2Proof.Machine.execResume part s
  | .waveSpill wave => Sys2Proof.Machine.execWaveSpill wave s
  | .waveReplace wave => Sys2Proof.Machine.execWaveReplace wave s
  | .registerWrite pf part off v => Sys2Proof.Machine.execRegisterWrite pf part off v s
  | .vfDisable part => Sys2Proof.Machine.execVfDisable part s
  | .cxlMemRead vf pa len => Sys2Proof.Machine.execCxlMemRead vf pa len s
  | .cxlMemWrite vf pa data => Sys2Proof.Machine.execCxlMemWrite vf pa data s
  | .policyInstall body sigs => Sys2Proof.Machine.execPolicyInstall body sigs s
  | .policyWithdraw lmask principal sig => Sys2Proof.Machine.execPolicyWithdraw lmask principal sig s
  | .packageTimeRead => Sys2Proof.Machine.execPackageTimeRead s
  | .gateLogSign => Sys2Proof.Machine.execGateLogSign s
  | .gateLogAck n => Sys2Proof.Machine.execGateLogAck n s
  | .quoteRequest nonce => Sys2Proof.Machine.execQuoteRequest nonce s
  | .codeObjectSubmit part base bytes => Sys2Proof.Machine.execCodeObjectSubmit part base bytes s
  | .frameLabelChange frame idx => Sys2Proof.Machine.execFrameLabelChange frame idx s
  | .peerAdmit pkg q sig key keys => Sys2Proof.Machine.execPeerAdmit pkg q sig key keys s
  | .flitRetryLimit plane => Sys2Proof.Machine.execFlitRetryLimit plane s
  | .flushMarkerTimeout wave pkg plane answered => Sys2Proof.Machine.execFlushMarkerTimeout wave pkg plane answered s
  | .planeRetirementAnnounce plane => Sys2Proof.Machine.execPlaneRetirementAnnounce plane s
  | .hostLinkFailed => Sys2Proof.Machine.execHostLinkFailed s
  | .hostLinkRecovered => Sys2Proof.Machine.execHostLinkRecovered s
  | .powerStateEntry st unit => Sys2Proof.Machine.execPowerStateEntry st unit s
  | .powerStateExit st unit => Sys2Proof.Machine.execPowerStateExit st unit s
  | .startSequence arg => Sys2Proof.Machine.execStartSequence arg s
  | .moduleReset => Sys2Proof.Machine.execModuleReset s
  | .illegalOp header w => Sys2Proof.Machine.execIllegalOp header w s
  | .powerMonitorWithhold level => Sys2Proof.Machine.execPowerMonitorWithhold level s
  | .vfEnable part => Sys2Proof.Machine.execVfEnable part s
  | .hostLinkDown => Sys2Proof.Machine.execHostLinkDown s
  | .hostLinkRetrained => Sys2Proof.Machine.execHostLinkRetrained s
  | .flitCrcFailure plane => Sys2Proof.Machine.execFlitCrcFailure plane s
  | .cxlCacheSnoop die line downgrade => Sys2Proof.Machine.execCxlCacheSnoop die line downgrade s
  | .cxlCompletion id => Sys2Proof.Machine.execCxlCompletion id s
  | .principalRegistration n key => Sys2Proof.Machine.execPrincipalRegistration n key s
  | .egressWindowRegistration principal idx w => Sys2Proof.Machine.execEgressWindowRegistration principal idx w s
  | .tenantTableWrite idx t => Sys2Proof.Machine.execTenantTableWrite idx t s
  | .boundMaskSet part mask => Sys2Proof.Machine.execBoundMaskSet part mask s

end Sys2Proof.Machine
end

