-- ==== Sys2Proof/Machine/Schedule.lean ====
section
/-! DEFINITION. What a step runs: an instruction that a split issues, a command that a queue takes, an event; and, when the agenda names nothing, the act that the machine takes by itself (R104, R190, R205, R217). -/
namespace Sys2Proof.Machine

/-- Whether a constructor is an event of its own, and neither an instruction word nor a command. (DESIGN CHOICE: log 3) -/
def isEvent (i : Instr) : Bool := i.parts.isNone && i.command.isEmpty && (match i with | .illegalOp .. => false | .cmdIllegal .. => false | _ => true)

/-- A next state with its waves settled, the bytes of spilled records and of context areas that it has changed written, and the power states that it has ended left (R20, R160, R217, R365). (DESIGN CHOICE: log 3) -/
def settled (before : State) (o : Host.Outcome State Fault Refusal) : Host.Outcome State Fault Refusal :=
  match o with
  | .next s => .next (settlePower (settleContext before (settleRecords before (settleUnits (settleWipe (settleWaves before s))))))
  | o => o

/-- Issue the next instruction of a split and run its meaning. -/
def stepIssue (s : State) (w k : Nat) : Host.Outcome State Fault Refusal :=
  match issue s w k with
  | .nothing s' => .next s'
  | .run i s' => match exec i s' with
    | .next t => .next (afterIssue s' t)
    | o => o

/-- The command processor takes the next command of a queue and runs its meaning (R190, R191). -/
def stepCommand (s : State) (part q : Nat) : Host.Outcome State Fault Refusal :=
  match fetchCommand s part q with
  | none => .next s
  | some i => exec i { s with curQueue := (part, q) }

/-! ## Requests of the host (R218, R440) -/

/-- The function and the offset within its window of the register that a host request writes (R210, R211, R375). -/
def hostRequest : Instr → Option (Nat × Nat)
  | .tail part q _ => some (part + 1, 0x118 + 0x40 * q)
  | .fqcons part _ => some (part + 1, 0x60)
  | .fqresolveReplay part _ => some (part + 1, 0x68)
  | .fqresolveNext part _ => some (part + 1, 0x68)
  | .fqresolveEnd part _ => some (part + 1, 0x68)
  | .fqresolveStep part _ => some (part + 1, 0x68)
  | .fqresolveStepWave part _ => some (part + 1, 0x68)
  | .suspendByDraining part => some (part + 1, 0x18)
  | .suspendAtOnce part => some (part + 1, 0x18)
  | .resume part => some (part + 1, 0x18)
  | .registerWrite false part off _ => some (part + 1, off)
  | .registerWrite true part off _ => some (0, 0x100000 + 0x10000 * part + off)
  | .vfEnable _ => some (0, 0)
  | .vfDisable _ => some (0, 0)
  | _ => none

/-- Where a register stands in the address space of the CSR blocks' access tables: a window of 2^32 bytes for each function. (DESIGN CHOICE: log 54) -/
def csrAddr (fn off : Nat) : Nat := fn * 2 ^ 32 + off

/-- Whether a request of the host does not reach its register now: it waits while the CXL link is not up, but that the physical function has CXL.io after a failed start (R440, R445), and a CSR block's access table may refuse its function (R218). (DEDUCED: log 50) -/
def hostBarred (s : State) (i : Instr) : Bool :=
  match hostRequest i with
  | none => false
  | some (fn, off) => !(s.link == .up || fn == 0 && s.link == .ioOnly) || !mayWriteCsr s (.cxl fn) (csrAddr fn off)

/-! ## Errors that strike storage (R417, R444) -/

/-- The die on whose list a registration stands when its entry fails. -/
def WakeKey.dieOf (core : Nat) : WakeKey → Nat
  | .line l => lastDie core l
  | .slice d _ => d
  | .bankCore c => dieOfCore c
  | .engine c => dieOfCore c
  | .barUnit _ _ => dieOfCore core
  | .die d => d

/-- A SOFT_ERROR that no instruction meets: its record has HANDLE 0 and TERM set, and the launch terminates (R444). -/
def softEvent (s : State) (part lid : Nat) (lblock : Word) : State :=
  terminate (pushEvent s part { eventRecord lid 0x11 0 0 with term := true, lblock := lblock }) lid

/-- An uncorrectable error of on-die storage (R444). Registers, mailbox slots, bench slots, tiles, granules and their labels stay marked until they are wholly written. A transaction's buffered line, a wake-table entry, a spawn record, and a wave's split table or context buffer are struck as they are read: the transaction aborts, the wave becomes a broad waiter on its die's list, the launch terminates. (DESIGN CHOICE: log 48) -/
def strike (s : State) (m : SoftMark) : State :=
  match m with
  | .txLine wid line => (match mget? s.waves wid with
    | some w => if w.tx.depth ≠ 0 ∧ line ∈ txLines w then abortTx s wid (min 16 (w.tx.aborts + 1)) else s
    | none => s)
  | .wakeEntry key wid k => (match mget? s.waves wid with
    | some w => { s with regs := dedup (s.regs.map fun r => if r = ⟨key, wid, k⟩ then ⟨.die (key.dieOf (coreOf w.quad)), wid, k⟩ else r) }
    | none => s)
  | .wave wid => (match mget? s.waves wid with
    | some w => if w.place = .ended then s else softEvent s w.part w.launch w.lblock
    | none => s)
  | .spawnRec core order =>
    (match (mgetD s.spawnQ core [] ++ (overflowOf s core).map fun x => x.2).find? fun r => r.order == order with
     | some r => softEvent s r.part r.launch 0xFFFFFFFF
     | none => s)
  | m => if m ∈ s.soft then s else { s with soft := s.soft ++ [m] }

/-- An uncorrectable error of HBM or of an L2 line marks the line poisoned (R417). (DESIGN CHOICE: log 48) -/
def poison (s : State) (line : Nat) : State :=
  if deviceSize ≤ 128 * line then s else { s with poisoned := addNat line s.poisoned }

/-! ## Acts -/

/-- A quadrant issues of one class: of the splits in their order, some that are not held at their instructions, each of another wave (R204, R205). (DESIGN CHOICE: log 3) -/
def issueClass : List Candidate → Nat → List Nat → State → Host.Outcome State Fault Refusal
  | [], _, _, s => .next s
  | c :: cs, n, waves, s =>
    if n = 0 then .next s
    else if c.wave ∈ waves then issueClass cs n waves s
    else match settled s (stepIssue s c.wave c.split) with
      | .next t => if movedOn s t c then issueClass cs (n - 1) (c.wave :: waves) t else issueClass cs n waves t
      | o => o

/-- Every quadrant issues of every class what it may in one clock (R204, R205). (DESIGN CHOICE: log 3) -/
def stepHeads (s : State) : Host.Outcome State Fault Refusal :=
  (classOrders s).foldl (fun o g => match o with
    | .next t => issueClass g.2 g.1 [] t
    | o => o) (.next s)

/-- What an act does. A request of the host that cannot reach its register does nothing yet. (DESIGN CHOICE: log 3) -/
def runAct (s : State) : Act → Host.Outcome State Fault Refusal
  | .issue w k => stepIssue s w k
  | .heads => stepHeads s
  | .command p q => stepCommand s p q
  | .event i => if isEvent i && !hostBarred s i then exec i s else .next s
  | .tick n ns => .next { passClocks s n with pkgTime := s.pkgTime + ns }
  | .poison line => .next (poison s line)
  | .soft m => .next (strike s m)

/-- One clock passes, with package time at its nominal rate of 10 ns in 11 clocks (R4, R187). (DESIGN CHOICE: log 3; DESIGN CHOICE: log 9) -/
def passClock (s : State) : State :=
  { passClocks s 1 with pkgTime := s.pkgTime + ((s.clock + 1) * 10 / 11 - s.clock * 10 / 11) }

/-! ## Acts that the machine can take

Of the orders that the rules allow, the machine by itself takes the one that these lists give. -/

/-- Whether an act changes the state. -/
def changes (s : State) (a : Act) : Bool :=
  match runAct s a with
  | .next t => !decide (t = s)
  | _ => false

/-- The event by which an access performs, or by which one of another package moves onto its fabric path. -/
def performEvent (w : Wave) (e : Entry) (a : Access) : Instr :=
  if a.abroad then .homeQueueEnqueue w.id e.id a.lane
  else match e.kind with
    | .load => .loadPerform w.id e.id a.lane true
    | .store => .storePerform w.id e.id a.lane
    | .writeThrough => .storePerform w.id e.id a.lane
    | .fence => .fencePerform w.id e.id
    | _ => .atomicPerform w.id e.id a.lane

/-- The first access of a wave that may perform. -/
def waveAccess (s : State) (w : Wave) : Option Instr :=
  w.pending.findSome? fun e => (e.accs.find? fun a => !a.done && !a.queued && (readyAccess s w.id e.id a.lane false).isSome).map fun a => performEvent w e a

/-- Completion events of a wave, those that may come at once first. -/
def waveCompletions (s : State) (w : Wave) : List Instr :=
  (w.long.filter fun o => match o.what with
    | .access id => entryDone s w id
    | .rows ids => ids.all fun id => entryDone s w id
    | .matrix _ => matrixFirst s w.quad o.id
    | .tex q => q.needs.isEmpty
    | _ => true).map fun o => .completionEvent w.id o.id

/-- Entries of a wave that FENCE_PERFORM may end. -/
def waveFences (w : Wave) : List Instr :=
  (w.pending.filter fun e => e.kind == .fence || (e.kind == .spawnAdd && e.doneAll)).map fun e => .fencePerform w.id e.id

/-- The other events of a wave. -/
def waveEvents (s : State) (w : Wave) : List Instr :=
  ((w.splits.filter fun e => !e.2.walks.isEmpty).map fun e => Instr.tableWalkComplete w.id e.1) ++
  w.pendingWake.map (fun k => Instr.wakeRestart w.id k) ++
  (if w.tx.depth != 0 && w.tx.reads.any (fun r => r.live && r.conflict) then [.transactionAbort w.id] else []) ++
  (if w.place == .spilled then [.waveReplace w.id] else []) ++
  waveFences w ++ waveCompletions s w

/-- Reads, writes and the signal of a copy that is under way; the 16-B reads of a GREL's source. -/
def copyEvents (c : Copy) : List Instr :=
  if c.done then []
  else match c.plan with
  | .gate _ len _ _ _ => (List.range (len / 16)).map fun i => Instr.copyRead c.id i
  | _ =>
  if !c.planned then (List.range 4).map fun i => Instr.copyRead c.id i
  else
    let us := c.units.zipIdx
    (us.filter (fun u => !u.1.done)).flatMap (fun u =>
      ((List.range u.1.pieces.length).map fun j => Instr.copyRead c.id (64 * u.2 + j)) ++ [Instr.copyWrite c.id u.2]) ++
    [.copyWrite c.id c.units.length]

/-- Events of queues, copies, the gate, the serial token, markers and the host path. -/
def pathEvents (s : State) : List Instr :=
  ((List.range s.fabricQ.length).map fun i => Instr.homeQueueApply fabricQueue i) ++
  (s.homeQ.flatMap fun q => (List.range q.2.length).map fun i => Instr.homeQueueApply q.1 i) ++
  (if s.tokenQ.isEmpty then [] else [.serialTokenGrant]) ++
  ((s.markers.filter fun m => !m.gathered).map fun m => Instr.flushMarkerGathered m.wave m.pkg m.plane) ++
  (s.hostPending.map fun h => Instr.cxlCompletion h.1) ++
  (s.copies.flatMap fun c => copyEvents c.2) ++
  (if s.gateQ.isEmpty then [] else [.gateAccept])

/-- The reads that a wave's texture operations have still to take. -/
def texEvents (w : Wave) : List Instr :=
  w.long.flatMap fun o => match o.what with
    | .tex q => q.needs.map fun n => Instr.copyRead q.num n.1
    | _ => []

/-- The reads, links and end of a ray. -/
def rayEvents (s : State) (r : Ray) : List Instr :=
  (match mget? s.launches r.launch with
   | some l => (r.needs l).map fun n => Instr.copyRead r.num n.1
   | none => []) ++ [.traversalEnd r.id, .parcelLinkTraversal r.id]

/-- Events of texture operations, rays, gathers, records and spawns. -/
def gatherEvents (s : State) : List Instr :=
  (s.waves.flatMap fun w => texEvents w.2) ++ (s.rays.flatMap fun r => rayEvents s r.2) ++
  (if s.elems.isEmpty then [] else (List.range 8).map fun d => .heldRecordAllocate d) ++
  (if s.gathers.isEmpty then []
   else (List.range s.gathers.length).flatMap (fun i => (List.range 8).map fun d => Instr.rateGatherSeal d i) ++ (List.range 8).map fun d => .rateWavePlace d) ++
  (s.gatherSlots.map fun g => Instr.spawnSlotSeal (g.1 / 8) (g.1 % 8)) ++
  (if s.gatherSlots.isEmpty then [] else (List.range 8).map fun d => .taskWavePlace d) ++
  (overflowCores s).map fun c => Instr.spawnOverflowReturn c

/-- Events of partitions and launches. -/
def partEvents (s : State) : List Instr :=
  s.parts.flatMap (fun p =>
    ((List.range p.2.records.length).map fun i => Instr.faultRecordWrite p.1 i) ++
    (if p.2.trapQueue.isEmpty then [] else [.trapWaveStart p.1]) ++
    (if p.2.state == .draining || p.2.preempt then [.drainComplete p.1, .drainLimitExpiry p.1] else []) ++
    (p.2.invals.map fun v => Instr.invxlComplete p.1 v.1) ++
    (p.2.queues.flatMap fun q => match q.2.wait with
      | .ways _ => [Instr.launchHeldWaysStart p.1 q.1]
      | .none => if q.2.net.isEmpty then [] else [.launchHeldWaysStart p.1 q.1]
      | .word _ woken => if woken then [.cmdWaitWake p.1 q.1] else []
      | _ => []) ++
    (if s.launches.any fun l => l.2.part == p.1 && l.2.state == .running then (List.range 8).map fun d => .clusterPlace p.1 d else [])) ++
  s.launches.flatMap fun l =>
    if l.2.state == .ended then []
    else [Instr.launchEnd l.1, .watchdog l.1] ++ (l.2.holdSince.map fun h => Instr.holdExhausted l.1 h.1) ++
      (if s.clock % 64 = 0 then (List.range 8).map fun d => .spawnDeadlock l.1 d else [])

/-- Commands that queues can take. -/
def commandActs (s : State) : List Act :=
  s.parts.flatMap fun p => (p.2.queues.filter fun q => q.2.wait == .none && decide (q.1 < 8) && q.2.tailIdx != q.2.head).map fun q => Act.command p.1 q.1

/-- The first event of a list that changes the state. -/
def firstChange (s : State) (es : List Instr) : Option Act := (es.map Act.event).find? (changes s)

/-- The act that the machine takes by itself: an access, an event, a command, the issue of a split, or the entry of a power state. (DESIGN CHOICE: log 3) -/
def nextAct (s : State) : Option Act :=
  ((s.waves.findSome? fun e => waveAccess s e.2).map Act.event).orElse fun _ =>
  (s.waves.findSome? fun e => firstChange s (waveEvents s e.2)).orElse fun _ =>
  (firstChange s (pathEvents s)).orElse fun _ =>
  (firstChange s (gatherEvents s)).orElse fun _ =>
  (firstChange s (partEvents s)).orElse fun _ =>
  ((commandActs s).find? (changes s)).orElse fun _ =>
  (if changes s .heads then some .heads else none).orElse fun _ =>
  (powerEntry s).map Act.event

/-- A clock passes and the machine takes its own next act, if it has one. (DESIGN CHOICE: log 9) -/
def stepAlone (s : State) : Host.Outcome State Fault Refusal :=
  let t := passClock s
  match nextAct t with
  | some a => settled s (runAct t a)
  | none => .next t

end Sys2Proof.Machine
end

