-- ==== Sys2Proof/Machine/Step.lean ====
section
/-! DEFINITION. One step of the module. -/
namespace Sys2Proof.Machine

/-- One step: the next act of the agenda; with an empty agenda a clock passes and the machine takes the act that `nextAct` gives. -/
def step (s : State) : Host.Outcome State Fault Refusal :=
  match s.agenda with
  | a :: rest => settled s (runAct { s with agenda := rest } a)
  | [] => stepAlone s

/-- The state with an instruction word placed where the next step fetches it: the module brought up, and a launch of one wave loaded from outside, whose first clause holds that word alone. (DESIGN CHOICE: log 1) -/
def State.withFetchWord (s : State) (_nbits w : Nat) : State := loadWord s w

end Sys2Proof.Machine
end

