-- ==== Sys2Proof/Safety.lean ====
section
/-! DEFINITION. The vocabulary of the claims: what a step must keep, what an instruction leaves unchanged, when an instruction word runs, and what it writes. -/
namespace Sys2Proof.Machine

/-- A pending entry without its group (R116). -/
def Entry.ungrouped (e : Entry) : Entry := { e with grp := 0 }

/-- A wave without what reconvergence touches: its split table, its join and serialisation records, the groups of its pending entries and the entry that owns its transaction (R20 to R24, R116, R149). -/
def Wave.data (w : Wave) : Wave :=
  { w with splits := [], joins := [], sers := [], pending := w.pending.map Entry.ungrouped, tx := { w.tx with owner := 0 } }

/-- A wave without its registers, predicates and labels, and without what reconvergence touches. -/
def Wave.rest (w : Wave) : Wave := { w.data with vregs := [], sregs := [], preds := [], labels := [] }

/-- An element without the values and labels of its held registers. -/
def Elem.rest (e : Elem) : Elem := { e with vals := [], vlabels := [] }

/-- The module without its waves, its elements and its marks of uncorrectable errors. -/
def State.rest (s : State) : State := { s with waves := [], elems := [], soft := [] }

/-! ## When an instruction word runs, and what one that writes registers does -/

/-- An instruction word runs at a state in a context: a split is at issue, the checks of stages 2 and 3 pass, its flag has room, at least one lane is active, and no register that it reads is marked with an uncorrectable error (R33, R223, R251, R391, R444). -/
def Ready (i : Instr) (s : State) (c : Ctx) : Prop := prelude i s = .ok c ∧ c.act ≠ 0 ∧ softHit s c.w.id i = false

/-- The same of a word that acts even with no active lane: the checks pass, and where a lane is active no register that it reads is marked. -/
def Runs (i : Instr) (s : State) (c : Ctx) : Prop := prelude i s = .ok c ∧ (c.act = 0 ∨ softHit s c.w.id i = false)

/-- The operand codes of `n` registers from an operand's on; an inline constant names none. -/
def Names (d : Opr) (n code : Nat) : Prop :=
  match d with
  | .c _ => False
  | .p k => code = 320 + k.val
  | o => o.code ≤ code ∧ code < o.code + n

/-- The label that a write gives a register (R176): a scalar, or a register written in every lane that has an element and has not exited, takes the written label; another adds it. -/
def newLabel (c : Ctx) (code : Nat) (lbl : Label) : Label :=
  if (decide (256 ≤ code) && decide (code < 320)) || coversWave c.w c.act then lbl else c.w.label code ||| lbl

/-- What `n` registers of a destination hold after a write of the active lanes (R176, R251): `f l` lists lane l's words, low register first. A scalar takes the lowest active lane's; a held register is written in the lane's own record, unless its section has been released (R52, R57). -/
def Wrote (s t : State) (c : Ctx) (d : Opr) (n : Nat) (f : Nat → List Word) (lbl : Label) : Prop :=
  match d with
  | .v k => ∀ i, i < n → (∀ l, bit c.act l = true → (theWave t c).vec (k.val + i) l = nthD (f l) i 0) ∧
      (theWave t c).label (k.val + i) = newLabel c (k.val + i) lbl
  | .s k => ∀ i, i < n → (theWave t c).scalar (k.val + i) = nthD (f c.low) i 0 ∧
      (theWave t c).label (256 + k.val + i) = newLabel c (256 + k.val + i) lbl
  | .p k => (∀ l, bit c.act l = true → k.val ≠ 0 → bit ((theWave t c).pred k.val) l = decide (nthD (f l) 0 0 ≠ 0)) ∧
      (theWave t c).label (320 + k.val) = newLabel c (320 + k.val) lbl
  | .h k => ∀ i, i < n → ∀ l id el p q, bit c.act l = true → mget? c.w.elems l = some id → mget? s.elems id = some el →
      (∀ l', bit c.act l' = true → mget? c.w.elems l' = some id → l' = l) →
      sectionOf c.ent (k.val + i) = some (p, q) → q ∉ el.released →
      ∃ el', mget? t.elems id = some el' ∧ mgetD el'.vals (k.val + i) 0 = nthD (f l) i 0 ∧
        mgetD el'.vlabels (k.val + i) 0 = lbl ||| c.sp.ctx
  | .c _ => True

/-- What an instruction that writes `n` registers of a destination leaves as it was: every byte of memory, every other piece of the module, every other wave, every other register, predicate and label of its wave, the lanes that are not active, and in the elements everything but those held registers. Reconvergence may move the split. -/
structure RegFrame (s t : State) (c : Ctx) (d : Opr) (n : Nat) : Prop where
  memory : ∀ l, readLoc t l = readLoc s l
  rest : t.rest = s.rest
  soft : ∀ m, m ∈ t.soft → m ∈ s.soft
  others : ∀ j, j ≠ c.w.id → mget? t.waves j = mget? s.waves j
  wave : ∃ w, mget? t.waves c.w.id = some w ∧ w.rest = c.w.rest
  vec : ∀ m l, l < 32 → ¬ (m < 192 ∧ Names d n m ∧ bit c.act l = true) → m < 192 → (theWave t c).vec m l = c.w.vec m l
  scalar : ∀ m, m < 64 → ¬ Names d n (256 + m) → (theWave t c).scalar m = c.w.scalar m
  pred : ∀ p l, p < 8 → ¬ (Names d n (320 + p) ∧ bit c.act l = true) → bit ((theWave t c).pred p) l = bit (c.w.pred p) l
  label : ∀ code, ¬ Names d n code → (theWave t c).label code = c.w.label code
  elems : (∀ k, d ≠ .h k) → t.elems = s.elems
  elem : ∀ id el, mget? s.elems id = some el → ∃ el', mget? t.elems id = some el' ∧
    el'.rest = el.rest ∧
    (∀ m, ¬ Names d n (192 + m) → mgetD el'.vals m 0 = mgetD el.vals m 0 ∧ mgetD el'.vlabels m 0 = mgetD el.vlabels m 0) ∧
    ((∀ l, bit c.act l = true → mget? c.w.elems l ≠ some id) → el' = el)

/-- An instruction word writes `n` registers with a label: where it runs, it completes, its destination holds what `f` lists for each active lane (R176), and nothing else changes. -/
def WritesWith (i : Instr) (d : Opr) (n : Nat) (f : State → Ctx → Nat → List Word) (lbl : State → Ctx → Label) : Prop :=
  ∀ s c, Ready i s c → ∃ t, exec i s = .next t ∧ Wrote s t c d n (f s c) (lbl s c) ∧ RegFrame s t c d n

/-- The same with the label of a result: the sources, the guard and the context (R177). -/
def Writes (i : Instr) (d : Opr) (n : Nat) (f : State → Ctx → Nat → List Word) : Prop :=
  WritesWith i d n f fun s c => resultLabel s c i

/-! ## What an instruction word does when it writes more than registers -/

/-- A state `t` is `u` but for where the executing split stands and what reconvergence joins: every byte of memory, every other piece of the module, every other wave, and the wave's registers, labels, flags, queues and records. -/
structure UpToPosition (u t : State) (c : Ctx) : Prop where
  memory : ∀ l, readLoc t l = readLoc u l
  rest : t.rest = u.rest
  elems : t.elems = u.elems
  soft : ∀ m, m ∈ t.soft → m ∈ u.soft
  others : ∀ j, j ≠ c.w.id → mget? t.waves j = mget? u.waves j
  wave : (theWave t c).data = (theWave u c).data

/-- The executing split stands at a position with the lanes that it has in `u`, unless the position is its reconvergence address (R24). -/
def Stands (u t : State) (c : Ctx) (p : Pos) : Prop :=
  ∀ sp, mget? (theWave u c).splits c.k = some sp → p.idx ≠ 0 ∨ sp.rcv ≠ some p.hdr →
    ((theWave t c).split c.k).pc = p ∧ ((theWave t c).split c.k).mask = sp.mask

/-- An instruction completes with a state that is `u`, its split at a position. -/
def Ends (i : Instr) (s : State) (c : Ctx) (u : State) (p : Pos) : Prop :=
  ∃ t, exec i s = .next t ∧ UpToPosition u t c ∧ Stands u t c p

/-- An instruction completes with a state that is `u`, its split at the next instruction. -/
def Does (i : Instr) (s : State) (c : Ctx) (u : State) : Prop := Ends i s c u (nextPos c.pos c.hdr)

/-- A place that a byte can have: an offset inside a scratchpad (R84), an address inside a package's share of pod memory (R82). -/
def Loc.real (l : Loc) : Prop :=
  match l with
  | .scr _ off => off < 2 ^ 18
  | .pkg _ pa => pa < 2 ^ 46
  | _ => True

/-! ## Accesses to memory at issue (R32, R112, R297) -/

/-- What the issue of a long-latency access leaves: no byte of memory and no register has changed; the wave's pending queue ends with the entry, its long-latency instructions with the operation, and its flag has risen by 1. Only flush markers and the labels of scratchpad granules may change beside them. -/
structure AccessIssued (s t : State) (c : Ctx) (es : List Entry) (o : LongOp) : Prop where
  memory : ∀ l, readLoc t l = readLoc s l
  rest : t.rest = { s.rest with issued := s.issued + 1, markers := t.markers, scrLabels := t.scrLabels }
  elems : t.elems = s.elems
  others : ∀ j, j ≠ c.w.id → mget? t.waves j = mget? s.waves j
  wave : (theWave t c).data = { c.w with
    flags := mput 0 c.w.flags c.flag (mgetD c.w.flags c.flag 0 + 1), long := c.w.long ++ [o], pending := c.w.pending ++ es,
    nextEntry := c.w.nextEntry + 2 * es.length, podSent := (theWave t c).podSent : Wave }.data

/-- The pending entry of an access of the active lanes (R112); in a transaction its scope is the transaction's (R150). -/
def accessEntry (c : Ctx) (m : MemArg) (kind : EntKind) (dst : Option Dst) (lbl al : Label) (accs : List Access) : Entry :=
  { id := c.w.nextEntry, grp := c.sp.mask, k := c.k, pos := c.pos, rate := c.h.rate.num, region := c.mark, kind := kind, order := m.order,
    scope := if c.inTx then txScope c.w.tx.scope else m.scope, hint := m.hint, dst := dst, label := lbl, alabel := al, accs := accs, recs := [],
    tx := if c.inTx then c.w.tx.depth else 0, dead := false }

/-- The operation on the completion flag of an instruction (R32). -/
def longOp (s : State) (c : Ctx) (closes uniform : Bool) (what : LongWhat) : LongOp :=
  { id := s.issued, flag := c.flag, split := c.k, serial := c.sp.serial, closing := closes && !c.inTx, act := c.act,
    uniform := uniform, what := what, dead := false }

/-- An instruction issues an access of every active lane, or of the lowest when it is uniform (R297), where each lane's address is aligned, translates and may be written: `bytes` bytes, the lane's operand bytes and expected bytes, and the label of the address, the data, the guard and the context (R177). -/
def Accesses (i : Instr) (d : Opr) (m : MemArg) (global : Bool) (bytes : Nat) (need : Need) (kind : EntKind) (dst : Option (Nat × Bool))
    (dataLbl : State → Ctx → Label) (data exp : State → Ctx → Nat → List Byte) : Prop :=
  ∀ s c (place : Nat → Loc) (page : Nat → PageAttr), Ready i s c →
    let uni := uniformUse d m
    let lbl := addrLabels s c m global ||| c.ctx ||| dataLbl s c
    let addr := fun l => if global then globalAddr s c m l else scrAddr s c m l
    let wr := need == .write || need == .both
    (∀ l ∈ accessLanes c uni, (if global then globTarget s c (addr l) bytes need lbl else scrTarget s c.w (addr l) bytes wr) = .at (place l) (page l)) →
    (need ≠ .write → ∀ l ∈ accessLanes c uni, softGranule s (place l) = false) →
    let acc := fun l => newAccess l (place l) (addr l) bytes (data s c l) (exp s c l) lbl (page l)
    let entry := accessEntry c m kind (dst.map fun x => ⟨d.code, x.1, x.2, c.act⟩) lbl (addrLabels s c m global) ((accessLanes c uni).map acc)
    ∃ t, exec i s = .next t ∧ AccessIssued s t c [entry] (longOp s c i.closes uni (.access c.w.nextEntry)) ∧
      t.scrLabels = (if wr && !global && !c.inTx then (accessLanes c uni).foldl (fun s l => granuleOr s (place l) lbl) s else s).scrLabels

/-- No line of the module has a shadow, so that each line's bytes are its home copy, and the line of an access holds the key of its page (R95, R145, R146). -/
def PlainHome (s : State) (a : Access) : Prop :=
  (∀ line, (bandOf s line).shadow = none) ∧ ∀ pa, a.loc = .dev pa → (bandOf s (pa / 128)).keyId = a.page.keyId

/-- A write of a wave reaches its slice as the order of one clock's writers allows: none of its clock with a higher key has been applied to its bytes, and none with a lower key stands in the slice's queue (R117). -/
def InTurn (s : State) (wave entry lane : Nat) (w : Wave) (e : Entry) (a : Access) : Prop :=
  passed s w e a = false ∧ tieWaits s (sliceQueue s a.loc) ⟨wave, entry, lane, s.clock⟩ = false

/-! ## Copies (R313, R314) -/

/-- A copy entered in an entry of its core's copy engine. -/
def newCopy (s : State) (c : Ctx) (e : Nat) (plan : CopyPlan) (planned : Bool) (units : List CopyUnit) (chunks : Nat) (lbl al : Label) : Copy :=
  { id := s.nextCopy, wave := c.w.id, part := c.w.part, launch := c.w.launch, core := c.core, centry := e, seq := mgetD s.copySeq c.core 0,
    plan := plan, planned := planned, units := units, chunks := chunks, bits := 0, after := c.w.fenced, label := lbl, alabel := al, ctx := c.ctx,
    plat := [], platLabel := 0, faults := [], refusal := 0, sigDone := false, done := false }

/-- A state with a copy started: it stands in the copy path and among the wave's open copies, and the completion of the instruction will write its handle with the label ctx (R32, R314). -/
def copyStarted (s : State) (c : Ctx) (d : Opr) (cp : Copy) : State :=
  putWave { s with
    copies := mset s.copies cp.id cp
    nextCopy := s.nextCopy + 1
    copySeq := mset s.copySeq c.core ((cp.seq + 1) % 2 ^ 22)
    issued := s.issued + 1 }
    { c.w with
      opened := c.w.opened ++ [cp.id]
      flags := mput 0 c.w.flags c.flag (mgetD c.w.flags c.flag 0 + 1)
      long := c.w.long ++ [longOp s c true true (.regs [⟨d.code, 0, cp.handle, c.ctx⟩])] }

/-- The lowest entry of a core's copy engine that no copy in flight holds. -/
def FreeEntry (s : State) (core e : Nat) : Prop :=
  (inFlight s core).length < 1024 ∧ e < 1024 ∧ e ∉ inFlight s core ∧ ∀ j, j < e → j ∈ inFlight s core

/-! ## Taking an exception (R373, R378, R379) -/

/-- A wave has taken an exception: its record stands last among the records that wait to be written; the wave is stopped with the record's code, each of its splits parked unless it sleeps or stands at a join; every byte of memory, the wave's registers and labels, every other wave and every element are as they were. A transaction that the stop rolls back may give up the serial token and its locks. -/
structure Stopped (s t : State) (w : Wave) (k : Nat) (r : Record) : Prop where
  memory : ∀ l, readLoc t l = readLoc s l
  record : ∀ p, mget? s.parts w.part = some p → mget? t.parts w.part = some { p with records := p.records ++ [r] }
  parts : ∀ n, n ≠ w.part → mget? t.parts n = mget? s.parts n
  rest : t.rest = { s.rest with parts := t.parts, regs := t.regs, token := t.token, tokenQ := t.tokenQ, txLocks := t.txLocks }
  elems : t.elems = s.elems
  others : ∀ j, j ≠ w.id → mget? t.waves j = mget? s.waves j
  wave : ∃ x, mget? t.waves w.id = some x ∧ x.stop = some ⟨r.code, k, keepsPc r.code, false, [], none⟩ ∧
    (x.vregs = w.vregs ∧ x.sregs = w.sregs ∧ x.preds = w.preds ∧ x.labels = w.labels) ∧
    (x.lanes = w.lanes ∧ x.exited = w.exited ∧ x.flags = w.flags ∧ x.place = w.place) ∧
    ∀ j sp, mget? x.splits j = some sp → sp.state = .parked ∨ sp.state = .sleeping ∨ sp.state = .atJoin

/-- What a record of a stop says (R373, R379): WAITING for a translation miss; otherwise TRAPPED when the launch has a trap entry and the wave is no trap wave, and TERM when not. -/
def RecordOf (s : State) (w : Wave) (k : Nat) (pc : Pos) (rate : Nat) (f : FaultArgs) (r : Record) : Prop :=
  r.code = f.code ∧ r.info = BitVec.ofNat 32 f.info ∧ r.addr = BitVec.ofNat 64 f.addr ∧ r.mask = f.mask ∧ r.smask = (w.split k).mask ∧
  r.pc = pc.word ∧ r.rate = rate ∧ r.launch = w.launch ∧ r.wave = some w.id ∧ r.split = k ∧ r.pquad = w.quad ∧ r.lquad = w.lquad ∧
  r.lblock = w.lblock ∧ r.addrLabel = f.addrLabel ∧ r.labels = (w.split k).ctx ||| f.labels ∧
  (r.waiting = true ↔ f.code = 5) ∧
  ∀ l, mget? s.launches w.launch = some l →
    (r.trapped = true ↔ f.code ≠ 5 ∧ l.trapEntry ≠ 0xFF ∧ w.role ≠ .trap) ∧
    (r.term = true ↔ f.code ≠ 5 ∧ (l.trapEntry = 0xFF ∨ w.role = .trap))

end Sys2Proof.Machine
end

