-- ==== Sys2Proof/WellFormed.lean ====
section
/-! DEFINITION. Well-formed instruction words: the checks that depend on a word alone, and no field that the encoding does not carry (R227 to R230, R250, R254). -/
namespace Sys2Proof

/-- Fields that a constructor carries and its word does not: the combine of an ICMP with an immediate, the 8-bit types of ICMP (R268 gives ICMP none), RND and SAT of ARD `.b32`. -/
def Instr.carried : Instr → Bool
  | .icmp _ t _ cb _ _ b p => t != .i8 && t != .n8 && (match b with | .reg _ => true | .imm _ => cb == .none && p == .v 0)
  | .ard _ bf _ _ r s _ => bf || (r == .rne && !s)
  | _ => true

/-- An instruction word whose operands lie in their classes, whose unread fields are 0, and whose guard, m bits, orders, scopes and hints its entry allows. Checks that need a footprint, a rate or the state are the machine's (R391). -/
def WellFormed (i : Instr) : Bool :=
  match i.parts with
  | some (op, h, n) => i.carried && (fieldErrs none op i h n).isEmpty
  | none => false

end Sys2Proof
end

