-- ==== Sys2Proof/Certificates/Slice0/Obligations.lean ====
section
/-! DEFINITION. The statements of this slice: what each instruction does, where it completes and what it leaves as it was, the exception entry and return, reset, decoding, and the invariants of a step. -/
open Sys2Proof Sys2Proof.Machine

/-- R264: every integer form writes fit(x) of its exact integer x, in every active lane, and changes nothing else. -/
def Obligations.IntegerArithmetic : Prop :=
  (∀ h w sat d a b, Writes (.iadd h w sat d a b) d w.regs fun s c l =>
    let rd := readInt (sat == .ss) (wbits w)
    intWords w.regs (fitInt sat (wbits w) (rd (srcW s c w a l) + rd (srcB s c w b l)))) ∧
  (∀ h w sat d a b, Writes (.isub h w sat d a b) d w.regs fun s c l =>
    let rd := readInt (sat == .ss) (wbits w)
    intWords w.regs (fitInt sat (wbits w) (rd (srcW s c w a l) - rd (srcW s c w b l)))) ∧
  (∀ h sg d a b, Writes (.iaddw h sg d a b) d 2 fun s c l =>
    intWords 2 (readInt sg 32 (src s c a l) + readInt sg 32 (src s c b l))) ∧
  (∀ h w d a b, Writes (.imul h w d a b) d w.regs fun s c l =>
    toWords w.regs (srcW s c w a l * srcB s c w b l)) ∧
  (∀ h sg d a b, Writes (.imulhi h sg d a b) d 1 fun s c l =>
    intWords 1 ((readInt sg 32 (src s c a l) * readInt sg 32 (src s c b l)) / 2 ^ 32)) ∧
  (∀ h v d a b c, Writes (.imad h v d a b c) d v.regs fun s x l =>
    let w : Width := if v = .b64 then .w64 else .w32
    let rd := fun o => readInt (v == .i32ss) (wbits w) (srcW s x w o l)
    intWords v.regs (fitInt (match v with | .i32ss => .ss | .n32us => .us | _ => .wrap) (wbits w) (rd a * rd b + rd c))) ∧
  (∀ h sg d a b c, Writes (.imadw h sg d a b c) d 2 fun s x l =>
    intWords 2 (readInt sg 32 (src s x a l) * readInt sg 32 (src s x b l) + readInt sg 64 (src64 s x c l))) ∧
  (∀ h w sg d a b, Writes (.idiv h w sg d a b) d w.regs fun s c l =>
    let va := readInt sg (wbits w) (srcW s c w a l)
    let vb := readInt sg (wbits w) (srcW s c w b l)
    intWords w.regs (if vb = 0 then 2 ^ wbits w - 1 else va.tdiv vb)) ∧
  (∀ h w sg d a b, Writes (.irem h w sg d a b) d w.regs fun s c l =>
    let va := readInt sg (wbits w) (srcW s c w a l)
    let vb := readInt sg (wbits w) (srcW s c w b l)
    intWords w.regs (if vb = 0 then va else va - vb * va.tdiv vb)) ∧
  (∀ h w sg d a b, Writes (.imin h w sg d a b) d w.regs fun s c l =>
    intWords w.regs (min (readInt sg (wbits w) (srcW s c w a l)) (readInt sg (wbits w) (srcW s c w b l)))) ∧
  (∀ h w sg d a b, Writes (.imax h w sg d a b) d w.regs fun s c l =>
    intWords w.regs (max (readInt sg (wbits w) (srcW s c w a l)) (readInt sg (wbits w) (srcW s c w b l)))) ∧
  (∀ h w ss d a, Writes (.iabs h w ss d a) d w.regs fun s c l =>
    let m := (sextN (wbits w) (srcW s c w a l)).natAbs
    toWords w.regs (if ss && m == 2 ^ (wbits w - 1) then 2 ^ (wbits w - 1) - 1 else m))

/-- R266: every bit and logic form writes its result in every active lane, and changes nothing else. -/
def Obligations.BitAndLogic : Prop :=
  (∀ h w d a b, Writes (.and h w d a b) d w.regs fun s c l => toWords w.regs (srcW s c w a l &&& srcB s c w b l)) ∧
  (∀ h w d a b, Writes (.or h w d a b) d w.regs fun s c l => toWords w.regs (srcW s c w a l ||| srcB s c w b l)) ∧
  (∀ h w d a b, Writes (.xor h w d a b) d w.regs fun s c l => toWords w.regs (srcW s c w a l ^^^ srcB s c w b l)) ∧
  (∀ h w g1 g0 d a b c, Writes (.bcond h w g1 g0 d a b c) d w.regs fun s x l =>
    toWords w.regs (ofBits (wbits w) fun i =>
      Fn2.eval (if (srcW s x w c l).testBit i then g1 else g0) ((srcW s x w a l).testBit i) ((srcW s x w b l).testBit i))) ∧
  (∀ h w d a b, Writes (.shl h w d a b) d w.regs fun s c l =>
    let k := shiftCount s c b l
    toWords w.regs (if wbits w ≤ k then 0 else srcW s c w a l * 2 ^ k)) ∧
  (∀ h w d a b, Writes (.shr h w d a b) d w.regs fun s c l =>
    let k := shiftCount s c b l
    toWords w.regs (if wbits w ≤ k then 0 else srcW s c w a l / 2 ^ k)) ∧
  (∀ h w d a b, Writes (.sar h w d a b) d w.regs fun s c l =>
    let k := shiftCount s c b l
    let v := sextN (wbits w) (srcW s c w a l)
    intWords w.regs (if wbits w ≤ k then (if v < 0 then -1 else 0) else v / 2 ^ k)) ∧
  (∀ h w d a b, Writes (.rotl h w d a b) d w.regs fun s c l =>
    let k := shiftCount s c b l % wbits w
    toWords w.regs (srcW s c w a l * 2 ^ k + srcW s c w a l / 2 ^ (wbits w - k))) ∧
  (∀ h w sg d a b c, Writes (.bfe h w sg d a b c) d w.regs fun s x l =>
    let pos := src s x b l % 256
    let len := min (src s x c l % 256) (wbits w - pos)
    if src s x c l % 256 = 0 ∨ wbits w ≤ pos then toWords w.regs 0
    else intWords w.regs (readInt sg len (srcW s x w a l / 2 ^ pos % 2 ^ len))) ∧
  (∀ h w d a b c, Writes (.bfi h w d a b c) d w.regs fun s x l =>
    let pos := src s x c l % 256
    let len := min (src s x c l / 256 % 256) (wbits w - pos)
    if src s x c l / 256 % 256 = 0 ∨ wbits w ≤ pos then toWords w.regs (srcW s x w a l)
    else toWords w.regs (ofBits (wbits w) fun i =>
      if pos ≤ i ∧ i < pos + len then (srcW s x w b l).testBit (i - pos) else (srcW s x w a l).testBit i)) ∧
  (∀ h w d a, Writes (.popc h w d a) d 1 fun s c l =>
    toWords 1 ((List.range (wbits w)).filter fun i => (srcW s c w a l).testBit i).length) ∧
  (∀ h w d a, Writes (.clz h w d a) d 1 fun s c l =>
    toWords 1 (if srcW s c w a l = 0 then wbits w else wbits w - 1 - (srcW s c w a l).log2)) ∧
  (∀ h w d a, Writes (.brev h w d a) d w.regs fun s c l =>
    toWords w.regs (ofBits (wbits w) fun i => (srcW s c w a l).testBit (wbits w - 1 - i)))

/-- R268 to R270: compares, selects, moves and immediates. -/
def Obligations.CompareSelectMove : Prop :=
  (∀ h t cmp comb d a b pc, Writes (.icmp h t cmp comb d a b pc) d 1 fun s c l =>
    let w : Width := if t.regs = 2 then .w64 else .w32
    [if Comb.apply comb (Cmp.test cmp (itypeValue t (srcW s c w a l)) (itypeValue t (srcB s c w b l))) (srcP c pc l) then 0xFFFFFFFF else 0]) ∧
  (∀ h w d a b pc, Writes (.sel h w d a b pc) d w.regs fun s c l =>
    toWords w.regs (if srcP c pc l then srcW s c w a l else srcW s c w b l)) ∧
  (∀ h w d a, Writes (.mov h w d a) d w.regs fun s c l => toWords w.regs (srcW s c w a l)) ∧
  (∀ h d imm, Writes (.movi h false d imm) d 1 fun _ _ _ => [imm]) ∧
  (∀ h d imm, Writes (.movi h true d imm) d 2 fun _ _ _ => intWords 2 imm.toInt) ∧
  (∀ h d imm, Writes (.movhi h d imm) d 2 fun _ _ _ => intWords 2 (imm.toInt * 4096)) ∧
  (∀ h d imm, Writes (.addpc h d imm) d 2 fun s _ _ => intWords 2 (s.cur.hdrAddr.toNat + imm.toInt * 4096))

/-- R279, R284 to R286, R289: floating arithmetic rounds the exact result once, half by half for a packed pair; minima, maxima and dot products. -/
def Obligations.FloatArithmetic : Prop :=
  (∀ h t rm sat d a b r, Writes (.fadd h t rm sat d a b r) d 1 fun s c l => perHalf t fun hi =>
    let v := fun o => (FTy.fmt t).value (part t hi (srcF s c t o l))
    (FTy.fmt t).result rm sat (rndByte hi (src s c r l)) ((v a).add rm (v b))) ∧
  (∀ h t rm sat d a b r, Writes (.fmul h t rm sat d a b r) d 1 fun s c l => perHalf t fun hi =>
    let v := fun o => (FTy.fmt t).value (part t hi (srcF s c t o l))
    (FTy.fmt t).result rm sat (rndByte hi (src s c r l)) ((v a).mul (v b))) ∧
  (∀ h t rm sat d a b x, Writes (.ffma h t rm sat d a b x) d 1 fun s c l => perHalf t fun hi =>
    let v := fun o => (FTy.fmt t).value (part t hi (srcF s c t o l))
    (FTy.fmt t).result rm sat 0 (((v a).mul (v b)).add rm (v x))) ∧
  (∀ h t rm sat d a b r, Writes (.fscale h t rm sat d a b r) d 1 fun s c l => perHalf t fun hi =>
    let k := if FTy.pair t then sextN 16 (half hi (srcF s c t b l)) else sextN 32 (src s c b l)
    (FTy.fmt t).result rm sat (rndByte hi (src s c r l)) (((FTy.fmt t).value (part t hi (srcF s c t a l))).scale k)) ∧
  (∀ h t d a b, Writes (.fmin h t d a b) d 1 fun s c l => perHalf t fun hi =>
    let v := fun o => (FTy.fmt t).value (part t hi (srcF s c t o l))
    (FTy.fmt t).result .rne false 0 (Num.pick false (v a) (v b))) ∧
  (∀ h t d a b, Writes (.fmax h t d a b) d 1 fun s c l => perHalf t fun hi =>
    let v := fun o => (FTy.fmt t).value (part t hi (srcF s c t o l))
    (FTy.fmt t).result .rne false 0 (Num.pick true (v a) (v b))) ∧
  (∀ h bf sat d a b x, Writes (.fdot2 h bf sat d a b x) d 1 fun s c l =>
    let f := if bf then bf16 else f16
    let v := fun o hi => f.value (half hi (srcPair s c f o l))
    toWords 1 (groupSum sat [(v a false).mul (v b false), (v a true).mul (v b true), f32.value (src s c x l)])) ∧
  (∀ h e5 sat d a b x, Writes (.fdot4 h e5 sat d a b x) d 1 fun s c l =>
    let v := fun o i => (if e5 then e5m2 else e4m3).value (src s c o l / 256 ^ i % 256)
    toWords 1 (groupSum sat [(v a 0).mul (v b 0), (v a 1).mul (v b 1), (v a 2).mul (v b 2), (v a 3).mul (v b 3), f32.value (src s c x l)]))

/-- R286 to R288: floating compares, classes, rounding to an integral value, and the fraction. -/
def Obligations.FloatCompare : Prop :=
  (∀ h cmp comb sel d a b pc, Writes (.fcmp h .f32 cmp comb sel d a b pc) d 1 fun s c l =>
    [if Comb.apply comb (FCmpOp.test cmp (f32.value (src s c a l)) (f32.value (src s c b l))) (srcP c pc l) then 0xFFFFFFFF else 0]) ∧
  (∀ h t cmp comb sel p a b pc, FTy.pair t = true → Writes (.fcmp h t cmp comb sel (.p p) a b pc) (.p p) 1 fun s c l =>
    let test := fun hi => FCmpOp.test cmp ((FTy.fmt t).value (half hi (srcF s c t a l))) ((FTy.fmt t).value (half hi (srcF s c t b l)))
    let r := match sel with | .lo => test false | .hi => test true | .both => test false && test true
    [if Comb.apply comb r (srcP c pc l) then 1 else 0]) ∧
  (∀ h t cmp comb sel d a b pc, FTy.pair t = true → (∀ p, d ≠ .p p) → Writes (.fcmp h t cmp comb sel d a b pc) d 1 fun s c l =>
    let test := fun hi => FCmpOp.test cmp ((FTy.fmt t).value (half hi (srcF s c t a l))) ((FTy.fmt t).value (half hi (srcF s c t b l)))
    let out := fun hi => Comb.apply comb (test hi) (srcP c pc l)
    toWords 1 ((if out false then 0xFFFF else 0) + (if out true then 0xFFFF0000 else 0))) ∧
  (∀ h t test hi p a, Writes (.fclass h t test hi (.p p) a) (.p p) 1 fun s c l =>
    [if test.toNat.testBit ((FTy.fmt t).classBit (part t hi (srcF s c t a l))) then 1 else 0]) ∧
  (∀ h t test hi d a, (∀ p, d ≠ .p p) → Writes (.fclass h t test hi d a) d 1 fun s c l =>
    perHalf t fun hi => 2 ^ (FTy.fmt t).classBit (part t hi (srcF s c t a l))) ∧
  (∀ h t rm d a, Writes (.frnd h t rm d a) d 1 fun s c l =>
    perHalf t fun hi => (FTy.fmt t).integral rm ((FTy.fmt t).value (part t hi (srcF s c t a l)))) ∧
  (∀ h d a, Writes (.ffrac h d a) d 1 fun s c l => toWords 1 (fracBits (f32.value (src s c a l))))

/-- R290: the special functions. Which of the neighbouring values the model's own series gives is its choice (assumption log 6); the completion, the label and the frame are the rules'. -/
def Obligations.SpecialFunctions : Prop :=
  (∀ h rm d a, Writes (.frcp h rm d a) d 1 fun s c l => toWords 1 (rcpBits rm (f32.value (src s c a l)))) ∧
  (∀ h rm d a, Writes (.frsq h rm d a) d 1 fun s c l => toWords 1 (rsqBits rm (f32.value (src s c a l)))) ∧
  (∀ h rm d a, Writes (.fsqrt h rm d a) d 1 fun s c l => toWords 1 (sqrtBits rm (f32.value (src s c a l)))) ∧
  (∀ h rm d a, Writes (.fexp2 h rm d a) d 1 fun s c l => toWords 1 (exp2Bits rm (f32.value (src s c a l)))) ∧
  (∀ h rm d a, Writes (.flog2 h rm d a) d 1 fun s c l => toWords 1 (log2Bits rm (f32.value (src s c a l)))) ∧
  (∀ h rm d a, Writes (.fsinpi h rm d a) d 1 fun s c l => toWords 1 (sinpiBits rm (f32.value (src s c a l)))) ∧
  (∀ h rm d a, Writes (.fcospi h rm d a) d 1 fun s c l => toWords 1 (cospiBits rm (f32.value (src s c a l))))

/-- R291 to R295: conversions round once to their target; the byte forms of PACK keep the other half of d and read its label. -/
def Obligations.Conversions : Prop :=
  (∀ h t rm d a, Writes (.f2i h t rm d a) d t.regs fun s c l =>
    intWords t.regs (Num.toInt rm (itypeRange t).1 (itypeRange t).2 (f32.value (src s c a l)))) ∧
  (∀ h t rm d a b, Writes (.i2f h t rm d a b) d 1 fun s c l =>
    toWords 1 (f32.result rm false (src s c b l % 256) (Num.ofInt (itypeValue t (srcW s c (if t.regs = 2 then .w64 else .w32) a l))))) ∧
  (∀ h v rm sat d a b, Writes (.fcvt h v rm sat d a b) d 1 fun s c l =>
    toWords 1 ((cvtTo v).convert rm sat (src s c b l % 256) (cvtFrom v (src s c a l)))) ∧
  (∀ h v rm sat hi d a b r, PackV.bits v = 16 → Writes (.pack h v rm sat hi d a b r) d 1 fun s c l =>
    let cv := fun o k => (PackV.fmt v).convert rm sat (rndByte k (src s c r l)) (f32.value (src s c o l))
    toWords 1 (cv a false + 65536 * cv b true)) ∧
  (∀ h v rm sat hi d a b r, PackV.bits v = 8 → WritesWith (.pack h v rm sat hi d a b r) d 1 (fun s c l =>
    let cv := fun o k => (PackV.fmt v).convert rm sat (rndByte k (src s c r l)) (f32.value (src s c o l))
    let new := cv a false + 256 * cv b true
    let old := src s c d l
    toWords 1 (if hi then old % 65536 + 65536 * new else old / 65536 * 65536 + new))
    fun s c => resultLabel s c (.pack h v rm sat hi d a b r) ||| labelOf s c d 1) ∧
  (∀ h v k d a, Writes (.unpack h v k d a) d 1 fun s c l =>
    toWords 1 (f32.convert .rne false 0 ((PackV.fmt v).value ((if PackV.bits v = 16 then srcPair s c (PackV.fmt v) a l else src s c a l) / 2 ^ (PackV.bits v * k.val) % 2 ^ PackV.bits v)))) ∧
  (∀ h n rm sat d a b r, Writes (.gqdec h false n rm sat d a b r) d 1 fun s c l =>
    let q := src s c b l
    toWords 1 (f32.convert rm sat (q / 256 % 256) (gq4Value (src s c a l / 16 ^ n.val % 16) (q % 256) (f32.value (src s c r l))))) ∧
  (∀ h n rm sat d a b r, Writes (.gqdec h true n rm sat d a b r) d 1 fun s c l =>
    let q := src s c b l
    let el := fun k => gq4Value (src s c a l / 16 ^ k % 16) (q % 256) (f32.value (src s c r l))
    toWords 1 (f16.convert rm sat (q / 256 % 256) (el (2 * n.val)) + 65536 * f16.convert rm sat (q / 65536 % 256) (el (2 * n.val + 1))))

/-- R272 to R275: a lane reads another lane's register as it stands, active or not, with the label of what it reads; votes and ranks count the active lanes. At 64 bits LKIN writes a pair, and LREAD takes its lane number from a pair (R250). -/
def Obligations.LaneForms : Prop :=
  (∀ h v g d a b,
    let from' := fun (s : State) (c : Ctx) (l : Nat) =>
      let n := 32 / 2 ^ g.val
      let base := l - l % n
      let k := src s c b l
      match v with
      | .lane => base + k % n
      | .back => base + (((l : Int) - base - k) % n).toNat
      | .fwd => base + (l - base + k) % n
      | .xmask => base + ((l - base) ^^^ (k % n))
    WritesWith (.lperm h v g d a b) d 1 (fun s c l => [readReg s c a 0 (from' s c l)]) fun s c =>
      lanesLabel s c a 1 ((lanesOf c.act).map (from' s c)) ||| labelOf s c b 1 ||| c.ctx) ∧
  (∀ h t p a, Writes (.pgathCnt h t (.p p) a) (.p p) 1 fun _ c _ =>
    let n := ((lanesOf c.act).filter fun j => srcP c a j).length
    let total := (lanesOf c.act).length
    [if (match t with | .some => decide (n ≠ 0) | .every => decide (n = total) | .none => decide (n = 0) | .notevery => decide (n < total)) then 1 else 0]) ∧
  (∀ h t d a, (∀ p, d ≠ .p p) → Writes (.pgathCnt h t d a) d 1 fun _ c _ =>
    toWords 1 ((lanesOf c.act).filter fun j => srcP c a j).length) ∧
  (∀ h d a, Writes (.pgathRank h d a) d 1 fun _ c l =>
    toWords 1 ((lanesOf c.act).filter fun j => srcP c a j && decide (j < l)).length) ∧
  (∀ h d a, Writes (.pgathMask h d a) d 1 fun _ c _ => [maskOf fun j => bit c.act j && srcP c a j]) ∧
  (∀ h p, Writes (.lfirst h (.p p)) (.p p) 1 fun _ c l => [if l = lowest c.act then 1 else 0]) ∧
  (∀ h d, (∀ p, d ≠ .p p) → Writes (.lfirst h d) d 1 fun _ c _ => toWords 1 (lowest c.act)) ∧
  (∀ h w d a, Writes (.lkin h w d a) d w.regs fun s c l =>
    let kin := (lanesOf c.act).filter fun j => srcW s c w a j = srcW s c w a l
    toWords w.regs (kin.headD 0 + 256 * kin.length)) ∧
  (∀ h w d a b, WritesWith (.lread h w d a b) d w.regs (fun s c _ => toWords w.regs (srcW s c w a (srcW s c w b c.low % 32))) fun s c =>
    lanesLabel s c a w.regs [srcW s c w b c.low % 32] ||| labelOf s c b w.regs ||| c.ctx)

/-- R267, R271, R276 to R278: reductions and scans over the active lanes, and the predicate forms. PMOV `.get` carries the labels of p0 to p7, and PMOV `.set` writes the predicates that its mask names. -/
def Obligations.ReductionsAndPredicates : Prop :=
  (∀ h v d a, Writes (.srd h v d a) d (if v = .addB64 then 2 else 1) fun s c _ =>
    toWords (if v = .addB64 then 2 else 1) (reduceList (SrdV.apply v) ((lanesOf c.act).map fun j => srcW s c (if v = .addB64 then .w64 else .w32) a j))) ∧
  (∀ h v d a, Writes (.dred h v d a) d 1 fun s c _ =>
    toWords 1 (dredTree (DredV.apply v) ((List.range 32).map fun j => if bit c.act j then src s c a j else DredV.identity v))) ∧
  (∀ h v d a, ScanV.exclusive v = false → Writes (.scan h v d a) d 1 fun s c l =>
    toWords 1 (reduceList (ScanV.apply v) (((lanesOf c.act).filter fun j => decide (j ≤ l)).map fun j => src s c a j))) ∧
  (∀ h v d a, ScanV.exclusive v = true → Writes (.scan h v d a) d 1 fun s c l =>
    toWords 1 (reduceList (ScanV.apply v) (((lanesOf c.act).filter fun j => decide (j < l)).map fun j => src s c a j))) ∧
  (∀ h g1 g0 d a b p, Writes (.pcond h g1 g0 d a b p) d 1 fun _ c l =>
    [if Fn2.eval (if srcP c p l then g1 else g0) (srcP c a l) (srcP c b l) then 0xFFFFFFFF else 0]) ∧
  (∀ h d, WritesWith (.pmovGet h d) d 1
    (fun _ c l => toWords 1 (ofBits 8 fun k => bit (c.w.pred k) l)) fun _ c => predLabels c.w ||| c.ctx) ∧
  (∀ h mask a s c, Ready (.pmovSet h mask a) s c → ∃ t, exec (.pmovSet h mask a) s = .next t ∧
    (∀ k : Fin 8, k ≠ 0 → mask.toNat.testBit k.val = true →
      (∀ l, bit c.act l = true → bit ((theWave t c).pred k.val) l = (readReg s c a 0 l).toNat.testBit k.val) ∧
      (theWave t c).label (320 + k.val) = newLabel c (320 + k.val) (resultLabel s c (.pmovSet h mask a))) ∧
    (∀ k l, k < 8 → (k = 0 ∨ mask.toNat.testBit k = false ∨ bit c.act l = false) → bit ((theWave t c).pred k) l = bit (c.w.pred k) l) ∧
    (∀ code, (∀ k, 0 < k → k < 8 → mask.toNat.testBit k = true → code ≠ 320 + k) → (theWave t c).label code = c.w.label code) ∧
    (∀ l, readLoc t l = readLoc s l) ∧ t.rest = s.rest ∧ t.elems = s.elems ∧
    (∀ j, j ≠ c.w.id → mget? t.waves j = mget? s.waves j) ∧
    ((theWave t c).rest = c.w.rest ∧ (theWave t c).vregs = c.w.vregs ∧ (theWave t c).sregs = c.w.sregs))

/-- R255, R256, R259: NOP and REGION change nothing but where the split stands and its region entry; BRA moves the split to H + 8 × tgt20; CALL writes the return address into a pair of every lane of the split, with the label ctx, and moves it. REGION sets the entry only where a lane is active (R251). -/
def Obligations.PositionWords : Prop :=
  (∀ h s c, Runs (.nop h) s c → Does (.nop h) s c s) ∧
  (∀ h s c, Runs (.region h) s c → Does (.region h) s c s) ∧
  (∀ h s c, Runs (.region h) s c → c.act ≠ 0 → c.inTx = false → (nextPos c.pos c.hdr).idx ≠ 0 →
    ∃ t, exec (.region h) s = .next t ∧ ((theWave t c).split c.k).region = nextPos c.pos c.hdr) ∧
  (∀ h tgt s c, Runs (.bra h tgt) s c → Ends (.bra h tgt) s c s ⟨c.pos.hdr + tgt.signExtend 64 * 8, 0⟩) ∧
  (∀ h tgt link s c (k : Fin 192), Runs (.call h tgt link) s c → k.val = 2 * link.toNat →
    ∃ t, exec (.call h tgt link) s = .next t ∧
      Wrote s t c (.v k) 2 (fun _ => toWords 2 (nextHeader c.pos.hdr c.hdr).toNat) c.ctx ∧ RegFrame s t c (.v k) 2 ∧
      Stands s t c ⟨c.pos.hdr + tgt.signExtend 64 * 8, 0⟩)

/-- R22, R49, R149, R178, R257: a BRC with one value in every lane moves the whole split, to its target or to the next clause header; one whose lanes differ leaves the taken lanes at the target, and the others at the next clause header in the lowest free split with a join record, or, inside a transaction (R149) or without a free split or record, pending in a serialisation entry. The record and the entry are the lowest free ones of their tables, which is the model's choice (assumption log 49). The label of the condition joins the context label of every split that results. At a rate that has held bits it writes them. Nothing else changes. -/
def Obligations.ConditionalBranch : Prop :=
  ∀ h tgt rcv hb s c, Runs (.brc h tgt rcv hb) s c →
    let target := c.pos.hdr + tgt.signExtend 64 * 8
    let rc := c.pos.hdr + rcv.signExtend 64 * 8
    let fall := nextHeader c.pos.hdr c.hdr
    let taken := if c.w.rate = h.rate then guardMask c else (replayed s c hb.toNat).1
    let lbl := if c.w.rate = h.rate then c.w.label (320 + h.guard.val) else (replayed s c hb.toNat).2
    let u := if c.w.rate = h.rate ∧ h.rate ≠ .fine ∧ h.rate ≠ .ray then
      (lanesOf c.sp.mask).foldl (fun s l => writeBranchBit s c hb.toNat l (bit taken l) lbl) s else s
    (taken = 0 ∨ taken = c.sp.mask → ∀ dest, dest = (if taken = 0 then fall else target) → dest ≠ rc → c.sp.rcv ≠ some dest →
      ((mfree c.w.sers 16).isSome ∨ subset lbl c.sp.ctx = true) →
      ∃ t, exec (.brc h tgt rcv hb) s = .next t ∧ UpToPosition u t c ∧ ((theWave t c).split c.k).pc = ⟨dest, 0⟩ ∧
        ((theWave t c).split c.k).mask = c.sp.mask ∧ ((theWave t c).split c.k).ctx = c.sp.ctx ||| lbl) ∧
    (taken ≠ 0 → taken ≠ c.sp.mask → c.inTx = false → target ≠ rc → fall ≠ rc →
      ∀ j r, freeSplit (putWave s c.w) c.w = some j → mfree c.w.joins 3 = some r →
      ∃ t, exec (.brc h tgt rcv hb) s = .next t ∧ UpToPosition u t c ∧
        (let a := (theWave t c).split c.k
         a.pc = ⟨target, 0⟩ ∧ a.mask = taken ∧ a.rcv = some rc ∧ a.nest = .join r ∧ a.ctx = c.sp.ctx ||| lbl ∧ a.region = ⟨target, 0⟩) ∧
        (let b := (theWave t c).split j
         b.pc = ⟨fall, 0⟩ ∧ b.mask = c.sp.mask &&& ~~~taken ∧ b.rcv = some rc ∧ b.nest = .join r ∧ b.ctx = c.sp.ctx ||| lbl ∧ b.region = ⟨fall, 0⟩) ∧
        mget? (theWave t c).joins r = some ⟨c.sp.mask, rc, c.sp.rcv, c.sp.nest, c.sp.ctx⟩) ∧
    (taken ≠ 0 → taken ≠ c.sp.mask → target ≠ rc → (c.inTx = true ∨ freeSplit (putWave s c.w) c.w = none) →
      ∀ i, mfree c.w.sers 16 = some i →
      ∃ t, exec (.brc h tgt rcv hb) s = .next t ∧ UpToPosition u t c ∧
        (let a := (theWave t c).split c.k
         a.pc = ⟨target, 0⟩ ∧ a.mask = taken ∧ a.rcv = some rc ∧ a.nest = .ser i ∧ a.ctx = c.sp.ctx ||| lbl) ∧
        mget? (theWave t c).sers i = some ⟨c.sp.mask, some rc, c.sp.rcv, c.sp.nest, c.sp.ctx, c.sp.mask &&& ~~~taken, fall, c.sp.mask⟩)

/-- R258 to R260: an indirect branch whose active lanes are the whole split and hold one address that R398 allows moves the split there; with no lane active it moves on to the next clause header. CALLX also writes the return address into its pair. A BRX whose guard leaves some lanes out first diverges, the active ones staying at the branch. -/
def Obligations.IndirectBranch : Prop :=
  (∀ h a b s c, prelude (.brx h a b) s = .ok c → c.act = 0 → Ends (.brx h a b) s c s ⟨nextHeader c.pos.hdr c.hdr, 0⟩) ∧
  (∀ h d a s c, prelude (.callx h d a) s = .ok c → c.act = 0 → Ends (.callx h d a) s c s ⟨nextHeader c.pos.hdr c.hdr, 0⟩) ∧
  (∀ h a s c, prelude (.ret h a) s = .ok c → c.act = 0 → Ends (.ret h a) s c s ⟨nextHeader c.pos.hdr c.hdr, 0⟩) ∧
  (∀ h a b s c n, Ready (.brx h a b) s c → c.act = c.sp.mask → (∀ l, bit c.act l = true → src64 s c a l = n) →
    goodTarget s c n true = true → Ends (.brx h a b) s c s ⟨BitVec.ofNat 64 n, 0⟩) ∧
  (∀ h a s c n, Ready (.ret h a) s c → c.act = c.sp.mask → (∀ l, bit c.act l = true → src64 s c a l = n) →
    goodTarget s c n false = true → Ends (.ret h a) s c s ⟨BitVec.ofNat 64 n, 0⟩) ∧
  (∀ h (k : Fin 192) a s c n, Ready (.callx h (.v k) a) s c → c.act = c.sp.mask → (∀ l, bit c.act l = true → src64 s c a l = n) →
    goodTarget s c n true = true → ∃ t, exec (.callx h (.v k) a) s = .next t ∧
      Wrote s t c (.v k) 2 (fun _ => toWords 2 (nextHeader c.pos.hdr c.hdr).toNat) c.ctx ∧ RegFrame s t c (.v k) 2 ∧
      Stands s t c ⟨BitVec.ofNat 64 n, 0⟩) ∧
  (∀ h a b s c j r, Ready (.brx h a b) s c → c.act ≠ c.sp.mask → c.inTx = false → freeSplit (putWave s c.w) c.w = some j → mfree c.w.joins 3 = some r →
    src64 s c b c.low ≠ c.pos.hdr.toNat → src64 s c b c.low ≠ (nextHeader c.pos.hdr c.hdr).toNat →
    ∃ t, exec (.brx h a b) s = .next t ∧ UpToPosition s t c ∧
      ((theWave t c).split c.k).pc = ⟨c.pos.hdr, 0⟩ ∧ ((theWave t c).split c.k).mask = c.act ∧
      ((theWave t c).split j).pc = ⟨nextHeader c.pos.hdr c.hdr, 0⟩ ∧ ((theWave t c).split j).mask = c.sp.mask &&& ~~~c.act)

/-- R25, R44, R167, R261: EXIT with no active lane only moves on. Active lanes leave their wave, whether they have element records or not: they are exited from then on, their elements have exited with the split's context label and keep their held values, every byte of memory is as it was, and so are the registers, predicates and labels of every wave. Task lanes do so when each join counter that they name translates (R167); the lanes of a trap wave leave too, which may terminate the launch (R382). A wave without element records, of which other lanes remain, leaves every element and every other wave as it was. -/
def Obligations.ExitWord : Prop :=
  (∀ h s c, prelude (.exit h) s = .ok c → c.act = 0 → Does (.exit h) s c s) ∧
  (∀ h s c, Ready (.exit h) s c → c.w.role ≠ .task → ∃ t, exec (.exit h) s = .next t) ∧
  (∀ h s c, Ready (.exit h) s c → c.w.role = .task →
    (∀ l, bit c.act l = true → mgetD c.w.joinAddrs l 0 ≠ 0 →
      ∃ p k, translate s c.core c.w.part (mgetD c.w.joinAddrs l 0).toNat .both = .place p k) → ∃ t, exec (.exit h) s = .next t) ∧
  (∀ h s c, Ready (.exit h) s c → c.w.role ≠ .trap →
    (c.w.role = .task → ∀ l, bit c.act l = true → mgetD c.w.joinAddrs l 0 ≠ 0 →
      ∃ p k, translate s c.core c.w.part (mgetD c.w.joinAddrs l 0).toNat .both = .place p k) →
    (∀ e ∈ s.elems, e.1 < s.nextElem) → (∀ line, (bandOf s line).shadow = none) →
    (∀ j w, j ≠ c.w.id → mget? s.waves j = some w → ∀ l id, mget? w.elems l = some id → ∀ k, mget? c.w.elems k ≠ some id) →
    ∃ t v, exec (.exit h) s = .next t ∧ (∀ l, readLoc t l = readLoc s l) ∧ mget? t.waves c.w.id = some v ∧
      v.exited = c.w.exited ||| c.act ∧ v.lanes = c.w.lanes ∧ v.vregs = c.w.vregs ∧ v.sregs = c.w.sregs ∧ v.preds = c.w.preds ∧ v.labels = c.w.labels ∧
      (∀ l id e, bit c.act l = true → mget? c.w.elems l = some id → mget? s.elems id = some e →
        ∃ x, mget? t.elems id = some x ∧ (x.state = .exited ∨ x.state = .returned) ∧ x.exitCtx = c.sp.ctx ∧ x.vals = e.vals ∧ x.vlabels = e.vlabels) ∧
      (∀ j w, j ≠ c.w.id → mget? s.waves j = some w → ∃ x, mget? t.waves j = some x ∧ x.exited = w.exited ∧ x.vregs = w.vregs ∧
        x.sregs = w.sregs ∧ x.preds = w.preds ∧ x.labels = w.labels)) ∧
  (∀ h s c, Ready (.exit h) s c → c.w.role = .lane → c.w.elems = [] → (∀ e ∈ s.elems, e.2.launch ≠ c.w.launch) → c.w.tx.depth = 0 →
    c.w.lanes &&& ~~~(c.w.exited ||| c.act) ≠ 0 →
    ∃ t, exec (.exit h) s = .next t ∧ (∀ l, readLoc t l = readLoc s l) ∧ t.elems = s.elems ∧
      (∀ j, j ≠ c.w.id → mget? t.waves j = mget? s.waves j) ∧
      (theWave t c).exited = c.w.exited ||| c.act ∧ (theWave t c).vregs = c.w.vregs ∧ (theWave t c).sregs = c.w.sregs ∧
      (theWave t c).preds = c.w.preds ∧ (theWave t c).labels = c.w.labels ∧
      (theWave t c).pending.map Entry.ungrouped = c.w.pending.map Entry.ungrouped)

/-- R262, R378: TRAP and BKPT stop the wave with the code, imm20 and the active lanes, and the record's PC is the next instruction. With no active lane they do nothing. -/
def Obligations.TrapWords : Prop :=
  (∀ h code s c, prelude (.trap h code) s = .ok c → c.act = 0 → Does (.trap h code) s c s) ∧
  (∀ h code s c, prelude (.bkpt h code) s = .ok c → c.act = 0 → Does (.bkpt h code) s c s) ∧
  (∀ h code s c, Ready (.trap h code) s c → (nextPos c.pos c.hdr).idx ≠ 0 ∨ c.sp.rcv ≠ some (nextPos c.pos c.hdr).hdr →
    ∃ t r, exec (.trap h code) s = .next t ∧ Stopped s t c.w c.k r ∧
      RecordOf s c.w c.k (nextPos c.pos c.hdr) h.rate.num ⟨0x13, code.toNat, 0, c.act, 0, 0⟩ r) ∧
  (∀ h code s c, Ready (.bkpt h code) s c → (nextPos c.pos c.hdr).idx ≠ 0 ∨ c.sp.rcv ≠ some (nextPos c.pos c.hdr).hdr →
    ∃ t r, exec (.bkpt h code) s = .next t ∧ Stopped s t c.w c.k r ∧
      RecordOf s c.w c.k (nextPos c.pos c.hdr) h.rate.num ⟨0x14, code.toNat, 0, c.act, 0, 0⟩ r)

/-- R371 to R379: taking an exception writes the record that R373 describes, stops the wave and parks its splits; every register and every byte of memory stays. Which splits park in the step of the fault is the model's choice (assumption log 14). -/
def Obligations.ExceptionEntry : Prop :=
  ∀ s w k pc rate f, mget? s.waves w.id = some w →
    ∃ r, Stopped s (takeFault s w k pc rate f) w k r ∧ RecordOf s w k pc rate f r

/-- R371, R391: an instruction word whose checks fail before it runs takes the exception of the failing check, at its own position and rate, with none of its effect. Which of several failing checks is named is the model's choice (assumption log 42). -/
def Obligations.FailedCheckTraps : Prop :=
  ∀ i s c f, i.parts.isSome = true → issuerOf i s = some c → prelude i s = .error (.raise f) →
    exec i s = .next (takeFault s (theWave s c) c.k c.pos c.h.rate.num f)

/-- R251: an instruction word that its guard leaves without an active lane only moves on; for the words of group 0x0, SPAWN and TXX, whose entries give that case an effect of its own, see their statements. -/
def Obligations.InactiveWord : Prop :=
  ∀ i s c, i.parts.isSome = true → prelude i s = .ok c → c.act = 0 →
    (match i with
      | .bra .. => False | .brc .. => False | .brx .. => False | .call .. => False | .callx .. => False | .ret .. => False
      | .spawn .. => False | _ => True) →
    Does i s c s

/-- R33, R394, R395: an instruction that counts on a flag whose count is 63 holds, and nothing changes; one that selects a flag whose valid bit is clear is an illegal use: it takes an exception, that of operand field 9 with reason 3 when no lower check fails. That reason 3 is the one named before other reasons is the model's choice (assumption log 42). -/
def Obligations.FullFlagHolds : Prop :=
  (∀ i s c, i.isLong = true → issuerOf i s = some c → stage3 s c i = none → c.act ≠ 0 → 63 ≤ mgetD c.w.flags c.flag 0 →
    i.parts.isSome = true → exec i s = .next s) ∧
  (∀ i s c, i.isLong = true → issuerOf i s = some c → (if c.h.fsel then hdrB c.hdr else hdrA c.hdr) = none → i.parts.isSome = true →
    ∃ f, exec i s = .next (takeFault s (theWave s c) c.k c.pos c.h.rate.num f)) ∧
  (∀ i s c op h body, i.parts = some (op, h, body) → i.isLong = true → issuerOf i s = some c →
    (if c.h.fsel then hdrB c.hdr else hdrA c.hdr) = none → rateLegal c.obj.draw c.h.rate = true → i.rateOk c.obj.draw = true →
    lowestErr (fieldErrs (some (footprintOf c.obj c.ent)) op i c.h body ++ mmaSatErr c i ++ valueErrs s c i) = none → (c.inTx && i.txForbidden) = false →
    exec i s = .next (takeFault s (theWave s c) c.k c.pos c.h.rate.num ⟨3, 3 * 65536 + 9, 0, c.act, 0, operandLabels s c i⟩))

/-- R112, R297, R300, R304 to R309: a global load, store, atomic, CAS, CASX or RED whose lanes' addresses are aligned, translate and may be written puts one entry on the wave's pending queue with one access for each lane, and counts on its flag; it changes no byte of memory and no register before its accesses perform. That a constant may stand as the base is the model's reading (assumption log 7). -/
def Obligations.GlobalAccessIssue : Prop :=
  (∀ h w d m, Accesses (.ld h w d m) d m true (ldBytes w) .read .load (some (w.regs, ldSigned w)) (fun _ _ => 0) (fun _ _ _ => []) (fun _ _ _ => [])) ∧
  (∀ h w d m, Accesses (.st h w d m) d m true (stBytes w) .write .store none (fun s c => labelOf s c d w.regs)
    (fun s c l => leBytes (stBytes w) (ofWords (srcs s c d ((stBytes w + 3) / 4) l))) (fun _ _ _ => [])) ∧
  (∀ h v d m, Accesses (.atom h v d m) d m true (4 * v.regs) .both (.atomAcc v) (if d.isConst then none else some (v.regs, false))
    (fun s c => labelOf s c d v.regs) (fun s c l => match v with
      | .addF16x2 => leBytes 4 (srcPair s c f16 d l)
      | .addBf16x2 => leBytes 4 (srcPair s c bf16 d l)
      | _ => leBytes (4 * v.regs) (ofWords (srcs s c d ((4 * v.regs + 3) / 4) l))) (fun _ _ _ => [])) ∧
  (∀ h v d m, Accesses (.cas h v d m) d m true (4 * casWords v) .both (.cas (decide (v = .b32nr)))
    (if v = .b32nr ∨ d.isConst = true then none else some (casWords v, false)) (fun s c => labelOf s c d (2 * casWords v))
    (fun s c l => dataBytesAt s c d (casWords v) (4 * casWords v) l) (fun s c l => dataBytesAt s c d 0 (4 * casWords v) l)) ∧
  (∀ h d m, Accesses (.casx h d m) d m true 16 .both (.cas false) (if d.isConst then none else some (4, false)) (fun s c => labelOf s c d 8)
    (fun s c l => dataBytesAt s c d 4 16 l) (fun s c l => dataBytesAt s c d 0 16 l)) ∧
  (∀ h v d m, Accesses (.red h v d m) d m true v.bytes .both (.red v) none (fun s c => labelOf s c d v.regs)
    (fun s c l => redData s c v d l) (fun _ _ _ => []))

/-- R84, R112, R177, R300, R307: the scratchpad forms do the same at a place of the wave's range on the executing or a named core; a store's label joins the granules that it names. That it joins them when the store issues is the model's reading (assumption log 41): R177 does not give the step. -/
def Obligations.ScratchpadAccessIssue : Prop :=
  (∀ h w d m, Accesses (.lds h w d m) d m false (ldBytes w) .read .load (some (w.regs, ldSigned w)) (fun _ _ => 0) (fun _ _ _ => []) (fun _ _ _ => [])) ∧
  (∀ h w d m, Accesses (.sts h w d m) d m false (stBytes w) .write .store none (fun s c => labelOf s c d w.regs)
    (fun s c l => leBytes (stBytes w) (ofWords (srcs s c d ((stBytes w + 3) / 4) l))) (fun _ _ _ => [])) ∧
  (∀ h v d m, v ≠ .cas → Accesses (.atoms h v d m) d m false 4 .both (.atomAcc (atomsOp v)) (if d.isConst then none else some (1, false))
    (fun s c => labelOf s c d 1) (fun s c l => dataBytes s c d 4 l) (fun _ _ _ => [])) ∧
  (∀ h d m, Accesses (.atoms h .cas d m) d m false 4 .both (.cas false) (if d.isConst then none else some (1, false))
    (fun s c => labelOf s c d 2) (fun s c l => dataBytesAt s c d 1 4 l) (fun s c l => dataBytesAt s c d 0 4 l))

/-- R88, R115, R120, R302, R303, R310: LDC whose lanes stay in the constant window counts on its flag; PREF and CINV change caches and no byte, CINV dropping from the core's L1 each named line that is not constant; FENCE enters the pending queue; FENCEX marks the entries that copies issued later wait for. How a core's L1 holds a line, and that PREF and CINV pass over an address that fails, is the model's choice (assumption log 39, 40). -/
def Obligations.ConstantsCachesFences : Prop :=
  (∀ h w d m s c (place : Nat → Loc) (page : Nat → PageAttr), Ready (.ldc h w d m) s c →
    (∀ l ∈ accessLanes c (uniformUse d m), globalAddr s c m l % ldcBytes w = 0 ∧ c.launch.constBase.toNat ≤ globalAddr s c m l ∧
      globalAddr s c m l + ldcBytes w ≤ c.launch.constBase.toNat + c.launch.constSize ∧
      globTarget s c (globalAddr s c m l) (ldcBytes w) .read 0 = .at (place l) (page l)) →
    ∃ t, exec (.ldc h w d m) s = .next t ∧ AccessIssued s t c [] (longOp s c false (uniformUse d m) (.const d.code (ldcBytes w)
      ((accessLanes c (uniformUse d m)).map fun l => (l, place l, page l, BitVec.ofNat 64 (globalAddr s c m l))) (addrLabels s c m true ||| c.ctx) (addrLabels s c m true) c.pos))) ∧
  (∀ h m s c, Ready (.pref h m) s c → (∀ l va, bit c.act l = true → translate s c.core c.w.part (globalAddr s c m l) .read ≠ .walkFor va) →
    (∀ l pa k, bit c.act l = true → translate s c.core c.w.part (globalAddr s c m l) .read = .place (.dev pa) k →
      (bandOf s (pa / 128)).keyId = k.keyId) → (∀ line, (bandOf s line).shadow = none) →
    ∃ t, exec (.pref h m) s = .next t ∧ (∀ l, readLoc t l = readLoc s l) ∧
      t.rest = { s.rest with l1 := t.l1, l2 := t.l2, rdc := t.rdc, bands := t.bands } ∧ t.elems = s.elems ∧
      (∀ j, j ≠ c.w.id → mget? t.waves j = mget? s.waves j) ∧ (theWave t c).data = c.w.data) ∧
  (∀ h m s c, Ready (.cinv h m) s c → (∀ l va, bit c.act l = true → translate s c.core c.w.part (globalAddr s c m l) .read ≠ .walkFor va) →
    ∃ t, exec (.cinv h m) s = .next t ∧ (∀ l, readLoc t l = readLoc s l) ∧ t.rest = { s.rest with l1 := t.l1 } ∧ t.elems = s.elems ∧
      (∀ j, j ≠ c.w.id → mget? t.waves j = mget? s.waves j) ∧ (theWave t c).data = c.w.data ∧
      (∀ x, x ∈ t.l1 → x ∈ s.l1) ∧ (∀ x, x ∈ s.l1 → x.core ≠ c.core → x ∈ t.l1) ∧
      (∀ l pa k x, bit c.act l = true → translate s c.core c.w.part (globalAddr s c m l) .read = .place (.dev pa) k →
        l1Find t c.core (pa / 128) = some x → x.constant.isSome = true)) ∧
  (∀ h order scope s c, Ready (.fence h order scope) s c →
    ∃ t, exec (.fence h order scope) s = .next t ∧ (∀ l, readLoc t l = readLoc s l) ∧ t.rest = { s.rest with markers := t.markers } ∧ t.elems = s.elems ∧
      (∀ j, j ≠ c.w.id → mget? t.waves j = mget? s.waves j) ∧
      (theWave t c).data = { c.w with
        pending := c.w.pending ++ [accessEntry c ⟨.c .zero, .c .zero, 0, order, scope, .dflt⟩ .fence none 0 0 [newAccess c.low (.dev 0) 0 0 [] [] 0 PageAttr.plain]]
        nextEntry := c.w.nextEntry + 2, podSent := (theWave t c).podSent : Wave }.data) ∧
  (∀ h s c, Ready (.fencex h) s c → Does (.fencex h) s c (putWave s { c.w with fenced := c.w.nextEntry }))

/-- R108, R110, R113, R301: a store that the order of its wave allows performs: the bytes of its place hold the data of the highest lane that writes them, and every other byte of the module, of the host and of other packages is as it was. -/
def Obligations.StorePerforms : Prop :=
  ∀ s wave entry lane w e a, readyAccess s wave entry lane false = some (w, e, a) → e.kind = .store ∨ e.kind = .writeThrough → e.tx = 0 →
    InTurn s wave entry lane w e a → PlainHome s a → (match a.loc with | .pkg _ _ => False | .host _ => s.link = .up | _ => True) →
    ∀ top, top = e.accs.foldl (fun acc x => if !x.done && x.loc == a.loc then x else acc) a →
    (∀ i, i < top.data.length → (a.loc.plus i).real) →
    ∃ t, exec (.storePerform wave entry lane) s = .next t ∧
      (∀ i, i < top.data.length → readLoc t (a.loc.plus i) = nthD top.data i 0) ∧
      (∀ l, l.real → (∀ i, i < top.data.length → l ≠ a.loc.plus i) → readLoc t l = readLoc s l)

/-- R109, R296, R301: a load performs: its lane's destination takes the value that R109 gives, extended by its width, and no byte of memory changes. -/
def Obligations.LoadPerforms : Prop :=
  ∀ s wave entry lane fill w e a d, readyAccess s wave entry lane false = some (w, e, a) → e.kind = .load → e.tx = 0 → e.dead = false → w.id = wave →
    e.dst = some d → d.code + d.regs ≤ 192 → faultyLanes s w e = [] → PlainHome s a → (match a.loc with | .pkg _ _ => False | _ => True) →
    let useL1 := !(e.isAcquire && decide (2 ≤ e.scope.num)) && e.hint != .byp && a.page.cache != 2
    let v := leNat ((List.range a.bytes).map fun i => (loadByte s w e (a.loc.plus i) useL1).1)
    ∃ t, exec (.loadPerform wave entry lane fill) s = .next t ∧ (∀ l, readLoc t l = readLoc s l) ∧
      (∀ x, mget? t.waves wave = some x → ∀ i, i < (extendWords a.bytes d.signExt v).length → i < d.regs →
        a.lane < 32 → x.vec (d.code + i) a.lane = nthD (extendWords a.bytes d.signExt v) i 0) ∧
      (∀ x m l, mget? t.waves wave = some x → m < 192 → l < 32 → ¬ (l = a.lane ∧ d.code ≤ m ∧ m < d.code + (extendWords a.bytes d.signExt v).length) →
        x.vec m l = w.vec m l)

/-- R108, R111, R304 to R309: an atomic, CAS or integer RED that performs at home turns the location's value into what its lanes give, in ascending lane order, and leaves every other byte as it was. -/
def Obligations.AtomicPerforms : Prop :=
  ∀ s wave entry lane w e a pa, readyAccess s wave entry lane false = some (w, e, a) → e.tx = 0 → a.loc = .dev pa → 0 < a.bytes →
    pa / 128 = (pa + a.bytes - 1) / 128 →
    (match e.kind with | .atomAcc _ => True | .cas _ => True | .red v => v.isFloatAdd = false | _ => False) →
    inL1 e a = false → faultyLanes s w e = [] → InTurn s wave entry lane w e a → PlainHome s a →
    let lanes := e.accs.filter fun x => !x.done && x.bytes == a.bytes && x.loc == a.loc
    let r := applyLanes e.kind (leNat (readBytes s a.loc a.bytes)) lanes
    ∃ t, exec (.atomicPerform wave entry lane) s = .next t ∧
      (r.2.1 = true → readBytes t a.loc a.bytes = leBytes a.bytes r.1) ∧ (r.2.1 = false → ∀ l, readLoc t l = readLoc s l) ∧
      (∀ l, (∀ i, i < a.bytes → l ≠ a.loc.plus i) → readLoc t l = readLoc s l)

/-- R305, R308: what one lane of an atomic and of a CAS makes of the old value. -/
def Obligations.AtomicResults : Prop :=
  (∀ op w old a, applyLanes (.atomAcc (.int op w)) old [a] = (intNew op (4 * w.regs) old (leNat a.data), true, [(a.lane, old)])) ∧
  (∀ old a, applyLanes (.atomAcc .incN32) old [a] = (if leNat a.data ≤ old then 0 else old + 1, true, [(a.lane, old)])) ∧
  (∀ nr old a, applyLanes (.cas nr) old [a] =
    (if leNat a.exp = old then leNat a.data else old, decide (leNat a.exp = old), [(a.lane, old)])) ∧
  (∀ w old v, intNew .add (4 * w.regs) old v = (old + v) % 2 ^ (wbits w)) ∧
  (∀ old a b, applyLanes (.atomAcc (.int .add .w32)) old [a, b] =
    (((old + leNat a.data) % 2 ^ 32 + leNat b.data) % 2 ^ 32, true, [(a.lane, old), (b.lane, (old + leNat a.data) % 2 ^ 32)]))

/-- R114: an acquire at `.quad` or wider drops from its core's L1 every line that is not constant, and no other; at `.wave` or `.core` it drops nothing. -/
def Obligations.AcquireDropsL1 : Prop :=
  (∀ s core sc, sc = .wave ∨ sc = .core → acquire s core sc = s) ∧
  (∀ s core sc x, sc ≠ .wave → sc ≠ .core → (x ∈ (acquire s core sc).l1 ↔ x ∈ s.l1 ∧ (x.core ≠ core ∨ x.constant.isSome = true))) ∧
  (∀ s core sc, acquire s core sc = { s with l1 := (acquire s core sc).l1 })

/-- R113 to R115: a FENCE that the order of its wave allows performs: it leaves the pending queue, an acquire drops the core's L1 lines, and no byte and no register changes. -/
def Obligations.FencePerforms : Prop :=
  ∀ s wave entry w e, mget? s.waves wave = some w → w.id = wave → findEntry w entry = some e → e.kind = .fence → e.accs ≠ [] →
    (∀ a ∈ e.accs, mayPerform s w e a = true) →
    ∃ t, exec (.fencePerform wave entry) s = .next t ∧ (∀ l, readLoc t l = readLoc s l) ∧ t.elems = s.elems ∧
      (e.isAcquire = true → t.l1 = (acquire s (coreOf w.quad) e.scope).l1) ∧ (e.isAcquire = false → t.l1 = s.l1) ∧
      ∀ x, mget? t.waves wave = some x → (∀ y ∈ x.pending, y.id ≠ entry) ∧ x.vregs = w.vregs ∧ x.sregs = w.sregs ∧ x.preds = w.preds ∧ x.labels = w.labels

/-- R105, R117, R126, R439: an access of device memory that its wave's order allows may move onto its home queue, where it stands until the queue applies it; a store that a home queue applies writes its bytes and no other. A marker whose earlier accesses on its plane have performed is gathered. A marker that is a timeout old and whose plane answers is sent again. When a plane fails under a late marker is the model's choice (assumption log 23). -/
def Obligations.QueueSteps : Prop :=
  (∀ s wave entry lane w e a pa, readyAccess s wave entry lane false = some (w, e, a) → e.tx = 0 → inL1 e a = false → 0 < a.bytes → e.kind ≠ .fence →
    passed s w e a = false → a.loc = .dev pa →
    ∃ t, exec (.homeQueueEnqueue wave entry lane) s = .next t ∧ (∀ l, readLoc t l = readLoc s l) ∧
      mget? t.homeQ (homeOf pa) = some (mgetD s.homeQ (homeOf pa) [] ++ [⟨wave, entry, lane, s.clock⟩]) ∧
      (∀ j, j ≠ homeOf pa → mget? t.homeQ j = mget? s.homeQ j)) ∧
  (∀ s queue idx q w e a pa, queue ≠ fabricQueue → (mgetD s.homeQ queue [])[idx]? = some q → tieWaits s (mgetD s.homeQ queue []) q = false →
    readyAccess s q.wave q.entry q.lane true = some (w, e, a) → e.kind = .store → e.tx = 0 → a.loc = .dev pa →
    PlainHome s a → ∀ top, top = e.accs.foldl (fun acc x => if !x.done && x.loc == a.loc then x else acc) a →
    ∃ t, exec (.homeQueueApply queue idx) s = .next t ∧
      (∀ i, i < top.data.length → readLoc t (.dev (pa + i)) = nthD top.data i 0) ∧
      (∀ l, (∀ i, i < top.data.length → l ≠ .dev (pa + i)) → readLoc t l = readLoc s l) ∧
      mgetD t.homeQ queue [] = dropAt (mgetD s.homeQ queue []) idx) ∧
  (∀ s wave pkg plane w m, mget? s.waves wave = some w → m ∈ s.markers → m.wave = wave → m.pkg = pkg → m.plane = plane → s.retired.length < 36 →
    (∀ e ∈ w.pending, e.id < m.bound → ∀ a ∈ e.accs, a.done = true ∨ a.bytes = 0 ∨ ∀ pa, a.loc ≠ .pkg pkg pa) →
    ∃ t, exec (.flushMarkerGathered wave pkg plane) s = .next t ∧ { m with gathered := true } ∈ t.markers ∧ t = { s with markers := t.markers }) ∧
  (∀ s m, m ∈ s.markers → m.gathered = false → m.sent + markerLimit ≤ s.clock →
    ∃ t, exec (.flushMarkerTimeout m.wave m.pkg m.plane true) s = .next t ∧ { m with sent := s.clock } ∈ t.markers ∧ t = { s with markers := t.markers })

/-- R311 to R318: a copy whose length and alignments R402 allows, on a core whose copy engine has room, takes the lowest free entry, joins the wave's open copies and counts on its flag; its handle comes with the completion. No byte changes yet. That the entry is the lowest free one is the model's choice (assumption log 49), and so is the cut of a copy into units of 16 bytes (assumption log 43). -/
def Obligations.CopiesStart : Prop :=
  (∀ h v d a b x s c e, Ready (.cpy h v d a b x) s c → FreeEntry s c.core e →
    let toGlobal := decide (v = .g2g ∨ v = .s2g)
    let fromGlobal := decide (v = .g2g ∨ v = .g2s)
    let dst := if toGlobal then src64 s c a c.low else src s c a c.low
    let from_ := if fromGlobal then src64 s c b c.low else src s c b c.low
    let n := src s c x c.low
    n % 16 = 0 → 16 ≤ n → n ≤ 32768 → dst % 16 = 0 → from_ % 16 = 0 →
    Does (.cpy h v d a b x) s c (copyStarted s c d (newCopy s c e (.raw (rawRef s c.w toGlobal dst 0 true) (rawRef s c.w fromGlobal from_ 0 false) n) true
      ((List.range (n / 16)).map fun i => rawUnit (i / 32) (rawRef s c.w toGlobal dst (16 * i) true) (rawRef s c.w fromGlobal from_ (16 * i) false))
      ((n + 511) / 512) (labelOf s c a (if toGlobal then 2 else 1) ||| labelOf s c b (if fromGlobal then 2 else 1) ||| labelOf s c x 1)
      (labelOf s c a (if toGlobal then 2 else 1) ||| labelOf s c b (if fromGlobal then 2 else 1))))) ∧
  (∀ h d a b x s c e, Ready (.cpyp h false d a b x) s c → FreeEntry s c.core e → src s c x c.low % 16 = 0 →
    Does (.cpyp h false d a b x) s c (copyStarted s c d (newCopy s c e
      (.box false (BitVec.ofNat 64 (src64 s c a c.low)) (origin s c b) (src s c x c.low) none)
      false [] 64 (labelOf s c a 2 ||| labelOf s c b 5 ||| labelOf s c x 1) (labelOf s c a 2 ||| labelOf s c x 1)))) ∧
  (∀ h d a b x s c e, Ready (.cpyp h true d a b x) s c → FreeEntry s c.core e →
    Does (.cpyp h true d a b x) s c (copyStarted s c d (newCopy s c e
      (.box true (BitVec.ofNat 64 (src64 s c a c.low)) (origin s c b) (src s c x c.low) (claimAt c.w.bench (src s c x c.low)))
      false [] 64 (labelOf s c a 2 ||| labelOf s c b 5 ||| labelOf s c x 1) (labelOf s c a 2 ||| 0)))) ∧
  (∀ h d a b x s c e, Ready (.cpyc h d a b x) s c → FreeEntry s c.core e →
    Does (.cpyc h d a b x) s c (copyStarted s c d (newCopy s c e
      (.conv (BitVec.ofNat 64 (src64 s c a c.low)) (origin s c b) (src s c x c.low) (claimAt c.w.bench (src s c x c.low)))
      false [] 4 (labelOf s c a 2 ||| labelOf s c b 5 ||| labelOf s c x 1) (labelOf s c a 2)))) ∧
  (∀ h set d a b x s c e, Ready (.cpysig h set d a b x) s c → FreeEntry s c.core e →
    let dst := ofWords ((srcs s c a 4 c.low).take 2)
    let sig := ofWords ((srcs s c a 4 c.low).drop 2)
    let from_ := src64 s c b c.low
    let n := (nthD (srcs s c x 2 c.low) 0 0).toNat
    n % 16 = 0 → 16 ≤ n → n ≤ 32768 → dst % 16 = 0 → from_ % 16 = 0 → sig % 8 = 0 →
    Does (.cpysig h set d a b x) s c (copyStarted s c d (newCopy s c e
      (.sig (BitVec.ofNat 64 dst) (BitVec.ofNat 64 from_) (BitVec.ofNat 64 sig) n (nthD (srcs s c x 2 c.low) 1 0) set) true
      ((List.range (n / 16)).map fun i => rawUnit (i / 32) (.glob (BitVec.ofNat 64 (dst + 16 * i))) (.glob (BitVec.ofNat 64 (from_ + 16 * i))))
      ((n + 511) / 512) (labelOf s c a 4 ||| labelOf s c b 2 ||| labelOf s c x 2) (labelOf s c a 4 ||| labelOf s c b 2)))) ∧
  (∀ h v d a b x s c, Ready (.cpy h v d a b x) s c →
    (src s c x c.low % 16 ≠ 0 ∨ src s c x c.low < 16 ∨ 32768 < src s c x c.low) →
    ∃ f, f.code = 3 ∧ exec (.cpy h v d a b x) s = .next (takeFault s c.w c.k c.pos c.h.rate.num f))

/-- R319 to R321, R414 to R416, R449: CSEAL closes the open copies into the next batch and writes its number, or, replayed after its region was discarded, the batch that it had closed; CWAIT completes once every chunk bit of its batch is set, or its copies are done and none has a fault, with no effect on any register or byte, raising COPY with the first failed chunk and its code when one has (R414, R416), and `.st` writes the batch's status, which names that chunk (R415); CTEST writes whether every named chunk bit is set. A wait for a batch with a chunk bit clear, of a copy that is not done, sleeps. That a failed chunk leaves its copy's other chunks is the model's choice (assumption log 43); the number of a replayed CSEAL where other splits seal is its reading (log 51). -/
def Obligations.CopyBatches : Prop :=
  (∀ h (k : Fin 64) s c, Ready (.cseal h (.s k)) s c → c.sp.reseal = [] → (c.w.batches.filter fun b => !batchDone s c.w b.num).length < 16 →
    ∃ t, exec (.cseal h (.s k)) s = .next t ∧ Wrote s t c (.s k) 1 (fun _ => [BitVec.ofNat 32 c.w.batchNext]) c.ctx ∧
      (∀ l, readLoc t l = readLoc s l) ∧ t.rest = s.rest ∧ t.elems = s.elems ∧ (∀ j, j ≠ c.w.id → mget? t.waves j = mget? s.waves j) ∧
      (theWave t c).opened = [] ∧ (theWave t c).batches = c.w.batches ++ [⟨c.w.batchNext, c.w.opened⟩] ∧ (theWave t c).batchNext = c.w.batchNext + 1 ∧
      (∀ m, m < 64 → m ≠ k.val → (theWave t c).scalar m = c.w.scalar m) ∧ (∀ code, code ≠ 256 + k.val → (theWave t c).label code = c.w.label code) ∧
      (theWave t c).vregs = c.w.vregs ∧ (theWave t c).preds = c.w.preds) ∧
  (∀ h (k : Fin 64) s c b rest, Ready (.cseal h (.s k)) s c → c.sp.reseal = b :: rest → (c.w.batches.filter fun b => !batchDone s c.w b.num).length < 16 →
    ∃ t, exec (.cseal h (.s k)) s = .next t ∧ Wrote s t c (.s k) 1 (fun _ => [BitVec.ofNat 32 b.num]) c.ctx ∧
      (∀ l, readLoc t l = readLoc s l) ∧ (theWave t c).batches = c.w.batches ++ [b] ∧ (theWave t c).batchNext = max c.w.batchNext (b.num + 1)) ∧
  (∀ h d s c, Ready (.cseal h d) s c → 16 ≤ (c.w.batches.filter fun b => !batchDone s c.w b.num).length → exec (.cseal h d) s = .next s) ∧
  (∀ h a s c, Ready (.cwait h a) s c → c.inTx = false →
    (∀ cp ∈ batchCopies s c.w (src s c a c.low), (cp.done = true ∨ cp.planned = true ∧ cp.bits = 2 ^ cp.chunks - 1) ∧ cp.first = none) →
    Does (.cwait h a) s c s) ∧
  (∀ h a s c, Ready (.cwait h a) s c → c.inTx = false → (∃ cp ∈ batchCopies s c.w (src s c a c.low), cp.done = false ∧ (cp.planned = false ∨ cp.bits ≠ 2 ^ cp.chunks - 1)) →
    exec (.cwait h a) s = .next (sleepOn s c.w.id c.k [.batch c.w.id (src s c a c.low)] .fixed)) ∧
  (∀ h a s c cp k code addr, Ready (.cwait h a) s c → c.inTx = false → batchDone s c.w (src s c a c.low) = true →
    batchFault s c.w (src s c a c.low) = some (cp, k, code, addr) →
    ∃ t f, exec (.cwait h a) s = .next t ∧ f.code = 0x16 ∧ f.info = k + 256 * code ∧ f.addr = addr.toNat ∧ (∀ l, readLoc t l = readLoc s l) ∧
      t.parts = (takeFault s c.w c.k c.pos c.h.rate.num f).parts) ∧
  (∀ h d a s c, Ready (.cwaitSt h d a) s c → c.inTx = false → (∀ cp ∈ batchCopies s c.w (src s c a c.low), cp.done = true ∧ cp.first = none) →
    ∃ t, exec (.cwaitSt h d a) s = .next t ∧ Wrote s t c d 1 (fun _ => [0]) (labelOf s c a 1 ||| c.ctx) ∧ RegFrame s t c d 1) ∧
  (∀ h d a s c cp k code addr, Ready (.cwaitSt h d a) s c → c.inTx = false → batchDone s c.w (src s c a c.low) = true →
    batchFault s c.w (src s c a c.low) = some (cp, k, code, addr) →
    ∃ t, exec (.cwaitSt h d a) s = .next t ∧
      Wrote s t c d 1 (fun _ => [BitVec.ofNat 32 (cp.centry * 65536 + k * 256 + code)]) (labelOf s c a 1 ||| c.ctx) ∧ RegFrame s t c d 1) ∧
  (∀ h p a b, WritesWith (.ctest h (.p p) a b) (.p p) 1
    (fun s c _ => [match copyOf s c.core (src s c a c.low) with
      | none => 1
      | some cp => if (List.range 64).all fun k => !(src64 s c b c.low).testBit k || decide (cp.chunks ≤ k) || cp.bits.testBit k ||
          (cp.done && !cp.faulted k && cp.refusal == 0) then 1 else 0])
    fun s c => labelOf s c a 1 ||| labelOf s c b 2 ||| c.ctx)

/-- R149, R155, R157: TXB outside a transaction opens one at level 1 with its origin, its scope and its alternative, and inside one opens a further level; after 16 aborts it opens one in serial mode, once its wave holds the package's serial token, for which it asks first; TXE at a level above 1 gives its entries and its buffered bytes to the level below. No byte and no register changes. -/
def Obligations.TransactionLevels : Prop :=
  (∀ h alt scope s c, Ready (.txb h alt scope) s c → c.w.tx.depth = 0 → (c.w.tx.aborts = 16 → s.token = some c.w.id) →
    (c.w.tx.wantToken = true → serialElsewhere s c.w.id c.core = false) →
    Does (.txb h alt scope) s c (putWave s { c.w with tx := { c.w.tx with
      depth := 1, scope := scope, owner := c.k, origin := c.pos, alts := [alt.map fun k => c.pos.hdr + k.signExtend 64 * 8], writes := []
      serial := decide (c.w.tx.aborts = 16), wantToken := false, mask0 := c.sp.mask, rcv0 := c.sp.rcv, nest0 := c.sp.nest, ctx0 := c.sp.ctx
      sers0 := c.w.sers.filter fun e => e.1 ∈ chainSers 32 c.w c.sp.nest } })) ∧
  (∀ h alt scope s c, Ready (.txb h alt scope) s c → c.inTx = true →
    Does (.txb h alt scope) s c (putWave s { c.w with tx := { c.w.tx with
      depth := c.w.tx.depth + 1, alts := c.w.tx.alts ++ [alt.map fun k => c.pos.hdr + k.signExtend 64 * 8] } })) ∧
  (∀ h s c, Ready (.txe h) s c → 1 < c.w.tx.depth →
    let n := c.w.tx.depth
    let mine := c.w.tx.writes.filter fun b => b.level == n
    Does (.txe h) s c (putWave s { c.w with
      pending := c.w.pending.map fun e => if e.tx = n then { e with tx := n - 1 } else e
      tx := { c.w.tx with
        depth := n - 1
        alts := c.w.tx.alts.take (n - 1)
        reads := c.w.tx.reads.map fun r => if r.level = n then { r with level := n - 1 } else r
        writes := (c.w.tx.writes.filter fun b => b.level != n && !(b.level == n - 1 && mine.any fun m => m.loc == b.loc)) ++
          mine.map fun b => { b with level := n - 1 } } })) ∧
  (∀ h alt scope s c, Ready (.txb h alt scope) s c → c.w.tx.depth = 0 → c.w.tx.aborts = 16 → s.token ≠ some c.w.id → c.w.id ∉ s.tokenQ →
    exec (.txb h alt scope) s = .next { s with tokenQ := s.tokenQ ++ [c.w.id] })

/-- R125, R153, R155: a TXE at level 1 whose accesses have performed commits when no live line of its read set has been written: each buffered byte reaches its place, every other byte is as it was, the transaction is closed, and no register changes. When a live line has been written the transaction aborts and no byte changes. That a commit holds until its accesses have performed, and where it raises a poisoned read, is the model's reading (assumption log 36, 38). -/
def Obligations.TransactionCommit : Prop :=
  (∀ h s c, Ready (.txe h) s c → c.w.tx.depth = 1 → txQuiet c.w = true → releaseReady s c.w (txScope c.w.tx.scope) = true →
    (∀ r ∈ c.w.tx.reads, r.live = true → r.conflict = false ∧ ∀ l, r.line = .dev l → l ∉ s.poisoned) →
    ((txLines c.w).any fun l => lockedByOther s c.w.id l) = false → (∀ b ∈ c.w.tx.writes, writeAllowed s c.w.part b.label b.loc 1 = true) →
    (∀ line, (bandOf s line).shadow = none) →
    (∀ b ∈ c.w.tx.writes, match b.loc with | .dev pa => (bandOf s (pa / 128)).keyId = b.page.keyId | .scr _ off => off < 2 ^ 18 | _ => False) →
    (c.w.tx.writes.map fun b => b.loc).Nodup →
    ∃ t, exec (.txe h) s = .next t ∧ (∀ b ∈ c.w.tx.writes, readLoc t b.loc = b.val) ∧
      (∀ l, l.real → (∀ b ∈ c.w.tx.writes, b.loc ≠ l) → readLoc t l = readLoc s l) ∧
      (theWave t c).tx.depth = 0 ∧ (theWave t c).tx.reads = [] ∧ (theWave t c).tx.writes = [] ∧ (theWave t c).tx.aborts = 0 ∧
      (theWave t c).vregs = c.w.vregs ∧ (theWave t c).sregs = c.w.sregs ∧ (theWave t c).preds = c.w.preds ∧ (theWave t c).labels = c.w.labels) ∧
  (∀ h s c, Ready (.txe h) s c → c.w.tx.depth = 1 → c.inTx = true → txQuiet c.w = true → releaseReady s c.w (txScope c.w.tx.scope) = true → c.w.tx.serial = false →
    (∀ r ∈ c.w.tx.reads, r.live = true → ∀ l, r.line = .dev l → l ∉ s.poisoned) → (∃ r ∈ c.w.tx.reads, r.live = true ∧ r.conflict = true) →
    ∃ t, exec (.txe h) s = .next t ∧ (∀ l, readLoc t l = readLoc s l) ∧ (theWave t c).tx.depth = 0 ∧
      (theWave t c).tx.aborts = min 16 (c.w.tx.aborts + 1) ∧ ((theWave t c).split c.k).pc = c.w.tx.origin ∧
      (theWave t c).vregs = c.w.vregs ∧ (theWave t c).sregs = c.w.sregs ∧ (theWave t c).preds = c.w.preds)

/-- R154, R158, R421: RETRY discards the buffered bytes of its level. At an inner level with an alternative it continues there, in the enclosing level, which takes its reads. At level 1 with an alternative it continues there, outside the transaction and with an empty read set; with none it keeps its read set, and unless a line of it has been written it sleeps at its origin, registered for each line: under the line's own key, or, while the table that would hold it is full, under the broad key that R421 names. That it holds until its transaction's accesses have performed is the model's reading (assumption log 36). -/
def Obligations.TransactionRetry : Prop :=
  (∀ h s c a, Ready (.retry h) s c → c.w.tx.depth = 1 → c.inTx = true → txQuiet c.w = true → nthD c.w.tx.alts 0 none = some a →
    Ends (.retry h) s c (releaseSerial (putWave s { c.w with tx := { c.w.tx with
      depth := 0, aborts := 0, serial := false, alts := [], reads := [], writes := [] } }) c.w.id) ⟨a, 0⟩) ∧
  (∀ h s c n a, Ready (.retry h) s c → c.w.tx.depth = n + 1 → 0 < n → c.inTx = true → txQuiet c.w = true → nthD c.w.tx.alts n none = some a →
    c.sp.rcv ≠ some a →
    ∃ t, exec (.retry h) s = .next t ∧ (∀ l, readLoc t l = readLoc s l) ∧ (theWave t c).tx.depth = n ∧ (theWave t c).tx.alts = c.w.tx.alts.take n ∧
      (theWave t c).tx.writes = (c.w.tx.writes.filter fun b => b.level != n + 1) ∧
      (theWave t c).tx.reads = (c.w.tx.reads.map fun r => if r.level = n + 1 then { r with level := n } else r) ∧
      ((theWave t c).split c.k).pc = ⟨a, 0⟩ ∧
      (theWave t c).vregs = c.w.vregs ∧ (theWave t c).sregs = c.w.sregs ∧ (theWave t c).preds = c.w.preds ∧ (theWave t c).labels = c.w.labels) ∧
  (∀ h s c, Ready (.retry h) s c → c.w.tx.depth = 1 → c.inTx = true → txQuiet c.w = true → nthD c.w.tx.alts 0 none = none →
    ∃ t, exec (.retry h) s = .next t ∧ (∀ l, readLoc t l = readLoc s l) ∧ (theWave t c).tx.depth = 0 ∧ (theWave t c).tx.writes = [] ∧
      ((theWave t c).split c.k).pc = c.w.tx.origin ∧ (theWave t c).tx.reads.map (fun r => r.line) = c.w.tx.reads.map (fun r => r.line) ∧
      (∀ r ∈ (theWave t c).tx.reads, r.live = false) ∧
      ((∀ r ∈ c.w.tx.reads, r.written = false) → ((theWave t c).split c.k).state = .sleeping ∧
        ∀ i r, c.w.tx.reads[i]? = some r →
          let u := ((c.w.tx.reads.take i).map fun x => x.line).foldl (fun u l => register u c.w c.k l) (releaseSerial (putWave s (restartTx c.w 0)) c.w.id)
          ∃ g ∈ t.regs, g.wave = c.w.id ∧ g.split = c.k ∧
            (tableFull u (coreOf c.w.quad) r.line = false → g.key = .line r.line) ∧
            (tableFull u (coreOf c.w.quad) r.line = true →
              let b := broadKey u (coreOf c.w.quad) r.line
              g.key = if broadWaves u b.1 < b.2 then b.1 else .die (lastDie (coreOf c.w.quad) r.line))) ∧
      (theWave t c).vregs = c.w.vregs ∧ (theWave t c).sregs = c.w.sregs ∧ (theWave t c).preds = c.w.preds ∧ (theWave t c).labels = c.w.labels)

/-- R156, R157: TXX drops every buffered write and clears the read set, DEPTH, ABORTS and SERIAL, and releases the serial token and its locks; the split continues at the next instruction, which becomes its region entry; it changes no byte and no register, and neither sleeps nor acquires. At DEPTH 0 it changes nothing. That it holds until its transaction's accesses have performed is the model's choice (assumption log 36). -/
def Obligations.TransactionExit : Prop :=
  (∀ h s c, Ready (.txx h) s c → c.inTx = true → txQuiet c.w = true →
    Does (.txx h) s c (releaseSerial (putWave s { c.w with tx := { c.w.tx with
      depth := 0, aborts := 0, serial := false, alts := [], reads := [], writes := [] } }) c.w.id) ∧
    ((nextPos c.pos c.hdr).idx ≠ 0 ∨ c.sp.rcv ≠ some (nextPos c.pos c.hdr).hdr → ∃ t, exec (.txx h) s = .next t ∧ ((theWave t c).split c.k).region = nextPos c.pos c.hdr)) ∧
  (∀ h s c, Runs (.txx h) s c → c.inTx = false → Does (.txx h) s c s)

/-- R324 to R326: BARA is a release and an arrival; BAR arrives, waits until the phase has passed its arrival, and acquires; BARW waits and acquires. An arrival counts once for a wave in a phase, and the arrival that reaches the latched count advances the phase. That BAR is two steps is the model's reading (assumption log 37). -/
def Obligations.BarrierWords : Prop :=
  (∀ h sc k a s c, Ready (.bara h sc k a) s c → (sc = .pod → c.w.podSent = []) → releaseReady s c.w (barOrder sc) = true →
    let s0 := if sc = .pod then clearMarkers s c.w.id c.w.nextEntry else s
    let m := makeBar s0 c.w sc k.val
    let n := src s c a c.low
    let count := if n = 0 then defaultCount m.1 m.2 else n
    (m.2.arrived = 0 ∨ m.2.id ∈ c.w.barHere ∨ (n = 0 ∧ m.2.fromZero = true) ∨ count = m.2.count) →
    Does (.bara h sc k a) s c (arrive m.1 c.w.id m.2 count (decide (n = 0)))) ∧
  (∀ h sc k a s c, Ready (.bar h sc k a) s c → c.sp.arrived = false → (sc = .pod → c.w.podSent = []) → releaseReady s c.w (barOrder sc) = true →
    let s0 := if sc = .pod then clearMarkers s c.w.id c.w.nextEntry else s
    let m := makeBar s0 c.w sc k.val
    let n := src s c a c.low
    let count := if n = 0 then defaultCount m.1 m.2 else n
    (m.2.arrived = 0 ∨ m.2.id ∈ c.w.barHere ∨ (n = 0 ∧ m.2.fromZero = true) ∨ count = m.2.count) →
    ∃ t, exec (.bar h sc k a) s = .next t ∧ UpToPosition (arrive m.1 c.w.id m.2 count (decide (n = 0))) t c ∧
      ((theWave t c).split c.k).pc = c.sp.pc ∧ ((theWave t c).split c.k).arrived = true) ∧
  (∀ h sc k a s c, Ready (.bar h sc k a) s c → c.sp.arrived = true → c.inTx = false → barPassed c.w (makeBar s c.w sc k.val).2 = true →
    Does (.bar h sc k a) s c (acquire (makeBar s c.w sc k.val).1 c.core (barOrder sc))) ∧
  (∀ h sc k s c, Ready (.barw h sc k) s c → c.inTx = false → barPassed c.w (makeBar s c.w sc k.val).2 = true →
    Does (.barw h sc k) s c (acquire (makeBar s c.w sc k.val).1 c.core (barOrder sc))) ∧
  (∀ h sc k s c, Ready (.barw h sc k) s c → c.inTx = false → barPassed c.w (makeBar s c.w sc k.val).2 = false →
    exec (.barw h sc k) s = .next (sleepOn (makeBar s c.w sc k.val).1 c.w.id c.k [.phase (makeBar s c.w sc k.val).2.id] .fixed)) ∧
  (∀ w b, barPassed w b = true ↔ ∀ p, mget? w.barLast b.id = some p → p ≠ b.phase.toNat) ∧
  (∀ s w b count z, mget? s.waves w.id = some w → b.id ∈ w.barHere → arrive s w.id b count z = s) ∧
  (∀ s w b count z, mget? s.waves w.id = some w → b.id ∉ w.barHere →
    let b1 := if b.arrived = 0 then { b with count := count, fromZero := z } else b
    (b.arrived + 1 ≠ b1.count → arrive s w.id b count z =
      putWave { s with barriers := mset s.barriers b.id { b1 with arrived := b.arrived + 1 } }
        { w with barLast := mset w.barLast b.id b.phase.toNat, barHere := addNat b.id w.barHere }) ∧
    (b.arrived + 1 = b1.count → mget? (arrive s w.id b count z).barriers b.id = some { b1 with phase := b.phase + 1, arrived := 0 }))

/-- R327, R328, R161: WAITC and JOIN complete when the word at their address meets their condition, acquire where their order says so, and change no byte and no register; while it does not hold, they sleep. That a wait holds behind the wave's own accesses of its word is the model's reading (assumption log 37). -/
def Obligations.WordWaits : Prop :=
  let at_ := fun (s : State) (c : Ctx) (m : MemArg) (n pa : Nat) (page : PageAttr) =>
    globTarget s c (globalAddr s c m c.low) n .read 0 = .at (.dev pa) page ∧ c.inTx = false ∧ readNow s c (.dev pa) n = true ∧
      isPoisoned s (.dev pa) = false ∧ (∀ line, (bandOf s line).shadow = none) ∧ (bandOf s (pa / 128)).keyId = page.keyId
  let read := fun (s : State) (c : Ctx) (m : MemArg) (pa : Nat) (page : PageAttr) => reach s c.w.part (dieOfCore c.core) true m.hint page (.dev pa)
  let holds := fun (v : WaitV) (x w : Nat) => match v with
    | .eqB32 => w = x | .neB32 => w ≠ x | .geN32 => x ≤ w | .ltN32 => w < x | .eqB64 => w = x | .neB64 => w ≠ x
  let comparand := fun (v : WaitV) (s : State) (c : Ctx) (d : Opr) => if v.regs = 2 then src64 s c d c.low else src s c d c.low
  (∀ h v d m s c pa page, Ready (.waitc h v d m) s c → at_ s c m (4 * v.regs) pa page → holds v (comparand v s c d) (leNat (readBytes s (.dev pa) (4 * v.regs))) →
    Does (.waitc h v d m) s c (if m.order = .acq then acquire (read s c m pa page) c.core m.scope else read s c m pa page)) ∧
  (∀ h v d m s c pa page, Ready (.waitc h v d m) s c → at_ s c m (4 * v.regs) pa page → ¬ holds v (comparand v s c d) (leNat (readBytes s (.dev pa) (4 * v.regs))) →
    exec (.waitc h v d m) s = .next (sleepOn (read s c m pa page) c.w.id c.k [.dev (pa / 128)] .fixed)) ∧
  (∀ h m s c pa page, Ready (.join h m) s c → at_ s c m 4 pa page → leNat (readBytes s (.dev pa) 4) = 0 →
    Does (.join h m) s c (acquire (read s c m pa page) c.core .die)) ∧
  (∀ h m s c pa page, Ready (.join h m) s c → at_ s c m 4 pa page → leNat (readBytes s (.dev pa) 4) ≠ 0 →
    exec (.join h m) s = .next (sleepOn (read s c m pa page) c.w.id c.k [.dev (pa / 128)] .fixed)) ∧
  (∀ s c m n pa page, at_ s c m n pa page → (∀ l, readLoc (read s c m pa page) l = readLoc s l) ∧
    (read s c m pa page).waves = s.waves ∧ (read s c m pa page).elems = s.elems ∧ (read s c m pa page).l1 = s.l1)

/-- R163, R165, R330, R369: SPAWN puts a release at `.die` on the pending queue with one record for each active lane and an addition to each join counter that a lane names; with no active lane the release alone. SPFL seals every gather slot of its core that holds a record. When a record enters its queue is the model's reading (assumption log 45). -/
def Obligations.SpawnWords : Prop :=
  (∀ h entry a b s c (place : Nat → Loc) (page : Nat → PageAttr), Ready (.spawn h entry a b) s c →
    (∀ l, bit c.act l = true → joinTarget s c (src64 s c b l) entry.toNat = .at (place l) (page l)) →
    inTransit s c.core + (lanesOf c.act).length ≤ queueRoom s c.core + overflowRoom s c.w.launch (dieOfCore c.core) →
    let lbl := labelOf s c a 4 ||| labelOf s c b 2 ||| c.ctx
    let named := (lanesOf c.act).filter fun l => src64 s c b l != 0
    ∃ t e, exec (.spawn h entry a b) s = .next t ∧ (∀ l, readLoc t l = readLoc s l) ∧ t.rest = { s.rest with issued := s.issued + 1 } ∧ t.elems = s.elems ∧
      (∀ j, j ≠ c.w.id → mget? t.waves j = mget? s.waves j) ∧
      (theWave t c).data = { c.w with pending := c.w.pending ++ [e], nextEntry := c.w.nextEntry + 2, podSent := (theWave t c).podSent : Wave }.data ∧
      e.kind = .spawnAdd ∧ e.order = .rel ∧ e.scope = .die ∧
      e.recs = (lanesOf c.act).map (fun l => ⟨0, spawnOrder s.clock c.w.quad s.issued, c.w.launch, c.w.part, entry.toNat, c.w.depth + 1, lbl, srcs s c a 4 l, BitVec.ofNat 64 (src64 s c b l)⟩) ∧
      (named ≠ [] → e.accs = named.map fun l => newAccess l (place l) (src64 s c b l) 4 [1, 0, 0, 0] [] lbl (page l))) ∧
  (∀ h entry a b s c, prelude (.spawn h entry a b) s = .ok c → c.act = 0 →
    ∃ t e, exec (.spawn h entry a b) s = .next t ∧ (∀ l, readLoc t l = readLoc s l) ∧ t.rest = s.rest ∧ t.elems = s.elems ∧
      (∀ j, j ≠ c.w.id → mget? t.waves j = mget? s.waves j) ∧
      (theWave t c).data = { c.w with pending := c.w.pending ++ [e], nextEntry := c.w.nextEntry + 2, podSent := (theWave t c).podSent : Wave }.data ∧
      e.kind = .spawnAdd ∧ e.order = .rel ∧ e.scope = .die ∧ e.recs = [] ∧ (∀ x ∈ e.accs, x.bytes = 0)) ∧
  (∀ h s c, Ready (.spfl h) s c → ∃ t, exec (.spfl h) s = .next t ∧ (∀ l, readLoc t l = readLoc s l) ∧
    t.rest = { s.rest with gatherSlots := t.gatherSlots, sealCount := t.sealCount } ∧ t.elems = s.elems ∧
    (∀ j, j ≠ c.w.id → mget? t.waves j = mget? s.waves j) ∧ (theWave t c).data = c.w.data ∧
    (∀ k g, mget? t.gatherSlots k = some g → k / 8 = c.core → g.recs ≠ [] → g.isSealed = true) ∧
    (∀ k, k / 8 ≠ c.core → mget? t.gatherSlots k = mget? s.gatherSlots k))

/-- R335, R338, R340, R404: BCLAIM attaches a claim to free slots, zeroes them and gives them the label ctx; BREL frees the claims that its range holds and empties their slots' labels; BST and BRD name claimed bytes and go to the matrix unit. -/
def Obligations.BenchWords : Prop :=
  (∀ h a s c cl, Ready (.bclaim h a) s c → claimOf (src64 s c a c.low) = some cl → matrixIdle s c.w.quad = true →
    (∀ x, cl.first ≤ x → x < cl.first + cl.count → x < c.ent.bench ∧ claimAt c.w.bench x = none) →
    ∃ t, exec (.bclaim h a) s = .next t ∧ (∀ l, readLoc t l = readLoc s l) ∧ t.rest = s.rest ∧ t.elems = s.elems ∧
      (∀ j, j ≠ c.w.id → mget? t.waves j = mget? s.waves j) ∧
      (theWave t c).data = { c.w with bench := (theWave t c).bench : Wave }.data ∧ (theWave t c).bench.claims = c.w.bench.claims ++ [cl] ∧
      (∀ off, (theWave t c).bench.byte off = if cl.first * 2048 ≤ off ∧ off < (cl.first + cl.count) * 2048 then 0 else c.w.bench.byte off) ∧
      (∀ x, (theWave t c).bench.label x = if cl.first ≤ x ∧ x < cl.first + cl.count then c.ctx else c.w.bench.label x)) ∧
  (∀ h a s c, Ready (.brel h a) s c → matrixIdle s c.w.quad = true →
    let first := src s c a c.low % 32
    let last := first + src s c a c.low / 32 % 64
    let whole := fun cl : Claim => decide (first ≤ cl.first ∧ cl.first + cl.count ≤ last)
    (∀ cl ∈ c.w.bench.claims, whole cl = false → last ≤ cl.first ∨ cl.first + cl.count ≤ first) →
    (∀ e ∈ s.copies, e.2.wave = c.w.id → e.2.done = false → ∀ cl ∈ c.w.bench.claims, whole cl = true → copyWrites e.2 cl = false) →
    ∃ t, exec (.brel h a) s = .next t ∧ (∀ l, readLoc t l = readLoc s l) ∧ t.rest = s.rest ∧ t.elems = s.elems ∧
      (∀ j, j ≠ c.w.id → mget? t.waves j = mget? s.waves j) ∧
      (theWave t c).data = { c.w with bench := (theWave t c).bench : Wave }.data ∧
      (theWave t c).bench.claims = c.w.bench.claims.filter (fun cl => !whole cl) ∧ (theWave t c).bench.bytes = c.w.bench.bytes ∧
      (∀ x, (theWave t c).bench.label x =
        if ∃ cl ∈ c.w.bench.claims, whole cl = true ∧ cl.first ≤ x ∧ x < cl.first + cl.count then 0 else c.w.bench.label x)) ∧
  (∀ h d m s c, Ready (.bst h d m) s c →
    (∀ l, bit c.act l = true → benchAddr s c m l % 4 = 0 ∧ benchAddr s c m l < 65536 ∧ (claimAt c.w.bench (benchAddr s c m l / 2048)).isSome = true) →
    ∃ t, exec (.bst h d m) s = .next t ∧ AccessIssued s t c [] (longOp s c false false (.matrix (.bst
      ((lanesOf c.act).map fun l => (benchAddr s c m l, readReg s c d 0 l)) (labelOf s c d 1 ||| addrLabels s c m false ||| c.ctx))))) ∧
  (∀ h d m s c, Ready (.brd h d m) s c →
    (∀ l, bit c.act l = true → benchAddr s c m l % 4 = 0 ∧ benchAddr s c m l < 65536 ∧ (claimAt c.w.bench (benchAddr s c m l / 2048)).isSome = true ∧
      SoftMark.slot c.w.id (benchAddr s c m l / 2048) ∉ s.soft ∧ SoftMark.slotLabel c.w.id (benchAddr s c m l / 2048) ∉ s.soft) →
    ∃ t, exec (.brd h d m) s = .next t ∧ AccessIssued s t c [] (longOp s c false false (.matrix (.brd d.code
      ((lanesOf c.act).map fun l => (l, benchAddr s c m l)) (addrLabels s c m false ||| c.ctx))))) ∧
  (∀ s c m l, benchAddr s c m l = (src s c m.base l + src s c m.x l + (m.off.signExtend 32).toNat) % 2 ^ 32)

/-- R341 to R345: MMA, ARD and AWR go to the matrix unit in order, AWR with its registers' values; ACLR zeroes the active rows at once; AST puts one entry of 64 elements on the pending queue for each active row, with the values that the tile holds. That a quadrant's matrix unit completes its operations in issue order by events is the model's choice (assumption log 44). -/
def Obligations.MatrixWords : Prop :=
  (∀ h sat neg clr t a b s c, Ready (.mma h sat neg clr t a b) s c → (∀ x, SoftMark.slot c.w.id x ∉ s.soft ∧ SoftMark.slotLabel c.w.id x ∉ s.soft) →
    (clr = true ∨ SoftMark.tile c.w.quad t.val ∉ s.soft ∧ SoftMark.tileLabel c.w.quad t.val ∉ s.soft) →
    ∃ u, exec (.mma h sat neg clr t a b) s = .next u ∧
      AccessIssued s u c [] (longOp s c (!clr) false (.matrix (.mma sat neg clr t.val a.val b.val c.ctx)))) ∧
  (∀ h bf t g rm sat d s c, Ready (.ard h bf t g rm sat d) s c → SoftMark.tile c.w.quad t.val ∉ s.soft → SoftMark.tileLabel c.w.quad t.val ∉ s.soft →
    ∃ u, exec (.ard h bf t g rm sat d) s = .next u ∧
      AccessIssued s u c [] (longOp s c false false (.matrix (.ard bf t.val g.val rm sat d.code c.ctx)))) ∧
  (∀ h bf t g a s c, Ready (.awr h bf t g a) s c →
    ∃ u, exec (.awr h bf t g a) s = .next u ∧ AccessIssued s u c [] (longOp s c false false (.matrix (.awr bf t.val g.val
      ((lanesOf c.act).map fun l => (l, (List.range 8).map fun i => readReg s c a i l)) (labelOf s c a 8 ||| c.ctx))))) ∧
  (∀ h t s c, Ready (.aclr h t) s c → matrixIdle s c.w.quad = true →
    ∃ u, exec (.aclr h t) s = .next u ∧ (∀ l, readLoc u l = readLoc s l) ∧ u.rest = { s.rest with tiles := u.tiles, tileLabels := u.tileLabels } ∧
      u.elems = s.elems ∧ (∀ j, j ≠ c.w.id → mget? u.waves j = mget? s.waves j) ∧ (theWave u c).data = c.w.data ∧
      (∀ r n, n < 64 → bit c.act r = true → tileElem u c.w.quad t.val r n = 0) ∧
      (∀ q k r n, k < 8 → r < 32 → n < 64 → ¬ (q = c.w.quad ∧ k = t.val ∧ bit c.act r = true) → tileElem u q k r n = tileElem s q k r n) ∧
      tileLabel u c.w.quad t.val = (if c.act = allLanes then c.ctx else tileLabel s c.w.quad t.val ||| c.ctx)) ∧
  (∀ h v d m s c (place : Nat → Nat → Loc) (page : Nat → Nat → PageAttr), Ready (.ast h v d m) s c → matrixIdle s c.w.quad = true →
    let ctl := src s c d c.low
    let t := ctl % 8
    let scr := ctl.testBit 3
    let al := labelOf s c m.base (if scr then 1 else 2) ||| labelOf s c m.x 1
    let lbl := tileLabel s c.w.quad t ||| al ||| c.ctx
    let disp := fun r i => m.off.toInt + (r * src s c m.x c.low + i * astBytes v : Nat)
    let addr := fun r i => if scr then (((src s c m.base r : Int) + disp r i) % 2 ^ 32).toNat else (((src64 s c m.base r : Int) + disp r i) % 2 ^ 64).toNat
    astControlOk v ctl = true → SoftMark.tile c.w.quad t ∉ s.soft → SoftMark.tileLabel c.w.quad t ∉ s.soft →
    (∀ r i, bit c.act r = true → i < 64 →
      (if scr then scrTarget s c.w (addr r i) (astBytes v) true else globTarget s c (addr r i) (astBytes v) .write lbl) = .at (place r i) (page r i)) →
    let row := fun r => (List.range 64).map fun i => newAccess i (place r i) (addr r i) (astBytes v)
      (leBytes (astBytes v) (astElem v (Rm.of (ctl / 16 % 8)) (ctl.testBit 7) (tileElem s c.w.quad t r i))) [] lbl (page r i)
    ∃ u, exec (.ast h v d m) s = .next u ∧ AccessIssued s u c
      ((lanesOf c.act).zipIdx.map fun x => { accessEntry c m .store none lbl al (row x.1) with id := c.w.nextEntry + 2 * x.2 })
      (longOp s c false false (.rows ((List.range (lanesOf c.act).length).map fun i => c.w.nextEntry + 2 * i)))) ∧
  (∀ rm sat x, astElem .b32 rm sat x = x.toNat ∧ astElem .bf16 rm sat x = bf16.convert rm sat 0 (f32.value x.toNat) ∧
    astElem .e5m2 rm sat x = e5m2.convert rm sat 0 (f32.value x.toNat) ∧ astElem .i8 rm sat x = (max (-128) (min 127 x.toInt) % 256).toNat ∧
    astElem .n8 rm sat x = (max 0 (min 255 x.toInt)).toNat ∧ astElem .i16 rm sat x = (max (-32768) (min 32767 x.toInt) % 65536).toNat)

/-- R332, R340, R342 to R344: what the matrix unit does at the completion event of its oldest instruction: each active row of an MMA takes the sums of R342, and no other element; ARD and BRD write registers, AWR tile elements, and BST bench words. No byte of memory changes. That a quadrant's matrix unit completes its operations in issue order by events is the model's choice (assumption log 44). -/
def Obligations.MatrixResults : Prop :=
  let first := fun (s : State) (wave op : Nat) (w : Wave) (o : LongOp) (m : MatrixOp) =>
    mget? s.waves wave = some w ∧ w.id = wave ∧ findLong w op = some o ∧ o.what = .matrix m ∧ o.dead = false ∧
      matrixFirst s w.quad o.id = true ∧ w.lanes &&& ~~~w.exited ≠ 0
  (∀ s wave op w o sat neg clr k a b lbl ca cb, first s wave op w o (.mma sat neg clr k a b lbl) →
    claimAt w.bench a = some ca → claimAt w.bench b = some cb →
    let kmax := min (kcap ca.format) (kcap cb.format)
    let old := fun r n => tileElem s w.quad k r n
    let product := fun r n j => if neg then ((benchValue w.bench ca a r j).mul (benchValue w.bench cb b n j)).neg
      else (benchValue w.bench ca a r j).mul (benchValue w.bench cb b n j)
    let total := fun r n => ((List.range kmax).map fun j => benchInt w.bench ca a r j * benchInt w.bench cb b n j).sum
    let new := fun r n =>
      if ca.format = 7 ∨ ca.format = 8 then BitVec.ofInt 32 ((if clr then 0 else (old r n).toInt) + (if neg then - total r n else total r n))
      else BitVec.ofNat 32 ((List.range (kmax / 16)).foldl
        (fun acc g => groupSum sat ((List.range 16).map (fun i => product r n (16 * g + i)) ++ [f32.value acc])) (if clr then 0 else (old r n).toNat))
    ∃ t, exec (.completionEvent wave op) s = .next t ∧ (∀ l, readLoc t l = readLoc s l) ∧
      (∀ r n, n < 64 → bit o.act r = true → tileElem t w.quad k r n = new r n) ∧
      (∀ q j r n, j < 8 → k < 8 → r < 32 → n < 64 → ¬ (q = w.quad ∧ j = k ∧ bit o.act r = true) → tileElem t q j r n = tileElem s q j r n) ∧
      (∀ x, mget? t.waves wave = some x → x.vregs = w.vregs ∧ x.sregs = w.sregs ∧ x.preds = w.preds ∧ x.labels = w.labels ∧ x.bench = w.bench)) ∧
  (∀ s wave op w o bf k g rm sat d lbl, first s wave op w o (.ard bf k g rm sat d lbl) → d + 8 ≤ 192 →
    ∃ t, exec (.completionEvent wave op) s = .next t ∧ (∀ l, readLoc t l = readLoc s l) ∧ t.tiles = s.tiles ∧
      (∀ x i r, mget? t.waves wave = some x → i < 8 → bit o.act r = true → x.vec (d + i) r =
        if bf then BitVec.ofNat 32 (bf16.convert rm sat 0 (f32.value (tileElem s w.quad k r (16 * g + 2 * i)).toNat) +
          65536 * bf16.convert rm sat 0 (f32.value (tileElem s w.quad k r (16 * g + 2 * i + 1)).toNat))
        else tileElem s w.quad k r (8 * g + i)) ∧
      (∀ x m r, mget? t.waves wave = some x → m < 192 → r < 32 → ¬ (d ≤ m ∧ m < d + 8 ∧ bit o.act r = true) → x.vec m r = w.vec m r)) ∧
  (∀ s wave op w o k g rows lbl, first s wave op w o (.awr false k g rows lbl) → (rows.map fun x => x.1).Nodup → g < 8 → (∀ x ∈ rows, x.2.length ≤ 8) →
    ∃ t, exec (.completionEvent wave op) s = .next t ∧ (∀ l, readLoc t l = readLoc s l) ∧
      (∀ x ∈ rows, ∀ i, i < x.2.length → tileElem t w.quad k x.1 (8 * g + i) = nthD x.2 i 0) ∧
      tileLabel t w.quad k = tileLabel s w.quad k ||| lbl) ∧
  (∀ s wave op w o words lbl, first s wave op w o (.bst words lbl) → (words.map fun x => x.1).Nodup → (∀ x ∈ words, x.1 % 4 = 0) →
    ∃ t, exec (.completionEvent wave op) s = .next t ∧ (∀ l, readLoc t l = readLoc s l) ∧
      (∀ x y, mget? t.waves wave = some x → y ∈ words → x.bench.word y.1 = y.2) ∧
      (∀ x off, mget? t.waves wave = some x → (∀ y ∈ words, off < y.1 ∨ y.1 + 4 ≤ off) → x.bench.byte off = w.bench.byte off)) ∧
  (∀ s wave op w o d offs lbl, first s wave op w o (.brd d offs lbl) → d < 192 → (offs.map fun x => x.1).Nodup → (∀ y ∈ offs, y.1 < 32) →
    ∃ t, exec (.completionEvent wave op) s = .next t ∧ (∀ l, readLoc t l = readLoc s l) ∧
      (∀ x y, mget? t.waves wave = some x → y ∈ offs → x.vec d y.1 = w.bench.word y.2) ∧
      (∀ x m r, mget? t.waves wave = some x → m < 192 → r < 32 → ¬ (m = d ∧ ∃ y ∈ offs, y.1 = r) → x.vec m r = w.vec m r))

/-- R347 to R350, R355, R356: the words of a draw: HFREE marks its section in each active lane's record as given up; IPA interpolates over the lane's parents; EMITV and EMITP add vertices and triangles to each active lane's cluster; KILL marks the active lanes; OUTS records each active lane's value and label for its target. No byte of memory changes. That several OUTS leave the OR of their context labels is the model's choice (assumption log 31). -/
def Obligations.DrawWords : Prop :=
  (∀ h (n : Fin 64) s c g k, Ready (.hfree h (.h n)) s c → sectionOf c.ent n.val = some (g, k) →
    (∀ l, bit c.act l = true → ∃ id el, mget? c.w.elems l = some id ∧ mget? s.elems id = some el) →
    ∃ t, exec (.hfree h (.h n)) s = .next t ∧ (∀ l, readLoc t l = readLoc s l) ∧ (∀ j, j ≠ c.w.id → mget? t.waves j = mget? s.waves j) ∧
      (theWave t c).data = c.w.data ∧
      (∀ l id, bit c.act l = true → mget? c.w.elems l = some id → ∃ el, mget? t.elems id = some el ∧ k ∈ el.hfreed) ∧
      (∀ id el, mget? s.elems id = some el → ∃ el', mget? t.elems id = some el' ∧ el'.vals = el.vals ∧ el'.vlabels = el.vlabels)) ∧
  (∀ h v d (n : Fin 64), WritesWith (.ipa h v d (.h n)) d 1
    (fun s c l => [interpolate v (match ownElem s c l with | some e => e.lam | none => [])
      ((parentsOf s c l).map fun e => match e.vert with | some x => x.c | none => 0) ((parentsOf s c l).map fun e => (heldIn c.ent e n.val).1)])
    (fun s c => (lanesOf c.act).foldl (fun acc l => (parentsOf s c l).foldl (fun acc e => acc ||| (heldIn c.ent e n.val).2) acc) c.ctx)) ∧
  (∀ h a s c, Ready (.emitv h a) s c → (∀ l, bit c.act l = true → (emitOf c.w l).verts + src s c a l ≤ 128) →
    ∃ t, exec (.emitv h a) s = .next t ∧ (∀ l, readLoc t l = readLoc s l) ∧ t.rest = s.rest ∧ t.elems = s.elems ∧
      (∀ j, j ≠ c.w.id → mget? t.waves j = mget? s.waves j) ∧ (theWave t c).data = { c.w with emit := (theWave t c).emit : Wave }.data ∧
      ∀ l, emitOf (theWave t c) l = if bit c.act l then ⟨(emitOf c.w l).verts + src s c a l, (emitOf c.w l).tris⟩ else emitOf c.w l) ∧
  (∀ h a s c, Ready (.emitp h a) s c →
    (∀ l, bit c.act l = true → readReg s c a 0 l &&& ~~~0x007F7F7F = 0 ∧ (emitOf c.w l).tris.length < 128) →
    ∃ t, exec (.emitp h a) s = .next t ∧ (∀ l, readLoc t l = readLoc s l) ∧ t.rest = s.rest ∧ t.elems = s.elems ∧
      (∀ j, j ≠ c.w.id → mget? t.waves j = mget? s.waves j) ∧ (theWave t c).data = { c.w with emit := (theWave t c).emit : Wave }.data ∧
      ∀ l, emitOf (theWave t c) l = if bit c.act l then ⟨(emitOf c.w l).verts, (emitOf c.w l).tris ++ [readReg s c a 0 l]⟩ else emitOf c.w l) ∧
  (∀ h s c, Ready (.kill h) s c → Does (.kill h) s c (putWave s { c.w with killed := c.w.killed ||| c.act })) ∧
  (∀ h t a s c dr, Ready (.outs h t a) s c → c.launch.draw = some dr → platAway s c.w.part (OutT.plat dr t) = false →
    let lbl := labelOf s c a 4 ||| c.ctx
    (∀ l el x, bit c.act l = true → ownElem s c l = some el → x ∈ outPlaces s c.w.part dr t el → engineMay s c.w.part lbl x 1 = true) →
    ∃ u, exec (.outs h t a) s = .next u ∧ (∀ l, readLoc u l = readLoc s l) ∧ u.rest = s.rest ∧
      (∀ j, j ≠ c.w.id → mget? u.waves j = mget? s.waves j) ∧ (theWave u c).data = c.w.data ∧
      (∀ l id el, bit c.act l = true → mget? c.w.elems l = some id → mget? s.elems id = some el →
        (∀ l', bit c.act l' = true → mget? c.w.elems l' = some id → l' = l) →
        mget? u.elems id = some { el with outs := mset el.outs (Sys2Proof.Machine.OutT.num t) ((List.range 4).map fun i => readReg s c a i l)
                                          outLabels := mset el.outLabels (Sys2Proof.Machine.OutT.num t) lbl, outCtx := el.outCtx ||| c.ctx }) ∧
      (∀ id, (∀ l, bit c.act l = true → mget? c.w.elems l ≠ some id) → mget? u.elems id = mget? s.elems id))

/-- R73, R78 to R81, R351 to R354: TEX and TLD go to the texture engine with each lane's record address and coordinates; TRACE, where its launch takes records in its turn and with a unit free for each lane, opens each active lane's slot, sends its ray record, numbered in lane order, and makes a RAY element of the lane's element for it, whose INDEX, the slot, is the model's choice (assumption log 55); RRET delivers to the slot that the ray came from; MBOX takes what full slots hold and frees them, and its waiting form sleeps while a slot is pending. No byte of memory changes. A ray at its edges is the model's reading (assumption log 33). -/
def Obligations.TextureRayWords : Prop :=
  (∀ h v d a b x s c, Ready (.tex h v d a b x) s c →
    let lane := fun l => (⟨l, BitVec.ofNat 64 (src64 s c a l), readReg s c b 0 l, readReg s c b 1 l, readReg s c x 0 l⟩ : TexLane)
    ∃ t, exec (.tex h v d a b x) s = .next t ∧ AccessIssued { s with nextCopy := s.nextCopy + 1 } t c [] (longOp s c false false (.tex
      { tld := false, filter := v, d := d.code, lanes := if d.isScalar then [lane c.low] else (lanesOf c.act).map lane
        label := labelOf s c b 2 ||| c.ctx, after := c.w.fenced, stall := none, num := s.nextCopy, got := [] }))) ∧
  (∀ h d a b x s c, Ready (.tld h d a b x) s c →
    let lane := fun l => (⟨l, BitVec.ofNat 64 (src64 s c a l), readReg s c b 0 l, readReg s c b 1 l, readReg s c x 0 l⟩ : TexLane)
    ∃ t, exec (.tld h d a b x) s = .next t ∧ AccessIssued { s with nextCopy := s.nextCopy + 1 } t c [] (longOp s c false false (.tex
      { tld := true, filter := .near, d := d.code, lanes := if d.isScalar then [lane c.low] else (lanesOf c.act).map lane
        label := labelOf s c b 2 ||| c.ctx, after := c.w.fenced, stall := none, num := s.nextCopy, got := [] }))) ∧
  (∀ h slot cullback one a b s c, Ready (.trace h slot cullback one a b) s c →
    (∀ l, bit c.act l = true → hitEntryOk c (src s c b l % 256) = true ∧ (c.w.slotOf l slot.val).st = .free) →
    (takesUnits s c.launch = true → traceMay s c (lanesOf c.act).length = true) → mget? s.launches c.launch.id = some c.launch →
    let lbl := labelOf s c a 8 ||| labelOf s c b 1 ||| c.ctx
    ∃ t, exec (.trace h slot cullback one a b) s = .next t ∧ (∀ l, readLoc t l = readLoc s l) ∧
      (∀ l, bit c.act l = true → ((theWave t c).slotOf l slot.val).st = .pending) ∧ t.nextRay = s.nextRay + (lanesOf c.act).length ∧
      (∀ i l, (lanesOf c.act)[i]? = some l →
        mget? t.rays (s.nextRay + i) = some { newRay s c slot.val cullback one ((List.range 8).map fun j => readReg s c a j l) (src s c b l % 256) l
          (s.nextElem + i) lbl with id := s.nextRay + i, num := s.nextCopy + i } ∧
        ∃ el, mget? t.elems (s.nextElem + i) = some el ∧ el.id = s.nextElem + i ∧ el.rate = .ray ∧ el.parent = mget? c.w.elems l ∧
          el.index = slot.val ∧ el.launch = c.launch.id ∧ el.die = c.die ∧ (takesUnits s c.launch = false → el.state = .running)) ∧
      (∀ r, r < s.nextRay → mget? t.rays r = mget? s.rays r) ∧
      (theWave t c).vregs = c.w.vregs ∧ (theWave t c).sregs = c.w.sregs ∧ (theWave t c).preds = c.w.preds ∧ (theWave t c).labels = c.w.labels ∧
      (theWave t c).flags = mput 0 c.w.flags c.flag (mgetD c.w.flags c.flag 0 + 1) ∧
      (theWave t c).long = c.w.long ++ [longOp s c true false (.ray s.nextRay)]) ∧
  (∀ h a s c, Ready (.rret h a) s c → Does (.rret h a) s c ((lanesOf c.act).foldl (fun u l => match ownElem u c l with
    | none => u
    | some e => match e.hit with
      | none => u
      | some x => if x.delivered then u else
        let u := deliver u x.wave x.lane x.slot ((List.range 4).map fun i => readReg u c a i l) (List.replicate 4 (labelOf s c a 4 ||| c.ctx))
        { u with elems := mset u.elems e.id { e with hit := some { x with delivered := true } } }) s)) ∧
  (∀ s wid lane slot words labels w, mget? s.waves wid = some w → w.id = wid →
    ((w.slotOf lane slot).st ≠ .pending → deliver s wid lane slot words labels = s) ∧
    ((w.slotOf lane slot).st = .pending → bit w.exited lane = false → SoftMark.mbox wid (mboxKey lane slot) ∉ s.soft →
      ∃ x, mget? (deliver s wid lane slot words labels).waves wid = some x ∧ x.slotOf lane slot = ⟨.full, words, labels⟩)) ∧
  (∀ h slot d x s c, Ready (.mboxTry h slot d x) s c → (∀ l, SoftMark.mbox c.w.id (mboxKey l slot.val) ∉ s.soft) →
    ∃ t, exec (.mboxTry h slot d x) s = .next t ∧ (∀ l, readLoc t l = readLoc s l) ∧ t.rest = { s.rest with issued := s.issued + 1 } ∧ t.elems = s.elems ∧
      (∀ j, j ≠ c.w.id → mget? t.waves j = mget? s.waves j) ∧
      (theWave t c).data = { c.w with
        mbox := (theWave t c).mbox, flags := mput 0 c.w.flags c.flag (mgetD c.w.flags c.flag 0 + 1)
        long := c.w.long ++ [longOp s c false false (.regs (mboxWrites c slot.val d x))] : Wave }.data ∧
      (∀ l, bit c.act l = true → (c.w.slotOf l slot.val).st = .full → (theWave t c).slotOf l slot.val = Mbox.free) ∧
      (∀ l, l < 32 → (bit c.act l = false ∨ (c.w.slotOf l slot.val).st ≠ .full) → (theWave t c).slotOf l slot.val = c.w.slotOf l slot.val)) ∧
  (∀ h slot d x s c, Ready (.mboxWait h slot d x) s c → (∀ l, SoftMark.mbox c.w.id (mboxKey l slot.val) ∉ s.soft) → c.inTx = false →
    (∀ l, bit c.act l = true → (c.w.slotOf l slot.val).st ≠ .pending) →
    Does (.mboxWait h slot d x) s c (applyWrites (mboxTake s c slot.val) c.w.id (mboxWrites c slot.val d x))) ∧
  (∀ h slot d x s c, Ready (.mboxWait h slot d x) s c → (∀ l, SoftMark.mbox c.w.id (mboxKey l slot.val) ∉ s.soft) → c.inTx = false →
    let pend := (lanesOf c.act).filter fun l => (c.w.slotOf l slot.val).st == .pending
    pend ≠ [] → exec (.mboxWait h slot d x) s = .next (sleepOn s c.w.id c.k (pend.map fun l => .mbox c.w.id l slot.val) .fixed)) ∧
  (∀ c slot l i (k j : Fin 192), bit c.act l = true → i < 4 → (c.w.slotOf l slot).st = .full →
    (⟨k.val + i, l, nthD (c.w.slotOf l slot).words i 0, nthD (c.w.slotOf l slot).labels i 0 ||| c.ctx⟩ : RegWrite) ∈ mboxWrites c slot (.v k) (.v j) ∧
    (⟨j.val, l, 0, c.ctx⟩ : RegWrite) ∈ mboxWrites c slot (.v k) (.v j)) ∧
  (∀ c slot l (k j : Fin 192), bit c.act l = true → (⟨j.val, l, match (c.w.slotOf l slot).st with | .full => 0 | .pending => 1 | .free => 2, c.ctx⟩ : RegWrite) ∈
    mboxWrites c slot (.v k) (.v j))

/-- R178, R357 to R361, R407: LBLRD hands over a label as a value; CSRR writes the register that R360 lists, with the label ctx; CSRW adds to the context label; GREL enters its copy and stands last in the gate's queue; TRET resolves the fault that its handle names and goes on, and outside a trap entry it raises an illegal use and does none of it. That CSRW takes its source's label too is the model's reading (assumption log 41), as is the place of a GREL in the gate's queue (log 34); that PQUAD, PSLOT and PDIE read physical numbers is its choice (log 59). -/
def Obligations.SystemWords : Prop :=
  (∀ h d a s c, Ready (.lblrd h d a) s c → ∃ t, exec (.lblrd h d a) s = .next t ∧
    AccessIssued s t c [] (longOp s c false true (.regs [⟨d.code, 0, labelOf s c a 1, labelOf s c a 1 ||| c.ctx⟩]))) ∧
  (∀ h d csr, WritesWith (.csrr h d csr) d (if csr = 0 then 2 else 1) (fun s c l =>
    let n := csr.toNat
    let w := fun (x : Nat) => [BitVec.ofNat 32 x]
    let physical := fun (x : Nat) => if c.launch.determ then [0] else [BitVec.ofNat 32 x]
    if n = 0 then (if c.launch.determ then [0, 0] else toWords 2 s.clock) else if n = 2 then physical c.w.quad else if n = 3 then physical c.w.slot
    else if n = 4 then physical (dieOfQuadrant c.w.quad) else if n = 5 then physical c.w.lquad else if n = 6 then w c.w.part else if n = 7 then w s.pkgNum
    else if n = 0x10 then w l else if n = 0x11 then [c.sp.mask] else if n = 0x12 then [c.sp.ctx] else if n = 0x13 then w c.w.depth
    else if n = 0x14 then w c.w.entry else if n = 0x15 then w c.w.batchNext
    else if 0x20 ≤ n ∧ n < 0x28 then w (leNat ((c.obj.identity.drop (4 * (n - 0x20))).take 4))
    else if 0x30 ≤ n ∧ n < 0x40 then (match c.w.trapRec with
      | some r => [nthD ({ r with pquad := 0 } : Record).words (n - 0x30) 0]
      | none => [0])
    else [0]) fun _ c => c.ctx) ∧
  (∀ h csr a s c, Ready (.csrw h csr a) s c → Does (.csrw h csr a) s c s ∧
    ((nextPos c.pos c.hdr).idx ≠ 0 → ∃ t, exec (.csrw h csr a) s = .next t ∧
      ((theWave t c).split c.k).ctx = c.ctx ||| readReg s c a 0 c.low ||| labelOf s c a 1)) ∧
  (∀ h scr n (k : Fin 64) a b x s c e, Ready (.grel h scr n (.s k) a b x) s c → FreeEntry s c.core e →
    let from_ := if scr then src s c a c.low else src64 s c a c.low
    let len := src s c b c.low
    let off := (readReg s c b 1 c.low).toNat
    let cp := newCopy s c e (.gate (rawRef s c.w (!scr) from_ 0 false) len n.val off (readReg s c x 0 c.low)) true [] (min 64 ((len + 511) / 512))
      (labelOf s c a (if scr then 1 else 2) ||| labelOf s c b 2 ||| labelOf s c x 1) (labelOf s c a (if scr then 1 else 2))
    len % 16 = 0 → 16 ≤ len → len ≤ 2 ^ 24 → off % 16 = 0 → from_ % 16 = 0 → (scr = true → from_.testBit 20 = false) →
    ∃ t, exec (.grel h scr n (.s k) a b x) s = .next t ∧ Wrote s t c (.s k) 1 (fun _ => [cp.handle]) c.ctx ∧ (∀ l, readLoc t l = readLoc s l) ∧
      t.rest = { s.rest with copies := mset s.copies cp.id cp, nextCopy := s.nextCopy + 1, copySeq := mset s.copySeq c.core ((cp.seq + 1) % 2 ^ 22),
                             gateQ := s.gateQ ++ [cp.id] } ∧ t.elems = s.elems ∧
      (theWave t c).opened = c.w.opened ++ [cp.id] ∧ (∀ m, m < 64 → m ≠ k.val → (theWave t c).scalar m = c.w.scalar m) ∧
      (theWave t c).vregs = c.w.vregs ∧ (theWave t c).preds = c.w.preds) ∧
  (∀ h mode a s c, Ready (.tret h mode a) s c →
    (mode = .next → ∀ x k st, findHandle s c.w.part (readReg s c a 0 c.low) = some (x, k) → x.stop = some st → keepsPc st.code = true) →
    Does (.tret h mode a) s c (resolve s c.w.part (readReg s c a 0 c.low) (match mode with | .replay => .replay | .next => .next | .finish => .finish))) ∧
  (∀ s part hd, findHandle s part hd = none → ∀ m, resolve s part hd m = s) ∧
  (∀ h mode a s c, issuerOf (.tret h mode a) s = some c → c.w.role ≠ .trap →
    ∃ f, (f.code = 2 ∨ f.code = 3) ∧ exec (.tret h mode a) s = .next (takeFault s (theWave s c) c.k c.pos c.h.rate.num f))

/-- R190, R191, R383: the doorbell moves TAIL and starts a stopped queue again; a command with FENCE waits for the queue's earlier launches; NOP, LOOP, IF and WAIT move HEAD as their entries say, and WAIT holds the queue until a wake makes it read again; a command that R383 names stops the queue with a record. No byte of memory changes. A queue word that cannot be read, and LOOP and IF at their edges, are the model's choice (assumption log 26, 27). -/
def Obligations.CommandFlow : Prop :=
  let at_ := fun (s : State) (part q : Nat) (p : Partition) (x : Queue) =>
    s.curQueue = (part, q) ∧ mget? s.parts part = some p ∧ mget? p.queues q = some x
  let clear := fun (s : State) (part q : Nat) (fence : Bool) => fence = true → queueIdle s part q = true
  let command := fun (i : Instr) => match i with
    | .cmdNop .. => True | .launch .. => True | .launchIndirect .. => True | .cmdLoop .. => True | .cmdIf .. => True | .cmdWait .. => True
    | .signal .. => True | .invxl .. => True | _ => False
  (∀ s part q p (x : Queue) v, mget? s.parts part = some p → mget? p.queues q = some x → p.vfEnabled = true → q < 8 →
    exec (.tail part q v) s = .next (putQueue { s with power := s.power.filter fun e => e.st != .packageSleep } part q
      { x with tailIdx := v.toNat % x.ringSize.toNat, wait := if x.wait = .stopped then .none else x.wait })) ∧
  (∀ s part q p x i, at_ s part q p x → command i → i.fenced = true → queueIdle s part q = false → exec i s = .next s) ∧
  (∀ (x : Queue) n, x.loops = [] → x.advance n = { x with head := (x.head + n) % x.ringSize.toNat }) ∧
  (∀ s part q p x fence hd, at_ s part q p x → clear s part q fence → ringWord s part x x.head = some hd →
    exec (.cmdNop fence) s = .next (putQueue s part q (x.advance (hd.toNat / 2 ^ 51 % 32 + 1)))) ∧
  (∀ s part q p (x : Queue) fence body count, at_ s part q p x → clear s part q fence → x.loops.length < 4 → body ≠ 0 → count ≠ 0 →
    (∀ f fs, x.loops = f :: fs → body.toNat ≤ x.span (x.head + 1) f.stop) → x.ringSize ≠ 0 →
    exec (.cmdLoop fence body count) s = .next (putQueue s part q { x with
      head := (x.head + 1) % x.ringSize.toNat
      loops := ⟨(x.head + 1) % x.ringSize.toNat, x.wrap ((x.head + 1) % x.ringSize.toNat + body.toNat), count.toNat⟩ :: x.loops })) ∧
  (∀ s part q p (x : Queue) fence body count, at_ s part q p x → clear s part q fence → x.loops = [] → body = 0 ∨ count = 0 →
    exec (.cmdLoop fence body count) s = .next (putQueue s part q (x.advance (1 + body.toNat)))) ∧
  (∀ s part q p (x : Queue) fence body count, at_ s part q p x → clear s part q fence → 4 ≤ x.loops.length →
    exec (.cmdLoop fence body count) s = .next (pushRecord (putQueue s part q { x with wait := .stopped }) part
      (eventRecord 0 0x20 (3 + 2 ^ 9) (x.addr x.head).toNat))) ∧
  (∀ s part q p x fence skip cmp addr val k v, at_ s part q p x → clear s part q fence → commandWord s part addr = some (k, v) →
    exec (.cmdIf fence skip cmp addr val) s = .next (putQueue (readWord s part addr) part q (x.advance (if (match cmp with
      | .eq => decide (v = val.toNat) | .ne => decide (v ≠ val.toNat) | .lt => decide (v < val.toNat) | .ge => decide (val.toNat ≤ v)) then 3 else 3 + skip.toNat)))) ∧
  (∀ s part q p x fence cmp addr val k v, at_ s part q p x → clear s part q fence → commandWord s part addr = some (k, v) →
    exec (.cmdWait fence cmp addr val) s = .next (putQueue (readWord s part addr) part q (if (match cmp with
      | .eq => decide (v = val.toNat) | .ne => decide (v ≠ val.toNat) | .lt => decide (v < val.toNat) | .ge => decide (val.toNat ≤ v)) then x.advance 3 else { x with wait := .word (queueKey (readWord s part addr) k) false }))) ∧
  (∀ s part q p x fence skip cmp addr val, at_ s part q p x → clear s part q fence → commandWord s part addr = none →
    exec (.cmdIf fence skip cmp addr val) s = .next s ∧ exec (.cmdWait fence cmp addr val) s = .next s) ∧
  (∀ s part q p (x : Queue) k, mget? s.parts part = some p → mget? p.queues q = some x → x.wait = .word k true →
    exec (.cmdWaitWake part q) s = .next (putQueue s part q { x with wait := .none })) ∧
  (∀ s part q p (x : Queue) k, mget? s.parts part = some p → mget? p.queues q = some x → x.wait = .word k false →
    exec (.cmdWaitWake part q) s = .next s) ∧
  (∀ s part q p (x : Queue) info, at_ s part q p x → exec (.cmdIllegal info) s = .next (pushRecord (putQueue s part q { x with wait := .stopped }) part
    (eventRecord 0 0x20 info.toNat (x.addr x.head).toNat)))

/-- R101, R191, R441: SIGNAL stores or adds 8 bytes at its word once the queue's earlier launches have ended, and no other byte changes, and one to host memory after the host link has failed is discarded; INVXL holds the queue until its range has been dropped; the drop removes every translation of the range and nothing else from the TLBs, once no access translated through the range is open. That a word which does not translate makes the queue wait is the model's choice (assumption log 26). -/
def Obligations.CommandMemory : Prop :=
  let at_ := fun (s : State) (part q : Nat) (p : Partition) (x : Queue) =>
    s.curQueue = (part, q) ∧ mget? s.parts part = some p ∧ mget? p.queues q = some x
  (∀ s part q p x fence add addr (val : DWord) l f, at_ s part q p x → queueIdle s part q = true →
    translateAs s .command part addr.toNat (if add then .both else .write) = .ok (l, f) →
    hostReady s l = true → poisonHit s l = false → (∀ i, i < 8 → (l.plus i).real) → (∀ line, (bandOf s line).shadow = none) →
    (∀ pa, l = .dev pa → (bandOf s (pa / 128)).keyId = f.page.keyId) → lineHeld s l = false →
    ∃ t, exec (.signal fence add addr val) s = .next t ∧
      readBytes t l 8 = leBytes 8 (if add then (leNat (readBytes s l 8) + val.toNat) % 2 ^ 64 else val.toNat) ∧
      (∀ k, k.real → (∀ i, i < 8 → k ≠ l.plus i) → readLoc t k = readLoc s k) ∧
      ∃ p', mget? t.parts part = some p' ∧ mget? p'.queues q = some (x.advance 3)) ∧
  (∀ s part q p x fence add addr val, at_ s part q p x → queueIdle s part q = false → exec (.signal fence add addr val) s = .next s) ∧
  (∀ s part q p x fence add addr val l f, at_ s part q p x → queueIdle s part q = true →
    translateAs s .command part addr.toNat (if add then .both else .write) = .ok (l, f) → hostReady s l = true → lineHeld s l = false →
    poisonHit s l = true → l.isDev = false → exec (.signal fence add addr val) s = .next (putQueue s part q (x.advance 3))) ∧
  (∀ s part q p x fence base size, at_ s part q p x → (fence = true → queueIdle s part q = true) →
    ∃ t, exec (.invxl fence base size) s = .next t ∧ t = { s with parts := t.parts } ∧
      mget? t.parts part = some { p with invals := p.invals ++ [(q, base, size)], queues := mset p.queues q { x.advance 3 with wait := .invxl } }) ∧
  (∀ s part q p base size, mget? s.parts part = some p → p.invals.find? (fun x => x.1 == q) = some (q, base, size) →
    (∀ w ∈ s.waves, w.2.part = part → translatedIn w.2 base size = false) →
    ∃ t, exec (.invxlComplete part q) s = .next t ∧ (∀ l, readLoc t l = readLoc s l) ∧
      (∀ e, e ∈ t.tlb ↔ e ∈ s.tlb ∧ ¬ (e.part = part ∧ tlbMeets base size e = true)) ∧
      (∀ p', mget? t.parts part = some p' → (queueOf p' q).wait ≠ .invxl ∧ ∀ x ∈ p'.invals, x.1 ≠ q))

/-- R191, R192, R197, R198, R208, R384: a launch whose record passes its checks starts, or waits for ways with HEAD at its command; one that fails is refused with a record; a zero count ends it at once; a launch with nothing left to run ends, and leaves no element, no constant line and no held record; a network launch that R197 accepts joins the ninth queue, and one with a bad tag or a sequence number that does not rise does not: a record NET_REJECT (0x39) names its tenant and the reason, 1 or 2 (R430, R435). That a refused launch takes a number, and the ninth queue, are the model's choice (assumption log 27, 28). -/
def Obligations.LaunchCommands : Prop :=
  let at_ := fun (s : State) (part q : Nat) (p : Partition) (x : Queue) =>
    s.curQueue = (part, q) ∧ mget? s.parts part = some p ∧ mget? p.queues q = some x
  let clear := fun (s : State) (part q : Nat) (fence : Bool) => fence = true → queueIdle s part q = true
  let counts := fun (s : State) (part : Nat) (at' : DWord) => (recordBytes s part at'.toNat 12).map fun bs =>
    (leNat bs % 2 ^ 32, leNat bs / 2 ^ 32 % 2 ^ 32, leNat bs / 2 ^ 64)
  (∀ s part q p x fence addr l, at_ s part q p x → clear s part q fence → checkLaunch s p part q addr (recordBytes s part addr.toNat 128) none = .ok l → drawAway s l = false →
    l.heldWays + 1 ≤ (freeWays s p l.part).length →
    exec (.launch fence addr) s = .next (putQueue (beginLaunch { s with nextLaunch := s.nextLaunch + 1 } p l) part q (x.advance 2))) ∧
  (∀ s part q p x fence addr l, at_ s part q p x → clear s part q fence → checkLaunch s p part q addr (recordBytes s part addr.toNat 128) none = .ok l → drawAway s l = false →
    (freeWays s p l.part).length < l.heldWays + 1 →
    exec (.launch fence addr) s = .next (putQueue { s with nextLaunch := s.nextLaunch + 1, launches := mset s.launches l.id l } part q { x with wait := .ways l.id })) ∧
  (∀ s part q p x fence addr info, at_ s part q p x → clear s part q fence →
    checkLaunch s p part q addr (recordBytes s part addr.toNat 128) none = .error info →
    exec (.launch fence addr) s = .next (putQueue (pushRecord { s with nextLaunch := s.nextLaunch + 1 } part
      (eventRecord s.nextLaunch 0x21 info.toNat addr.toNat)) part q (x.advance 2))) ∧
  (∀ s part q p x fence addr at' l a b d, at_ s part q p x → clear s part q fence → counts s part at' = some (a, b, d) →
    checkLaunch s p part q addr (recordBytes s part addr.toNat 128) (some (some (a, b, d))) = .ok l →
    (a ≠ 0 ∧ b ≠ 0 ∧ d ≠ 0 → drawAway s l = false → l.heldWays + 1 ≤ (freeWays s p l.part).length →
      exec (.launchIndirect fence addr at') s = .next (putQueue (beginLaunch { s with nextLaunch := s.nextLaunch + 1 } p l) part q (x.advance 3))) ∧
    (a = 0 ∨ b = 0 ∨ d = 0 → exec (.launchIndirect fence addr at') s = .next (putQueue { s with
      nextLaunch := s.nextLaunch + 1, launches := mset s.launches l.id { l with state := .ended } } part q (x.advance 3)))) ∧
  (∀ s p l, mget? (beginLaunch s p l).launches l.id ≠ none ∧ ∀ x, mget? (beginLaunch s p l).launches l.id = some x →
    x.state = .running ∧ x.start = s.clock ∧ x.entry = l.entry ∧ x.codeObj = l.codeObj) ∧
  (∀ s part q p (x : Queue) lid l hd, mget? s.parts part = some p → mget? p.queues q = some x → p.state = .running → x.wait = .ways lid → mget? s.launches lid = some l →
    l.heldWays + 1 ≤ (freeWays s p part).length → drawAway s l = false → q ≠ 8 → ringWord (beginLaunch s p l) part { x with wait := .none } x.head = some hd →
    exec (.launchHeldWaysStart part q) s = .next (putQueue (beginLaunch s p l) part q
      (({ x with wait := .none } : Queue).advance (hd.toNat / 2 ^ 51 % 32 + 1)))) ∧
  (∀ s lid l, mget? s.launches lid = some l → l.id = lid → l.state = .running → l.terminated = false → launchDone s l = true →
    (∀ d, l.draw = some d → outputsWait s l d = false) →
    ∃ t, exec (.launchEnd lid) s = .next t ∧ (∀ x, mget? t.launches lid = some x → x.state = .ended) ∧ (∀ e ∈ t.elems, e.2.launch ≠ lid) ∧
      (∀ x ∈ t.l1, x.constant ≠ some lid) ∧ (∀ h ∈ t.traceHolds, h.launch ≠ lid)) ∧
  (∀ s (tenant : Byte) (seq : DWord) rec tag t p (x : Queue) o, mget? s.tenants tenant.toNat = some t → mget? s.parts t.part = some p → mget? p.queues 8 = some x →
    rec.length = 128 → tagOk t tenant seq rec tag = true → (∀ n, t.lastSeq = some n → n < seq.toNat) →
    objectAt s t.part (leNat rec % 2 ^ 64) = some o → o.2.identity ∈ t.identities → (recentLaunches s tenant.toNat).length < t.rateLimit →
    exec (.networkLaunchPacket tenant seq rec tag) s = .next (putQueue { s with
      tenants := mset s.tenants tenant.toNat { t with lastSeq := some seq.toNat }
      netTimes := mset s.netTimes tenant.toNat (recentLaunches s tenant.toNat ++ [s.clock]) } t.part 8 { x with net := x.net ++ [rec] })) ∧
  (∀ s (tenant : Byte) (seq : DWord) rec tag t p, mget? s.tenants tenant.toNat = some t → mget? s.parts t.part = some p → rec.length = 128 →
    (tagOk t tenant seq rec tag = false →
      exec (.networkLaunchPacket tenant seq rec tag) s = .next (pushRecord s t.part (eventRecord 0 0x39 (tenant.toNat + 256) 0))) ∧
    (∀ n, tagOk t tenant seq rec tag = true → t.lastSeq = some n → seq.toNat ≤ n →
      exec (.networkLaunchPacket tenant seq rec tag) s = .next (pushRecord s t.part (eventRecord 0 0x39 (tenant.toNat + 512) 0))))

/-- R44, R45, R54, R55, R168, R171, R173, R202, R203, R382, R424, R425: what placement and gathering do when they may. A visited queue gains WEIGHT × 65,536, and places its head cluster when the deficit is positive and the cluster fits; a full or old gather or gather slot is sealed; the first sealed gather or slot that fits becomes a wave with one lane for each of its elements or records; the creation that waits longest takes its record where one is free; the first overflow record returns to its queue; a launch that has waited too long for records or in a deadlock gets its record; an asleep wave leaves its quadrant and a woken one comes back, its registers kept. Which queue a visit takes is the model's choice (assumption log 12); how task waves seal and take their places is its reading (assumption log 45), as is that only a launch with room competes for a record (log 57); the places that it takes are its choice (log 55). Asleep waves spill and come back as R160 says. -/
def Obligations.Placement : Prop :=
  (∀ s part die p q (x : Queue), mget? s.parts part = some p → p.state = .running → (p.queues.any fun x => (headFit s p part x.1 die).isSome) = true →
    ((p.queues.find? fun x => decide (mgetD s.bankRR (roundKey part die) 0 ≤ x.1)).orElse fun _ => p.queues.head?).map (fun x => x.1) = some q →
    mget? p.queues q = some x →
    let sum := mgetD x.deficit die 0 + (x.weight * 65536 : Nat)
    ∃ t, exec (.clusterPlace part die) s = .next t ∧ mgetD t.bankRR (roundKey part die) 0 = q + 1 ∧
      (∀ l, l.isScr = false → readLoc t l = readLoc s l) ∧
      (queueWaiting s part q die = false → t.waves = s.waves ∧ t.clusters = s.clusters ∧
        ∃ p' y, mget? t.parts part = some p' ∧ mget? p'.queues q = some y ∧ mgetD y.deficit die 0 = 0) ∧
      (queueWaiting s part q die = true → sum ≤ 0 → t.waves = s.waves ∧ t.clusters = s.clusters ∧
        ∃ p' y, mget? t.parts part = some p' ∧ mget? p'.queues q = some y ∧ mgetD y.deficit die 0 = sum) ∧
      (∀ l e lq pq lci rest, queueWaiting s part q die = true → 0 < sum → headFit s p part q die = some (l, e, lq, pq) →
        mgetD l.lists die [] = lci :: rest → s.nextCluster < t.nextCluster ∧ ∃ cl, mget? t.clusters s.nextCluster = some cl ∧
          cl.launch = l.id ∧ cl.die = die ∧ cl.lci = lci ∧ cl.lquad = lq ∧ cl.pquad = pq)) ∧
  (∀ s die g x, (s.gathers.filter fun y => y.die == die && !y.isSealed)[g]? = some x → 32 ≤ x.elems.length ∨ x.last + 512 ≤ s.clock →
    ∃ t, exec (.rateGatherSeal die g) s = .next t ∧ t = { s with gathers := t.gathers } ∧
      t.gathers = (s.gathers.filter fun y => y != x) ++ [{ x with isSealed := true }]) ∧
  (∀ s die g x, (s.gathers.filter fun y => y.die == die && !y.isSealed)[g]? = some x → x.elems.length < 32 → s.clock < x.last + 512 →
    exec (.rateGatherSeal die g) s = .next s) ∧
  (∀ s die g l p o e, s.gathers.find? (fun g => g.isSealed && g.die == die && (match mget? s.launches g.launch with
      | some l => places s l.part
      | none => false)) = some g → mget? s.launches g.launch = some l → mget? s.parts l.part = some p → entryOf s l (g.entry l) = some (o, e) →
    (rateQuad s p l e die = none → exec (.rateWavePlace die) s = .next s) ∧
    (∀ q, rateQuad s p l e die = some q →
      ∃ t w sp, exec (.rateWavePlace die) s = .next t ∧ g ∉ t.gathers ∧ mget? t.waves s.nextWave = some w ∧
        w.launch = g.launch ∧ w.rate = g.rate ∧ w.quad = q ∧ w.place = .resident ∧ (w.lanes = maskOf fun i => decide (i < g.elems.length)) ∧
        w.splits = [(0, sp)] ∧ sp.mask = w.lanes ∧ sp.ctx = g.label ∧ sp.pc = ⟨entryAddr l e, 0⟩ ∧
        (∀ k, k.isScr = false → readLoc t k = readLoc s k) ∧
        (g.elems.Nodup → ∀ i id el, g.elems[i]? = some id → mget? s.elems id = some el →
          mget? t.elems id = some { el with state := .running, wave := some (s.nextWave, i) }))) ∧
  (∀ s die lid l id o runs room el, (lid, l) ∈ s.launches → firstWaiter s l die = some (o, runs, some id) → findRoom s l die runs = some room →
    (∀ x ∈ s.launches, x ≠ (lid, l) → ∀ o' runs' id', firstWaiter s x.2 die = some (o', runs', some id') → (findRoom s x.2 die runs').isSome = true → id < id') →
    mget? s.elems id = some el →
    ∃ t v, exec (.heldRecordAllocate die) s = .next t ∧ mget? t.elems id = some v ∧ v.spill = room.1 ∧ v.locs = room.2 ∧ v.state ≠ .waiting ∧
      (∀ k, readLoc t k = readLoc s k)) ∧
  (∀ s die, (∀ x ∈ s.launches, ∀ o runs id, firstWaiter s x.2 die = some (o, runs, some id) → findRoom s x.2 die runs = none) →
    exec (.heldRecordAllocate die) s = .next s) ∧
  (∀ s lid die l p since, mget? s.launches lid = some l → l.id = lid → mget? l.holdSince die = some since → l.state = .running → l.terminated = false →
    mget? s.parts l.part = some p → since + 100 * Config.clocksPerMicrosecond ≤ s.clock → firstWaiter s l die ≠ none →
    ∃ t v p' r, exec (.holdExhausted lid die) s = .next t ∧ mget? t.launches lid = some v ∧ v.terminated = true ∧
      mget? t.parts l.part = some p' ∧ r ∈ p'.records ∧ r.code = 0x0D ∧ r.launch = lid ∧ r.handle = 0 ∧ r.term = true ∧ r.trapped = false ∧
      (∀ o runs id e, firstWaiter s l die = some (o, runs, some id) → mget? s.elems id = some e → r.info = BitVec.ofNat 32 e.rate.num)) ∧
  (∀ s lid die l since, mget? s.launches lid = some l → mget? l.holdSince die = some since → l.state = .running → l.terminated = false →
    since + 100 * Config.clocksPerMicrosecond ≤ s.clock → firstWaiter s l die = none →
    exec (.holdExhausted lid die) s = .next { s with launches := mset s.launches lid { l with holdSince := merase l.holdSince die } }) ∧
  (∀ s core slot g, slot < 8 → mget? s.gatherSlots (core * 8 + slot) = some g → g.isSealed = false → g.recs ≠ [] →
    32 ≤ g.recs.length ∨ g.last + 512 ≤ s.clock ∨ 1536 ≤ queueLength s core →
    ∃ t, exec (.spawnSlotSeal core slot) s = .next t ∧ t = { s with gatherSlots := t.gatherSlots, sealCount := s.sealCount + 1 } ∧
      mget? t.gatherSlots (core * 8 + slot) = some { g with isSealed := true, order := s.sealCount } ∧
      ∀ j, j ≠ core * 8 + slot → mget? t.gatherSlots j = mget? s.gatherSlots j) ∧
  (∀ s die k g q l p o e, ((sealedHeads s die).filter fun e => places s e.2.part).find? (fun e => (findTaskQuad s e.2.part e.2.launch e.2.entry (e.1 / 8)).isSome) = some (k, g) →
    findTaskQuad s g.part g.launch g.entry (k / 8) = some q → mget? s.launches g.launch = some l → mget? s.parts g.part = some p → l.part = g.part →
    entryOf s l g.entry = some (o, e) →
    ∃ t w sp, exec (.taskWavePlace die) s = .next t ∧ mget? t.waves s.nextWave = some w ∧ w.launch = g.launch ∧ w.role = .task ∧ w.depth = g.depth ∧
      w.quad = q ∧ w.place = .resident ∧ (w.lanes = maskOf fun i => decide (i < g.recs.length)) ∧ w.splits = [(0, sp)] ∧ sp.mask = w.lanes ∧ sp.ctx = g.label ∧
      sp.pc = ⟨entryAddr l e, 0⟩ ∧ (∀ k, k.isScr = false → readLoc t k = readLoc s k) ∧
      (∀ i r, i < 32 → g.recs[i]? = some r → r.pay.length = 4 → ∀ j, j < 4 → j < e.vregs → w.vec j i = nthD r.pay j 0 ∧ w.label j = g.label)) ∧
  (∀ s core k r, (k, r) ∈ overflowOf s core → (∀ x ∈ overflowOf s core, x ≠ (k, r) → r.order < x.2.order) → queueLength s core < 2048 →
    ∃ t, exec (.spawnOverflowReturn core) s = .next t ∧
      mgetD t.overflow k [] = ((mgetD s.overflow k []).filter fun x => !(x.1 == core && x.2 == r)) ∧
      (∀ j, j ≠ k → mgetD t.overflow j [] = mgetD s.overflow j []) ∧
      (r ∈ mgetD t.spawnQ core [] ∨ ∃ i g, i < 8 ∧ mget? t.gatherSlots (core * 8 + i) = some g ∧ r ∈ g.recs)) ∧
  (∀ s core, overflowOf s core = [] ∨ 2048 ≤ queueLength s core → exec (.spawnOverflowReturn core) s = .next s) ∧
  (∀ s lid die l, mget? s.launches lid = some l → deadNow s lid die = true → mget? l.deadSince die = none →
    exec (.spawnDeadlock lid die) s = .next { s with launches := mset s.launches lid { l with deadSince := mset l.deadSince die s.clock } }) ∧
  (∀ s lid die l, mget? s.launches lid = some l → deadNow s lid die = false →
    exec (.spawnDeadlock lid die) s = .next { s with launches := mset s.launches lid { l with deadSince := merase l.deadSince die } }) ∧
  (∀ s lid die l p since, mget? s.launches lid = some l → deadNow s lid die = true → mget? l.deadSince die = some since →
    max since (lastIssue s lid die) + 10 * Config.clocksPerMicrosecond ≤ s.clock → mget? s.parts l.part = some p → (∀ w ∈ dieWaves s lid die, w.part = l.part) →
    (∃ w ∈ dieWaves s lid die, ∃ e ∈ w.splits, heldSpawn s w e.1 = true ∨ inJoin s w e.2 = true) →
    ∃ t v p' r, exec (.spawnDeadlock lid die) s = .next t ∧ mget? t.waves v.id = some v ∧ v.launch = lid ∧ (∃ x, v.stop = some x ∧ x.code = 0x0C) ∧
      mget? t.parts l.part = some p' ∧ p'.records = p.records ++ [r] ∧ r.code = 0x0C ∧ r.info = BitVec.ofNat 32 die ∧ r.launch = lid ∧ r.wave = some v.id ∧
      (∀ w ∈ dieWaves s lid die, (∃ e ∈ w.splits, heldSpawn s w e.1 = true) → w.age ≤ v.age)) ∧
  (∀ s wave w, mget? s.waves wave = some w → w.id = wave → asleep w = true → w.pendingWake = [] → mayLeave w = true → canGo s w = true →
    ∃ t v, exec (.waveSpill wave) s = .next t ∧ mget? t.waves wave = some v ∧ v.place = .spilled ∧ v.vregs = w.vregs ∧ v.sregs = w.sregs ∧
      v.preds = w.preds ∧ v.labels = w.labels ∧ v.splits = w.splits ∧
      (t.regs.map fun r => (r.wave, r.split)) = s.regs.map fun r => (r.wave, r.split)) ∧
  (∀ s wave w, mget? s.waves wave = some w → w.id = wave → w.place = .spilled → places s w.part = true → w.pendingWake ≠ [] → fitsAgain s w = true →
    ∃ t v, exec (.waveReplace wave) s = .next t ∧ mget? t.waves wave = some v ∧ v.place = .resident ∧ v.quad = w.quad ∧ v.vregs = w.vregs ∧
      v.sregs = w.sregs ∧ v.preds = w.preds ∧ v.labels = w.labels ∧ v.splits = w.splits ∧ v.pendingWake = w.pendingWake ∧
      (∀ k, k.isScr = false → readLoc t k = readLoc s k))

/-- R32, R34, R39, R99, R100, R109, R153, R154, R157: the steps of the ordering machine that are no access: a completion writes an instruction's registers, lowers its flag and removes it; a finished walk lets its split replay; a woken split runs, its registrations gone; a line that is not constant may leave an L1; a written transaction aborts; the serial token passes on. No byte of memory changes. That one event ends the walks of a split, and which line leaves an L1, is the model's choice (assumption log 39, 40). -/
def Obligations.OrderingSteps : Prop :=
  (∀ s wave op w o ws, mget? s.waves wave = some w → w.id = wave → findLong w op = some o → o.what = .regs ws → o.dead = false →
    w.lanes &&& ~~~w.exited ≠ 0 → (∀ x ∈ ws, x.code < 192 ∧ x.lane < 32) → (∀ x ∈ ws, ∀ y ∈ ws, x.code = y.code → x.lane = y.lane → x = y) →
    ∃ t, exec (.completionEvent wave op) s = .next t ∧ (∀ l, readLoc t l = readLoc s l) ∧ ∃ v, mget? t.waves wave = some v ∧
      (∀ x ∈ ws, v.vec x.code x.lane = x.val) ∧ (∀ m l, m < 192 → l < 32 → (∀ x ∈ ws, x.code ≠ m ∨ x.lane ≠ l) → v.vec m l = w.vec m l) ∧
      v.sregs = w.sregs ∧ v.preds = w.preds ∧ v.flag o.flag = w.flag o.flag - 1 ∧ (∀ f, f ≠ o.flag → v.flag f = w.flag f) ∧
      v.long = w.long.filter fun y => y.id != o.id) ∧
  (∀ s wave op w o r, mget? s.waves wave = some w → w.id = wave → findLong w op = some o → o.what = .regs [r] → o.dead = false →
    w.lanes &&& ~~~w.exited ≠ 0 → 256 ≤ r.code → r.code < 320 → r.lane < 32 →
    ∃ t, exec (.completionEvent wave op) s = .next t ∧ ∃ v, mget? t.waves wave = some v ∧ v.scalar (r.code - 256) = r.val ∧ v.label r.code = r.label ∧
      (∀ m, m < 64 → m ≠ r.code - 256 → v.scalar m = w.scalar m) ∧ v.vregs = w.vregs ∧ v.preds = w.preds ∧ v.flag o.flag = w.flag o.flag - 1) ∧
  (∀ s wave op w o id e, mget? s.waves wave = some w → w.id = wave → findLong w op = some o → o.what = .access id → findEntry w id = some e →
    e.doneAll = true → hostDone s w.id id = true → w.lanes &&& ~~~w.exited ≠ 0 →
    ∃ t, exec (.completionEvent wave op) s = .next t ∧ (∀ l, readLoc t l = readLoc s l) ∧ ∃ v, mget? t.waves wave = some v ∧
      v.flag o.flag = w.flag o.flag - 1 ∧ (∀ y ∈ v.pending, y.id ≠ id) ∧ v.preds = w.preds ∧
      (e.dst = none ∨ e.dead = true ∨ o.dead = true → v.vregs = w.vregs ∧ v.sregs = w.sregs) ∧
      (∀ d, e.dst = some d → e.dead = false → o.dead = false → (e.accs.map fun a => a.lane).Nodup → (∀ a ∈ e.accs, a.lane < 32 ∧ d.code + a.res.length ≤ 192) →
        v.sregs = w.sregs ∧ ∀ a ∈ e.accs, ∀ i, i < a.res.length → v.vec (d.code + i) a.lane = nthD a.res i 0) ∧
      (∀ d a, e.dst = some d → e.dead = false → o.dead = false → e.accs = [a] → 256 ≤ d.code → d.code + a.res.length ≤ 320 →
        v.vregs = w.vregs ∧ ∀ i, i < a.res.length → v.scalar (d.code - 256 + i) = nthD a.res i 0)) ∧
  (∀ s wave op w o id e, mget? s.waves wave = some w → findLong w op = some o → o.what = .access id → findEntry w id = some e →
    e.doneAll = false → w.lanes &&& ~~~w.exited ≠ 0 → exec (.completionEvent wave op) s = .next s) ∧
  (∀ s wave split w sp, mget? s.waves wave = some w → w.id = wave → mget? w.splits split = some sp → sp.state = .parked → sp.walks ≠ [] →
    w.stop = none →
    ∃ t, exec (.tableWalkComplete wave split) s = .next t ∧ t = { s with tlb := t.tlb, waves := t.waves } ∧
      ∃ v, mget? t.waves wave = some v ∧ v = { w with splits := v.splits, tx := v.tx } ∧
        mget? v.splits split = some { sp with state := .ready, walks := [], restarts := false } ∧
        (∀ j, j ≠ split → mget? v.splits j = mget? w.splits j) ∧
        ((∀ e ∈ w.splits, e.1 = split → e.2.restarts = false) → v.tx = w.tx)) ∧
  (∀ s wave split w sp, mget? s.waves wave = some w → w.id = wave → split ∈ w.pendingWake → w.place = .resident → w.stop = none →
    mget? w.splits split = some sp → sp.state = .sleeping →
    ∃ t v, exec (.wakeRestart wave split) s = .next t ∧ mget? t.waves wave = some v ∧ t = { s with regs := t.regs, waves := t.waves } ∧
      v.split split = { sp with state := .ready, readySince := s.clock } ∧ split ∉ v.pendingWake ∧
      (∀ r, r ∈ t.regs ↔ r ∈ s.regs ∧ ¬ (r.wave = wave ∧ r.split = split)) ∧
      (sp.sleep = .retry → v.tx = { w.tx with reads := freshKept w.tx.reads }) ∧ (sp.sleep ≠ .retry → v.tx = w.tx)) ∧
  (∀ rs r, r ∈ freshKept rs → ∃ x ∈ rs, r = if x.live then x else { x with written := false, conflict := false }) ∧
  (∀ s core line x, l1Find s core line = some x → x.constant = none →
    ∃ t, exec (.l1LineDrop core line) s = .next t ∧ t = { s with l1 := t.l1 } ∧ l1Find t core line = none) ∧
  (∀ s core line x, l1Find s core line = some x → x.constant.isSome = true → exec (.l1LineDrop core line) s = .next s) ∧
  (∀ s wave w, mget? s.waves wave = some w → w.id = wave → w.tx.depth ≠ 0 → w.tx.serial = false → (∃ r ∈ w.tx.reads, r.live = true ∧ r.conflict = true) →
    ∃ t v, exec (.transactionAbort wave) s = .next t ∧ (∀ l, readLoc t l = readLoc s l) ∧ mget? t.waves wave = some v ∧ v.tx.depth = 0 ∧
      v.tx.writes = [] ∧ v.tx.aborts = min 16 (w.tx.aborts + 1) ∧ (v.split w.tx.owner).pc = w.tx.origin ∧ v.vregs = w.vregs ∧ v.sregs = w.sregs ∧ v.preds = w.preds) ∧
  (∀ s wave w, mget? s.waves wave = some w → w.tx.serial = true → exec (.transactionAbort wave) s = .next s) ∧
  (∀ s w ws, s.token = none → s.tokenQ = w :: ws → exec .serialTokenGrant s = .next { s with token := some w, tokenQ := ws }) ∧
  (∀ s w, s.token = some w → exec .serialTokenGrant s = .next s)

/-- R77, R78, R119, R177, R182 to R189, R312, R411, R413, R428, R433: a read of a copy takes the value of its piece and changes no byte; a write of a copy puts its 16 bytes at its place and changes no other, and in a scratchpad or a bench joins the label of its chunk to the granule's or the slot's; the gate accepts the GREL that has waited longest with the policy of that moment, reads it, a read taking its 16 bytes and their label in one step, debits its policy, or refuses it with R433's code and logs nothing, writes its window 16 bytes at a time, a message whole, and then appends one record of 64 bytes to the log and extends the chain, a window that closes meanwhile leaving a record of a partial write; a ray reads the home copy, waits where its translation misses, goes to a linked parcel and comes back, from a link that a linked traversal meets too, and ends when its traversal is over, with its four words in its mailbox slot where it runs no hit code. Steps of 16 bytes are the model's choice (assumption log 43); the gate's order of arrival and a ray at its edges are its reading (assumption log 33, 34). -/
def Obligations.EngineSteps : Prop :=
  let plain := fun (s : State) (l : Loc) (page : PageAttr) =>
    (∀ line, (bandOf s line).shadow = none) ∧ ∀ pa i, l = .dev pa → i < 16 → (bandOf s ((pa + i) / 128)).keyId = page.keyId
  let atGate := fun (s : State) (g : GateWork) (c : Copy) src len win off want =>
    s.gate = some g ∧ mget? s.copies g.copy = some c ∧ c.id = g.copy ∧ c.plan = .gate src len win off want
  let refused := fun (s : State) (c : Copy) (code : Nat) => ∃ t c', exec .gateAccept s = .next t ∧ mget? t.copies c.id = some c' ∧
    c'.refusal = code ∧ c'.done = true ∧ t.gate = none ∧ c.id ∉ t.gateQ ∧ t.logSeq = s.logSeq ∧ t.chain = s.chain ∧ ∀ x, readLoc t x = readLoc s x
  (∀ s copy unit k c u p b l page, mget? s.copies copy = some c → c.id = copy → (∀ src len win off want, c.plan ≠ .gate src len win off want) →
    c.done = false → fencePassed s c = true → c.planned = true → c.units[unit]? = some u → c.faulted u.chunk = false → k < 64 →
    u.pieces[k]? = some p → p.val = none → p.src.block = some b → refReady s c.part p.src .read = true →
    refPlace s c.part p.src .read = .ok (l, page) → plain s l page →
    (∀ p' ∈ u.pieces, p'.val = none → p'.src.block = some b → ∃ l' page', refPlace s c.part p'.src .read = .ok (l', page') ∧ plain s l' page' ∧
      c.reads l' = true ∧ locLabel s c.part l' = locLabel s c.part l) →
    ∃ t, exec (.copyRead copy (unit * 64 + k)) s = .next t ∧ (∀ x, readLoc t x = readLoc s x) ∧
      ∃ c' u' p', mget? t.copies copy = some c' ∧ c'.units[unit]? = some u' ∧ u'.pieces[k]? = some p' ∧ p'.val = some (pieceValue s l p) ∧
        u'.label = u.label ||| locLabel s c.part l) ∧
  (∀ s copy unit c u va pa page, mget? s.copies copy = some c → c.done = false → c.planned = true → c.units[unit]? = some u → u.done = false →
    c.faulted u.chunk = false → (∀ p ∈ u.pieces, p.val.isSome = true) → u.dst = .glob va → (∀ d f g n o b, c.plan ≠ .sig d f g n o b) →
    refReady s c.part (.glob va) .write = true → refPlace s c.part (.glob va) .write = .ok (.dev pa, page) → (∀ x ∈ s.txLocks, x.2 ≠ .dev (pa / 128)) →
    engineMay s c.part (chunkLabel s c u.chunk) (.dev pa) 16 = true → plain s (.dev pa) page →
    ∃ t, exec (.copyWrite copy unit) s = .next t ∧
      (∀ i, i < 16 → readLoc t (.dev (pa + i)) = nthD (unitBytes u (List.replicate 16 0)) i 0) ∧
      (∀ x, (∀ i, i < 16 → x ≠ .dev (pa + i)) → readLoc t x = readLoc s x)) ∧
  (∀ s copy unit c u core off, mget? s.copies copy = some c → c.id = copy → c.done = false → c.planned = true → c.units[unit]? = some u → u.done = false →
    c.faulted u.chunk = false → (∀ p ∈ u.pieces, p.val.isSome = true) → u.dst = .scr core off → (∀ d f g n o b, c.plan ≠ .sig d f g n o b) →
    off + 16 ≤ 2 ^ 18 → off % 16 = 0 → lineHeld s (.scr core off) = false → isPoisoned s (.scr core off) = false →
    ∃ t, exec (.copyWrite copy unit) s = .next t ∧
      (∀ i, i < 16 → readLoc t (.scr core (off + i)) = nthD (unitBytes u (List.replicate 16 0)) i 0) ∧
      (∀ x, x.real → (∀ i, i < 16 → x ≠ .scr core (off + i)) → readLoc t x = readLoc s x) ∧
      locLabel t c.part (.scr core off) = locLabel s c.part (.scr core off) ||| chunkLabel s c u.chunk ∧
      (∀ k, k ≠ granuleKey core off → mgetD t.scrLabels k 0 = mgetD s.scrLabels k 0)) ∧
  (∀ s copy unit c u off w, mget? s.copies copy = some c → c.id = copy → c.done = false → c.planned = true → c.units[unit]? = some u → u.done = false →
    c.faulted u.chunk = false → (∀ p ∈ u.pieces, p.val.isSome = true) → u.dst = .bench off → mget? s.waves c.wave = some w → w.id = c.wave →
    ∃ t v, exec (.copyWrite copy unit) s = .next t ∧ (∀ x, readLoc t x = readLoc s x) ∧ mget? t.waves c.wave = some v ∧
      (∀ i, i < 16 → v.bench.byte (off + i) = nthD (unitBytes u ((List.range 16).map fun j => w.bench.byte (off + j))) i 0) ∧
      (∀ x, x < off ∨ off + 16 ≤ x → v.bench.byte x = w.bench.byte x) ∧
      (∀ k, v.bench.label k = if k = off / 2048 then w.bench.label k ||| chunkLabel s c u.chunk else w.bench.label k) ∧
      v.bench.claims = w.bench.claims ∧ v.vregs = w.vregs ∧ v.sregs = w.sregs ∧ v.preds = w.preds ∧ v.labels = w.labels) ∧
  (∀ s id ids c src len win off want, s.gate = none → s.gateQ = id :: ids → mget? s.copies id = some c → c.plan = .gate src len win off want →
    exec .gateAccept s = .next { s with gate := some ⟨id, policyFor s want, none, 0⟩ }) ∧
  (∀ s id idx c src len win off want l page, mget? s.copies id = some c → c.id = id → c.plan = .gate src len win off want → gateHas s id = true →
    c.done = false → idx < len / 16 → mget? c.plat idx = none → fencePassed s c = true →
    (∀ va, src = .glob va → refReady s c.part (.glob (va + BitVec.ofNat 64 (16 * idx))) .read = true) →
    gatePart s c src (16 * idx) = .ok (l, page) → plain s l page →
    ∃ t c', exec (.copyRead id idx) s = .next t ∧ (∀ x, readLoc t x = readLoc s x) ∧ mget? t.copies id = some c' ∧
      mget? c'.plat idx = some (readBytes s l 16) ∧ c'.platLabel = c.platLabel ||| locLabel s c.part l) ∧
  (∀ s g c src len win off want pol w, atGate s g c src len win off want → g.debit = none → len / 16 ≤ c.plat.length →
    subset (c.label ||| c.ctx ||| c.platLabel) want = true → ((policyFor s want).orElse fun _ => g.policy) = some pol →
    pol.codeId = zero32 ∨ pol.codeId = codeIdOf s c.launch → win < pol.nwin → pol.windows[win]? = some w →
    off + len ≤ w.size → (w.kind = 2 → off = 0) → (pol.roll s.pkgTime).spent + len ≤ pol.budget → s.logSeq < s.logAck + 65536 →
    let pol' := { pol.roll s.pkgTime with spent := (pol.roll s.pkgTime).spent + len }
    ∃ t, exec .gateAccept s = .next t ∧ t = { s with gate := some { g with debit := some (pol', s.pkgTime) }, policies := t.policies } ∧
      (policyFor s want = some pol → policyFor t want = some pol')) ∧
  (∀ s g c src len win off want, atGate s g c src len win off want → g.debit = none → len / 16 ≤ c.plat.length →
    let within := subset (c.label ||| c.ctx ||| c.platLabel) want
    let named := (policyFor s want).orElse fun _ => g.policy
    let coded := fun (pol : Policy) => pol.codeId = zero32 ∨ pol.codeId = codeIdOf s c.launch
    (within = false → refused s c 0x30) ∧ (within = true → named = none → refused s c 0x31) ∧
    (∀ pol, within = true → named = some pol → ¬ coded pol → refused s c 0x32) ∧
    (∀ pol, within = true → named = some pol → coded pol → pol.nwin ≤ win ∨ pol.windows[win]? = none → refused s c 0x33) ∧
    (∀ pol w, within = true → named = some pol → coded pol → win < pol.nwin → pol.windows[win]? = some w →
      (w.size < off + len ∨ w.kind = 2 ∧ off ≠ 0 → refused s c 0x33) ∧
      (off + len ≤ w.size → (w.kind = 2 → off = 0) → pol.budget < (pol.roll s.pkgTime).spent + len → refused s c 0x34))) ∧
  (∀ s g c src len win off want pol now w, atGate s g c src len win off want → g.debit = some (pol, now) → pol.windows[win]? = some w →
    g.written < len → windowOpen s w = true → windowWaits s w (off + g.written) = false →
    let data := c.plat.flatMap fun e => e.2
    (w.kind = 1 ∨ w.kind = 3 → let place := fun i => if w.kind = 1 then Loc.host (w.base + (off + g.written) + i) else Loc.pkg w.target (w.base + (off + g.written) + i)
      (∀ i, i < 16 → (place i).real) →
      ∃ t, exec .gateAccept s = .next t ∧ t.gate = some { g with written := g.written + 16 } ∧ t.logSeq = s.logSeq ∧ t.chain = s.chain ∧
        (∀ i b, i < 16 → data[g.written + i]? = some b → readLoc t (place i) = b) ∧
        (∀ x, x.real → (∀ i, i < 16 → x ≠ place i) → readLoc t x = readLoc s x)) ∧
    (w.kind = 2 → exec .gateAccept s = .next { s with
      replies := s.replies ++ [.message w.target (w.base % 65536) ((data.drop g.written).take len)], gate := some { g with written := g.written + len } })) ∧
  (∀ s g c src len win off want pol now w, atGate s g c src len win off want → g.debit = some (pol, now) → pol.windows[win]? = some w →
    g.written < len → windowOpen s w = true → windowWaits s w (off + g.written) = true → exec .gateAccept s = .next s) ∧
  (∀ s g c src len win off want pol now w, atGate s g c src len win off want → g.debit = some (pol, now) → pol.windows[win]? = some w →
    len ≤ g.written ∨ windowOpen s w = false →
    let entry := logRecord s pol c w win off len now (decide (g.written < len)) (c.plat.flatMap fun e => e.2)
    ∃ t c', exec .gateAccept s = .next t ∧ entry.length = 64 ∧ t.logSeq = s.logSeq + 1 ∧ t.chain = digest (s.chain ++ entry) ∧ t.policies = s.policies ∧
      (∀ i, i < 64 → readLoc t (.dev (gateLogBase + 64 * (s.logSeq % 65536) + i)) = nthD entry i 0) ∧
      (∀ x, (∀ i, i < 64 → x ≠ .dev (gateLogBase + 64 * (s.logSeq % 65536) + i)) → readLoc t x = readLoc s x) ∧
      t.gate = none ∧ c.id ∉ t.gateQ ∧ mget? t.copies c.id = some c' ∧ c'.done = true ∧
      (len ≤ g.written → c'.bits = c.full ∧ c'.refusal = c.refusal) ∧ (g.written < len → c'.refusal = 0x35)) ∧
  (∀ s num ray r l i va p page, mget? s.copies num = none → texOf s num = none → (s.rays.find? fun x => x.2.num == num) = some (ray, r) →
    mget? s.launches r.launch = some l → rayReady s r = true → ((r.needs l).find? fun x => x.1 == i) = some (i, va) → engineRead s l.part va = .at p page →
    plain s p page →
    let r' := { r with got := mset r.got i (readBytes s p 16), label := r.label ||| if r.place.at'.isNone then 0 else locLabel s l.part p }
    ∃ t, exec (.copyRead num i) s = .next t ∧ (∀ x, readLoc t x = readLoc s x) ∧
      mget? t.rays r.id = some (if (r'.needs l).isEmpty && !r'.malformed l then r'.visit else r')) ∧
  (∀ s num ray r l i va x, mget? s.copies num = none → texOf s num = none → (s.rays.find? fun x => x.2.num == num) = some (ray, r) →
    mget? s.launches r.launch = some l → rayReady s r = true → ((r.needs l).find? fun x => x.1 == i) = some (i, va) → engineRead s l.part va = .miss x →
    exec (.copyRead num i) s = .next (stallRay s l r x)) ∧
  (∀ s ray r l o, mget? s.rays ray = some r → mget? s.launches r.launch = some l → rayReady s r = true → r.sub = none → r.over l = some o →
    exec (.traversalEnd ray) s = .next (rayOver s l r o)) ∧
  (∀ s ray r l o w, mget? s.rays ray = some r → r.id = ray → mget? s.launches r.launch = some l → rayReady s r = true → r.sub = none → r.over l = some o →
    r.hit = false ∨ r.hitEntry = 0xFF ∨ o = .malformed → mget? s.waves r.wave = some w → w.id = r.wave → (w.slotOf r.lane r.slot).st = .pending →
    bit w.exited r.lane = false → SoftMark.mbox r.wave (mboxKey r.lane r.slot) ∉ s.soft →
    ∃ t v, exec (.traversalEnd ray) s = .next t ∧ mget? t.rays ray = none ∧ mget? t.waves r.wave = some v ∧
      mget? v.mbox (mboxKey r.lane r.slot) = some ⟨.full, match o with
        | .malformed => [0x04000000, r.tmax0, 0, 0]
        | o => [BitVec.ofNat 32 ((if r.hit then 2 ^ 24 else 0) + (if o = .bound then 2 ^ 25 else 0) + (if r.hit then r.hitTri else 0)), r.tmax,
            BitVec.ofNat 32 (if r.hit then r.hitObj else 0), BitVec.ofNat 32 (if r.hit then r.hitClu else 0)], List.replicate 4 r.label⟩) ∧
  (∀ (r : Ray) l, r.overBy = none → r.malformed l = false → r.sub = none → r.place.stack = [] → r.over l = some .done) ∧
  (∀ (r : Ray) l o, r.overBy = some o → r.over l = some o) ∧
  (∀ s ray r l e st x, mget? s.rays ray = some r → mget? s.launches r.launch = some l → rayReady s r = true → r.overBy = none → r.sub = none →
    r.place.stack = e :: st → r.root = some x → e.ref / 2 ^ 30 % 4 = 2 → r.malformed l = false →
    exec (.parcelLinkTraversal ray) s = .next (putRay s { r with stack := st, sub := some (e.ref % 2 ^ 30, [⟨0, r.tmin⟩]), subAt := none })) ∧
  (∀ s ray r l p, mget? s.rays ray = some r → mget? s.launches r.launch = some l → rayReady s r = true → r.sub = some p →
    (r.over l).isSome = true ∨ r.place.stack = [] →
    (r.outer = [] → exec (.parcelLinkTraversal ray) s = .next (putRay s { r with sub := none, subAt := none, got := [], overBy := r.over l })) ∧
    (∀ x rest, r.outer = x :: rest →
      exec (.parcelLinkTraversal ray) s = .next (putRay s { r with sub := some x.1, subAt := x.2, outer := rest, got := [], overBy := r.over l }))) ∧
  (∀ s ray r l p own e st at', mget? s.rays ray = some r → mget? s.launches r.launch = some l → rayReady s r = true → r.sub = some (p, own) →
    r.over l = none → r.place.stack = e :: st → r.subAt = some at' → e.ref / 2 ^ 30 % 4 = 2 →
    exec (.parcelLinkTraversal ray) s = .next (putRay s { r with
      sub := some (e.ref % 2 ^ 30, [⟨0, r.tmin⟩]), subAt := none, outer := ((p, st), some at') :: r.outer }))

/-- R373 to R382, R390, R396: a record that waits is written to its 64 bytes of the fault queue once its wave's work is complete and the queue has room, and FQPROD rises by 1; a full queue keeps it waiting; its trap wave starts in a place that fits; a fault's handle resolves it in each of its five modes: the wave resumes at REGION or at PC, the split's lanes end, or the named split, or each split, issues one instruction, after which the wave stops again with a BREAK record of INFO[31]; a launch past WDLIM writes a record and terminates, which ends its waves, drops its unplaced clusters, gathered records and rays, returns its held records and leaves its copies and all memory; a word or header that fails its checks takes its exception. A record that the queue cannot take, and a partition without a queue, are the model's choice (assumption log 14). -/
def Obligations.FaultSteps : Prop :=
  (∀ s part idx p r pa page, mget? s.parts part = some p → p.records[idx]? = some r → p.state ≠ .disabled → recordReady s r = true →
    recordPlace s part p = some (some (.dev pa, page)) → (∀ line, (bandOf s line).shadow = none) → (bandOf s (pa / 128)).keyId = page.keyId →
    ∃ t p', exec (.faultRecordWrite part idx) s = .next t ∧
      (∀ i, i < 64 → readLoc t (.dev (pa + i)) = nthD (queueCopy (numbered s p r)).bytes i 0) ∧
      (∀ l, (∀ i, i < 64 → l ≠ .dev (pa + i)) → readLoc t l = readLoc s l) ∧
      mget? t.parts part = some p' ∧ p'.fqprod = p.fqprod + 1 ∧ p'.recSeq = p.recSeq + 1 ∧ p'.records = dropAt p.records idx ∧
      p'.trapQueue = if r.trapped then p.trapQueue ++ [numbered s p r] else p.trapQueue) ∧
  (∀ s part idx p, mget? s.parts part = some p → fqSet p = true → fqRoom p = false → exec (.faultRecordWrite part idx) s = .next s) ∧
  (∀ r : Record, r.bytes.length = 64) ∧
  (∀ s part p r l q o e, mget? s.parts part = some p → (∀ x ∈ p.trapQueue, ∃ y, mget? s.launches x.launch = some y ∧ y.terminated = false ∧ y.state ≠ .ended) →
    places s part = true → (trapHeads s p).findSome? (fun r => (trapQuad s part r).map fun x => (r, x)) = some (r, l, q) →
    entryOf s l l.trapEntry = some (o, e) →
    exec (.trapWaveStart part) s = .next (placeOwn (dropTrap s part r) p
      { trapWave l r with splits := [(0, startSplit s l e 1 r.labels)] } q)) ∧
  (∀ s lid l p, mget? s.launches lid = some l → mget? s.parts l.part = some p → p.wdlim ≠ 0 → l.state = .running → l.terminated = false →
    l.start + p.wdlim.toNat * Config.clocksPerMillisecond < s.clock →
    exec (.watchdog lid) s = .next (terminate (pushRecord s l.part { eventRecord lid 0x12 0 0 with term := true }) lid)) ∧
  (∀ s lid l p, mget? s.launches lid = some l → mget? s.parts l.part = some p → p.wdlim = 0 → exec (.watchdog lid) s = .next s) ∧
  (∀ s part v p, mget? s.parts part = some p → ∃ t p', exec (.fqcons part v) s = .next t ∧ t = { s with parts := t.parts } ∧ mget? t.parts part = some p' ∧
    p' = if ((v.setWidth 32 - p.fqcons : Word)).toNat ≤ (p.fqprod - p.fqcons).toNat then { p with fqcons := v.setWidth 32 } else p) ∧
  (∀ s part hd, exec (.fqresolveReplay part hd) s = .next (resolve s part hd .replay) ∧ exec (.fqresolveNext part hd) s = .next (resolve s part hd .next) ∧
    exec (.fqresolveEnd part hd) s = .next (resolve s part hd .finish) ∧ exec (.fqresolveStep part hd) s = .next (resolve s part hd .step) ∧
    exec (.fqresolveStepWave part hd) s = .next (resolve s part hd .stepWave)) ∧
  (∀ s part hd w k st, findHandle s part hd = some (w, k) → w.stop = some st → w.place ≠ .saved → w.place ≠ .saving → w.late = [] →
    (st.rerun = [] → st.atPc = false → resolve s part hd .replay = putWave s (resumeWave w k)) ∧
    (st.atPc = true → st.rerun = [] → (w.split k).walks = [] → w.inTx k = false → w.splits.map (fun e => e.1) = [k] → (w.split k).rcv ≠ some (w.split k).region.hdr →
      ∃ v, mget? (resolve s part hd .replay).waves w.id = some v ∧ v.stop = none ∧ (v.split k).state = .ready ∧ (v.split k).pc = (w.split k).region ∧
        (v.split k).mask = (w.split k).mask) ∧
    (keepsPc st.code = true → resolve s part hd .next = putWave s (resumeWave w k)) ∧
    (keepsPc st.code = false → resolve s part hd .next = s ∧ resolve s part hd .step = s ∧ resolve s part hd .stepWave = s)) ∧
  (∀ s part hd w k st, findHandle s part hd = some (w, k) → w.stop = some st → w.place ≠ .saved → w.place ≠ .saving → w.late = [] → w.role ≠ .trap →
    mget? s.waves w.id = some w → (∀ e ∈ s.elems, e.1 < s.nextElem) → (∀ line, (bandOf s line).shadow = none) →
    (∀ j x, j ≠ w.id → mget? s.waves j = some x → ∀ l id, mget? x.elems l = some id → ∀ l', mget? w.elems l' ≠ some id) →
    let t := resolve s part hd .finish
    (∀ x, readLoc t x = readLoc s x) ∧ ∃ v, mget? t.waves w.id = some v ∧ v.stop = none ∧ v.exited = w.exited ||| (w.split k).mask ∧
      mgetD v.gens k 0 = (mgetD w.gens k 0 + 1) % 2 ^ 15 ∧ v.vregs = w.vregs ∧ v.sregs = w.sregs ∧ v.preds = w.preds ∧ v.labels = w.labels ∧
      ∀ l id e, bit (w.split k).mask l = true → mget? w.elems l = some id → mget? s.elems id = some e →
        ∃ x, mget? t.elems id = some x ∧ (x.state = .exited ∨ x.state = .returned) ∧ x.exitCtx = (w.split k).ctx) ∧
  (∀ s part hd w k st, findHandle s part hd = some (w, k) → w.stop = some st → w.place ≠ .saved → w.place ≠ .saving → keepsPc st.code = true →
    (w.splits.map fun e => e.1).Nodup →
    (∀ sp, mget? w.splits k = some sp → sp.state = .parked →
      ∃ v, resolve s part hd .step = putWave s v ∧ v.id = w.id ∧ v.stop = none ∧ v.step = 17 * 2 ^ k ∧
        mget? v.splits k = some { sp with state := .ready, walks := [], restarts := false } ∧ (∀ j, j ≠ k → mget? v.splits j = mget? w.splits j) ∧
        mgetD v.gens k 0 = (mgetD w.gens k 0 + 1) % 2 ^ 15 ∧ (∀ j, j ≠ k → mgetD v.gens j 0 = mgetD w.gens j 0) ∧
        v.vregs = w.vregs ∧ v.sregs = w.sregs ∧ v.preds = w.preds ∧ v.labels = w.labels) ∧
    ((∃ e ∈ w.splits, e.2.state = .parked) →
      ∃ v, resolve s part hd .stepWave = putWave s v ∧ v.id = w.id ∧ v.stop = none ∧
        (∀ j, j < 4 → (v.step.testBit j = true ↔ ∃ sp, mget? w.splits j = some sp ∧ sp.state = .parked)) ∧
        (∀ j sp, mget? w.splits j = some sp → mget? v.splits j = some (if sp.state = .parked then { sp with state := .ready, walks := [], restarts := false } else sp)) ∧
        v.vregs = w.vregs ∧ v.sregs = w.sregs ∧ v.preds = w.preds ∧ v.labels = w.labels)) ∧
  (∀ before s b w k, k < 4 → mget? before.waves w.id = some b → mget? s.waves w.id = some w → w.step = 17 * 2 ^ k → w.stop = none →
    hasIssued b w k = true → (mget? w.splits k).isSome = true →
    ∃ r, RecordOf s w k (w.split k).pc w.rate.num ⟨0x14, 2 ^ 31, 0, 0, 0, 0⟩ r ∧ Stopped s (stepDone before s w.id k) w k r) ∧
  (∀ s lid l, mget? s.launches lid = some l → l.terminated = false → l.state ≠ .ended → (∀ e ∈ s.waves, e.2.id = e.1) → (s.waves.map fun e => e.1).Nodup →
    let t := terminate s lid
    (∃ v, mget? t.launches lid = some v ∧ v.terminated = true ∧ ∀ e ∈ v.lists, e.2 = []) ∧
    (∀ k w, mget? s.waves k = some w → w.launch = lid → w.place ≠ .ended →
      ∃ v, mget? t.waves k = some v ∧ v.splits = [] ∧ v.stop = none ∧ v.exited = w.lanes ||| w.exited ∧ v.pendingWake = []) ∧
    (∀ k w, mget? s.waves k = some w → w.launch ≠ lid → mget? t.waves k = some w) ∧
    (∀ e ∈ t.elems, e.2.launch = lid → e.2.state = .returned ∧ e.2.locs = []) ∧ (∀ g ∈ t.gathers, g.launch ≠ lid) ∧
    (∀ e ∈ t.gatherSlots, e.2.launch ≠ lid) ∧ (∀ q ∈ t.spawnQ, ∀ r ∈ q.2, r.launch ≠ lid) ∧ (∀ q ∈ t.overflow, ∀ r ∈ q.2, r.2.launch ≠ lid) ∧
    (∀ e ∈ t.rays, e.2.launch ≠ lid) ∧ t.copies = s.copies ∧ ∀ x, readLoc t x = readLoc s x) ∧
  (∀ s lid l, mget? s.launches lid = some l → l.terminated = true ∨ l.state = .ended → terminate s lid = s) ∧
  (∀ (w : Wave) k, (resumeWave w k).stop = none ∧ mgetD (resumeWave w k).gens k 0 = (mgetD w.gens k 0 + 1) % 2 ^ 15 ∧
    (resumeWave w k).vregs = w.vregs ∧ (resumeWave w k).sregs = w.sregs ∧ (resumeWave w k).preds = w.preds ∧ (resumeWave w k).labels = w.labels) ∧
  (∀ s w c b, issuer s (ctlOf w.toNat) (fun c => c.sp.mask) = some c → headerErr w.toNat = some b →
    exec (.illegalOp true w) s = .next (takeFault s (theWave s c) c.k c.pos c.w.rate.num ⟨3, b * 65536 + 8, 0, c.sp.mask, 0, 0⟩)) ∧
  (∀ s w c, issuer s (ctlOf w.toNat) (wordMask w) = some c → build (wOp w.toNat) (ctlOf w.toNat) (wBody w.toNat) = none →
    exec (.illegalOp false w) s = .next (takeFault s (theWave s c) c.k c.pos (wRate w.toNat) ⟨1, w.toNat / 2 ^ 32, 0, c.act, 0, 0⟩))

/-- R175, R208 to R212, R375, R385 to R388, R436, R437: a partition drains, is pre-empted, is suspended and resumes as its commands say; a register write reaches the register at its offset; a virtual function is enabled and disabled; a bound mask is set. A pre-emption parks every split of a resident wave at its region entry, or at ORIGIN in a transaction, leaves a stopped wave as it is and every registration in place, and writes each wave whose work is complete to its context area; a resume brings each saved wave back on the quadrant that QMAP names, in its slot, with its age and its registers, its parked splits ready, and the scratchpads as they were saved; it changes no byte of device, host or pod memory. That a write of a disabled function's registers is ignored, and the steps of a pre-emption, are the model's choice (assumption log 16, 30). -/
def Obligations.PartitionSteps : Prop :=
  (∀ s part p, mget? s.parts part = some p → p.state = .running →
    exec (.suspendByDraining part) s = .next { s with parts := mset s.parts part { p with state := .draining, drainSince := s.clock, preempt := false } } ∧
    exec (.suspendAtOnce part) s = .next (beginPreempt s part)) ∧
  (∀ s part p, mget? s.parts part = some p → p.state ≠ .running → exec (.suspendByDraining part) s = .next s) ∧
  (∀ s part p, mget? s.parts part = some p → p.state = .draining →
    (p.preempt = true → exec (.drainComplete part) s = .next (goOnSaving s part)) ∧
    (p.preempt = false → drained s part = true → exec (.drainComplete part) s = .next (beginPreempt s part)) ∧
    (p.preempt = false → drained s part = false → exec (.drainComplete part) s = .next s) ∧
    (p.preempt = false → p.drainSince + p.drainlim.toNat * Config.clocksPerMicrosecond ≤ s.clock →
      exec (.drainLimitExpiry part) s = .next (beginPreempt s part))) ∧
  (∀ s part p, mget? s.parts part = some p → (∀ e ∈ s.waves, e.2.id = e.1) → (s.waves.map fun e => e.1).Nodup →
    let t := beginPreempt s part
    (t.regs.map fun r => (r.wave, r.split)) = (s.regs.map fun r => (r.wave, r.split)) ∧
    (∃ q, mget? t.parts part = some q ∧ (q.state = .suspended ∨ q.state = .draining ∧ q.preempt = true)) ∧
    ∀ k w, mget? s.waves k = some w → w.part = part → w.place = .resident → ∃ v, mget? t.waves k = some v ∧
      (v.place = .saving ∨ v.place = .saved ∧ w.long = [] ∧ ∀ e ∈ s.copies, e.2.wave = k → e.2.done = true) ∧ v.age = w.age ∧
      v.vregs = w.vregs ∧ v.sregs = w.sregs ∧ v.preds = w.preds ∧ v.labels = w.labels ∧ (∀ j, j ∈ w.pendingWake → j ∈ v.pendingWake) ∧
      (w.stop ≠ none → v.stop = w.stop ∧ v.splits = w.splits) ∧
      (w.stop = none → v.stop = none ∧ ∀ j sp, mget? w.splits j = some sp → sp.state ≠ .parked ∨ sp.walks ≠ [] →
        ∃ x, mget? v.splits j = some x ∧ x.state = .parked ∧ x.pc = (if w.inTx j then w.tx.origin else sp.region) ∧
          (w.inTx j = false → x.mask = sp.mask ∧ x.ctx = sp.ctx))) ∧
  (∀ s w p, mget? s.parts w.part = some p → p.ctxBase.toNat % 2 ^ 16 = 0 → p.ctxBase ≠ 0 → w.place = .saving → w.long = [] →
    (∀ e ∈ s.copies, e.2.wave = w.id → e.2.done = true) →
    let area := p.ctxBase.toNat + blockBytes * w.lquad + 0x20000 * w.slot
    let v := { w with place := .saved, cycles := w.cycles + (s.clock - w.placedAt) }
    area + 0x20000 ≤ 2 ^ 40 → (∀ i, i < 0x20000 → reserved (area + i) = false) → (∀ line, (bandOf s line).shadow = none) →
    (∀ i, i < 0x20000 → (bandOf s ((area + i) / 128)).keyId = PageAttr.plain.keyId) →
    (∀ i, i < 0x20000 → readLoc (saveWave s w) (.dev (area + i)) = areaByte (putWave s v) v i) ∧
    (∀ l, (∀ i, i < 0x20000 → l ≠ .dev (area + i)) → readLoc (saveWave s w) l = readLoc s l) ∧
    ∃ x, mget? (saveWave s w).waves w.id = some x ∧ x.place = .saved ∧ x.splits = v.splits ∧ x.vregs = w.vregs ∧ x.sregs = w.sregs ∧
      x.preds = w.preds ∧ x.labels = w.labels) ∧
  (∀ s part p, mget? s.parts part = some p → wavesOf s part = [] → (s.copies.any fun c => c.2.part == part && !c.2.done) = false → ∃ p', mget? (goOnSaving s part).parts part = some p' ∧ p'.state = .suspended ∧ p'.preempt = false) ∧
  (∀ s part p ranges, mget? s.parts part = some p → p.state = .suspended → resumeErr s part p = none → planRanges s p (savedOf s part) [] = some ranges →
    (∀ e ∈ s.waves, ∀ st, e.2.stop = some st → st.deferred = none) →
    ∃ t p', exec (.resume part) s = .next t ∧ mget? t.parts part = some p' ∧ p'.state = .running ∧ t.mem = s.mem ∧ t.host = s.host ∧ t.pod = s.pod) ∧
  (∀ s part p ranges, mget? s.parts part = some p → p.state = .suspended → resumeErr s part p = none → planRanges s p (savedOf s part) [] = some ranges →
    (∀ e ∈ s.waves, ∀ st, e.2.stop = some st → st.deferred = none) → (∀ e ∈ s.waves, e.2.id = e.1) → (s.waves.map fun e => e.1).Nodup →
    let t := resumePart s part
    (∀ k w, mget? s.waves k = some w → w.part = part → w.place = .saved → w.splits ≠ [] →
      ∃ v, mget? t.waves k = some v ∧ v.place = .resident ∧ v.quad = (physicalOf p w.lquad).getD w.quad ∧ v.slot = w.slot ∧ v.age = w.age ∧
        v.vregs = w.vregs ∧ v.sregs = w.sregs ∧ v.preds = w.preds ∧ v.labels = w.labels ∧ v.bench = w.bench ∧ v.mbox = w.mbox ∧
        v.pendingWake = w.pendingWake ∧ (w.stop ≠ none → v.splits = w.splits ∧ v.stop = w.stop) ∧
        (w.stop = none → w.step = 0 → (∀ j sp, mget? w.splits j = some sp → sp.pc.idx ≠ 0 ∨ sp.rcv ≠ some sp.pc.hdr) → (w.splits.map fun e => e.1).Nodup →
          ∀ j sp, mget? w.splits j = some sp → sp.state = .parked →
            mget? v.splits j = some { sp with state := .ready, restarts := false, readySince := s.clock })) ∧
    ((∀ r ∈ savedOf s part, (r.bytes.map fun b => b.1).Nodup ∧ ∀ b ∈ r.bytes, b.1 < r.count * 1024) →
      ∀ r core first, (r, core, first) ∈ ranges → ∀ i, i < r.count * 1024 →
        readLoc t (.scr core (spaceByte p core (first * 1024 + i))) = mgetD r.bytes i 0)) ∧
  (∀ s part p r d, mget? s.parts part = some p → p.state = .suspended → resumeErr s part p = some (r, d) →
    exec (.resume part) s = .next (pushRecord s part (eventRecord 0 0x3C (r + 256 * d) 0))) ∧
  (∀ s part (v : DWord) p, part < 32 → mget? s.parts part = some p → p.vfEnabled = true →
    let u := fun p' => { s with power := s.power.filter (fun e => e.st != .packageSleep), parts := mset s.parts part p' }
    exec (.registerWrite false part 0x20 v) s = .next (u { p with xlroot := BitVec.ofNat 64 (v.toNat / 2 ^ 13 % 2 ^ 33 * 2 ^ 13) }) ∧
    exec (.registerWrite false part 0x28 v) s = .next (u { p with lattol := v.setWidth 32 }) ∧
    exec (.registerWrite false part 0x30 v) s = .next (u { p with drainlim := v.setWidth 32 }) ∧
    exec (.registerWrite false part 0x50 v) s = .next (u { p with faultq := BitVec.ofNat 64 (v.toNat / 2 ^ 16 % 2 ^ 48 * 2 ^ 16 + v.toNat % 2 ^ 5) }) ∧
    exec (.registerWrite false part 0x70 v) s = .next (u { p with wdlim := v.setWidth 32 })) ∧
  (∀ s part off v, (partOf s part).vfEnabled = false → exec (.registerWrite false part off v) s = .next { s with power := s.power.filter fun e => e.st != .packageSleep }) ∧
  (∀ s part p, part < 32 → 6 ≤ s.bootStep → s.bootStat.msb = false → mget? s.parts part = some p →
    ∃ t p', exec (.vfEnable part) s = .next t ∧ mget? t.parts part = some p' ∧ p'.vfEnabled = true ∧
      (p.state = .disabled → p.wipe = false → validEntries p ≠ [] → p'.state = .running) ∧ (∀ j, j ≠ part → mget? t.parts j = mget? s.parts j)) ∧
  (∀ s part p, mget? s.parts part = some p → ∃ t p', exec (.vfDisable (some part)) s = .next t ∧ mget? t.parts part = some p' ∧
    p'.vfEnabled = false ∧ p'.state = .disabled ∧ (∀ e ∈ t.tlb, e.part ≠ part) ∧ t.mem = s.mem) ∧
  (∀ s, exec (.vfDisable none) s = .next ((s.parts.map fun e => e.1).foldl disablePart s)) ∧
  (∀ s part mask, part < 32 → ∃ t, exec (.boundMaskSet part mask) s = .next t ∧ t = { s with parts := t.parts } ∧
    mget? t.parts part = some { partOf s part with boundMask := mask } ∧ ∀ j, j ≠ part → mget? t.parts j = mget? s.parts j)

/-- R440: while the CXL link retrains, a request from the host waits, and so does an access of this module to the host; the loss of the link writes no event. -/
def Obligations.LinkRetrains : Prop :=
  (∀ s since vf pa len, s.link = .down since → pa + len ≤ 2 ^ 40 → exec (.cxlMemRead vf pa len) s = .next s) ∧
  (∀ s since vf pa data, s.link = .down since → pa + data.length ≤ 2 ^ 40 → exec (.cxlMemWrite vf pa data) s = .next s) ∧
  (∀ s since wave entry lane w e a pa, s.link = .down since → readyAccess s wave entry lane false = some (w, e, a) → a.loc ≠ .host pa) ∧
  (∀ s, s.link = .up → exec .hostLinkDown s = .next { s with link := .down s.clock })

/-- R94, R128, R180, R432, R440, R441: a read by the host answers with the bytes that stand at home when their labels lie within its bound mask, and with poison when not; a write by the host writes its bytes and no other, or leaves a record; the link comes back with the messages that waited, or fails with an event. Which function asks, and how an access that is not decoded is answered, is the model's choice (assumption log 17); completions are events of their own by its reading (assumption log 50); an access beyond the 2^40 bytes of device memory is no access (log 35), and a downgrade that changes nothing (log 40), by its choice. -/
def Obligations.HostSteps : Prop :=
  (∀ s vf pa len, s.link = .up → pa + len ≤ 2 ^ 40 → 0 < len → decodes s vf false pa len = true → subset (runLabel s pa len) (boundOf s vf) = true →
    runPoisoned s pa len = false → (∀ i, i < len → (bandOf s ((pa + i) / 128)).shadow = none) → (∀ i, i < (pa + len + 127) / 128 - pa / 128 → (bandOf s (pa / 128 + i)).shadow = none) →
    ∃ t, exec (.cxlMemRead vf pa len) s = .next t ∧ t.replies = s.replies ++ [.cxlData vf pa (readBytes s (.dev pa) len)] ∧ (∀ l, readLoc t l = readLoc s l)) ∧
  (∀ s vf pa len, s.link = .up → pa + len ≤ 2 ^ 40 → 0 < len → decodes s vf false pa len = false ∨ subset (runLabel s pa len) (boundOf s vf) = false →
    ∃ t, exec (.cxlMemRead vf pa len) s = .next t ∧ t.replies = s.replies ++ [.cxlPoison vf pa] ∧ (∀ l, readLoc t l = readLoc s l)) ∧
  (∀ s vf pa data, s.link = .up → pa + data.length ≤ 2 ^ 40 → data ≠ [] → lineLocked s pa data.length = false → decodes s vf true pa data.length = true →
    pa / 128 = (pa + data.length - 1) / 128 → (bandOf s (pa / 128)).shadow = none →
    (subset (boundOf s vf) (frameLabel s (pa / 2 ^ 15)) = true → ∃ t, exec (.cxlMemWrite vf pa data) s = .next t ∧
      (∀ i, i < data.length → readLoc t (.dev (pa + i)) = nthD data i 0) ∧ (∀ l, (∀ i, i < data.length → l ≠ .dev (pa + i)) → readLoc t l = readLoc s l)) ∧
    (subset (boundOf s vf) (frameLabel s (pa / 2 ^ 15)) = false → ∃ t, exec (.cxlMemWrite vf pa data) s = .next t ∧ (∀ l, readLoc t l = readLoc s l) ∧
      t.parts = (pushEvent s (vf - 1) (eventRecord 0 0x3F (vf - 1) pa)).parts)) ∧
  (∀ s vf pa len, 2 ^ 40 < pa + len → exec (.cxlMemRead vf pa len) s = .fault .noSuchAddress) ∧
  (∀ s vf pa data, 2 ^ 40 < pa + data.length → exec (.cxlMemWrite vf pa data) s = .fault .noSuchAddress) ∧
  (∀ s id, exec (.cxlCompletion id) s = .next { s with hostPending := s.hostPending.filter fun x => x.1 != id }) ∧
  (∀ s die line, exec (.cxlCacheSnoop die line false) s = .next { s with rdc := s.rdc.filter fun x => !(x.host && x.die == die && x.line == line) }) ∧
  (∀ s die line, exec (.cxlCacheSnoop die line true) s = .next s) ∧
  (∀ s since, s.link = .down since → s.clock < since + linkLimit → 6 ≤ s.bootStep →
    exec .hostLinkRetrained s = .next { s with link := .up, msixHeld := [], replies := s.replies ++ s.msixHeld.map fun m => .msix m.1 m.2 }) ∧
  (∀ s since, s.link = .down since → since + linkLimit ≤ s.clock → 6 ≤ s.bootStep →
    exec .hostLinkFailed s = .next (packageEvent { s with link := .failed, rdc := s.rdc.filter (fun x => !x.host), hostPending := [] } 0x3B 1 0)) ∧
  (∀ s, s.link = .failed → ∃ t, exec .hostLinkRecovered s = .next t ∧ t.link = .up ∧ (∀ l, readLoc t l = readLoc s l))

/-- R103, R174, R180, R184, R187, R188, R197, R216, R219, R246: principals, windows, tenants and policies are registered only as their rules allow; the gate log is signed over its chain and acknowledged; a quote is signed over the measurement, the nonce, the identity and the configuration; a peer is admitted on a good quote and an equal principal table, and barred otherwise; a frame's label changes once no access is open; a policy that is refused answers with a status (R433); a barred peer is one of R434; a code object is measured before its checks. What a withdrawal and an identity sign, the acknowledgement's number, the loader's answer and what a frame's label waits for are the model's choice (assumption log 5, 19, 20, 24). -/
def Obligations.SecuritySteps : Prop :=
  (∀ s n key, n < 32 → exec (.principalRegistration n key) s = .next { s with principals := mset s.principals n key }) ∧
  (∀ s n key, 32 ≤ n → exec (.principalRegistration n key) s = .next s) ∧
  (∀ s p k (w : Window), p < 32 → k < 8 → (w.kind = 1 ∧ w.target < 32) ∨ (w.kind = 2 ∧ w.target < 2) ∨ (w.kind = 3 ∧ w.target < 144) →
    exec (.egressWindowRegistration p k w) s = .next { s with windows := mset s.windows (p * 8 + k) { w with reserved := 0 } }) ∧
  (∀ s p k w, p < 32 → k < 8 → w.kind = 0 → exec (.egressWindowRegistration p k w) s = .next { s with windows := merase s.windows (p * 8 + k) }) ∧
  (∀ s idx t, idx < 64 → t.part < 32 → t.identities.length ≤ 4 → exec (.tenantTableWrite idx t) s = .next { s with tenants := mset s.tenants idx t }) ∧
  (∀ s body sigs, body.length = 256 → policyBad (leNat body) = false → signedByAll s (policyOf (leNat body)).lmask body sigs = true →
    policyFor s (policyOf (leNat body)).lmask = none → s.policies.length < 64 →
    exec (.policyInstall body sigs) s = .next { s with
      policies := s.policies ++ [{ policyOf (leNat body) with installed := s.pkgTime }], replies := s.replies ++ [.policyStatus true] }) ∧
  (∀ s body sigs old, body.length = 256 → policyFor s (policyOf (leNat body)).lmask = some old → (policyOf (leNat body)).serial ≤ old.serial →
    exec (.policyInstall body sigs) s = .next { s with replies := s.replies ++ [.policyStatus false] }) ∧
  (∀ s body sigs, signedByAll s (policyOf (leNat body)).lmask body sigs = false →
    exec (.policyInstall body sigs) s = .next { s with replies := s.replies ++ [.policyStatus false] }) ∧
  (∀ s lmask n sig key, bit lmask n = true → mget? s.principals n = some key → xmssVerify key (digest (leBytes 4 lmask.toNat)) sig = true →
    (policyFor s lmask).isSome = true → exec (.policyWithdraw lmask n sig) s = .next { s with
      policies := s.policies.filter (fun p => p.lmask != lmask), replies := s.replies ++ [.policyStatus true] }) ∧
  (∀ s lmask n sig, bit lmask n = false → exec (.policyWithdraw lmask n sig) s = .next { s with replies := s.replies ++ [.policyStatus false] }) ∧
  (∀ s, exec .packageTimeRead s = .next { s with replies := s.replies ++ [.time s.pkgTime] }) ∧
  (∀ s, 0 < s.logSeq → exec .gateLogSign s = .next { s with
    replies := s.replies ++ [.logSig (Config.xmssSign s.serialNum (s.chain ++ leBytes 8 (s.logSeq - 1))) s.chain (some (s.logSeq - 1))] }) ∧
  (∀ s n, exec (.gateLogAck n) s = .next { s with logAck := max s.logAck (min n s.logSeq) }) ∧
  (∀ s nonce, nonce.length = 32 → exec (.quoteRequest nonce) s = .next { s with replies := s.replies ++
    [.quote (quoteOf s nonce).body (Config.xmssSign s.serialNum (quoteOf s nonce).body)] }) ∧
  (∀ s pkg q sig key keys, pkg < 144 → pkg ≠ s.pkgNum → quoteGood pkg q sig key = true → peerKeys keys = s.principals → pkg ∉ s.domain →
    exec (.peerAdmit pkg q sig key keys) s = .next { s with
      domain := addNat pkg s.domain, peerM := mset s.peerM pkg q.m, barred := s.barred.filter fun p => p != pkg }) ∧
  (∀ s pkg q sig key keys, pkg < 144 → pkg ≠ s.pkgNum → quoteGood pkg q sig key = false ∨ peerKeys keys ≠ s.principals →
    ∃ t, exec (.peerAdmit pkg q sig key keys) s = .next t ∧ pkg ∉ t.domain ∧ pkg ∈ t.barred ∧ (∀ p, p ≠ pkg → (p ∈ t.domain ↔ p ∈ s.domain))) ∧
  (∀ s frame idx, frame < frameCount → frameBusy s frame = false → (∀ e ∈ s.bands, e.1 / 256 = frame → e.2.shadow = none) →
    ∃ t, exec (.frameLabelChange frame idx) s = .next t ∧ readLoc t (.dev (frameTable + frame)) = idx ∧
      (∀ l, l ≠ .dev (frameTable + frame) → readLoc t l = readLoc s l) ∧ (∀ x ∈ t.l1, x.line / 256 ≠ frame)) ∧
  (∀ s frame idx, frameBusy s frame = true → exec (.frameLabelChange frame idx) s = .next s) ∧
  (∀ s part base bytes secs, (objFileOf bytes).good bytes = true → baseGood s part base.toNat (objFileOf bytes).header = true → part < 32 →
    relocateAll base.toNat (objFileOf bytes).relocs 0 ((objFileOf bytes).sects.map (stage bytes)) = .ok secs →
    ∃ t id, exec (.codeObjectSubmit part base bytes) s = .next t ∧ t.measured = digest (s.measured ++ digest bytes) ∧
      mget? t.objects id = some (codeObjOf part base bytes (objFileOf bytes)) ∧ (∀ e ∈ s.objects, e.1 < id) ∧
      t.replies = s.replies ++ [.image part base secs, .loadStatus true none]) ∧
  (∀ s part base bytes, (objFileOf bytes).good bytes = false →
    exec (.codeObjectSubmit part base bytes) s = .next { s with
      measured := digest (s.measured ++ digest bytes), replies := s.replies ++ [.loadStatus false none] })

/-- R15, R179, R217, R220, R434, R439, R445: an intact packet of a peer is taken once, and a duplicate or one of a barred peer changes no byte; a failing plane is retired and announced; power states are entered when they may be and left; the power monitor withholds issue; the start sequence goes step by step; a module reset leaves what reset leaves. That it empties device memory is the model's choice (assumption log 21). So are the order of packets, the count of failures at which a plane retires, the field of BOOTSTAT and the leaving of a power state (assumption log 18, 22, 23, 25). -/
def Obligations.FabricPowerSteps : Prop :=
  (∀ s p data, p.kind = .write data → p.pa + data.length ≤ 2 ^ 40 → data ≠ [] → p.src ≤ 143 → p.src ≠ s.pkgNum → p.plane ≤ 35 →
    lineLocked s p.pa data.length = false → 6 ≤ s.bootStep → p.src ∉ s.barred → mgetD s.rxSeq (seqKey p.src p.plane) 0 ≤ p.seq → runOpen s .network true p.pa data.length = true →
    p.pa / 128 = (p.pa + data.length - 1) / 128 → (bandOf s (p.pa / 128)).shadow = none → subset p.label (frameLabel s (p.pa / 2 ^ 15)) = true →
    ∃ t, exec (.fabricPacket p) s = .next t ∧ (∀ i, i < data.length → readLoc t (.dev (p.pa + i)) = nthD data i 0) ∧
      (∀ l, (∀ i, i < data.length → l ≠ .dev (p.pa + i)) → readLoc t l = readLoc s l) ∧
      mgetD t.rxSeq (seqKey p.src p.plane) 0 = p.seq + 1) ∧
  (∀ s p, p.pa + packetBytes p ≤ 2 ^ 40 → p.src ∈ s.barred ∨ p.seq < mgetD s.rxSeq (seqKey p.src p.plane) 0 →
    ∃ t, exec (.fabricPacket p) s = .next t ∧ (∀ l, readLoc t l = readLoc s l) ∧ t.replies = s.replies) ∧
  (∀ s plane, plane ≤ 35 → plane ∉ s.retired → mgetD s.flitFails plane 0 + 1 ≤ retryLimit →
    exec (.flitCrcFailure plane) s = .next { s with flitFails := mset s.flitFails plane (mgetD s.flitFails plane 0 + 1) }) ∧
  (∀ s plane, plane ≤ 35 → plane ∉ s.retired → retryLimit < mgetD s.flitFails plane 0 + 1 →
    ∃ t, exec (.flitCrcFailure plane) s = .next t ∧ plane ∈ t.retired ∧ .announce plane ∈ t.replies ∧ (∀ l, readLoc t l = readLoc s l)) ∧
  (∀ s plane, plane ≤ 35 → plane ∉ s.retired →
    (∃ t, exec (.flitRetryLimit plane) s = .next t ∧ plane ∈ t.retired ∧ .announce plane ∈ t.replies ∧ (∀ l, readLoc t l = readLoc s l)) ∧
    (∃ t, exec (.planeRetirementAnnounce plane) s = .next t ∧ plane ∈ t.retired ∧ t.replies = s.replies ∧ (∀ l, readLoc t l = readLoc s l))) ∧
  (∀ s st unit, mayEnter s st unit = true → exec (.powerStateEntry st unit) s = .next { s with power := s.power ++ [⟨st, unit, s.clock⟩] }) ∧
  (∀ s st unit, mayEnter s st unit = false → exec (.powerStateEntry st unit) s = .next s) ∧
  (∀ s st unit, ∃ t, exec (.powerStateExit st unit) s = .next t ∧ t = { s with power := t.power } ∧ ∀ e ∈ t.power, ¬ (e.st = st ∧ e.unit = unit)) ∧
  (∀ s level, level ≤ 2 → exec (.powerMonitorWithhold level) s = .next { s with withhold := level }) ∧
  (∀ s a, a.step = s.bootStep + 1 → a.step ≤ 6 → s.bootStat.msb = false → stepSucceeds a = true →
    ∃ t, exec (.startSequence a) s = .next t ∧ t.bootStep = a.step ∧ (a.step = 2 ∨ a.step = 5 → t.measured = digest (s.measured ++ digest a.image)) ∧
      (a.step = 1 → t.pkgNum = a.record.pkgNum ∧ t.serialNum = a.record.serialNum ∧ t.archLevel = a.record.archLevel ∧ t.composition = a.record.composition) ∧
      (a.step = 3 → t.access = a.access) ∧ (a.step = 6 → t.link = .up)) ∧
  (∀ s a, a.step = s.bootStep + 1 → a.step ≤ 3 → s.bootStat.msb = false → stepSucceeds a = false →
    exec (.startSequence a) s = .next { s with bootStat := bootStatOf a.step a.unit, replies := s.replies ++ [.faultPin] }) ∧
  (∀ s a, a.step = s.bootStep + 1 → 4 ≤ a.step → a.step ≤ 6 → s.bootStat.msb = false → stepSucceeds a = false → unitThere a.step a.unit = true →
    (a.step = 6 → a.unit < celideUnit) → exec (.startSequence a) s = .next { s with bootStat := bootStatOf a.step a.unit, link := .ioOnly }) ∧
  (∀ s a, a.step ≠ s.bootStep + 1 → exec (.startSequence a) s = .next s) ∧
  (∀ s, ∃ t, exec .moduleReset s = .next t ∧ t.waves = [] ∧ t.parts = [] ∧ t.policies = [] ∧ t.mem = [] ∧ t.pkgTime = 0 ∧ t.bootStep = 0 ∧ t.logSeq = 0 ∧
      t.chain = List.replicate 32 0 ∧ t.pkgNum = s.pkgNum ∧ t.serialNum = s.serialNum ∧ t.host = s.host)

/-- R187, R188, R219, R220 and the state after reset: package time 0, no release policy, an empty gate log whose chain value is 256 zero bits, a measurement of 256 zero bits, no step of the power-on sequence done, no wave, launch or partition; no memory lists a byte, and each has its canonical form. That a byte nothing has written reads as 0 is the model's choice (assumption log 2), as are clock 0, an acknowledgement number 0 and no partition (log 4), and an empty agenda (log 3). -/
def Obligations.ResetState : Prop :=
  let s := State.reset
  (s.pkgTime = 0 ∧ s.clock = 0 ∧ s.policies = [] ∧ s.logSeq = 0 ∧ s.logAck = 0 ∧ s.chain = List.replicate 32 0 ∧
    s.measured = List.replicate 32 0 ∧ s.bootStep = 0 ∧ s.bootStat = 0) ∧
  (s.waves = [] ∧ s.launches = [] ∧ s.parts = [] ∧ s.elems = [] ∧ s.copies = [] ∧ s.gateQ = [] ∧ s.gate = none ∧ s.unitWrites = [] ∧ s.token = none ∧ s.agenda = []) ∧
  (Memory.wf s.mem = true ∧ Memory.wf s.host = true ∧ Memory.wf s.pod = true ∧ Memory.wf s.scratch = true) ∧
  ∀ l, readLoc s l = 0

/-- Words that the spec writes out, and the instructions that it says they are (R222 to R241): `ld.b32`, `fadd.rn` under a negated guard, `icmp.ge`, `brc`, `st.b64`, `cpy.g2g`, `bar`, `fencex`. -/
def Obligations.WordsDecode : Prop :=
  decode 0x7100_0090_2018_082C = .ok (.ld ⟨.fine, false, 0, false⟩ .b32 (.v 4) ⟨.s 2, .v 3, 0x010, .acq, .die, .dflt⟩) ∧
  decode 0x4001_40A0_7A70_0000 = .ok (.fadd ⟨.fine, false, 2, true⟩ .f32 .rne false (.v 5) (.v 7) (.c .fOne) (.v 0)) ∧
  decode 0x3040_2820_1000_1405 = .ok (.icmp ⟨.fine, false, 0, false⟩ .i32 .ge .none (.p 1) (.v 1) (.imm 0x14) (.v 0)) ∧
  decode 0x00C0_C000_4400_0440 = .ok (.brc ⟨.fine, false, 1, true⟩ 0x11 0x11 0) ∧
  decode 0x7280_0090_6018_0004 = .ok (.st ⟨.fine, false, 0, false⟩ .b64 (.v 4) ⟨.s 6, .v 3, 0, .rlx, .core, .dflt⟩) ∧
  decode 0x9000_2190_8834_2800 = .ok (.cpy ⟨.fine, false, 0, false⟩ .g2g (.s 12) (.s 8) (.s 6) (.s 10)) ∧
  decode 0xA100_0014_8000_0001 = .ok (.bar ⟨.fine, false, 0, false⟩ .core 0 (.c .zero)) ∧
  decode 0x8DC0_0000_0000_0000 = .ok (.fencex ⟨.fine, false, 0, false⟩)

/-- R222 to R235, R191: decoding and encoding agree. A word decodes to an instruction exactly where the instruction is well formed and the word is its encoding, with every operand at every value that the encoding admits; the encoder gives that word; and the words of a command, of the length that its header gives, decode to the command. -/
def Obligations.RoundTrip : Prop :=
  (∀ w i, decode w = .ok i ↔ (WellFormed i = true ∧ i.word = w)) ∧
  (∀ i, WellFormed i = true → encode i = [i.word]) ∧
  ∀ i hd ws, i.command = hd :: ws → decodeCommand (encode i) = i ∧ cmdLen hd = ws.length + 1

/-- A step keeps the canonical form of every memory: device memory, host memory, memory of other packages and the scratchpads list addresses that strictly rise and no byte that an unlisted address reads as. -/
def Obligations.MemoryCanonical : Prop :=
  ∀ s t : State, Memory.wf s.mem = true → Memory.wf s.host = true → Memory.wf s.pod = true → Memory.wf s.scratch = true →
    step s = .next t →
    Memory.wf t.mem = true ∧ Memory.wf t.host = true ∧ Memory.wf t.pod = true ∧ Memory.wf t.scratch = true

/-- R31, R38, R47, R190, R221, R390: a step runs the decoded instruction. Where the agenda lets a ready split of a resident wave issue, its clause header has no failure, its wait mask is clear, and the word at its position decodes to an instruction of a legal rate that the rate rule executes, the step is the meaning of that instruction with the split at issue and the lines of its header and word reached, and then the count of a step and the clock of the issue. Where a queue runs, the step is the meaning of the command that the words at HEAD decode to. An act of the outside world is its own meaning, but for a request of the host that its link or access tables do not let through, which changes nothing; an uncorrectable error marks its line or its storage (R417, R444); with nothing on the agenda a clock passes and the machine takes its own next act. After each, a split whose wait mask is clear is ready again, the spilled records and context areas hold what changed, and power states that a request ends are left (R20, R160, R217, R365). That an agenda names the acts, what follows an empty one, and the clocks in which issue is withheld are the model's choice (assumption log 3, 9, 10), as are the acts by which an error strikes (log 48); which requests of the host wait is its reading (log 50). -/
def Obligations.StepRuns : Prop :=
  (∀ s rest n k w sp l o x hdr word i, s.agenda = .issue n k :: rest → mget? s.waves n = some w → w.id = n → mget? w.splits k = some sp →
    mget? s.launches w.launch = some l → w.place = .resident → w.stop = none → sp.state = .ready → w.step = 0 ∨ stepTurn w = some k →
    let s0 := { s with agenda := rest }
    entryOf s0 l w.entry = some (o, x) → fetchWord s0 w sp.pc.hdr.toNat = .ok hdr → headerErr hdr = none → sp.begun = true ∨ waitClear w hdr = true →
    let s1 := putWave (reachCode s0 w sp.pc.hdr.toNat) (w.setSplit k { sp with begun := true })
    let at_ := (sp.pc.hdr + BitVec.ofNat 64 (8 * (sp.pc.idx + 1))).toNat
    fetchWord s1 w at_ = .ok word → decode (BitVec.ofNat 64 word) = .ok i →
    rateLegal o.draw i.ctl.rate = true → treat o.draw w.rate i sp.pc hdr = .execute →
    let u := { reachCode s1 w at_ with cur := ⟨n, k, sp.pc.hdr, BitVec.ofNat 64 hdr, sp.pc.idx⟩ }
    withheld u w.quad (word / 2 ^ 60) i = false →
    step s = settled s (match exec i u with
      | .next t => .next (afterIssue u t)
      | r => r)) ∧
  (∀ s rest part q p x ws, s.agenda = .command part q :: rest → mget? s.parts part = some p → mget? p.queues q = some x → p.state = .running →
    x.wait = .none → q < 8 → commandWords { s with agenda := rest } part x = some ws →
    step s = settled s (exec (decodeCommand ws) { s with agenda := rest, curQueue := (part, q) })) ∧
  (∀ s rest i, s.agenda = .event i :: rest → isEvent i = true →
    step s = settled s (if hostBarred s i then .next { s with agenda := rest } else exec i { s with agenda := rest })) ∧
  (∀ s rest line, s.agenda = .poison line :: rest → step s = settled s (.next (poison { s with agenda := rest } line))) ∧
  (∀ s rest m, s.agenda = .soft m :: rest → step s = settled s (.next (strike { s with agenda := rest } m))) ∧
  (∀ s rest n ns, s.agenda = .tick n ns :: rest →
    step s = settled s (.next { passClocks { s with agenda := rest } n with pkgTime := s.pkgTime + ns })) ∧
  (∀ s n, (passClocks s n).clock = s.clock + n ∧ (s.withhold = 0 → passClocks s n = { s with clock := s.clock + n })) ∧
  (∀ s, s.agenda = [] → nextAct (passClock s) = none → step s = .next (passClock s)) ∧
  ∀ s a, s.agenda = [] → nextAct (passClock s) = some a → step s = settled s (runAct (passClock s) a)
end

