-- ==== Sys2Proof/Laws/Map.lean ====
section
/-! SUPPORT. Laws of finite maps, masks, words and byte memories: a read after a write, what a write leaves alone, and that every memory operation keeps the canonical form. -/
namespace Sys2Proof.Machine

/-! ## Maps -/

@[simp] theorem mget?_nil {α : Type} (k : Nat) : mget? ([] : Map α) k = none := rfl

theorem mget?_mset_self {α : Type} (m : Map α) (k : Nat) (v : α) : mget? (mset m k v) k = some v := by
  induction m with
  | nil => simp [mset, mget?]
  | cons p m ih =>
    obtain ⟨j, u⟩ := p
    simp only [mset]
    split
    · simp [mget?]
    · split
      · simp [mget?]
      · simp only [mget?]
        rw [if_neg ‹_›]
        exact ih

theorem mget?_mset_ne {α : Type} (m : Map α) {k j : Nat} (v : α) (h : j ≠ k) : mget? (mset m k v) j = mget? m j := by
  induction m with
  | nil => simp [mset, mget?, h]
  | cons p m ih =>
    obtain ⟨i, u⟩ := p
    simp only [mset]
    split
    · subst_vars
      simp [mget?, h]
    · split
      · simp [mget?, h]
      · simp only [mget?, ih]

theorem mget?_mset {α : Type} (m : Map α) (k j : Nat) (v : α) :
    mget? (mset m k v) j = if j = k then some v else mget? m j := by
  split
  · subst_vars
    exact mget?_mset_self m _ v
  · exact mget?_mset_ne m v ‹_›

theorem mget?_merase {α : Type} (m : Map α) (k j : Nat) :
    mget? (merase m k) j = if j = k then none else mget? m j := by
  induction m with
  | nil => simp [merase]
  | cons p m ih =>
    obtain ⟨i, u⟩ := p
    simp only [merase]
    split
    · rw [ih]
      split
      · rfl
      · subst_vars
        simp [mget?, *]
    · simp only [mget?, ih]
      split
      · subst_vars
        simp [Ne.symm ‹_›]
      · rfl

theorem mgetD_mset {α : Type} (m : Map α) (k j : Nat) (v d : α) :
    mgetD (mset m k v) j d = if j = k then v else mgetD m j d := by
  simp only [mgetD, mget?_mset]
  by_cases h : j = k <;> simp [h]

theorem mgetD_merase {α : Type} (m : Map α) (k j : Nat) (d : α) :
    mgetD (merase m k) j d = if j = k then d else mgetD m j d := by
  simp only [mgetD, mget?_merase]
  by_cases h : j = k <;> simp [h]

theorem mgetD_mput {α : Type} [DecidableEq α] (m : Map α) (k j : Nat) (v d : α) :
    mgetD (mput d m k v) j d = if j = k then v else mgetD m j d := by
  unfold mput
  split
  · rw [mgetD_merase]
    split <;> simp [*]
  · exact mgetD_mset m k j v d

theorem mget?_mmodify {α : Type} (m : Map α) (k j : Nat) (f : α → α) :
    mget? (mmodify m k f) j = if j = k then (mget? m k).map f else mget? m j := by
  unfold mmodify
  cases h : mget? m k with
  | none => simp; intro hj; subst hj; exact h
  | some v => simp [mget?_mset]

theorem mget?_mmap {α : Type} (m : Map α) (f : Nat → α → α) (k : Nat) :
    mget? (mmap m f) k = (mget? m k).map (f k) := by
  induction m with
  | nil => rfl
  | cons p m ih =>
    obtain ⟨i, u⟩ := p
    simp only [mmap, List.map_cons, mget?] at *
    split
    · subst_vars; rfl
    · exact ih

theorem mgetD_eq_of_mget? {α : Type} {m : Map α} {k : Nat} {v : α} (d : α) (h : mget? m k = some v) : mgetD m k d = v := by
  simp [mgetD, h]

/-! ## Sorted maps -/

theorem sortedFrom_weaken {α : Type} {m : Map α} {a b : Nat} (h : a ≤ b) (hs : sortedFrom b m = true) : sortedFrom a m = true := by
  cases m with
  | nil => rfl
  | cons p m =>
    simp only [sortedFrom, Bool.and_eq_true, decide_eq_true_eq] at *
    exact ⟨by omega, hs.2⟩

theorem sortedFrom_mset {α : Type} {m : Map α} {a k : Nat} (v : α) (hk : a ≤ k) (hs : sortedFrom a m = true) :
    sortedFrom a (mset m k v) = true := by
  induction m generalizing a with
  | nil => simp [mset, sortedFrom, hk]
  | cons p m ih =>
    obtain ⟨j, u⟩ := p
    simp only [sortedFrom, Bool.and_eq_true, decide_eq_true_eq] at hs
    simp only [mset]
    split
    · subst_vars
      simp [sortedFrom, hs]
    · split
      · simp only [sortedFrom, Bool.and_eq_true, decide_eq_true_eq]
        exact ⟨hk, by omega, hs.2⟩
      · simp only [sortedFrom, Bool.and_eq_true, decide_eq_true_eq]
        exact ⟨hs.1, ih (by omega) hs.2⟩

theorem sortedFrom_merase {α : Type} {m : Map α} {a : Nat} (k : Nat) (hs : sortedFrom a m = true) :
    sortedFrom a (merase m k) = true := by
  induction m generalizing a with
  | nil => rfl
  | cons p m ih =>
    obtain ⟨j, u⟩ := p
    simp only [sortedFrom, Bool.and_eq_true, decide_eq_true_eq] at hs
    simp only [merase]
    split
    · exact sortedFrom_weaken (by omega) (ih hs.2)
    · simp only [sortedFrom, Bool.and_eq_true, decide_eq_true_eq]
      exact ⟨hs.1, ih hs.2⟩

theorem sortedFrom_filter {α : Type} {m : Map α} {a : Nat} (f : Nat × α → Bool) (hs : sortedFrom a m = true) :
    sortedFrom a (m.filter f) = true := by
  induction m generalizing a with
  | nil => rfl
  | cons p m ih =>
    obtain ⟨j, u⟩ := p
    simp only [sortedFrom, Bool.and_eq_true, decide_eq_true_eq] at hs
    rw [List.filter_cons]
    split
    · simp only [sortedFrom, Bool.and_eq_true, decide_eq_true_eq]
      exact ⟨hs.1, ih hs.2⟩
    · exact sortedFrom_weaken (by omega) (ih hs.2)

theorem all_mset {α : Type} {m : Map α} {k : Nat} {v : α} (f : Nat × α → Bool) (hv : f (k, v) = true) (h : m.all f = true) :
    (mset m k v).all f = true := by
  induction m with
  | nil => simp [mset, hv]
  | cons p m ih =>
    obtain ⟨j, u⟩ := p
    simp only [List.all_cons, Bool.and_eq_true] at h
    simp only [mset]
    split
    · simp [hv, h.2]
    · split
      · simp [hv, h.1, h.2]
      · simp only [List.all_cons, Bool.and_eq_true]
        exact ⟨h.1, ih h.2⟩

theorem all_merase {α : Type} {m : Map α} (k : Nat) (f : Nat × α → Bool) (h : m.all f = true) : (merase m k).all f = true := by
  induction m with
  | nil => rfl
  | cons p m ih =>
    obtain ⟨j, u⟩ := p
    simp only [List.all_cons, Bool.and_eq_true] at h
    simp only [merase]
    split
    · exact ih h.2
    · simp only [List.all_cons, Bool.and_eq_true]
      exact ⟨h.1, ih h.2⟩

/-! ## Byte memories -/

@[simp] theorem memory_wf_nil : Memory.wf [] = true := rfl

theorem memory_read_write (m : List Host.Cell) (a b : Nat) (v : Byte) :
    Memory.read (Memory.write m a v) b = if b = a then v else Memory.read m b := mgetD_mput m a b v Memory.unlisted

theorem memory_read_write_self (m : List Host.Cell) (a : Nat) (v : Byte) : Memory.read (Memory.write m a v) a = v := by
  simp [memory_read_write]

theorem memory_read_write_ne (m : List Host.Cell) {a b : Nat} (v : Byte) (h : b ≠ a) :
    Memory.read (Memory.write m a v) b = Memory.read m b := by simp [memory_read_write, h]

theorem memory_wf_write {m : List Host.Cell} (a : Nat) (v : Byte) (h : Memory.wf m = true) : Memory.wf (Memory.write m a v) = true := by
  simp only [Memory.wf, Bool.and_eq_true] at h ⊢
  unfold Memory.write mput
  split
  · exact ⟨sortedFrom_merase a h.1, all_merase a _ h.2⟩
  · refine ⟨sortedFrom_mset v (by omega) h.1, all_mset _ ?_ h.2⟩
    simpa [Memory.unlisted] using ‹_›

theorem memory_wf_writeN {m : List Host.Cell} (a : Nat) (bs : List Byte) (h : Memory.wf m = true) : Memory.wf (Memory.writeN m a bs) = true := by
  induction bs generalizing m a with
  | nil => exact h
  | cons b bs ih => exact ih (a + 1) (memory_wf_write a b h)

theorem memory_wf_filter {m : List Host.Cell} (f : Host.Cell → Bool) (h : Memory.wf m = true) : Memory.wf (m.filter f) = true := by
  simp only [Memory.wf, Bool.and_eq_true] at h ⊢
  refine ⟨sortedFrom_filter f h.1, ?_⟩
  simp only [List.all_eq_true] at h ⊢
  intro x hx
  exact h.2 x (List.mem_filter.mp hx).1

theorem memory_read_writeN (m : List Host.Cell) (a : Nat) (bs : List Byte) (b : Nat) :
    Memory.read (Memory.writeN m a bs) b = if a ≤ b ∧ b < a + bs.length then nthD bs (b - a) 0 else Memory.read m b := by
  induction bs generalizing m a with
  | nil => simp [Memory.writeN]
  | cons v bs ih =>
    simp only [Memory.writeN, ih, memory_read_write, List.length_cons]
    by_cases h1 : b = a
    · subst h1
      rw [if_neg (by omega), if_pos rfl, if_pos ⟨by omega, by omega⟩, Nat.sub_self]
      rfl
    · by_cases h2 : a ≤ b
      · have h3 : b - a = (b - (a + 1)) + 1 := by omega
        rw [h3]
        simp only [nthD]
        by_cases h4 : b < a + 1 + bs.length
        · rw [if_pos ⟨by omega, h4⟩, if_pos ⟨h2, by omega⟩]
        · rw [if_neg (by omega), if_neg h1, if_neg (by omega)]
      · rw [if_neg (by omega), if_neg h1, if_neg (by omega)]

/-! ## Masks and bytes -/

theorem bit_zero (l : Nat) : bit 0 l = false := by simp [bit]

theorem bit_and (a b : Mask) (l : Nat) : bit (a &&& b) l = (bit a l && bit b l) := by simp [bit]

theorem bit_or (a b : Mask) (l : Nat) : bit (a ||| b) l = (bit a l || bit b l) := by simp [bit]

theorem bit_lt {m : Mask} {l : Nat} (h : bit m l = true) : l < 32 := by
  by_contra hl
  have : m.toNat < 2 ^ l := Nat.lt_of_lt_of_le m.isLt (Nat.pow_le_pow_right (by decide) (by omega))
  rw [bit, Nat.testBit_lt_two_pow this] at h
  exact absurd h (by decide)

theorem mem_lanesOf {m : Mask} {l : Nat} : l ∈ lanesOf m ↔ bit m l = true := by
  simp only [lanesOf, List.mem_filter, List.mem_range]
  exact ⟨fun h => h.2, fun h => ⟨bit_lt h, h⟩⟩

theorem lanesOf_nodup (m : Mask) : (lanesOf m).Nodup := List.Nodup.filter _ List.nodup_range

theorem leNat_leBytes (n v : Nat) : leNat (leBytes n v) = v % 256 ^ n := by
  induction n generalizing v with
  | zero => simp [leBytes, leNat, Nat.mod_one]
  | succ n ih =>
    simp only [leBytes, leNat, ih, BitVec.toNat_ofNat]
    have h : (256 : Nat) ^ (n + 1) = 256 * 256 ^ n := by ring
    rw [h, Nat.mod_mul]

theorem length_leBytes (n v : Nat) : (leBytes n v).length = n := by
  induction n generalizing v with
  | zero => rfl
  | succ n ih => simp [leBytes, ih]

end Sys2Proof.Machine
end

