-- ==== Sys2Proof/Laws/State.lean ====
section
/-! SUPPORT. The fields of State, Wave and Split after each basic update: what an update sets, and that it leaves every other field as it was. -/
namespace Sys2Proof.Machine

/-! ## putWave -/

@[simp] theorem putWave_agenda (s : State) (w : Wave) : (putWave s w).agenda = s.agenda := rfl
@[simp] theorem putWave_cur (s : State) (w : Wave) : (putWave s w).cur = s.cur := rfl
@[simp] theorem putWave_curQueue (s : State) (w : Wave) : (putWave s w).curQueue = s.curQueue := rfl
@[simp] theorem putWave_replies (s : State) (w : Wave) : (putWave s w).replies = s.replies := rfl
@[simp] theorem putWave_issued (s : State) (w : Wave) : (putWave s w).issued = s.issued := rfl
@[simp] theorem putWave_clock (s : State) (w : Wave) : (putWave s w).clock = s.clock := rfl
@[simp] theorem putWave_pkgTime (s : State) (w : Wave) : (putWave s w).pkgTime = s.pkgTime := rfl
@[simp] theorem putWave_pkgNum (s : State) (w : Wave) : (putWave s w).pkgNum = s.pkgNum := rfl
@[simp] theorem putWave_serialNum (s : State) (w : Wave) : (putWave s w).serialNum = s.serialNum := rfl
@[simp] theorem putWave_archLevel (s : State) (w : Wave) : (putWave s w).archLevel = s.archLevel := rfl
@[simp] theorem putWave_composition (s : State) (w : Wave) : (putWave s w).composition = s.composition := rfl
@[simp] theorem putWave_mem (s : State) (w : Wave) : (putWave s w).mem = s.mem := rfl
@[simp] theorem putWave_host (s : State) (w : Wave) : (putWave s w).host = s.host := rfl
@[simp] theorem putWave_pod (s : State) (w : Wave) : (putWave s w).pod = s.pod := rfl
@[simp] theorem putWave_podLabels (s : State) (w : Wave) : (putWave s w).podLabels = s.podLabels := rfl
@[simp] theorem putWave_scratch (s : State) (w : Wave) : (putWave s w).scratch = s.scratch := rfl
@[simp] theorem putWave_scrLabels (s : State) (w : Wave) : (putWave s w).scrLabels = s.scrLabels := rfl
@[simp] theorem putWave_poisoned (s : State) (w : Wave) : (putWave s w).poisoned = s.poisoned := rfl
@[simp] theorem putWave_soft (s : State) (w : Wave) : (putWave s w).soft = s.soft := rfl
@[simp] theorem putWave_labelSets (s : State) (w : Wave) : (putWave s w).labelSets = s.labelSets := rfl
@[simp] theorem putWave_l1 (s : State) (w : Wave) : (putWave s w).l1 = s.l1 := rfl
@[simp] theorem putWave_l2 (s : State) (w : Wave) : (putWave s w).l2 = s.l2 := rfl
@[simp] theorem putWave_rdc (s : State) (w : Wave) : (putWave s w).rdc = s.rdc := rfl
@[simp] theorem putWave_hbmKeys (s : State) (w : Wave) : (putWave s w).hbmKeys = s.hbmKeys := rfl
@[simp] theorem putWave_linkKeys (s : State) (w : Wave) : (putWave s w).linkKeys = s.linkKeys := rfl
@[simp] theorem putWave_access (s : State) (w : Wave) : (putWave s w).access = s.access := rfl
@[simp] theorem putWave_bands (s : State) (w : Wave) : (putWave s w).bands = s.bands := rfl
@[simp] theorem putWave_tlb (s : State) (w : Wave) : (putWave s w).tlb = s.tlb := rfl
@[simp] theorem putWave_tiles (s : State) (w : Wave) : (putWave s w).tiles = s.tiles := rfl
@[simp] theorem putWave_tileLabels (s : State) (w : Wave) : (putWave s w).tileLabels = s.tileLabels := rfl
@[simp] theorem putWave_tileOwner (s : State) (w : Wave) : (putWave s w).tileOwner = s.tileOwner := rfl
@[simp] theorem putWave_savedTiles (s : State) (w : Wave) : (putWave s w).savedTiles = s.savedTiles := rfl
@[simp] theorem putWave_savedScr (s : State) (w : Wave) : (putWave s w).savedScr = s.savedScr := rfl
@[simp] theorem putWave_waves (s : State) (w : Wave) : (putWave s w).waves = mset s.waves w.id w := rfl
@[simp] theorem putWave_nextWave (s : State) (w : Wave) : (putWave s w).nextWave = s.nextWave := rfl
@[simp] theorem putWave_clusters (s : State) (w : Wave) : (putWave s w).clusters = s.clusters := rfl
@[simp] theorem putWave_nextCluster (s : State) (w : Wave) : (putWave s w).nextCluster = s.nextCluster := rfl
@[simp] theorem putWave_elems (s : State) (w : Wave) : (putWave s w).elems = s.elems := rfl
@[simp] theorem putWave_nextElem (s : State) (w : Wave) : (putWave s w).nextElem = s.nextElem := rfl
@[simp] theorem putWave_gathers (s : State) (w : Wave) : (putWave s w).gathers = s.gathers := rfl
@[simp] theorem putWave_traceHolds (s : State) (w : Wave) : (putWave s w).traceHolds = s.traceHolds := rfl
@[simp] theorem putWave_rays (s : State) (w : Wave) : (putWave s w).rays = s.rays := rfl
@[simp] theorem putWave_nextRay (s : State) (w : Wave) : (putWave s w).nextRay = s.nextRay := rfl
@[simp] theorem putWave_regs (s : State) (w : Wave) : (putWave s w).regs = s.regs := rfl
@[simp] theorem putWave_homeQ (s : State) (w : Wave) : (putWave s w).homeQ = s.homeQ := rfl
@[simp] theorem putWave_fabricQ (s : State) (w : Wave) : (putWave s w).fabricQ = s.fabricQ := rfl
@[simp] theorem putWave_reached (s : State) (w : Wave) : (putWave s w).reached = s.reached := rfl
@[simp] theorem putWave_markers (s : State) (w : Wave) : (putWave s w).markers = s.markers := rfl
@[simp] theorem putWave_barriers (s : State) (w : Wave) : (putWave s w).barriers = s.barriers := rfl
@[simp] theorem putWave_nextBar (s : State) (w : Wave) : (putWave s w).nextBar = s.nextBar := rfl
@[simp] theorem putWave_token (s : State) (w : Wave) : (putWave s w).token = s.token := rfl
@[simp] theorem putWave_tokenQ (s : State) (w : Wave) : (putWave s w).tokenQ = s.tokenQ := rfl
@[simp] theorem putWave_txLocks (s : State) (w : Wave) : (putWave s w).txLocks = s.txLocks := rfl
@[simp] theorem putWave_unitWrites (s : State) (w : Wave) : (putWave s w).unitWrites = s.unitWrites := rfl
@[simp] theorem putWave_copies (s : State) (w : Wave) : (putWave s w).copies = s.copies := rfl
@[simp] theorem putWave_nextCopy (s : State) (w : Wave) : (putWave s w).nextCopy = s.nextCopy := rfl
@[simp] theorem putWave_copySeq (s : State) (w : Wave) : (putWave s w).copySeq = s.copySeq := rfl
@[simp] theorem putWave_gateQ (s : State) (w : Wave) : (putWave s w).gateQ = s.gateQ := rfl
@[simp] theorem putWave_gate (s : State) (w : Wave) : (putWave s w).gate = s.gate := rfl
@[simp] theorem putWave_policies (s : State) (w : Wave) : (putWave s w).policies = s.policies := rfl
@[simp] theorem putWave_logSeq (s : State) (w : Wave) : (putWave s w).logSeq = s.logSeq := rfl
@[simp] theorem putWave_logAck (s : State) (w : Wave) : (putWave s w).logAck = s.logAck := rfl
@[simp] theorem putWave_chain (s : State) (w : Wave) : (putWave s w).chain = s.chain := rfl
@[simp] theorem putWave_principals (s : State) (w : Wave) : (putWave s w).principals = s.principals := rfl
@[simp] theorem putWave_windows (s : State) (w : Wave) : (putWave s w).windows = s.windows := rfl
@[simp] theorem putWave_spawnQ (s : State) (w : Wave) : (putWave s w).spawnQ = s.spawnQ := rfl
@[simp] theorem putWave_gatherSlots (s : State) (w : Wave) : (putWave s w).gatherSlots = s.gatherSlots := rfl
@[simp] theorem putWave_overflow (s : State) (w : Wave) : (putWave s w).overflow = s.overflow := rfl
@[simp] theorem putWave_sealCount (s : State) (w : Wave) : (putWave s w).sealCount = s.sealCount := rfl
@[simp] theorem putWave_objects (s : State) (w : Wave) : (putWave s w).objects = s.objects := rfl
@[simp] theorem putWave_launches (s : State) (w : Wave) : (putWave s w).launches = s.launches := rfl
@[simp] theorem putWave_nextLaunch (s : State) (w : Wave) : (putWave s w).nextLaunch = s.nextLaunch := rfl
@[simp] theorem putWave_parts (s : State) (w : Wave) : (putWave s w).parts = s.parts := rfl
@[simp] theorem putWave_tenants (s : State) (w : Wave) : (putWave s w).tenants = s.tenants := rfl
@[simp] theorem putWave_netTimes (s : State) (w : Wave) : (putWave s w).netTimes = s.netTimes := rfl
@[simp] theorem putWave_bankRR (s : State) (w : Wave) : (putWave s w).bankRR = s.bankRR := rfl
@[simp] theorem putWave_domain (s : State) (w : Wave) : (putWave s w).domain = s.domain := rfl
@[simp] theorem putWave_peerM (s : State) (w : Wave) : (putWave s w).peerM = s.peerM := rfl
@[simp] theorem putWave_barred (s : State) (w : Wave) : (putWave s w).barred = s.barred := rfl
@[simp] theorem putWave_cut (s : State) (w : Wave) : (putWave s w).cut = s.cut := rfl
@[simp] theorem putWave_measured (s : State) (w : Wave) : (putWave s w).measured = s.measured := rfl
@[simp] theorem putWave_configDigest (s : State) (w : Wave) : (putWave s w).configDigest = s.configDigest := rfl
@[simp] theorem putWave_retired (s : State) (w : Wave) : (putWave s w).retired = s.retired := rfl
@[simp] theorem putWave_flitFails (s : State) (w : Wave) : (putWave s w).flitFails = s.flitFails := rfl
@[simp] theorem putWave_rxSeq (s : State) (w : Wave) : (putWave s w).rxSeq = s.rxSeq := rfl
@[simp] theorem putWave_link (s : State) (w : Wave) : (putWave s w).link = s.link := rfl
@[simp] theorem putWave_hostPending (s : State) (w : Wave) : (putWave s w).hostPending = s.hostPending := rfl
@[simp] theorem putWave_msixHeld (s : State) (w : Wave) : (putWave s w).msixHeld = s.msixHeld := rfl
@[simp] theorem putWave_power (s : State) (w : Wave) : (putWave s w).power = s.power := rfl
@[simp] theorem putWave_lastOutside (s : State) (w : Wave) : (putWave s w).lastOutside = s.lastOutside := rfl
@[simp] theorem putWave_withhold (s : State) (w : Wave) : (putWave s w).withhold = s.withhold := rfl
@[simp] theorem putWave_bootStep (s : State) (w : Wave) : (putWave s w).bootStep = s.bootStep := rfl
@[simp] theorem putWave_bootStat (s : State) (w : Wave) : (putWave s w).bootStat = s.bootStat := rfl
@[simp] theorem putWave_capFeature (s : State) (w : Wave) : (putWave s w).capFeature = s.capFeature := rfl
@[simp] theorem putWave_featureSet (s : State) (w : Wave) : (putWave s w).featureSet = s.featureSet := rfl

/-! ## pushRecord -/

@[simp] theorem pushRecord_agenda (s : State) (p : Nat) (r : Record) : (pushRecord s p r).agenda = s.agenda := rfl
@[simp] theorem pushRecord_cur (s : State) (p : Nat) (r : Record) : (pushRecord s p r).cur = s.cur := rfl
@[simp] theorem pushRecord_curQueue (s : State) (p : Nat) (r : Record) : (pushRecord s p r).curQueue = s.curQueue := rfl
@[simp] theorem pushRecord_replies (s : State) (p : Nat) (r : Record) : (pushRecord s p r).replies = s.replies := rfl
@[simp] theorem pushRecord_issued (s : State) (p : Nat) (r : Record) : (pushRecord s p r).issued = s.issued := rfl
@[simp] theorem pushRecord_clock (s : State) (p : Nat) (r : Record) : (pushRecord s p r).clock = s.clock := rfl
@[simp] theorem pushRecord_pkgTime (s : State) (p : Nat) (r : Record) : (pushRecord s p r).pkgTime = s.pkgTime := rfl
@[simp] theorem pushRecord_pkgNum (s : State) (p : Nat) (r : Record) : (pushRecord s p r).pkgNum = s.pkgNum := rfl
@[simp] theorem pushRecord_serialNum (s : State) (p : Nat) (r : Record) : (pushRecord s p r).serialNum = s.serialNum := rfl
@[simp] theorem pushRecord_archLevel (s : State) (p : Nat) (r : Record) : (pushRecord s p r).archLevel = s.archLevel := rfl
@[simp] theorem pushRecord_composition (s : State) (p : Nat) (r : Record) : (pushRecord s p r).composition = s.composition := rfl
@[simp] theorem pushRecord_mem (s : State) (p : Nat) (r : Record) : (pushRecord s p r).mem = s.mem := rfl
@[simp] theorem pushRecord_host (s : State) (p : Nat) (r : Record) : (pushRecord s p r).host = s.host := rfl
@[simp] theorem pushRecord_pod (s : State) (p : Nat) (r : Record) : (pushRecord s p r).pod = s.pod := rfl
@[simp] theorem pushRecord_podLabels (s : State) (p : Nat) (r : Record) : (pushRecord s p r).podLabels = s.podLabels := rfl
@[simp] theorem pushRecord_scratch (s : State) (p : Nat) (r : Record) : (pushRecord s p r).scratch = s.scratch := rfl
@[simp] theorem pushRecord_scrLabels (s : State) (p : Nat) (r : Record) : (pushRecord s p r).scrLabels = s.scrLabels := rfl
@[simp] theorem pushRecord_poisoned (s : State) (p : Nat) (r : Record) : (pushRecord s p r).poisoned = s.poisoned := rfl
@[simp] theorem pushRecord_soft (s : State) (p : Nat) (r : Record) : (pushRecord s p r).soft = s.soft := rfl
@[simp] theorem pushRecord_labelSets (s : State) (p : Nat) (r : Record) : (pushRecord s p r).labelSets = s.labelSets := rfl
@[simp] theorem pushRecord_l1 (s : State) (p : Nat) (r : Record) : (pushRecord s p r).l1 = s.l1 := rfl
@[simp] theorem pushRecord_l2 (s : State) (p : Nat) (r : Record) : (pushRecord s p r).l2 = s.l2 := rfl
@[simp] theorem pushRecord_rdc (s : State) (p : Nat) (r : Record) : (pushRecord s p r).rdc = s.rdc := rfl
@[simp] theorem pushRecord_hbmKeys (s : State) (p : Nat) (r : Record) : (pushRecord s p r).hbmKeys = s.hbmKeys := rfl
@[simp] theorem pushRecord_linkKeys (s : State) (p : Nat) (r : Record) : (pushRecord s p r).linkKeys = s.linkKeys := rfl
@[simp] theorem pushRecord_access (s : State) (p : Nat) (r : Record) : (pushRecord s p r).access = s.access := rfl
@[simp] theorem pushRecord_bands (s : State) (p : Nat) (r : Record) : (pushRecord s p r).bands = s.bands := rfl
@[simp] theorem pushRecord_tlb (s : State) (p : Nat) (r : Record) : (pushRecord s p r).tlb = s.tlb := rfl
@[simp] theorem pushRecord_tiles (s : State) (p : Nat) (r : Record) : (pushRecord s p r).tiles = s.tiles := rfl
@[simp] theorem pushRecord_tileLabels (s : State) (p : Nat) (r : Record) : (pushRecord s p r).tileLabels = s.tileLabels := rfl
@[simp] theorem pushRecord_tileOwner (s : State) (p : Nat) (r : Record) : (pushRecord s p r).tileOwner = s.tileOwner := rfl
@[simp] theorem pushRecord_savedTiles (s : State) (p : Nat) (r : Record) : (pushRecord s p r).savedTiles = s.savedTiles := rfl
@[simp] theorem pushRecord_savedScr (s : State) (p : Nat) (r : Record) : (pushRecord s p r).savedScr = s.savedScr := rfl
@[simp] theorem pushRecord_waves (s : State) (p : Nat) (r : Record) : (pushRecord s p r).waves = s.waves := rfl
@[simp] theorem pushRecord_nextWave (s : State) (p : Nat) (r : Record) : (pushRecord s p r).nextWave = s.nextWave := rfl
@[simp] theorem pushRecord_clusters (s : State) (p : Nat) (r : Record) : (pushRecord s p r).clusters = s.clusters := rfl
@[simp] theorem pushRecord_nextCluster (s : State) (p : Nat) (r : Record) : (pushRecord s p r).nextCluster = s.nextCluster := rfl
@[simp] theorem pushRecord_elems (s : State) (p : Nat) (r : Record) : (pushRecord s p r).elems = s.elems := rfl
@[simp] theorem pushRecord_nextElem (s : State) (p : Nat) (r : Record) : (pushRecord s p r).nextElem = s.nextElem := rfl
@[simp] theorem pushRecord_gathers (s : State) (p : Nat) (r : Record) : (pushRecord s p r).gathers = s.gathers := rfl
@[simp] theorem pushRecord_traceHolds (s : State) (p : Nat) (r : Record) : (pushRecord s p r).traceHolds = s.traceHolds := rfl
@[simp] theorem pushRecord_rays (s : State) (p : Nat) (r : Record) : (pushRecord s p r).rays = s.rays := rfl
@[simp] theorem pushRecord_nextRay (s : State) (p : Nat) (r : Record) : (pushRecord s p r).nextRay = s.nextRay := rfl
@[simp] theorem pushRecord_regs (s : State) (p : Nat) (r : Record) : (pushRecord s p r).regs = s.regs := rfl
@[simp] theorem pushRecord_homeQ (s : State) (p : Nat) (r : Record) : (pushRecord s p r).homeQ = s.homeQ := rfl
@[simp] theorem pushRecord_fabricQ (s : State) (p : Nat) (r : Record) : (pushRecord s p r).fabricQ = s.fabricQ := rfl
@[simp] theorem pushRecord_reached (s : State) (p : Nat) (r : Record) : (pushRecord s p r).reached = s.reached := rfl
@[simp] theorem pushRecord_markers (s : State) (p : Nat) (r : Record) : (pushRecord s p r).markers = s.markers := rfl
@[simp] theorem pushRecord_barriers (s : State) (p : Nat) (r : Record) : (pushRecord s p r).barriers = s.barriers := rfl
@[simp] theorem pushRecord_nextBar (s : State) (p : Nat) (r : Record) : (pushRecord s p r).nextBar = s.nextBar := rfl
@[simp] theorem pushRecord_token (s : State) (p : Nat) (r : Record) : (pushRecord s p r).token = s.token := rfl
@[simp] theorem pushRecord_tokenQ (s : State) (p : Nat) (r : Record) : (pushRecord s p r).tokenQ = s.tokenQ := rfl
@[simp] theorem pushRecord_txLocks (s : State) (p : Nat) (r : Record) : (pushRecord s p r).txLocks = s.txLocks := rfl
@[simp] theorem pushRecord_unitWrites (s : State) (p : Nat) (r : Record) : (pushRecord s p r).unitWrites = s.unitWrites := rfl
@[simp] theorem pushRecord_copies (s : State) (p : Nat) (r : Record) : (pushRecord s p r).copies = s.copies := rfl
@[simp] theorem pushRecord_nextCopy (s : State) (p : Nat) (r : Record) : (pushRecord s p r).nextCopy = s.nextCopy := rfl
@[simp] theorem pushRecord_copySeq (s : State) (p : Nat) (r : Record) : (pushRecord s p r).copySeq = s.copySeq := rfl
@[simp] theorem pushRecord_gateQ (s : State) (p : Nat) (r : Record) : (pushRecord s p r).gateQ = s.gateQ := rfl
@[simp] theorem pushRecord_gate (s : State) (p : Nat) (r : Record) : (pushRecord s p r).gate = s.gate := rfl
@[simp] theorem pushRecord_policies (s : State) (p : Nat) (r : Record) : (pushRecord s p r).policies = s.policies := rfl
@[simp] theorem pushRecord_logSeq (s : State) (p : Nat) (r : Record) : (pushRecord s p r).logSeq = s.logSeq := rfl
@[simp] theorem pushRecord_logAck (s : State) (p : Nat) (r : Record) : (pushRecord s p r).logAck = s.logAck := rfl
@[simp] theorem pushRecord_chain (s : State) (p : Nat) (r : Record) : (pushRecord s p r).chain = s.chain := rfl
@[simp] theorem pushRecord_principals (s : State) (p : Nat) (r : Record) : (pushRecord s p r).principals = s.principals := rfl
@[simp] theorem pushRecord_windows (s : State) (p : Nat) (r : Record) : (pushRecord s p r).windows = s.windows := rfl
@[simp] theorem pushRecord_spawnQ (s : State) (p : Nat) (r : Record) : (pushRecord s p r).spawnQ = s.spawnQ := rfl
@[simp] theorem pushRecord_gatherSlots (s : State) (p : Nat) (r : Record) : (pushRecord s p r).gatherSlots = s.gatherSlots := rfl
@[simp] theorem pushRecord_overflow (s : State) (p : Nat) (r : Record) : (pushRecord s p r).overflow = s.overflow := rfl
@[simp] theorem pushRecord_sealCount (s : State) (p : Nat) (r : Record) : (pushRecord s p r).sealCount = s.sealCount := rfl
@[simp] theorem pushRecord_objects (s : State) (p : Nat) (r : Record) : (pushRecord s p r).objects = s.objects := rfl
@[simp] theorem pushRecord_launches (s : State) (p : Nat) (r : Record) : (pushRecord s p r).launches = s.launches := rfl
@[simp] theorem pushRecord_nextLaunch (s : State) (p : Nat) (r : Record) : (pushRecord s p r).nextLaunch = s.nextLaunch := rfl
@[simp] theorem pushRecord_tenants (s : State) (p : Nat) (r : Record) : (pushRecord s p r).tenants = s.tenants := rfl
@[simp] theorem pushRecord_netTimes (s : State) (p : Nat) (r : Record) : (pushRecord s p r).netTimes = s.netTimes := rfl
@[simp] theorem pushRecord_bankRR (s : State) (p : Nat) (r : Record) : (pushRecord s p r).bankRR = s.bankRR := rfl
@[simp] theorem pushRecord_domain (s : State) (p : Nat) (r : Record) : (pushRecord s p r).domain = s.domain := rfl
@[simp] theorem pushRecord_peerM (s : State) (p : Nat) (r : Record) : (pushRecord s p r).peerM = s.peerM := rfl
@[simp] theorem pushRecord_barred (s : State) (p : Nat) (r : Record) : (pushRecord s p r).barred = s.barred := rfl
@[simp] theorem pushRecord_cut (s : State) (p : Nat) (r : Record) : (pushRecord s p r).cut = s.cut := rfl
@[simp] theorem pushRecord_measured (s : State) (p : Nat) (r : Record) : (pushRecord s p r).measured = s.measured := rfl
@[simp] theorem pushRecord_configDigest (s : State) (p : Nat) (r : Record) : (pushRecord s p r).configDigest = s.configDigest := rfl
@[simp] theorem pushRecord_retired (s : State) (p : Nat) (r : Record) : (pushRecord s p r).retired = s.retired := rfl
@[simp] theorem pushRecord_flitFails (s : State) (p : Nat) (r : Record) : (pushRecord s p r).flitFails = s.flitFails := rfl
@[simp] theorem pushRecord_rxSeq (s : State) (p : Nat) (r : Record) : (pushRecord s p r).rxSeq = s.rxSeq := rfl
@[simp] theorem pushRecord_link (s : State) (p : Nat) (r : Record) : (pushRecord s p r).link = s.link := rfl
@[simp] theorem pushRecord_hostPending (s : State) (p : Nat) (r : Record) : (pushRecord s p r).hostPending = s.hostPending := rfl
@[simp] theorem pushRecord_msixHeld (s : State) (p : Nat) (r : Record) : (pushRecord s p r).msixHeld = s.msixHeld := rfl
@[simp] theorem pushRecord_power (s : State) (p : Nat) (r : Record) : (pushRecord s p r).power = s.power := rfl
@[simp] theorem pushRecord_lastOutside (s : State) (p : Nat) (r : Record) : (pushRecord s p r).lastOutside = s.lastOutside := rfl
@[simp] theorem pushRecord_withhold (s : State) (p : Nat) (r : Record) : (pushRecord s p r).withhold = s.withhold := rfl
@[simp] theorem pushRecord_bootStep (s : State) (p : Nat) (r : Record) : (pushRecord s p r).bootStep = s.bootStep := rfl
@[simp] theorem pushRecord_bootStat (s : State) (p : Nat) (r : Record) : (pushRecord s p r).bootStat = s.bootStat := rfl
@[simp] theorem pushRecord_capFeature (s : State) (p : Nat) (r : Record) : (pushRecord s p r).capFeature = s.capFeature := rfl
@[simp] theorem pushRecord_featureSet (s : State) (p : Nat) (r : Record) : (pushRecord s p r).featureSet = s.featureSet := rfl

/-! ## releaseSerial -/

@[simp] theorem releaseSerial_agenda (s : State) (w : Nat) : (releaseSerial s w).agenda = s.agenda := rfl
@[simp] theorem releaseSerial_cur (s : State) (w : Nat) : (releaseSerial s w).cur = s.cur := rfl
@[simp] theorem releaseSerial_curQueue (s : State) (w : Nat) : (releaseSerial s w).curQueue = s.curQueue := rfl
@[simp] theorem releaseSerial_replies (s : State) (w : Nat) : (releaseSerial s w).replies = s.replies := rfl
@[simp] theorem releaseSerial_issued (s : State) (w : Nat) : (releaseSerial s w).issued = s.issued := rfl
@[simp] theorem releaseSerial_clock (s : State) (w : Nat) : (releaseSerial s w).clock = s.clock := rfl
@[simp] theorem releaseSerial_pkgTime (s : State) (w : Nat) : (releaseSerial s w).pkgTime = s.pkgTime := rfl
@[simp] theorem releaseSerial_pkgNum (s : State) (w : Nat) : (releaseSerial s w).pkgNum = s.pkgNum := rfl
@[simp] theorem releaseSerial_serialNum (s : State) (w : Nat) : (releaseSerial s w).serialNum = s.serialNum := rfl
@[simp] theorem releaseSerial_archLevel (s : State) (w : Nat) : (releaseSerial s w).archLevel = s.archLevel := rfl
@[simp] theorem releaseSerial_composition (s : State) (w : Nat) : (releaseSerial s w).composition = s.composition := rfl
@[simp] theorem releaseSerial_mem (s : State) (w : Nat) : (releaseSerial s w).mem = s.mem := rfl
@[simp] theorem releaseSerial_host (s : State) (w : Nat) : (releaseSerial s w).host = s.host := rfl
@[simp] theorem releaseSerial_pod (s : State) (w : Nat) : (releaseSerial s w).pod = s.pod := rfl
@[simp] theorem releaseSerial_podLabels (s : State) (w : Nat) : (releaseSerial s w).podLabels = s.podLabels := rfl
@[simp] theorem releaseSerial_scratch (s : State) (w : Nat) : (releaseSerial s w).scratch = s.scratch := rfl
@[simp] theorem releaseSerial_scrLabels (s : State) (w : Nat) : (releaseSerial s w).scrLabels = s.scrLabels := rfl
@[simp] theorem releaseSerial_poisoned (s : State) (w : Nat) : (releaseSerial s w).poisoned = s.poisoned := rfl
@[simp] theorem releaseSerial_soft (s : State) (w : Nat) : (releaseSerial s w).soft = s.soft := rfl
@[simp] theorem releaseSerial_labelSets (s : State) (w : Nat) : (releaseSerial s w).labelSets = s.labelSets := rfl
@[simp] theorem releaseSerial_l1 (s : State) (w : Nat) : (releaseSerial s w).l1 = s.l1 := rfl
@[simp] theorem releaseSerial_l2 (s : State) (w : Nat) : (releaseSerial s w).l2 = s.l2 := rfl
@[simp] theorem releaseSerial_rdc (s : State) (w : Nat) : (releaseSerial s w).rdc = s.rdc := rfl
@[simp] theorem releaseSerial_hbmKeys (s : State) (w : Nat) : (releaseSerial s w).hbmKeys = s.hbmKeys := rfl
@[simp] theorem releaseSerial_linkKeys (s : State) (w : Nat) : (releaseSerial s w).linkKeys = s.linkKeys := rfl
@[simp] theorem releaseSerial_access (s : State) (w : Nat) : (releaseSerial s w).access = s.access := rfl
@[simp] theorem releaseSerial_bands (s : State) (w : Nat) : (releaseSerial s w).bands = s.bands := rfl
@[simp] theorem releaseSerial_tlb (s : State) (w : Nat) : (releaseSerial s w).tlb = s.tlb := rfl
@[simp] theorem releaseSerial_tiles (s : State) (w : Nat) : (releaseSerial s w).tiles = s.tiles := rfl
@[simp] theorem releaseSerial_tileLabels (s : State) (w : Nat) : (releaseSerial s w).tileLabels = s.tileLabels := rfl
@[simp] theorem releaseSerial_tileOwner (s : State) (w : Nat) : (releaseSerial s w).tileOwner = s.tileOwner := rfl
@[simp] theorem releaseSerial_savedTiles (s : State) (w : Nat) : (releaseSerial s w).savedTiles = s.savedTiles := rfl
@[simp] theorem releaseSerial_savedScr (s : State) (w : Nat) : (releaseSerial s w).savedScr = s.savedScr := rfl
@[simp] theorem releaseSerial_waves (s : State) (w : Nat) : (releaseSerial s w).waves = s.waves := rfl
@[simp] theorem releaseSerial_nextWave (s : State) (w : Nat) : (releaseSerial s w).nextWave = s.nextWave := rfl
@[simp] theorem releaseSerial_clusters (s : State) (w : Nat) : (releaseSerial s w).clusters = s.clusters := rfl
@[simp] theorem releaseSerial_nextCluster (s : State) (w : Nat) : (releaseSerial s w).nextCluster = s.nextCluster := rfl
@[simp] theorem releaseSerial_elems (s : State) (w : Nat) : (releaseSerial s w).elems = s.elems := rfl
@[simp] theorem releaseSerial_nextElem (s : State) (w : Nat) : (releaseSerial s w).nextElem = s.nextElem := rfl
@[simp] theorem releaseSerial_gathers (s : State) (w : Nat) : (releaseSerial s w).gathers = s.gathers := rfl
@[simp] theorem releaseSerial_traceHolds (s : State) (w : Nat) : (releaseSerial s w).traceHolds = s.traceHolds := rfl
@[simp] theorem releaseSerial_rays (s : State) (w : Nat) : (releaseSerial s w).rays = s.rays := rfl
@[simp] theorem releaseSerial_nextRay (s : State) (w : Nat) : (releaseSerial s w).nextRay = s.nextRay := rfl
@[simp] theorem releaseSerial_regs (s : State) (w : Nat) : (releaseSerial s w).regs = s.regs := rfl
@[simp] theorem releaseSerial_homeQ (s : State) (w : Nat) : (releaseSerial s w).homeQ = s.homeQ := rfl
@[simp] theorem releaseSerial_fabricQ (s : State) (w : Nat) : (releaseSerial s w).fabricQ = s.fabricQ := rfl
@[simp] theorem releaseSerial_reached (s : State) (w : Nat) : (releaseSerial s w).reached = s.reached := rfl
@[simp] theorem releaseSerial_markers (s : State) (w : Nat) : (releaseSerial s w).markers = s.markers := rfl
@[simp] theorem releaseSerial_barriers (s : State) (w : Nat) : (releaseSerial s w).barriers = s.barriers := rfl
@[simp] theorem releaseSerial_nextBar (s : State) (w : Nat) : (releaseSerial s w).nextBar = s.nextBar := rfl
@[simp] theorem releaseSerial_unitWrites (s : State) (w : Nat) : (releaseSerial s w).unitWrites = s.unitWrites := rfl
@[simp] theorem releaseSerial_copies (s : State) (w : Nat) : (releaseSerial s w).copies = s.copies := rfl
@[simp] theorem releaseSerial_nextCopy (s : State) (w : Nat) : (releaseSerial s w).nextCopy = s.nextCopy := rfl
@[simp] theorem releaseSerial_copySeq (s : State) (w : Nat) : (releaseSerial s w).copySeq = s.copySeq := rfl
@[simp] theorem releaseSerial_gateQ (s : State) (w : Nat) : (releaseSerial s w).gateQ = s.gateQ := rfl
@[simp] theorem releaseSerial_gate (s : State) (w : Nat) : (releaseSerial s w).gate = s.gate := rfl
@[simp] theorem releaseSerial_policies (s : State) (w : Nat) : (releaseSerial s w).policies = s.policies := rfl
@[simp] theorem releaseSerial_logSeq (s : State) (w : Nat) : (releaseSerial s w).logSeq = s.logSeq := rfl
@[simp] theorem releaseSerial_logAck (s : State) (w : Nat) : (releaseSerial s w).logAck = s.logAck := rfl
@[simp] theorem releaseSerial_chain (s : State) (w : Nat) : (releaseSerial s w).chain = s.chain := rfl
@[simp] theorem releaseSerial_principals (s : State) (w : Nat) : (releaseSerial s w).principals = s.principals := rfl
@[simp] theorem releaseSerial_windows (s : State) (w : Nat) : (releaseSerial s w).windows = s.windows := rfl
@[simp] theorem releaseSerial_spawnQ (s : State) (w : Nat) : (releaseSerial s w).spawnQ = s.spawnQ := rfl
@[simp] theorem releaseSerial_gatherSlots (s : State) (w : Nat) : (releaseSerial s w).gatherSlots = s.gatherSlots := rfl
@[simp] theorem releaseSerial_overflow (s : State) (w : Nat) : (releaseSerial s w).overflow = s.overflow := rfl
@[simp] theorem releaseSerial_sealCount (s : State) (w : Nat) : (releaseSerial s w).sealCount = s.sealCount := rfl
@[simp] theorem releaseSerial_objects (s : State) (w : Nat) : (releaseSerial s w).objects = s.objects := rfl
@[simp] theorem releaseSerial_launches (s : State) (w : Nat) : (releaseSerial s w).launches = s.launches := rfl
@[simp] theorem releaseSerial_nextLaunch (s : State) (w : Nat) : (releaseSerial s w).nextLaunch = s.nextLaunch := rfl
@[simp] theorem releaseSerial_parts (s : State) (w : Nat) : (releaseSerial s w).parts = s.parts := rfl
@[simp] theorem releaseSerial_tenants (s : State) (w : Nat) : (releaseSerial s w).tenants = s.tenants := rfl
@[simp] theorem releaseSerial_netTimes (s : State) (w : Nat) : (releaseSerial s w).netTimes = s.netTimes := rfl
@[simp] theorem releaseSerial_bankRR (s : State) (w : Nat) : (releaseSerial s w).bankRR = s.bankRR := rfl
@[simp] theorem releaseSerial_domain (s : State) (w : Nat) : (releaseSerial s w).domain = s.domain := rfl
@[simp] theorem releaseSerial_peerM (s : State) (w : Nat) : (releaseSerial s w).peerM = s.peerM := rfl
@[simp] theorem releaseSerial_barred (s : State) (w : Nat) : (releaseSerial s w).barred = s.barred := rfl
@[simp] theorem releaseSerial_cut (s : State) (w : Nat) : (releaseSerial s w).cut = s.cut := rfl
@[simp] theorem releaseSerial_measured (s : State) (w : Nat) : (releaseSerial s w).measured = s.measured := rfl
@[simp] theorem releaseSerial_configDigest (s : State) (w : Nat) : (releaseSerial s w).configDigest = s.configDigest := rfl
@[simp] theorem releaseSerial_retired (s : State) (w : Nat) : (releaseSerial s w).retired = s.retired := rfl
@[simp] theorem releaseSerial_flitFails (s : State) (w : Nat) : (releaseSerial s w).flitFails = s.flitFails := rfl
@[simp] theorem releaseSerial_rxSeq (s : State) (w : Nat) : (releaseSerial s w).rxSeq = s.rxSeq := rfl
@[simp] theorem releaseSerial_link (s : State) (w : Nat) : (releaseSerial s w).link = s.link := rfl
@[simp] theorem releaseSerial_hostPending (s : State) (w : Nat) : (releaseSerial s w).hostPending = s.hostPending := rfl
@[simp] theorem releaseSerial_msixHeld (s : State) (w : Nat) : (releaseSerial s w).msixHeld = s.msixHeld := rfl
@[simp] theorem releaseSerial_power (s : State) (w : Nat) : (releaseSerial s w).power = s.power := rfl
@[simp] theorem releaseSerial_lastOutside (s : State) (w : Nat) : (releaseSerial s w).lastOutside = s.lastOutside := rfl
@[simp] theorem releaseSerial_withhold (s : State) (w : Nat) : (releaseSerial s w).withhold = s.withhold := rfl
@[simp] theorem releaseSerial_bootStep (s : State) (w : Nat) : (releaseSerial s w).bootStep = s.bootStep := rfl
@[simp] theorem releaseSerial_bootStat (s : State) (w : Nat) : (releaseSerial s w).bootStat = s.bootStat := rfl
@[simp] theorem releaseSerial_capFeature (s : State) (w : Nat) : (releaseSerial s w).capFeature = s.capFeature := rfl
@[simp] theorem releaseSerial_featureSet (s : State) (w : Nat) : (releaseSerial s w).featureSet = s.featureSet := rfl

/-! ## putBand -/

@[simp] theorem putBand_agenda (s : State) (l : Nat) (b : LineBand) : (putBand s l b).agenda = s.agenda := rfl
@[simp] theorem putBand_cur (s : State) (l : Nat) (b : LineBand) : (putBand s l b).cur = s.cur := rfl
@[simp] theorem putBand_curQueue (s : State) (l : Nat) (b : LineBand) : (putBand s l b).curQueue = s.curQueue := rfl
@[simp] theorem putBand_replies (s : State) (l : Nat) (b : LineBand) : (putBand s l b).replies = s.replies := rfl
@[simp] theorem putBand_issued (s : State) (l : Nat) (b : LineBand) : (putBand s l b).issued = s.issued := rfl
@[simp] theorem putBand_clock (s : State) (l : Nat) (b : LineBand) : (putBand s l b).clock = s.clock := rfl
@[simp] theorem putBand_pkgTime (s : State) (l : Nat) (b : LineBand) : (putBand s l b).pkgTime = s.pkgTime := rfl
@[simp] theorem putBand_pkgNum (s : State) (l : Nat) (b : LineBand) : (putBand s l b).pkgNum = s.pkgNum := rfl
@[simp] theorem putBand_serialNum (s : State) (l : Nat) (b : LineBand) : (putBand s l b).serialNum = s.serialNum := rfl
@[simp] theorem putBand_archLevel (s : State) (l : Nat) (b : LineBand) : (putBand s l b).archLevel = s.archLevel := rfl
@[simp] theorem putBand_composition (s : State) (l : Nat) (b : LineBand) : (putBand s l b).composition = s.composition := rfl
@[simp] theorem putBand_mem (s : State) (l : Nat) (b : LineBand) : (putBand s l b).mem = s.mem := rfl
@[simp] theorem putBand_host (s : State) (l : Nat) (b : LineBand) : (putBand s l b).host = s.host := rfl
@[simp] theorem putBand_pod (s : State) (l : Nat) (b : LineBand) : (putBand s l b).pod = s.pod := rfl
@[simp] theorem putBand_podLabels (s : State) (l : Nat) (b : LineBand) : (putBand s l b).podLabels = s.podLabels := rfl
@[simp] theorem putBand_scratch (s : State) (l : Nat) (b : LineBand) : (putBand s l b).scratch = s.scratch := rfl
@[simp] theorem putBand_scrLabels (s : State) (l : Nat) (b : LineBand) : (putBand s l b).scrLabels = s.scrLabels := rfl
@[simp] theorem putBand_poisoned (s : State) (l : Nat) (b : LineBand) : (putBand s l b).poisoned = s.poisoned := rfl
@[simp] theorem putBand_soft (s : State) (l : Nat) (b : LineBand) : (putBand s l b).soft = s.soft := rfl
@[simp] theorem putBand_labelSets (s : State) (l : Nat) (b : LineBand) : (putBand s l b).labelSets = s.labelSets := rfl
@[simp] theorem putBand_l1 (s : State) (l : Nat) (b : LineBand) : (putBand s l b).l1 = s.l1 := rfl
@[simp] theorem putBand_l2 (s : State) (l : Nat) (b : LineBand) : (putBand s l b).l2 = s.l2 := rfl
@[simp] theorem putBand_rdc (s : State) (l : Nat) (b : LineBand) : (putBand s l b).rdc = s.rdc := rfl
@[simp] theorem putBand_hbmKeys (s : State) (l : Nat) (b : LineBand) : (putBand s l b).hbmKeys = s.hbmKeys := rfl
@[simp] theorem putBand_linkKeys (s : State) (l : Nat) (b : LineBand) : (putBand s l b).linkKeys = s.linkKeys := rfl
@[simp] theorem putBand_access (s : State) (l : Nat) (b : LineBand) : (putBand s l b).access = s.access := rfl
@[simp] theorem putBand_tlb (s : State) (l : Nat) (b : LineBand) : (putBand s l b).tlb = s.tlb := rfl
@[simp] theorem putBand_tiles (s : State) (l : Nat) (b : LineBand) : (putBand s l b).tiles = s.tiles := rfl
@[simp] theorem putBand_tileLabels (s : State) (l : Nat) (b : LineBand) : (putBand s l b).tileLabels = s.tileLabels := rfl
@[simp] theorem putBand_tileOwner (s : State) (l : Nat) (b : LineBand) : (putBand s l b).tileOwner = s.tileOwner := rfl
@[simp] theorem putBand_savedTiles (s : State) (l : Nat) (b : LineBand) : (putBand s l b).savedTiles = s.savedTiles := rfl
@[simp] theorem putBand_savedScr (s : State) (l : Nat) (b : LineBand) : (putBand s l b).savedScr = s.savedScr := rfl
@[simp] theorem putBand_waves (s : State) (l : Nat) (b : LineBand) : (putBand s l b).waves = s.waves := rfl
@[simp] theorem putBand_nextWave (s : State) (l : Nat) (b : LineBand) : (putBand s l b).nextWave = s.nextWave := rfl
@[simp] theorem putBand_clusters (s : State) (l : Nat) (b : LineBand) : (putBand s l b).clusters = s.clusters := rfl
@[simp] theorem putBand_nextCluster (s : State) (l : Nat) (b : LineBand) : (putBand s l b).nextCluster = s.nextCluster := rfl
@[simp] theorem putBand_elems (s : State) (l : Nat) (b : LineBand) : (putBand s l b).elems = s.elems := rfl
@[simp] theorem putBand_nextElem (s : State) (l : Nat) (b : LineBand) : (putBand s l b).nextElem = s.nextElem := rfl
@[simp] theorem putBand_gathers (s : State) (l : Nat) (b : LineBand) : (putBand s l b).gathers = s.gathers := rfl
@[simp] theorem putBand_traceHolds (s : State) (l : Nat) (b : LineBand) : (putBand s l b).traceHolds = s.traceHolds := rfl
@[simp] theorem putBand_rays (s : State) (l : Nat) (b : LineBand) : (putBand s l b).rays = s.rays := rfl
@[simp] theorem putBand_nextRay (s : State) (l : Nat) (b : LineBand) : (putBand s l b).nextRay = s.nextRay := rfl
@[simp] theorem putBand_regs (s : State) (l : Nat) (b : LineBand) : (putBand s l b).regs = s.regs := rfl
@[simp] theorem putBand_homeQ (s : State) (l : Nat) (b : LineBand) : (putBand s l b).homeQ = s.homeQ := rfl
@[simp] theorem putBand_fabricQ (s : State) (l : Nat) (b : LineBand) : (putBand s l b).fabricQ = s.fabricQ := rfl
@[simp] theorem putBand_reached (s : State) (l : Nat) (b : LineBand) : (putBand s l b).reached = s.reached := rfl
@[simp] theorem putBand_markers (s : State) (l : Nat) (b : LineBand) : (putBand s l b).markers = s.markers := rfl
@[simp] theorem putBand_barriers (s : State) (l : Nat) (b : LineBand) : (putBand s l b).barriers = s.barriers := rfl
@[simp] theorem putBand_nextBar (s : State) (l : Nat) (b : LineBand) : (putBand s l b).nextBar = s.nextBar := rfl
@[simp] theorem putBand_token (s : State) (l : Nat) (b : LineBand) : (putBand s l b).token = s.token := rfl
@[simp] theorem putBand_tokenQ (s : State) (l : Nat) (b : LineBand) : (putBand s l b).tokenQ = s.tokenQ := rfl
@[simp] theorem putBand_txLocks (s : State) (l : Nat) (b : LineBand) : (putBand s l b).txLocks = s.txLocks := rfl
@[simp] theorem putBand_unitWrites (s : State) (l : Nat) (b : LineBand) : (putBand s l b).unitWrites = s.unitWrites := rfl
@[simp] theorem putBand_copies (s : State) (l : Nat) (b : LineBand) : (putBand s l b).copies = s.copies := rfl
@[simp] theorem putBand_nextCopy (s : State) (l : Nat) (b : LineBand) : (putBand s l b).nextCopy = s.nextCopy := rfl
@[simp] theorem putBand_copySeq (s : State) (l : Nat) (b : LineBand) : (putBand s l b).copySeq = s.copySeq := rfl
@[simp] theorem putBand_gateQ (s : State) (l : Nat) (b : LineBand) : (putBand s l b).gateQ = s.gateQ := rfl
@[simp] theorem putBand_gate (s : State) (l : Nat) (b : LineBand) : (putBand s l b).gate = s.gate := rfl
@[simp] theorem putBand_policies (s : State) (l : Nat) (b : LineBand) : (putBand s l b).policies = s.policies := rfl
@[simp] theorem putBand_logSeq (s : State) (l : Nat) (b : LineBand) : (putBand s l b).logSeq = s.logSeq := rfl
@[simp] theorem putBand_logAck (s : State) (l : Nat) (b : LineBand) : (putBand s l b).logAck = s.logAck := rfl
@[simp] theorem putBand_chain (s : State) (l : Nat) (b : LineBand) : (putBand s l b).chain = s.chain := rfl
@[simp] theorem putBand_principals (s : State) (l : Nat) (b : LineBand) : (putBand s l b).principals = s.principals := rfl
@[simp] theorem putBand_windows (s : State) (l : Nat) (b : LineBand) : (putBand s l b).windows = s.windows := rfl
@[simp] theorem putBand_spawnQ (s : State) (l : Nat) (b : LineBand) : (putBand s l b).spawnQ = s.spawnQ := rfl
@[simp] theorem putBand_gatherSlots (s : State) (l : Nat) (b : LineBand) : (putBand s l b).gatherSlots = s.gatherSlots := rfl
@[simp] theorem putBand_overflow (s : State) (l : Nat) (b : LineBand) : (putBand s l b).overflow = s.overflow := rfl
@[simp] theorem putBand_sealCount (s : State) (l : Nat) (b : LineBand) : (putBand s l b).sealCount = s.sealCount := rfl
@[simp] theorem putBand_objects (s : State) (l : Nat) (b : LineBand) : (putBand s l b).objects = s.objects := rfl
@[simp] theorem putBand_launches (s : State) (l : Nat) (b : LineBand) : (putBand s l b).launches = s.launches := rfl
@[simp] theorem putBand_nextLaunch (s : State) (l : Nat) (b : LineBand) : (putBand s l b).nextLaunch = s.nextLaunch := rfl
@[simp] theorem putBand_parts (s : State) (l : Nat) (b : LineBand) : (putBand s l b).parts = s.parts := rfl
@[simp] theorem putBand_tenants (s : State) (l : Nat) (b : LineBand) : (putBand s l b).tenants = s.tenants := rfl
@[simp] theorem putBand_netTimes (s : State) (l : Nat) (b : LineBand) : (putBand s l b).netTimes = s.netTimes := rfl
@[simp] theorem putBand_bankRR (s : State) (l : Nat) (b : LineBand) : (putBand s l b).bankRR = s.bankRR := rfl
@[simp] theorem putBand_domain (s : State) (l : Nat) (b : LineBand) : (putBand s l b).domain = s.domain := rfl
@[simp] theorem putBand_peerM (s : State) (l : Nat) (b : LineBand) : (putBand s l b).peerM = s.peerM := rfl
@[simp] theorem putBand_barred (s : State) (l : Nat) (b : LineBand) : (putBand s l b).barred = s.barred := rfl
@[simp] theorem putBand_cut (s : State) (l : Nat) (b : LineBand) : (putBand s l b).cut = s.cut := rfl
@[simp] theorem putBand_measured (s : State) (l : Nat) (b : LineBand) : (putBand s l b).measured = s.measured := rfl
@[simp] theorem putBand_configDigest (s : State) (l : Nat) (b : LineBand) : (putBand s l b).configDigest = s.configDigest := rfl
@[simp] theorem putBand_retired (s : State) (l : Nat) (b : LineBand) : (putBand s l b).retired = s.retired := rfl
@[simp] theorem putBand_flitFails (s : State) (l : Nat) (b : LineBand) : (putBand s l b).flitFails = s.flitFails := rfl
@[simp] theorem putBand_rxSeq (s : State) (l : Nat) (b : LineBand) : (putBand s l b).rxSeq = s.rxSeq := rfl
@[simp] theorem putBand_link (s : State) (l : Nat) (b : LineBand) : (putBand s l b).link = s.link := rfl
@[simp] theorem putBand_hostPending (s : State) (l : Nat) (b : LineBand) : (putBand s l b).hostPending = s.hostPending := rfl
@[simp] theorem putBand_msixHeld (s : State) (l : Nat) (b : LineBand) : (putBand s l b).msixHeld = s.msixHeld := rfl
@[simp] theorem putBand_power (s : State) (l : Nat) (b : LineBand) : (putBand s l b).power = s.power := rfl
@[simp] theorem putBand_lastOutside (s : State) (l : Nat) (b : LineBand) : (putBand s l b).lastOutside = s.lastOutside := rfl
@[simp] theorem putBand_withhold (s : State) (l : Nat) (b : LineBand) : (putBand s l b).withhold = s.withhold := rfl
@[simp] theorem putBand_bootStep (s : State) (l : Nat) (b : LineBand) : (putBand s l b).bootStep = s.bootStep := rfl
@[simp] theorem putBand_bootStat (s : State) (l : Nat) (b : LineBand) : (putBand s l b).bootStat = s.bootStat := rfl
@[simp] theorem putBand_capFeature (s : State) (l : Nat) (b : LineBand) : (putBand s l b).capFeature = s.capFeature := rfl
@[simp] theorem putBand_featureSet (s : State) (l : Nat) (b : LineBand) : (putBand s l b).featureSet = s.featureSet := rfl

/-! ## Wave.setSplit -/

@[simp] theorem Wave_setSplit_id (w : Wave) (k : Nat) (sp : Split) : (w.setSplit k sp).id = w.id := rfl
@[simp] theorem Wave_setSplit_launch (w : Wave) (k : Nat) (sp : Split) : (w.setSplit k sp).launch = w.launch := rfl
@[simp] theorem Wave_setSplit_part (w : Wave) (k : Nat) (sp : Split) : (w.setSplit k sp).part = w.part := rfl
@[simp] theorem Wave_setSplit_role (w : Wave) (k : Nat) (sp : Split) : (w.setSplit k sp).role = w.role := rfl
@[simp] theorem Wave_setSplit_rate (w : Wave) (k : Nat) (sp : Split) : (w.setSplit k sp).rate = w.rate := rfl
@[simp] theorem Wave_setSplit_entry (w : Wave) (k : Nat) (sp : Split) : (w.setSplit k sp).entry = w.entry := rfl
@[simp] theorem Wave_setSplit_quad (w : Wave) (k : Nat) (sp : Split) : (w.setSplit k sp).quad = w.quad := rfl
@[simp] theorem Wave_setSplit_slot (w : Wave) (k : Nat) (sp : Split) : (w.setSplit k sp).slot = w.slot := rfl
@[simp] theorem Wave_setSplit_lquad (w : Wave) (k : Nat) (sp : Split) : (w.setSplit k sp).lquad = w.lquad := rfl
@[simp] theorem Wave_setSplit_age (w : Wave) (k : Nat) (sp : Split) : (w.setSplit k sp).age = w.age := rfl
@[simp] theorem Wave_setSplit_place (w : Wave) (k : Nat) (sp : Split) : (w.setSplit k sp).place = w.place := rfl
@[simp] theorem Wave_setSplit_cluster (w : Wave) (k : Nat) (sp : Split) : (w.setSplit k sp).cluster = w.cluster := rfl
@[simp] theorem Wave_setSplit_block (w : Wave) (k : Nat) (sp : Split) : (w.setSplit k sp).block = w.block := rfl
@[simp] theorem Wave_setSplit_lblock (w : Wave) (k : Nat) (sp : Split) : (w.setSplit k sp).lblock = w.lblock := rfl
@[simp] theorem Wave_setSplit_wnum (w : Wave) (k : Nat) (sp : Split) : (w.setSplit k sp).wnum = w.wnum := rfl
@[simp] theorem Wave_setSplit_depth (w : Wave) (k : Nat) (sp : Split) : (w.setSplit k sp).depth = w.depth := rfl
@[simp] theorem Wave_setSplit_lanes (w : Wave) (k : Nat) (sp : Split) : (w.setSplit k sp).lanes = w.lanes := rfl
@[simp] theorem Wave_setSplit_exited (w : Wave) (k : Nat) (sp : Split) : (w.setSplit k sp).exited = w.exited := rfl
@[simp] theorem Wave_setSplit_splits (w : Wave) (k : Nat) (sp : Split) : (w.setSplit k sp).splits = mset w.splits k sp := rfl
@[simp] theorem Wave_setSplit_joins (w : Wave) (k : Nat) (sp : Split) : (w.setSplit k sp).joins = w.joins := rfl
@[simp] theorem Wave_setSplit_sers (w : Wave) (k : Nat) (sp : Split) : (w.setSplit k sp).sers = w.sers := rfl
@[simp] theorem Wave_setSplit_gens (w : Wave) (k : Nat) (sp : Split) : (w.setSplit k sp).gens = w.gens := rfl
@[simp] theorem Wave_setSplit_flags (w : Wave) (k : Nat) (sp : Split) : (w.setSplit k sp).flags = w.flags := rfl
@[simp] theorem Wave_setSplit_long (w : Wave) (k : Nat) (sp : Split) : (w.setSplit k sp).long = w.long := rfl
@[simp] theorem Wave_setSplit_vregs (w : Wave) (k : Nat) (sp : Split) : (w.setSplit k sp).vregs = w.vregs := rfl
@[simp] theorem Wave_setSplit_sregs (w : Wave) (k : Nat) (sp : Split) : (w.setSplit k sp).sregs = w.sregs := rfl
@[simp] theorem Wave_setSplit_preds (w : Wave) (k : Nat) (sp : Split) : (w.setSplit k sp).preds = w.preds := rfl
@[simp] theorem Wave_setSplit_labels (w : Wave) (k : Nat) (sp : Split) : (w.setSplit k sp).labels = w.labels := rfl
@[simp] theorem Wave_setSplit_pending (w : Wave) (k : Nat) (sp : Split) : (w.setSplit k sp).pending = w.pending := rfl
@[simp] theorem Wave_setSplit_nextEntry (w : Wave) (k : Nat) (sp : Split) : (w.setSplit k sp).nextEntry = w.nextEntry := rfl
@[simp] theorem Wave_setSplit_fenced (w : Wave) (k : Nat) (sp : Split) : (w.setSplit k sp).fenced = w.fenced := rfl
@[simp] theorem Wave_setSplit_opened (w : Wave) (k : Nat) (sp : Split) : (w.setSplit k sp).opened = w.opened := rfl
@[simp] theorem Wave_setSplit_batches (w : Wave) (k : Nat) (sp : Split) : (w.setSplit k sp).batches = w.batches := rfl
@[simp] theorem Wave_setSplit_batchNext (w : Wave) (k : Nat) (sp : Split) : (w.setSplit k sp).batchNext = w.batchNext := rfl
@[simp] theorem Wave_setSplit_tx (w : Wave) (k : Nat) (sp : Split) : (w.setSplit k sp).tx = w.tx := rfl
@[simp] theorem Wave_setSplit_mbox (w : Wave) (k : Nat) (sp : Split) : (w.setSplit k sp).mbox = w.mbox := rfl
@[simp] theorem Wave_setSplit_bench (w : Wave) (k : Nat) (sp : Split) : (w.setSplit k sp).bench = w.bench := rfl
@[simp] theorem Wave_setSplit_emit (w : Wave) (k : Nat) (sp : Split) : (w.setSplit k sp).emit = w.emit := rfl
@[simp] theorem Wave_setSplit_killed (w : Wave) (k : Nat) (sp : Split) : (w.setSplit k sp).killed = w.killed := rfl
@[simp] theorem Wave_setSplit_elems (w : Wave) (k : Nat) (sp : Split) : (w.setSplit k sp).elems = w.elems := rfl
@[simp] theorem Wave_setSplit_joinAddrs (w : Wave) (k : Nat) (sp : Split) : (w.setSplit k sp).joinAddrs = w.joinAddrs := rfl
@[simp] theorem Wave_setSplit_barLast (w : Wave) (k : Nat) (sp : Split) : (w.setSplit k sp).barLast = w.barLast := rfl
@[simp] theorem Wave_setSplit_barHere (w : Wave) (k : Nat) (sp : Split) : (w.setSplit k sp).barHere = w.barHere := rfl
@[simp] theorem Wave_setSplit_podSent (w : Wave) (k : Nat) (sp : Split) : (w.setSplit k sp).podSent = w.podSent := rfl
@[simp] theorem Wave_setSplit_stop (w : Wave) (k : Nat) (sp : Split) : (w.setSplit k sp).stop = w.stop := rfl
@[simp] theorem Wave_setSplit_late (w : Wave) (k : Nat) (sp : Split) : (w.setSplit k sp).late = w.late := rfl
@[simp] theorem Wave_setSplit_step (w : Wave) (k : Nat) (sp : Split) : (w.setSplit k sp).step = w.step := rfl
@[simp] theorem Wave_setSplit_trapRec (w : Wave) (k : Nat) (sp : Split) : (w.setSplit k sp).trapRec = w.trapRec := rfl
@[simp] theorem Wave_setSplit_pendingWake (w : Wave) (k : Nat) (sp : Split) : (w.setSplit k sp).pendingWake = w.pendingWake := rfl
@[simp] theorem Wave_setSplit_scrBase (w : Wave) (k : Nat) (sp : Split) : (w.setSplit k sp).scrBase = w.scrBase := rfl
@[simp] theorem Wave_setSplit_scrSize (w : Wave) (k : Nat) (sp : Split) : (w.setSplit k sp).scrSize = w.scrSize := rfl
@[simp] theorem Wave_setSplit_placedAt (w : Wave) (k : Nat) (sp : Split) : (w.setSplit k sp).placedAt = w.placedAt := rfl
@[simp] theorem Wave_setSplit_cycles (w : Wave) (k : Nat) (sp : Split) : (w.setSplit k sp).cycles = w.cycles := rfl

/-! ## Wave.setLabel -/

@[simp] theorem Wave_setLabel_id (w : Wave) (code : Nat) (m : Mask) (l : Label) : (w.setLabel code m l).id = w.id := rfl
@[simp] theorem Wave_setLabel_launch (w : Wave) (code : Nat) (m : Mask) (l : Label) : (w.setLabel code m l).launch = w.launch := rfl
@[simp] theorem Wave_setLabel_part (w : Wave) (code : Nat) (m : Mask) (l : Label) : (w.setLabel code m l).part = w.part := rfl
@[simp] theorem Wave_setLabel_role (w : Wave) (code : Nat) (m : Mask) (l : Label) : (w.setLabel code m l).role = w.role := rfl
@[simp] theorem Wave_setLabel_rate (w : Wave) (code : Nat) (m : Mask) (l : Label) : (w.setLabel code m l).rate = w.rate := rfl
@[simp] theorem Wave_setLabel_entry (w : Wave) (code : Nat) (m : Mask) (l : Label) : (w.setLabel code m l).entry = w.entry := rfl
@[simp] theorem Wave_setLabel_quad (w : Wave) (code : Nat) (m : Mask) (l : Label) : (w.setLabel code m l).quad = w.quad := rfl
@[simp] theorem Wave_setLabel_slot (w : Wave) (code : Nat) (m : Mask) (l : Label) : (w.setLabel code m l).slot = w.slot := rfl
@[simp] theorem Wave_setLabel_lquad (w : Wave) (code : Nat) (m : Mask) (l : Label) : (w.setLabel code m l).lquad = w.lquad := rfl
@[simp] theorem Wave_setLabel_age (w : Wave) (code : Nat) (m : Mask) (l : Label) : (w.setLabel code m l).age = w.age := rfl
@[simp] theorem Wave_setLabel_place (w : Wave) (code : Nat) (m : Mask) (l : Label) : (w.setLabel code m l).place = w.place := rfl
@[simp] theorem Wave_setLabel_cluster (w : Wave) (code : Nat) (m : Mask) (l : Label) : (w.setLabel code m l).cluster = w.cluster := rfl
@[simp] theorem Wave_setLabel_block (w : Wave) (code : Nat) (m : Mask) (l : Label) : (w.setLabel code m l).block = w.block := rfl
@[simp] theorem Wave_setLabel_lblock (w : Wave) (code : Nat) (m : Mask) (l : Label) : (w.setLabel code m l).lblock = w.lblock := rfl
@[simp] theorem Wave_setLabel_wnum (w : Wave) (code : Nat) (m : Mask) (l : Label) : (w.setLabel code m l).wnum = w.wnum := rfl
@[simp] theorem Wave_setLabel_depth (w : Wave) (code : Nat) (m : Mask) (l : Label) : (w.setLabel code m l).depth = w.depth := rfl
@[simp] theorem Wave_setLabel_lanes (w : Wave) (code : Nat) (m : Mask) (l : Label) : (w.setLabel code m l).lanes = w.lanes := rfl
@[simp] theorem Wave_setLabel_exited (w : Wave) (code : Nat) (m : Mask) (l : Label) : (w.setLabel code m l).exited = w.exited := rfl
@[simp] theorem Wave_setLabel_splits (w : Wave) (code : Nat) (m : Mask) (l : Label) : (w.setLabel code m l).splits = w.splits := rfl
@[simp] theorem Wave_setLabel_joins (w : Wave) (code : Nat) (m : Mask) (l : Label) : (w.setLabel code m l).joins = w.joins := rfl
@[simp] theorem Wave_setLabel_sers (w : Wave) (code : Nat) (m : Mask) (l : Label) : (w.setLabel code m l).sers = w.sers := rfl
@[simp] theorem Wave_setLabel_gens (w : Wave) (code : Nat) (m : Mask) (l : Label) : (w.setLabel code m l).gens = w.gens := rfl
@[simp] theorem Wave_setLabel_flags (w : Wave) (code : Nat) (m : Mask) (l : Label) : (w.setLabel code m l).flags = w.flags := rfl
@[simp] theorem Wave_setLabel_long (w : Wave) (code : Nat) (m : Mask) (l : Label) : (w.setLabel code m l).long = w.long := rfl
@[simp] theorem Wave_setLabel_vregs (w : Wave) (code : Nat) (m : Mask) (l : Label) : (w.setLabel code m l).vregs = w.vregs := rfl
@[simp] theorem Wave_setLabel_sregs (w : Wave) (code : Nat) (m : Mask) (l : Label) : (w.setLabel code m l).sregs = w.sregs := rfl
@[simp] theorem Wave_setLabel_preds (w : Wave) (code : Nat) (m : Mask) (l : Label) : (w.setLabel code m l).preds = w.preds := rfl
@[simp] theorem Wave_setLabel_pending (w : Wave) (code : Nat) (m : Mask) (l : Label) : (w.setLabel code m l).pending = w.pending := rfl
@[simp] theorem Wave_setLabel_nextEntry (w : Wave) (code : Nat) (m : Mask) (l : Label) : (w.setLabel code m l).nextEntry = w.nextEntry := rfl
@[simp] theorem Wave_setLabel_fenced (w : Wave) (code : Nat) (m : Mask) (l : Label) : (w.setLabel code m l).fenced = w.fenced := rfl
@[simp] theorem Wave_setLabel_opened (w : Wave) (code : Nat) (m : Mask) (l : Label) : (w.setLabel code m l).opened = w.opened := rfl
@[simp] theorem Wave_setLabel_batches (w : Wave) (code : Nat) (m : Mask) (l : Label) : (w.setLabel code m l).batches = w.batches := rfl
@[simp] theorem Wave_setLabel_batchNext (w : Wave) (code : Nat) (m : Mask) (l : Label) : (w.setLabel code m l).batchNext = w.batchNext := rfl
@[simp] theorem Wave_setLabel_tx (w : Wave) (code : Nat) (m : Mask) (l : Label) : (w.setLabel code m l).tx = w.tx := rfl
@[simp] theorem Wave_setLabel_mbox (w : Wave) (code : Nat) (m : Mask) (l : Label) : (w.setLabel code m l).mbox = w.mbox := rfl
@[simp] theorem Wave_setLabel_bench (w : Wave) (code : Nat) (m : Mask) (l : Label) : (w.setLabel code m l).bench = w.bench := rfl
@[simp] theorem Wave_setLabel_emit (w : Wave) (code : Nat) (m : Mask) (l : Label) : (w.setLabel code m l).emit = w.emit := rfl
@[simp] theorem Wave_setLabel_killed (w : Wave) (code : Nat) (m : Mask) (l : Label) : (w.setLabel code m l).killed = w.killed := rfl
@[simp] theorem Wave_setLabel_elems (w : Wave) (code : Nat) (m : Mask) (l : Label) : (w.setLabel code m l).elems = w.elems := rfl
@[simp] theorem Wave_setLabel_joinAddrs (w : Wave) (code : Nat) (m : Mask) (l : Label) : (w.setLabel code m l).joinAddrs = w.joinAddrs := rfl
@[simp] theorem Wave_setLabel_barLast (w : Wave) (code : Nat) (m : Mask) (l : Label) : (w.setLabel code m l).barLast = w.barLast := rfl
@[simp] theorem Wave_setLabel_barHere (w : Wave) (code : Nat) (m : Mask) (l : Label) : (w.setLabel code m l).barHere = w.barHere := rfl
@[simp] theorem Wave_setLabel_podSent (w : Wave) (code : Nat) (m : Mask) (l : Label) : (w.setLabel code m l).podSent = w.podSent := rfl
@[simp] theorem Wave_setLabel_stop (w : Wave) (code : Nat) (m : Mask) (l : Label) : (w.setLabel code m l).stop = w.stop := rfl
@[simp] theorem Wave_setLabel_late (w : Wave) (code : Nat) (m : Mask) (l : Label) : (w.setLabel code m l).late = w.late := rfl
@[simp] theorem Wave_setLabel_step (w : Wave) (code : Nat) (m : Mask) (l : Label) : (w.setLabel code m l).step = w.step := rfl
@[simp] theorem Wave_setLabel_trapRec (w : Wave) (code : Nat) (m : Mask) (l : Label) : (w.setLabel code m l).trapRec = w.trapRec := rfl
@[simp] theorem Wave_setLabel_pendingWake (w : Wave) (code : Nat) (m : Mask) (l : Label) : (w.setLabel code m l).pendingWake = w.pendingWake := rfl
@[simp] theorem Wave_setLabel_scrBase (w : Wave) (code : Nat) (m : Mask) (l : Label) : (w.setLabel code m l).scrBase = w.scrBase := rfl
@[simp] theorem Wave_setLabel_scrSize (w : Wave) (code : Nat) (m : Mask) (l : Label) : (w.setLabel code m l).scrSize = w.scrSize := rfl
@[simp] theorem Wave_setLabel_placedAt (w : Wave) (code : Nat) (m : Mask) (l : Label) : (w.setLabel code m l).placedAt = w.placedAt := rfl
@[simp] theorem Wave_setLabel_cycles (w : Wave) (code : Nat) (m : Mask) (l : Label) : (w.setLabel code m l).cycles = w.cycles := rfl

/-! ## Wave.setVec -/

@[simp] theorem Wave_setVec_id (w : Wave) (n : Nat) (m : Mask) (f : Nat → Word) : (w.setVec n m f).id = w.id := rfl
@[simp] theorem Wave_setVec_launch (w : Wave) (n : Nat) (m : Mask) (f : Nat → Word) : (w.setVec n m f).launch = w.launch := rfl
@[simp] theorem Wave_setVec_part (w : Wave) (n : Nat) (m : Mask) (f : Nat → Word) : (w.setVec n m f).part = w.part := rfl
@[simp] theorem Wave_setVec_role (w : Wave) (n : Nat) (m : Mask) (f : Nat → Word) : (w.setVec n m f).role = w.role := rfl
@[simp] theorem Wave_setVec_rate (w : Wave) (n : Nat) (m : Mask) (f : Nat → Word) : (w.setVec n m f).rate = w.rate := rfl
@[simp] theorem Wave_setVec_entry (w : Wave) (n : Nat) (m : Mask) (f : Nat → Word) : (w.setVec n m f).entry = w.entry := rfl
@[simp] theorem Wave_setVec_quad (w : Wave) (n : Nat) (m : Mask) (f : Nat → Word) : (w.setVec n m f).quad = w.quad := rfl
@[simp] theorem Wave_setVec_slot (w : Wave) (n : Nat) (m : Mask) (f : Nat → Word) : (w.setVec n m f).slot = w.slot := rfl
@[simp] theorem Wave_setVec_lquad (w : Wave) (n : Nat) (m : Mask) (f : Nat → Word) : (w.setVec n m f).lquad = w.lquad := rfl
@[simp] theorem Wave_setVec_age (w : Wave) (n : Nat) (m : Mask) (f : Nat → Word) : (w.setVec n m f).age = w.age := rfl
@[simp] theorem Wave_setVec_place (w : Wave) (n : Nat) (m : Mask) (f : Nat → Word) : (w.setVec n m f).place = w.place := rfl
@[simp] theorem Wave_setVec_cluster (w : Wave) (n : Nat) (m : Mask) (f : Nat → Word) : (w.setVec n m f).cluster = w.cluster := rfl
@[simp] theorem Wave_setVec_block (w : Wave) (n : Nat) (m : Mask) (f : Nat → Word) : (w.setVec n m f).block = w.block := rfl
@[simp] theorem Wave_setVec_lblock (w : Wave) (n : Nat) (m : Mask) (f : Nat → Word) : (w.setVec n m f).lblock = w.lblock := rfl
@[simp] theorem Wave_setVec_wnum (w : Wave) (n : Nat) (m : Mask) (f : Nat → Word) : (w.setVec n m f).wnum = w.wnum := rfl
@[simp] theorem Wave_setVec_depth (w : Wave) (n : Nat) (m : Mask) (f : Nat → Word) : (w.setVec n m f).depth = w.depth := rfl
@[simp] theorem Wave_setVec_lanes (w : Wave) (n : Nat) (m : Mask) (f : Nat → Word) : (w.setVec n m f).lanes = w.lanes := rfl
@[simp] theorem Wave_setVec_exited (w : Wave) (n : Nat) (m : Mask) (f : Nat → Word) : (w.setVec n m f).exited = w.exited := rfl
@[simp] theorem Wave_setVec_splits (w : Wave) (n : Nat) (m : Mask) (f : Nat → Word) : (w.setVec n m f).splits = w.splits := rfl
@[simp] theorem Wave_setVec_joins (w : Wave) (n : Nat) (m : Mask) (f : Nat → Word) : (w.setVec n m f).joins = w.joins := rfl
@[simp] theorem Wave_setVec_sers (w : Wave) (n : Nat) (m : Mask) (f : Nat → Word) : (w.setVec n m f).sers = w.sers := rfl
@[simp] theorem Wave_setVec_gens (w : Wave) (n : Nat) (m : Mask) (f : Nat → Word) : (w.setVec n m f).gens = w.gens := rfl
@[simp] theorem Wave_setVec_flags (w : Wave) (n : Nat) (m : Mask) (f : Nat → Word) : (w.setVec n m f).flags = w.flags := rfl
@[simp] theorem Wave_setVec_long (w : Wave) (n : Nat) (m : Mask) (f : Nat → Word) : (w.setVec n m f).long = w.long := rfl
@[simp] theorem Wave_setVec_sregs (w : Wave) (n : Nat) (m : Mask) (f : Nat → Word) : (w.setVec n m f).sregs = w.sregs := rfl
@[simp] theorem Wave_setVec_preds (w : Wave) (n : Nat) (m : Mask) (f : Nat → Word) : (w.setVec n m f).preds = w.preds := rfl
@[simp] theorem Wave_setVec_labels (w : Wave) (n : Nat) (m : Mask) (f : Nat → Word) : (w.setVec n m f).labels = w.labels := rfl
@[simp] theorem Wave_setVec_pending (w : Wave) (n : Nat) (m : Mask) (f : Nat → Word) : (w.setVec n m f).pending = w.pending := rfl
@[simp] theorem Wave_setVec_nextEntry (w : Wave) (n : Nat) (m : Mask) (f : Nat → Word) : (w.setVec n m f).nextEntry = w.nextEntry := rfl
@[simp] theorem Wave_setVec_fenced (w : Wave) (n : Nat) (m : Mask) (f : Nat → Word) : (w.setVec n m f).fenced = w.fenced := rfl
@[simp] theorem Wave_setVec_opened (w : Wave) (n : Nat) (m : Mask) (f : Nat → Word) : (w.setVec n m f).opened = w.opened := rfl
@[simp] theorem Wave_setVec_batches (w : Wave) (n : Nat) (m : Mask) (f : Nat → Word) : (w.setVec n m f).batches = w.batches := rfl
@[simp] theorem Wave_setVec_batchNext (w : Wave) (n : Nat) (m : Mask) (f : Nat → Word) : (w.setVec n m f).batchNext = w.batchNext := rfl
@[simp] theorem Wave_setVec_tx (w : Wave) (n : Nat) (m : Mask) (f : Nat → Word) : (w.setVec n m f).tx = w.tx := rfl
@[simp] theorem Wave_setVec_mbox (w : Wave) (n : Nat) (m : Mask) (f : Nat → Word) : (w.setVec n m f).mbox = w.mbox := rfl
@[simp] theorem Wave_setVec_bench (w : Wave) (n : Nat) (m : Mask) (f : Nat → Word) : (w.setVec n m f).bench = w.bench := rfl
@[simp] theorem Wave_setVec_emit (w : Wave) (n : Nat) (m : Mask) (f : Nat → Word) : (w.setVec n m f).emit = w.emit := rfl
@[simp] theorem Wave_setVec_killed (w : Wave) (n : Nat) (m : Mask) (f : Nat → Word) : (w.setVec n m f).killed = w.killed := rfl
@[simp] theorem Wave_setVec_elems (w : Wave) (n : Nat) (m : Mask) (f : Nat → Word) : (w.setVec n m f).elems = w.elems := rfl
@[simp] theorem Wave_setVec_joinAddrs (w : Wave) (n : Nat) (m : Mask) (f : Nat → Word) : (w.setVec n m f).joinAddrs = w.joinAddrs := rfl
@[simp] theorem Wave_setVec_barLast (w : Wave) (n : Nat) (m : Mask) (f : Nat → Word) : (w.setVec n m f).barLast = w.barLast := rfl
@[simp] theorem Wave_setVec_barHere (w : Wave) (n : Nat) (m : Mask) (f : Nat → Word) : (w.setVec n m f).barHere = w.barHere := rfl
@[simp] theorem Wave_setVec_podSent (w : Wave) (n : Nat) (m : Mask) (f : Nat → Word) : (w.setVec n m f).podSent = w.podSent := rfl
@[simp] theorem Wave_setVec_stop (w : Wave) (n : Nat) (m : Mask) (f : Nat → Word) : (w.setVec n m f).stop = w.stop := rfl
@[simp] theorem Wave_setVec_late (w : Wave) (n : Nat) (m : Mask) (f : Nat → Word) : (w.setVec n m f).late = w.late := rfl
@[simp] theorem Wave_setVec_step (w : Wave) (n : Nat) (m : Mask) (f : Nat → Word) : (w.setVec n m f).step = w.step := rfl
@[simp] theorem Wave_setVec_trapRec (w : Wave) (n : Nat) (m : Mask) (f : Nat → Word) : (w.setVec n m f).trapRec = w.trapRec := rfl
@[simp] theorem Wave_setVec_pendingWake (w : Wave) (n : Nat) (m : Mask) (f : Nat → Word) : (w.setVec n m f).pendingWake = w.pendingWake := rfl
@[simp] theorem Wave_setVec_scrBase (w : Wave) (n : Nat) (m : Mask) (f : Nat → Word) : (w.setVec n m f).scrBase = w.scrBase := rfl
@[simp] theorem Wave_setVec_scrSize (w : Wave) (n : Nat) (m : Mask) (f : Nat → Word) : (w.setVec n m f).scrSize = w.scrSize := rfl
@[simp] theorem Wave_setVec_placedAt (w : Wave) (n : Nat) (m : Mask) (f : Nat → Word) : (w.setVec n m f).placedAt = w.placedAt := rfl
@[simp] theorem Wave_setVec_cycles (w : Wave) (n : Nat) (m : Mask) (f : Nat → Word) : (w.setVec n m f).cycles = w.cycles := rfl

/-! ## Wave.setScalar -/

@[simp] theorem Wave_setScalar_id (w : Wave) (n : Nat) (v : Word) : (w.setScalar n v).id = w.id := rfl
@[simp] theorem Wave_setScalar_launch (w : Wave) (n : Nat) (v : Word) : (w.setScalar n v).launch = w.launch := rfl
@[simp] theorem Wave_setScalar_part (w : Wave) (n : Nat) (v : Word) : (w.setScalar n v).part = w.part := rfl
@[simp] theorem Wave_setScalar_role (w : Wave) (n : Nat) (v : Word) : (w.setScalar n v).role = w.role := rfl
@[simp] theorem Wave_setScalar_rate (w : Wave) (n : Nat) (v : Word) : (w.setScalar n v).rate = w.rate := rfl
@[simp] theorem Wave_setScalar_entry (w : Wave) (n : Nat) (v : Word) : (w.setScalar n v).entry = w.entry := rfl
@[simp] theorem Wave_setScalar_quad (w : Wave) (n : Nat) (v : Word) : (w.setScalar n v).quad = w.quad := rfl
@[simp] theorem Wave_setScalar_slot (w : Wave) (n : Nat) (v : Word) : (w.setScalar n v).slot = w.slot := rfl
@[simp] theorem Wave_setScalar_lquad (w : Wave) (n : Nat) (v : Word) : (w.setScalar n v).lquad = w.lquad := rfl
@[simp] theorem Wave_setScalar_age (w : Wave) (n : Nat) (v : Word) : (w.setScalar n v).age = w.age := rfl
@[simp] theorem Wave_setScalar_place (w : Wave) (n : Nat) (v : Word) : (w.setScalar n v).place = w.place := rfl
@[simp] theorem Wave_setScalar_cluster (w : Wave) (n : Nat) (v : Word) : (w.setScalar n v).cluster = w.cluster := rfl
@[simp] theorem Wave_setScalar_block (w : Wave) (n : Nat) (v : Word) : (w.setScalar n v).block = w.block := rfl
@[simp] theorem Wave_setScalar_lblock (w : Wave) (n : Nat) (v : Word) : (w.setScalar n v).lblock = w.lblock := rfl
@[simp] theorem Wave_setScalar_wnum (w : Wave) (n : Nat) (v : Word) : (w.setScalar n v).wnum = w.wnum := rfl
@[simp] theorem Wave_setScalar_depth (w : Wave) (n : Nat) (v : Word) : (w.setScalar n v).depth = w.depth := rfl
@[simp] theorem Wave_setScalar_lanes (w : Wave) (n : Nat) (v : Word) : (w.setScalar n v).lanes = w.lanes := rfl
@[simp] theorem Wave_setScalar_exited (w : Wave) (n : Nat) (v : Word) : (w.setScalar n v).exited = w.exited := rfl
@[simp] theorem Wave_setScalar_splits (w : Wave) (n : Nat) (v : Word) : (w.setScalar n v).splits = w.splits := rfl
@[simp] theorem Wave_setScalar_joins (w : Wave) (n : Nat) (v : Word) : (w.setScalar n v).joins = w.joins := rfl
@[simp] theorem Wave_setScalar_sers (w : Wave) (n : Nat) (v : Word) : (w.setScalar n v).sers = w.sers := rfl
@[simp] theorem Wave_setScalar_gens (w : Wave) (n : Nat) (v : Word) : (w.setScalar n v).gens = w.gens := rfl
@[simp] theorem Wave_setScalar_flags (w : Wave) (n : Nat) (v : Word) : (w.setScalar n v).flags = w.flags := rfl
@[simp] theorem Wave_setScalar_long (w : Wave) (n : Nat) (v : Word) : (w.setScalar n v).long = w.long := rfl
@[simp] theorem Wave_setScalar_vregs (w : Wave) (n : Nat) (v : Word) : (w.setScalar n v).vregs = w.vregs := rfl
@[simp] theorem Wave_setScalar_sregs (w : Wave) (n : Nat) (v : Word) : (w.setScalar n v).sregs = mput 0 w.sregs n v := rfl
@[simp] theorem Wave_setScalar_preds (w : Wave) (n : Nat) (v : Word) : (w.setScalar n v).preds = w.preds := rfl
@[simp] theorem Wave_setScalar_labels (w : Wave) (n : Nat) (v : Word) : (w.setScalar n v).labels = w.labels := rfl
@[simp] theorem Wave_setScalar_pending (w : Wave) (n : Nat) (v : Word) : (w.setScalar n v).pending = w.pending := rfl
@[simp] theorem Wave_setScalar_nextEntry (w : Wave) (n : Nat) (v : Word) : (w.setScalar n v).nextEntry = w.nextEntry := rfl
@[simp] theorem Wave_setScalar_fenced (w : Wave) (n : Nat) (v : Word) : (w.setScalar n v).fenced = w.fenced := rfl
@[simp] theorem Wave_setScalar_opened (w : Wave) (n : Nat) (v : Word) : (w.setScalar n v).opened = w.opened := rfl
@[simp] theorem Wave_setScalar_batches (w : Wave) (n : Nat) (v : Word) : (w.setScalar n v).batches = w.batches := rfl
@[simp] theorem Wave_setScalar_batchNext (w : Wave) (n : Nat) (v : Word) : (w.setScalar n v).batchNext = w.batchNext := rfl
@[simp] theorem Wave_setScalar_tx (w : Wave) (n : Nat) (v : Word) : (w.setScalar n v).tx = w.tx := rfl
@[simp] theorem Wave_setScalar_mbox (w : Wave) (n : Nat) (v : Word) : (w.setScalar n v).mbox = w.mbox := rfl
@[simp] theorem Wave_setScalar_bench (w : Wave) (n : Nat) (v : Word) : (w.setScalar n v).bench = w.bench := rfl
@[simp] theorem Wave_setScalar_emit (w : Wave) (n : Nat) (v : Word) : (w.setScalar n v).emit = w.emit := rfl
@[simp] theorem Wave_setScalar_killed (w : Wave) (n : Nat) (v : Word) : (w.setScalar n v).killed = w.killed := rfl
@[simp] theorem Wave_setScalar_elems (w : Wave) (n : Nat) (v : Word) : (w.setScalar n v).elems = w.elems := rfl
@[simp] theorem Wave_setScalar_joinAddrs (w : Wave) (n : Nat) (v : Word) : (w.setScalar n v).joinAddrs = w.joinAddrs := rfl
@[simp] theorem Wave_setScalar_barLast (w : Wave) (n : Nat) (v : Word) : (w.setScalar n v).barLast = w.barLast := rfl
@[simp] theorem Wave_setScalar_barHere (w : Wave) (n : Nat) (v : Word) : (w.setScalar n v).barHere = w.barHere := rfl
@[simp] theorem Wave_setScalar_podSent (w : Wave) (n : Nat) (v : Word) : (w.setScalar n v).podSent = w.podSent := rfl
@[simp] theorem Wave_setScalar_stop (w : Wave) (n : Nat) (v : Word) : (w.setScalar n v).stop = w.stop := rfl
@[simp] theorem Wave_setScalar_late (w : Wave) (n : Nat) (v : Word) : (w.setScalar n v).late = w.late := rfl
@[simp] theorem Wave_setScalar_step (w : Wave) (n : Nat) (v : Word) : (w.setScalar n v).step = w.step := rfl
@[simp] theorem Wave_setScalar_trapRec (w : Wave) (n : Nat) (v : Word) : (w.setScalar n v).trapRec = w.trapRec := rfl
@[simp] theorem Wave_setScalar_pendingWake (w : Wave) (n : Nat) (v : Word) : (w.setScalar n v).pendingWake = w.pendingWake := rfl
@[simp] theorem Wave_setScalar_scrBase (w : Wave) (n : Nat) (v : Word) : (w.setScalar n v).scrBase = w.scrBase := rfl
@[simp] theorem Wave_setScalar_scrSize (w : Wave) (n : Nat) (v : Word) : (w.setScalar n v).scrSize = w.scrSize := rfl
@[simp] theorem Wave_setScalar_placedAt (w : Wave) (n : Nat) (v : Word) : (w.setScalar n v).placedAt = w.placedAt := rfl
@[simp] theorem Wave_setScalar_cycles (w : Wave) (n : Nat) (v : Word) : (w.setScalar n v).cycles = w.cycles := rfl

/-! ## Wave.setFlag -/

@[simp] theorem Wave_setFlag_id (w : Wave) (f n : Nat) : (w.setFlag f n).id = w.id := rfl
@[simp] theorem Wave_setFlag_launch (w : Wave) (f n : Nat) : (w.setFlag f n).launch = w.launch := rfl
@[simp] theorem Wave_setFlag_part (w : Wave) (f n : Nat) : (w.setFlag f n).part = w.part := rfl
@[simp] theorem Wave_setFlag_role (w : Wave) (f n : Nat) : (w.setFlag f n).role = w.role := rfl
@[simp] theorem Wave_setFlag_rate (w : Wave) (f n : Nat) : (w.setFlag f n).rate = w.rate := rfl
@[simp] theorem Wave_setFlag_entry (w : Wave) (f n : Nat) : (w.setFlag f n).entry = w.entry := rfl
@[simp] theorem Wave_setFlag_quad (w : Wave) (f n : Nat) : (w.setFlag f n).quad = w.quad := rfl
@[simp] theorem Wave_setFlag_slot (w : Wave) (f n : Nat) : (w.setFlag f n).slot = w.slot := rfl
@[simp] theorem Wave_setFlag_lquad (w : Wave) (f n : Nat) : (w.setFlag f n).lquad = w.lquad := rfl
@[simp] theorem Wave_setFlag_age (w : Wave) (f n : Nat) : (w.setFlag f n).age = w.age := rfl
@[simp] theorem Wave_setFlag_place (w : Wave) (f n : Nat) : (w.setFlag f n).place = w.place := rfl
@[simp] theorem Wave_setFlag_cluster (w : Wave) (f n : Nat) : (w.setFlag f n).cluster = w.cluster := rfl
@[simp] theorem Wave_setFlag_block (w : Wave) (f n : Nat) : (w.setFlag f n).block = w.block := rfl
@[simp] theorem Wave_setFlag_lblock (w : Wave) (f n : Nat) : (w.setFlag f n).lblock = w.lblock := rfl
@[simp] theorem Wave_setFlag_wnum (w : Wave) (f n : Nat) : (w.setFlag f n).wnum = w.wnum := rfl
@[simp] theorem Wave_setFlag_depth (w : Wave) (f n : Nat) : (w.setFlag f n).depth = w.depth := rfl
@[simp] theorem Wave_setFlag_lanes (w : Wave) (f n : Nat) : (w.setFlag f n).lanes = w.lanes := rfl
@[simp] theorem Wave_setFlag_exited (w : Wave) (f n : Nat) : (w.setFlag f n).exited = w.exited := rfl
@[simp] theorem Wave_setFlag_splits (w : Wave) (f n : Nat) : (w.setFlag f n).splits = w.splits := rfl
@[simp] theorem Wave_setFlag_joins (w : Wave) (f n : Nat) : (w.setFlag f n).joins = w.joins := rfl
@[simp] theorem Wave_setFlag_sers (w : Wave) (f n : Nat) : (w.setFlag f n).sers = w.sers := rfl
@[simp] theorem Wave_setFlag_gens (w : Wave) (f n : Nat) : (w.setFlag f n).gens = w.gens := rfl
@[simp] theorem Wave_setFlag_flags (w : Wave) (f n : Nat) : (w.setFlag f n).flags = mput 0 w.flags f n := rfl
@[simp] theorem Wave_setFlag_long (w : Wave) (f n : Nat) : (w.setFlag f n).long = w.long := rfl
@[simp] theorem Wave_setFlag_vregs (w : Wave) (f n : Nat) : (w.setFlag f n).vregs = w.vregs := rfl
@[simp] theorem Wave_setFlag_sregs (w : Wave) (f n : Nat) : (w.setFlag f n).sregs = w.sregs := rfl
@[simp] theorem Wave_setFlag_preds (w : Wave) (f n : Nat) : (w.setFlag f n).preds = w.preds := rfl
@[simp] theorem Wave_setFlag_labels (w : Wave) (f n : Nat) : (w.setFlag f n).labels = w.labels := rfl
@[simp] theorem Wave_setFlag_pending (w : Wave) (f n : Nat) : (w.setFlag f n).pending = w.pending := rfl
@[simp] theorem Wave_setFlag_nextEntry (w : Wave) (f n : Nat) : (w.setFlag f n).nextEntry = w.nextEntry := rfl
@[simp] theorem Wave_setFlag_fenced (w : Wave) (f n : Nat) : (w.setFlag f n).fenced = w.fenced := rfl
@[simp] theorem Wave_setFlag_opened (w : Wave) (f n : Nat) : (w.setFlag f n).opened = w.opened := rfl
@[simp] theorem Wave_setFlag_batches (w : Wave) (f n : Nat) : (w.setFlag f n).batches = w.batches := rfl
@[simp] theorem Wave_setFlag_batchNext (w : Wave) (f n : Nat) : (w.setFlag f n).batchNext = w.batchNext := rfl
@[simp] theorem Wave_setFlag_tx (w : Wave) (f n : Nat) : (w.setFlag f n).tx = w.tx := rfl
@[simp] theorem Wave_setFlag_mbox (w : Wave) (f n : Nat) : (w.setFlag f n).mbox = w.mbox := rfl
@[simp] theorem Wave_setFlag_bench (w : Wave) (f n : Nat) : (w.setFlag f n).bench = w.bench := rfl
@[simp] theorem Wave_setFlag_emit (w : Wave) (f n : Nat) : (w.setFlag f n).emit = w.emit := rfl
@[simp] theorem Wave_setFlag_killed (w : Wave) (f n : Nat) : (w.setFlag f n).killed = w.killed := rfl
@[simp] theorem Wave_setFlag_elems (w : Wave) (f n : Nat) : (w.setFlag f n).elems = w.elems := rfl
@[simp] theorem Wave_setFlag_joinAddrs (w : Wave) (f n : Nat) : (w.setFlag f n).joinAddrs = w.joinAddrs := rfl
@[simp] theorem Wave_setFlag_barLast (w : Wave) (f n : Nat) : (w.setFlag f n).barLast = w.barLast := rfl
@[simp] theorem Wave_setFlag_barHere (w : Wave) (f n : Nat) : (w.setFlag f n).barHere = w.barHere := rfl
@[simp] theorem Wave_setFlag_podSent (w : Wave) (f n : Nat) : (w.setFlag f n).podSent = w.podSent := rfl
@[simp] theorem Wave_setFlag_stop (w : Wave) (f n : Nat) : (w.setFlag f n).stop = w.stop := rfl
@[simp] theorem Wave_setFlag_late (w : Wave) (f n : Nat) : (w.setFlag f n).late = w.late := rfl
@[simp] theorem Wave_setFlag_step (w : Wave) (f n : Nat) : (w.setFlag f n).step = w.step := rfl
@[simp] theorem Wave_setFlag_trapRec (w : Wave) (f n : Nat) : (w.setFlag f n).trapRec = w.trapRec := rfl
@[simp] theorem Wave_setFlag_pendingWake (w : Wave) (f n : Nat) : (w.setFlag f n).pendingWake = w.pendingWake := rfl
@[simp] theorem Wave_setFlag_scrBase (w : Wave) (f n : Nat) : (w.setFlag f n).scrBase = w.scrBase := rfl
@[simp] theorem Wave_setFlag_scrSize (w : Wave) (f n : Nat) : (w.setFlag f n).scrSize = w.scrSize := rfl
@[simp] theorem Wave_setFlag_placedAt (w : Wave) (f n : Nat) : (w.setFlag f n).placedAt = w.placedAt := rfl
@[simp] theorem Wave_setFlag_cycles (w : Wave) (f n : Nat) : (w.setFlag f n).cycles = w.cycles := rfl

/-! ## Split.goto -/

@[simp] theorem Split_goto_pc (sp : Split) (p : Pos) : (sp.goto p).pc = p := rfl
@[simp] theorem Split_goto_begun (sp : Split) (p : Pos) : (sp.goto p).begun = decide (p.idx ≠ 0) := rfl
@[simp] theorem Split_goto_mask (sp : Split) (p : Pos) : (sp.goto p).mask = sp.mask := rfl
@[simp] theorem Split_goto_rcv (sp : Split) (p : Pos) : (sp.goto p).rcv = sp.rcv := rfl
@[simp] theorem Split_goto_nest (sp : Split) (p : Pos) : (sp.goto p).nest = sp.nest := rfl
@[simp] theorem Split_goto_ctx (sp : Split) (p : Pos) : (sp.goto p).ctx = sp.ctx := rfl
@[simp] theorem Split_goto_region (sp : Split) (p : Pos) : (sp.goto p).region = sp.region := rfl
@[simp] theorem Split_goto_state (sp : Split) (p : Pos) : (sp.goto p).state = sp.state := rfl
@[simp] theorem Split_goto_sleep (sp : Split) (p : Pos) : (sp.goto p).sleep = sp.sleep := rfl
@[simp] theorem Split_goto_arrived (sp : Split) (p : Pos) : (sp.goto p).arrived = sp.arrived := rfl
@[simp] theorem Split_goto_serial (sp : Split) (p : Pos) : (sp.goto p).serial = sp.serial := rfl
@[simp] theorem Split_goto_undo (sp : Split) (p : Pos) : (sp.goto p).undo = sp.undo := rfl
@[simp] theorem Split_goto_walks (sp : Split) (p : Pos) : (sp.goto p).walks = sp.walks := rfl
@[simp] theorem Split_goto_waits (sp : Split) (p : Pos) : (sp.goto p).waits = sp.waits := rfl
@[simp] theorem Split_goto_readySince (sp : Split) (p : Pos) : (sp.goto p).readySince = sp.readySince := rfl
@[simp] theorem Split_goto_reseal (sp : Split) (p : Pos) : (sp.goto p).reseal = sp.reseal := rfl
@[simp] theorem Split_goto_restarts (sp : Split) (p : Pos) : (sp.goto p).restarts = sp.restarts := rfl

/-! ## Split.setRegion -/

@[simp] theorem Split_setRegion_pc (sp : Split) (p : Pos) : (sp.setRegion p).pc = sp.pc := rfl
@[simp] theorem Split_setRegion_begun (sp : Split) (p : Pos) : (sp.setRegion p).begun = sp.begun := rfl
@[simp] theorem Split_setRegion_mask (sp : Split) (p : Pos) : (sp.setRegion p).mask = sp.mask := rfl
@[simp] theorem Split_setRegion_rcv (sp : Split) (p : Pos) : (sp.setRegion p).rcv = sp.rcv := rfl
@[simp] theorem Split_setRegion_nest (sp : Split) (p : Pos) : (sp.setRegion p).nest = sp.nest := rfl
@[simp] theorem Split_setRegion_ctx (sp : Split) (p : Pos) : (sp.setRegion p).ctx = sp.ctx := rfl
@[simp] theorem Split_setRegion_region (sp : Split) (p : Pos) : (sp.setRegion p).region = p := rfl
@[simp] theorem Split_setRegion_state (sp : Split) (p : Pos) : (sp.setRegion p).state = sp.state := rfl
@[simp] theorem Split_setRegion_sleep (sp : Split) (p : Pos) : (sp.setRegion p).sleep = sp.sleep := rfl
@[simp] theorem Split_setRegion_arrived (sp : Split) (p : Pos) : (sp.setRegion p).arrived = sp.arrived := rfl
@[simp] theorem Split_setRegion_serial (sp : Split) (p : Pos) : (sp.setRegion p).serial = sp.serial + 1 := rfl
@[simp] theorem Split_setRegion_undo (sp : Split) (p : Pos) : (sp.setRegion p).undo = [] := rfl
@[simp] theorem Split_setRegion_walks (sp : Split) (p : Pos) : (sp.setRegion p).walks = sp.walks := rfl
@[simp] theorem Split_setRegion_waits (sp : Split) (p : Pos) : (sp.setRegion p).waits = sp.waits := rfl
@[simp] theorem Split_setRegion_readySince (sp : Split) (p : Pos) : (sp.setRegion p).readySince = sp.readySince := rfl
@[simp] theorem Split_setRegion_reseal (sp : Split) (p : Pos) : (sp.setRegion p).reseal = [] := rfl
@[simp] theorem Split_setRegion_restarts (sp : Split) (p : Pos) : (sp.setRegion p).restarts = sp.restarts := rfl

end Sys2Proof.Machine
end

