-- ==== Sys2Proof/Laws/Wave.lean ====
section
/-! SUPPORT. Reconvergence leaves a wave's registers, labels, flags and queues as they were. -/
namespace Sys2Proof.Machine

theorem joinGroups_map (es : List Entry) (m : Mask) :
    (joinGroups es m).map Entry.ungrouped = es.map Entry.ungrouped := by
  simp only [joinGroups, List.map_map]
  apply List.map_congr_left
  intro e _
  simp only [Function.comp]
  split <;> rfl

@[simp] theorem setSplit_data (w : Wave) (k : Nat) (sp : Split) : (w.setSplit k sp).data = w.data := rfl

theorem popSer_data (w : Wave) (k i : Nat) (e : SerEntry) (a : DWord) : (popSer w k i e a).data = w.data := by
  simp [popSer, Wave.data, joinGroups_map]

theorem resumeSer_data (w : Wave) (k i : Nat) (e : SerEntry) : (resumeSer w k i e).data = w.data := by
  simp [resumeSer, Wave.data, joinGroups_map]

theorem fuse_data (w : Wave) (j : Nat) : (fuse w j).1.data = w.data := by
  unfold fuse
  split
  · dsimp only
    split
    · simp [Wave.data, joinGroups_map]
    · rfl
  · rfl

theorem settle_data (fuel : Nat) (w : Wave) (k : Nat) : (settle fuel w k).data = w.data := by
  induction fuel generalizing w k with
  | zero => rfl
  | succ n ih =>
    unfold settle
    split
    · rfl
    · split
      · split
        · rfl
        · dsimp only
          split
          · rw [ih, fuse_data, setSplit_data]
          · rw [fuse_data, setSplit_data]
        · split
          · rfl
          · split
            · rw [ih, popSer_data]
            · rw [ih, resumeSer_data]
      · rfl

end Sys2Proof.Machine
end

