-- ==== Sys2Proof/Laws/Alu.lean ====
section
/-! SUPPORT. What an instruction word that writes registers does, said once: where it runs it completes, its destination holds its words and their label, and nothing else changes. -/
namespace Sys2Proof.Machine

/-! ## The issuing context -/

theorem issuer_spec {s : State} {h : Ctl} {act : Ctx → Mask} {c : Ctx} (hc : issuer s h act = some c) :
    mget? s.waves c.w.id = some c.w ∧ c.w.place = .resident ∧ c.w.stop = none ∧ mget? c.w.splits c.k = some c.sp ∧
      c.sp.state = .ready ∧ c.w.id = s.cur.wave ∧ c.k = s.cur.split ∧ c.pos = ⟨s.cur.hdrAddr, s.cur.idx⟩ ∧
      c.hdr = s.cur.hdr.toNat ∧ c.h = h := by
  unfold issuer at hc
  split at hc
  · cases hc
  · split at hc
    · split at hc
      · split at hc
        · split at hc
          · cases hc
          · cases hc
            simp_all
        · cases hc
      · cases hc
    · cases hc

theorem prelude_issuer {i : Instr} {s : State} {c : Ctx} (h : prelude i s = .ok c) : issuerOf i s = some c := by
  unfold prelude at h
  unfold issuerOf
  split at h
  · cases h
  · rename_i c' hc'
    split at h
    · cases h
    · split at h
      · cases h
      · cases h
        exact hc'

theorem ready_spec {i : Instr} {s : State} {c : Ctx} (h : Ready i s c) :
    mget? s.waves c.w.id = some c.w ∧ c.w.place = .resident ∧ c.w.stop = none ∧ mget? c.w.splits c.k = some c.sp ∧
      c.sp.state = .ready ∧ c.w.id = s.cur.wave ∧ c.k = s.cur.split ∧ c.pos = ⟨s.cur.hdrAddr, s.cur.idx⟩ ∧
      c.hdr = s.cur.hdr.toNat ∧ c.h = i.ctl := issuer_spec (prelude_issuer h.1)

theorem theWave_ready {i : Instr} {s : State} {c : Ctx} (h : Ready i s c) : theWave s c = c.w := by
  simp [theWave, mgetD, (ready_spec h).1]

/-- Without a marked register, the check of uncorrectable errors changes nothing (R444). -/
theorem withSoft_off {s : State} {c : Ctx} {i : Instr} (h : softHit s c.w.id i = false) (r : Except Halt State) : withSoft s c i r = r := by
  simp [withSoft, h]

/-- A word that runs and whose body succeeds completes, with the split advanced. -/
theorem runWord_ok {i : Instr} {s s' : State} {c : Ctx} {body : Ctx → Except Halt State} (h : Ready i s c) (hb : body c = .ok s') :
    runWord i s body = .next (advance (clearSoft s' c i) c i.closes) := by
  unfold runWord
  rw [h.1]
  dsimp only
  rw [if_neg h.2.1, withSoft_off h.2.2, hb]

theorem runJump_ok {i : Instr} {s s' : State} {c : Ctx} {body : Ctx → Except Halt State} (h : Ready i s c) (hb : body c = .ok s') :
    runJump i s body = .next s' := by
  simp [runJump, h.1, hb, withSoft_off h.2.2]

/-! ## Advancing -/

theorem clearSoft_eq (s : State) (c : Ctx) (i : Instr) :
    clearSoft s c i = { s with soft := (clearSoft s c i).soft } ∧ ∀ m, m ∈ (clearSoft s c i).soft → m ∈ s.soft := by
  unfold clearSoft
  repeat' split
  all_goals first
    | exact ⟨rfl, fun _ h => h⟩
    | exact ⟨rfl, fun _ h => (List.mem_filter.mp h).1⟩

@[simp] theorem clearSoft_waves (s : State) (c : Ctx) (i : Instr) : (clearSoft s c i).waves = s.waves := by
  rw [(clearSoft_eq s c i).1]

/-- What advancing does: one wave changes, in what reconvergence touches. -/
theorem advance_spec (s : State) (c : Ctx) (b : Bool) :
    ∃ w, w.data = (theWave s c).data ∧ w.id = (theWave s c).id ∧ (advance s c b = putWave s w ∨ (advance s c b = s ∧ w = theWave s c)) := by
  unfold advance
  dsimp only
  split
  · exact ⟨_, rfl, rfl, .inr ⟨rfl, rfl⟩⟩
  · refine ⟨_, ?_, ?_, .inl rfl⟩
    · rw [settle_data, setSplit_data]
    · have := congrArg Wave.id (settle_data settleFuel ((theWave s c).setSplit c.k
        (((if b then (theWave s c).regionAt c.k ‹Split› (nextPos c.pos c.hdr) else ‹Split›)).goto (nextPos c.pos c.hdr))) c.k)
      exact this

/-! ## Writing registers -/

theorem mgetD_foldl_not {α : Type} [DecidableEq α] (d : α) (ls : List Nat) (g : Nat → Nat) (f : Nat → α) (m : Map α) (j : Nat)
    (h : ∀ l ∈ ls, g l ≠ j) : mgetD (ls.foldl (fun r l => mput d r (g l) (f l)) m) j d = mgetD m j d := by
  induction ls generalizing m with
  | nil => rfl
  | cons x xs ih =>
    simp only [List.foldl_cons]
    rw [ih _ (fun l hl => h l (List.mem_cons_of_mem _ hl)), mgetD_mput, if_neg]
    exact fun e => h x List.mem_cons_self e.symm

theorem mgetD_foldl_mem {α : Type} [DecidableEq α] (d : α) (ls : List Nat) (g : Nat → Nat) (f : Nat → α) (m : Map α) {l : Nat}
    (hl : l ∈ ls) (inj : ∀ x ∈ ls, g x = g l → x = l) :
    mgetD (ls.foldl (fun r l => mput d r (g l) (f l)) m) (g l) d = f l := by
  induction ls generalizing m with
  | nil => cases hl
  | cons x xs ih =>
    simp only [List.foldl_cons]
    by_cases hx : l ∈ xs
    · exact ih _ hx (fun y hy => inj y (List.mem_cons_of_mem _ hy))
    · have hxl : l = x := by
        cases hl with
        | head => rfl
        | tail _ h => exact absurd h hx
      subst hxl
      rw [mgetD_foldl_not, mgetD_mput, if_pos rfl]
      intro y hy e
      exact hx (inj y (List.mem_cons_of_mem _ hy) e ▸ hy)

theorem vec_setVec (w : Wave) (n : Nat) (m : Mask) (f : Nat → Word) (n' l : Nat) (hl : l < 32) :
    (w.setVec n m f).vec n' l = if n' = n ∧ bit m l = true then f l else w.vec n' l := by
  unfold Wave.vec Wave.setVec
  dsimp only
  by_cases h : n' = n ∧ bit m l = true
  · rw [if_pos h]
    obtain ⟨rfl, hb⟩ := h
    refine mgetD_foldl_mem 0 (lanesOf m) (fun l => n' * 32 + l) f _ (mem_lanesOf.mpr hb) ?_
    intro x _ e
    omega
  · rw [if_neg h]
    refine mgetD_foldl_not 0 (lanesOf m) (fun l => n * 32 + l) f _ _ ?_
    intro x hx e
    have hx' := mem_lanesOf.mp hx
    have := bit_lt hx'
    have h1 : n' = n := by omega
    have h2 : x = l := by omega
    subst h1 h2
    exact h ⟨rfl, hx'⟩

theorem scalar_setScalar (w : Wave) (n : Nat) (v : Word) (m : Nat) : (w.setScalar n v).scalar m = if m = n then v else w.scalar m :=
  mgetD_mput w.sregs n m v 0

theorem label_setLabel (w : Wave) (code : Nat) (m : Mask) (l : Label) (code' : Nat) :
    (w.setLabel code m l).label code' = if code' = code then
      (if (decide (256 ≤ code) && decide (code < 320)) || coversWave w m then l else w.label code ||| l) else w.label code' :=
  mgetD_mput w.labels code code' _ 0

theorem maskSum_lt (f : Nat → Bool) (n : Nat) : (List.range n).foldl (fun n l => if f l then n + 2 ^ l else n) 0 < 2 ^ n := by
  induction n with
  | zero => simp
  | succ n ih =>
    rw [List.range_succ, List.foldl_append]
    simp only [List.foldl_cons, List.foldl_nil]
    split <;> omega

theorem maskSum_testBit (f : Nat → Bool) (n l : Nat) :
    ((List.range n).foldl (fun n l => if f l then n + 2 ^ l else n) 0).testBit l = (decide (l < n) && f l) := by
  induction n with
  | zero => simp
  | succ n ih =>
    have hlt := maskSum_lt f n
    rw [List.range_succ, List.foldl_append]
    simp only [List.foldl_cons, List.foldl_nil]
    generalize (List.range n).foldl (fun n l => if f l then n + 2 ^ l else n) 0 = a at ih hlt
    split
    · rw [Nat.add_comm]
      by_cases h : l = n
      · subst h
        rw [Nat.testBit_two_pow_add_eq, ih]
        simp [*]
      · by_cases h2 : l < n
        · rw [Nat.testBit_two_pow_add_gt h2, ih]
          simp [h2, Nat.lt_succ_of_lt h2]
        · have h3 : 2 ^ n + a < 2 ^ l := by
            have h4 : 2 ^ (n + 1) ≤ 2 ^ l := Nat.pow_le_pow_right (by decide) (by omega)
            omega
          rw [Nat.testBit_lt_two_pow h3]
          simp; omega
    · rw [ih]
      by_cases h : l = n
      · subst h; simp [*]
      · have : (l < n) = (l < n + 1) := by apply propext; omega
        simp [this]

theorem bit_maskOf (f : Nat → Bool) {l : Nat} (hl : l < 32) : bit (maskOf f) l = f l := by
  unfold bit maskOf
  rw [BitVec.toNat_ofNat, Nat.mod_eq_of_lt (maskSum_lt f 32), maskSum_testBit]
  simp [hl]

theorem pred_setPred (w : Wave) (p : Nat) (m : Mask) (f : Nat → Bool) (q l : Nat) (hl : l < 32) (hp : p ≠ 0) :
    bit ((w.setPred p m f).pred q) l = if q = p ∧ bit m l = true then f l else bit (w.pred q) l := by
  unfold Wave.setPred
  rw [if_neg hp]
  by_cases hq : q = 0
  · subst hq
    simp [Wave.pred, Ne.symm hp]
  · simp only [Wave.pred, if_neg hq, mgetD_mput]
    by_cases h : q = p
    · subst h
      rw [if_pos rfl, bit_maskOf _ hl]
      simp [hp]
    · rw [if_neg h, if_neg (fun x => h x.1)]

/-- The label that R176 gives a register of a wave. -/
def labelRule (w : Wave) (m : Mask) (code : Nat) (l : Label) : Label :=
  if (decide (256 ≤ code) && decide (code < 320)) || coversWave w m then l else w.label code ||| l

theorem labelRule_congr {w x : Wave} {m : Mask} {code : Nat} {l : Label} (h : x.rest = w.rest) (hl : x.label code = w.label code) :
    labelRule x m code l = labelRule w m code l := by
  have h1 : x.lanes = w.lanes := by have := congrArg Wave.lanes h; exact this
  have h2 : x.exited = w.exited := by have := congrArg Wave.exited h; exact this
  unfold labelRule coversWave
  rw [h1, h2, hl]

theorem writeVec_spec (w : Wave) (k n : Nat) (m : Mask) (f : Nat → List Word) (lbl : Label) :
    let x := (List.range n).foldl (fun w i => (w.setVec (k + i) m fun l => nthD (f l) i 0).setLabel (k + i) m lbl) w
    x.rest = w.rest ∧ x.id = w.id ∧ x.splits = w.splits ∧ x.sregs = w.sregs ∧ x.preds = w.preds ∧
      (∀ j l, l < 32 → x.vec j l = if k ≤ j ∧ j < k + n ∧ bit m l = true then nthD (f l) (j - k) 0 else w.vec j l) ∧
      (∀ code, x.label code = if k ≤ code ∧ code < k + n then labelRule w m code lbl else w.label code) := by
  induction n with
  | zero =>
    refine ⟨rfl, rfl, rfl, rfl, rfl, ?_, ?_⟩
    · intro j l _
      rw [if_neg (by omega)]
      rfl
    · intro code
      rw [if_neg (by omega)]
      rfl
  | succ n ih =>
    intro x
    have hx : x = (((List.range n).foldl (fun w i => (w.setVec (k + i) m fun l => nthD (f l) i 0).setLabel (k + i) m lbl) w).setVec
        (k + n) m fun l => nthD (f l) n 0).setLabel (k + n) m lbl := by
      simp only [x, List.range_succ, List.foldl_append, List.foldl_cons, List.foldl_nil]
    clear_value x
    generalize (List.range n).foldl (fun w i => (w.setVec (k + i) m fun l => nthD (f l) i 0).setLabel (k + i) m lbl) w = y at ih hx
    obtain ⟨h1, h2, h3, h4, h5, hv, hl⟩ := ih
    subst hx
    refine ⟨h1, h2, h3, h4, h5, ?_, ?_⟩
    · intro j l hj
      refine (vec_setVec y (k + n) m (fun l => nthD (f l) n 0) j l hj).trans ?_
      by_cases h1 : j = k + n ∧ bit m l = true
      · obtain ⟨rfl, h2⟩ := h1
        rw [if_pos ⟨rfl, h2⟩, if_pos ⟨by omega, by omega, h2⟩]
        congr 1
        omega
      · rw [if_neg h1, hv j l hj]
        by_cases h3 : bit m l = true
        · have : j ≠ k + n := fun e => h1 ⟨e, h3⟩
          by_cases h4 : k ≤ j ∧ j < k + n
          · rw [if_pos ⟨h4.1, h4.2, h3⟩, if_pos ⟨h4.1, by omega, h3⟩]
          · rw [if_neg (fun x => h4 ⟨x.1, x.2.1⟩), if_neg (fun x => h4 ⟨x.1, by omega⟩)]
        · rw [if_neg (fun x => h3 x.2.2), if_neg (fun x => h3 x.2.2)]
    · intro code
      refine (label_setLabel (y.setVec (k + n) m fun l => nthD (f l) n 0) (k + n) m lbl code).trans ?_
      by_cases h6 : code = k + n
      · subst h6
        rw [if_pos rfl]
        have h7 := hl (k + n)
        rw [if_neg (by omega)] at h7
        refine Eq.trans (b := labelRule w m (k + n) lbl) ?_ (if_pos ⟨by omega, by omega⟩).symm
        exact labelRule_congr (w := w) (x := y.setVec (k + n) m fun l => nthD (f l) n 0) h1 h7
      · rw [if_neg h6]
        refine (hl code).trans ?_
        by_cases h7 : k ≤ code ∧ code < k + n
        · rw [if_pos h7, if_pos ⟨h7.1, by omega⟩]
        · rw [if_neg h7, if_neg (by omega)]

theorem writeScalar_spec (w : Wave) (k n low : Nat) (m : Mask) (f : Nat → List Word) (lbl : Label) :
    let x := (List.range n).foldl (fun w i => (w.setScalar (k + i) (nthD (f low) i 0)).setLabel (256 + k + i) m lbl) w
    x.rest = w.rest ∧ x.id = w.id ∧ x.splits = w.splits ∧ x.vregs = w.vregs ∧ x.preds = w.preds ∧
      (∀ j, x.scalar j = if k ≤ j ∧ j < k + n then nthD (f low) (j - k) 0 else w.scalar j) ∧
      (∀ code, x.label code = if 256 + k ≤ code ∧ code < 256 + k + n then labelRule w m code lbl else w.label code) := by
  induction n with
  | zero =>
    refine ⟨rfl, rfl, rfl, rfl, rfl, ?_, ?_⟩
    · intro j
      rw [if_neg (by omega)]
      rfl
    · intro code
      rw [if_neg (by omega)]
      rfl
  | succ n ih =>
    intro x
    have hx : x = (((List.range n).foldl (fun w i => (w.setScalar (k + i) (nthD (f low) i 0)).setLabel (256 + k + i) m lbl) w).setScalar
        (k + n) (nthD (f low) n 0)).setLabel (256 + k + n) m lbl := by
      simp only [x, List.range_succ, List.foldl_append, List.foldl_cons, List.foldl_nil]
    clear_value x
    generalize (List.range n).foldl (fun w i => (w.setScalar (k + i) (nthD (f low) i 0)).setLabel (256 + k + i) m lbl) w = y at ih hx
    obtain ⟨h1, h2, h3, h4, h5, hv, hl⟩ := ih
    subst hx
    refine ⟨h1, h2, h3, h4, h5, ?_, ?_⟩
    · intro j
      refine (scalar_setScalar y (k + n) (nthD (f low) n 0) j).trans ?_
      by_cases h6 : j = k + n
      · subst h6
        rw [if_pos rfl, if_pos ⟨by omega, by omega⟩]
        congr 1
        omega
      · rw [if_neg h6, hv j]
        by_cases h7 : k ≤ j ∧ j < k + n
        · rw [if_pos h7, if_pos ⟨h7.1, by omega⟩]
        · rw [if_neg h7, if_neg (by omega)]
    · intro code
      refine (label_setLabel (y.setScalar (k + n) (nthD (f low) n 0)) (256 + k + n) m lbl code).trans ?_
      by_cases h6 : code = 256 + k + n
      · subst h6
        rw [if_pos rfl]
        have h7 := hl (256 + k + n)
        rw [if_neg (by omega)] at h7
        refine Eq.trans (b := labelRule w m (256 + k + n) lbl) ?_ (if_pos ⟨by omega, by omega⟩).symm
        exact labelRule_congr (w := w) (x := y.setScalar (k + n) (nthD (f low) n 0)) h1 h7
      · rw [if_neg h6]
        refine (hl code).trans ?_
        by_cases h7 : 256 + k ≤ code ∧ code < 256 + k + n
        · rw [if_pos h7, if_pos ⟨h7.1, by omega⟩]
        · rw [if_neg h7, if_neg (by omega)]

/-! ## Held registers -/

/-- The module without its elements. -/
def State.noElems (s : State) : State := { s with elems := [] }

/-- An element with some held registers changed. -/
def heldOnly (el el' : Elem) (k n : Nat) : Prop :=
  el'.rest = el.rest ∧
    ∀ m, ¬ (k ≤ m ∧ m < k + n) → mgetD el'.vals m 0 = mgetD el.vals m 0 ∧ mgetD el'.vlabels m 0 = mgetD el.vlabels m 0

theorem heldOnly_refl (el : Elem) (k n : Nat) : heldOnly el el k n := ⟨rfl, fun _ _ => ⟨rfl, rfl⟩⟩

theorem heldOnly_trans {a b d : Elem} {k n : Nat} (h1 : heldOnly a b k n) (h2 : heldOnly b d k n) : heldOnly a d k n := by
  exact ⟨h2.1.trans h1.1, fun m hm => ⟨(h2.2 m hm).1.trans (h1.2 m hm).1, (h2.2 m hm).2.trans (h1.2 m hm).2⟩⟩

theorem writeHeld_frame (s : State) (c : Ctx) (k n j l : Nat) (hj : k ≤ j ∧ j < k + n) (v : Word) (lbl : Label) :
    (writeHeld s c j l v lbl).noElems = s.noElems ∧
      ∀ id el, mget? s.elems id = some el → ∃ el', mget? (writeHeld s c j l v lbl).elems id = some el' ∧ heldOnly el el' k n ∧
        (mget? c.w.elems l ≠ some id → el' = el) := by
  unfold writeHeld
  split
  · exact ⟨rfl, fun id el h => ⟨el, h, heldOnly_refl el k n, fun _ => rfl⟩⟩
  · split
    · exact ⟨rfl, fun id el h => ⟨el, h, heldOnly_refl el k n, fun _ => rfl⟩⟩
    · split
      · exact ⟨rfl, fun id el h => ⟨el, h, heldOnly_refl el k n, fun _ => rfl⟩⟩
      · split
        · exact ⟨rfl, fun id el h => ⟨el, h, heldOnly_refl el k n, fun _ => rfl⟩⟩
        · refine ⟨rfl, fun id el h => ?_⟩
          rename_i id0 hid _ el0 hel _ _ q _ _
          dsimp only
          by_cases he : id = id0
          · subst he
            rw [hel] at h
            cases h
            refine ⟨_, mget?_mset_self _ _ _, ⟨rfl, fun m hm => ?_⟩, fun hne => absurd hid hne⟩
            have : m ≠ j := fun e => hm (e ▸ hj)
            constructor <;> rw [mgetD_mput, if_neg this]
          · exact ⟨el, (mget?_mset_ne _ _ he).trans h, heldOnly_refl el k n, fun _ => rfl⟩

theorem writeHeld_value {s : State} {c : Ctx} {j l id p q : Nat} {el : Elem} (v : Word) (lbl : Label)
    (hid : mget? c.w.elems l = some id) (hel : mget? s.elems id = some el) (hs : sectionOf c.ent j = some (p, q)) (hr : q ∉ el.released) :
    ∃ el', mget? (writeHeld s c j l v lbl).elems id = some el' ∧ el'.released = el.released ∧
      ∀ m, mgetD el'.vals m 0 = (if m = j then v else mgetD el.vals m 0) ∧
        mgetD el'.vlabels m 0 = (if m = j then lbl ||| c.sp.ctx else mgetD el.vlabels m 0) := by
  unfold writeHeld
  rw [hid]
  dsimp only
  rw [hel]
  dsimp only
  rw [hs]
  dsimp only
  rw [if_neg hr]
  refine ⟨_, mget?_mset_self _ _ _, rfl, fun m => ⟨mgetD_mput _ _ _ _ _, mgetD_mput _ _ _ _ _⟩⟩

/-- One lane's held registers written. -/
def writeHeldLane (c : Ctx) (k n : Nat) (f : Nat → List Word) (lbl : Label) (s : State) (l : Nat) : State :=
  (List.range n).foldl (fun s i => writeHeld s c (k + i) l (nthD (f l) i 0) lbl) s

theorem writeHeldLane_frame (c : Ctx) (k n n' : Nat) (hn : n ≤ n') (f : Nat → List Word) (lbl : Label) (s : State) (l : Nat) :
    (writeHeldLane c k n f lbl s l).noElems = s.noElems ∧
      ∀ id el, mget? s.elems id = some el → ∃ el', mget? (writeHeldLane c k n f lbl s l).elems id = some el' ∧ heldOnly el el' k n' ∧
        (mget? c.w.elems l ≠ some id → el' = el) := by
  unfold writeHeldLane
  induction n with
  | zero => exact ⟨rfl, fun id el h => ⟨el, h, heldOnly_refl el k n', fun _ => rfl⟩⟩
  | succ n ih =>
    obtain ⟨h1, h2⟩ := ih (by omega)
    rw [List.range_succ, List.foldl_append]
    simp only [List.foldl_cons, List.foldl_nil]
    generalize (List.range n).foldl (fun s i => writeHeld s c (k + i) l (nthD (f l) i 0) lbl) s = s1 at h1 h2
    obtain ⟨h3, h4⟩ := writeHeld_frame s1 c k n' (k + n) l ⟨by omega, by omega⟩ (nthD (f l) n 0) lbl
    refine ⟨?_, fun id el h => ?_⟩
    · exact h3.trans h1
    · obtain ⟨e1, a1, b1, d1⟩ := h2 id el h
      obtain ⟨e2, a2, b2, d2⟩ := h4 id e1 a1
      exact ⟨e2, a2, heldOnly_trans b1 b2, fun hne => (d2 hne).trans (d1 hne)⟩

theorem writeHeldLane_value (c : Ctx) (k n : Nat) (f : Nat → List Word) (lbl : Label) (s : State) {l id : Nat} {el : Elem}
    (hid : mget? c.w.elems l = some id) (hel : mget? s.elems id = some el) :
    ∃ el', mget? (writeHeldLane c k n f lbl s l).elems id = some el' ∧ el'.released = el.released ∧
      ∀ i p q, i < n → sectionOf c.ent (k + i) = some (p, q) → q ∉ el.released →
        mgetD el'.vals (k + i) 0 = nthD (f l) i 0 ∧ mgetD el'.vlabels (k + i) 0 = lbl ||| c.sp.ctx := by
  unfold writeHeldLane
  induction n with
  | zero => exact ⟨el, hel, rfl, fun i _ _ h => absurd h (by omega)⟩
  | succ n ih =>
    obtain ⟨e1, a1, r1, v1⟩ := ih
    rw [List.range_succ, List.foldl_append]
    simp only [List.foldl_cons, List.foldl_nil]
    generalize (List.range n).foldl (fun s i => writeHeld s c (k + i) l (nthD (f l) i 0) lbl) s = s1 at a1
    cases hs : sectionOf c.ent (k + n) with
    | none =>
      refine ⟨e1, ?_, r1, fun i p q hi hsi hq => ?_⟩
      · unfold writeHeld
        rw [hid]
        dsimp only
        rw [a1]
        dsimp only
        rw [hs]
        exact a1
      · have : i ≠ n := fun e => by subst e; rw [hs] at hsi; cases hsi
        exact v1 i p q (by omega) hsi hq
    | some pq =>
      obtain ⟨p0, q0⟩ := pq
      by_cases hq0 : q0 ∈ e1.released
      · refine ⟨e1, ?_, r1, fun i p q hi hsi hq => ?_⟩
        · unfold writeHeld
          rw [hid]
          dsimp only
          rw [a1]
          dsimp only
          rw [hs]
          dsimp only
          rw [if_pos hq0]
          exact a1
        · have : i ≠ n := fun e => by
            subst e
            rw [hs] at hsi
            cases hsi
            exact hq (r1 ▸ hq0)
          exact v1 i p q (by omega) hsi hq
      · obtain ⟨e2, a2, r2, v2⟩ := writeHeld_value (nthD (f l) n 0) lbl hid a1 hs hq0
        refine ⟨e2, a2, r2.trans r1, fun i p q hi hsi hq => ?_⟩
        by_cases hin : i = n
        · subst hin
          exact ⟨((v2 (k + i)).1).trans (if_pos rfl), ((v2 (k + i)).2).trans (if_pos rfl)⟩
        · have := v1 i p q (by omega) hsi hq
          exact ⟨((v2 (k + i)).1.trans (if_neg (by omega))).trans this.1, ((v2 (k + i)).2.trans (if_neg (by omega))).trans this.2⟩

theorem writeHeldLanes_frame (c : Ctx) (k n : Nat) (f : Nat → List Word) (lbl : Label) (ls : List Nat) (s : State) :
    (ls.foldl (writeHeldLane c k n f lbl) s).noElems = s.noElems ∧
      ∀ id el, mget? s.elems id = some el → ∃ el', mget? (ls.foldl (writeHeldLane c k n f lbl) s).elems id = some el' ∧ heldOnly el el' k n ∧
        ((∀ l ∈ ls, mget? c.w.elems l ≠ some id) → el' = el) := by
  induction ls generalizing s with
  | nil => exact ⟨rfl, fun id el h => ⟨el, h, heldOnly_refl el k n, fun _ => rfl⟩⟩
  | cons x xs ih =>
    obtain ⟨h1, h2⟩ := writeHeldLane_frame c k n n (Nat.le_refl n) f lbl s x
    obtain ⟨h3, h4⟩ := ih (writeHeldLane c k n f lbl s x)
    simp only [List.foldl_cons]
    refine ⟨?_, fun id el h => ?_⟩
    · exact h3.trans h1
    · obtain ⟨e1, a1, b1, d1⟩ := h2 id el h
      obtain ⟨e2, a2, b2, d2⟩ := h4 id e1 a1
      exact ⟨e2, a2, heldOnly_trans b1 b2, fun hne => (d2 fun l hl => hne l (List.mem_cons_of_mem _ hl)).trans (d1 (hne x List.mem_cons_self))⟩

theorem writeHeldLanes_value (c : Ctx) (k n : Nat) (f : Nat → List Word) (lbl : Label) (ls : List Nat) (s : State) {l id : Nat} {el : Elem}
    (hl : l ∈ ls) (hid : mget? c.w.elems l = some id) (hel : mget? s.elems id = some el)
    (huniq : ∀ l' ∈ ls, mget? c.w.elems l' = some id → l' = l) :
    ∃ el', mget? (ls.foldl (writeHeldLane c k n f lbl) s).elems id = some el' ∧
      ∀ i p q, i < n → sectionOf c.ent (k + i) = some (p, q) → q ∉ el.released →
        mgetD el'.vals (k + i) 0 = nthD (f l) i 0 ∧ mgetD el'.vlabels (k + i) 0 = lbl ||| c.sp.ctx := by
  induction ls generalizing s el with
  | nil => cases hl
  | cons x xs ih =>
    simp only [List.foldl_cons]
    obtain ⟨_, h2⟩ := writeHeldLane_frame c k n n (Nat.le_refl n) f lbl s x
    by_cases hx : l ∈ xs
    · obtain ⟨e1, a1, b1, _⟩ := h2 id el hel
      obtain ⟨e2, a2, v2⟩ := ih _ hx a1 (fun l' h' => huniq l' (List.mem_cons_of_mem _ h'))
      refine ⟨e2, a2, fun i p q hi hs hq => v2 i p q hi hs ?_⟩
      have h : e1.released = el.released := by have := congrArg Elem.released b1.1; exact this
      rwa [h]
    · have hlx : l = x := by
        cases hl with
        | head => rfl
        | tail _ h => exact absurd h hx
      subst hlx
      obtain ⟨e1, a1, r1, v1⟩ := writeHeldLane_value c k n f lbl s hid hel
      obtain ⟨_, h4⟩ := writeHeldLanes_frame c k n f lbl xs (writeHeldLane c k n f lbl s l)
      obtain ⟨e2, a2, _, d2⟩ := h4 id e1 a1
      have : e2 = e1 := d2 (fun l' hl' he => hx (huniq l' (List.mem_cons_of_mem _ hl') he ▸ hl'))
      subst this
      exact ⟨e2, a2, v1⟩

/-! ## The destination as a whole -/

theorem theWave_putWave (s : State) (c : Ctx) (w : Wave) (h : w.id = c.w.id) : theWave (putWave s w) c = w := by
  simp [theWave, mgetD_mset, h]

theorem wave_of_theWave {s : State} {c : Ctx} (h : mget? s.waves c.w.id = some c.w) : theWave s c = c.w :=
  mgetD_eq_of_mget? _ h

theorem elem_refl (s : State) (c : Ctx) (d : Opr) (n : Nat) : ∀ id el, mget? s.elems id = some el → ∃ el', mget? s.elems id = some el' ∧
    el'.rest = el.rest ∧
    (∀ m, ¬ Names d n (192 + m) → mgetD el'.vals m 0 = mgetD el.vals m 0 ∧ mgetD el'.vlabels m 0 = mgetD el.vlabels m 0) ∧
    ((∀ l, bit c.act l = true → mget? c.w.elems l ≠ some id) → el' = el) :=
  fun _ el h => ⟨el, h, rfl, fun _ _ => ⟨rfl, rfl⟩, fun _ => rfl⟩

theorem readLoc_congr {s t : State} (h1 : t.mem = s.mem) (h2 : t.pod = s.pod) (h3 : t.host = s.host) (h4 : t.scratch = s.scratch) (l : Loc) :
    readLoc t l = readLoc s l := by
  cases l <;> simp [readLoc, h1, h2, h3, h4]

theorem readLoc_of_rest {s t : State} (h : t.rest = s.rest) (l : Loc) : readLoc t l = readLoc s l := by
  refine readLoc_congr ?_ ?_ ?_ ?_ l
  · have := congrArg State.mem h; exact this
  · have := congrArg State.pod h; exact this
  · have := congrArg State.host h; exact this
  · have := congrArg State.scratch h; exact this

/-- A frame from a wave put back with new registers. -/
theorem putWave_frame {s : State} {c : Ctx} (d : Opr) (n : Nat) (x : Wave) (hr : x.rest = c.w.rest) (hid : x.id = c.w.id)
    (vec : ∀ m l, l < 32 → ¬ (m < 192 ∧ Names d n m ∧ bit c.act l = true) → m < 192 → x.vec m l = c.w.vec m l)
    (scalar : ∀ m, m < 64 → ¬ Names d n (256 + m) → x.scalar m = c.w.scalar m)
    (pred : ∀ p l, p < 8 → ¬ (Names d n (320 + p) ∧ bit c.act l = true) → bit (x.pred p) l = bit (c.w.pred p) l)
    (label : ∀ code, ¬ Names d n code → x.label code = c.w.label code) : RegFrame s (putWave s x) c d n := by
  have h := theWave_putWave s c x hid
  refine ⟨readLoc_congr rfl rfl rfl rfl, rfl, fun _ h => h, ?_, ⟨x, ?_, hr⟩, ?_, ?_, ?_, ?_, fun _ => rfl, elem_refl s c d n⟩
  · intro j hj
    exact mget?_mset_ne _ _ (hid ▸ hj)
  · rw [← hid]
    exact mget?_mset_self _ _ _
  all_goals rw [h]; assumption

theorem writeDst_spec {s : State} {c : Ctx} (hw : mget? s.waves c.w.id = some c.w) (d : Opr) (n : Nat) (f : Nat → List Word) (lbl : Label) :
    Wrote s (writeDst s c d n f lbl) c d n f lbl ∧ RegFrame s (writeDst s c d n f lbl) c d n := by
  have htw := wave_of_theWave hw
  cases d with
  | v k =>
    have hx := writeVec_spec c.w k.val n c.act f lbl
    simp only [writeDst, htw]
    generalize (List.range n).foldl (fun w i => (w.setVec (k.val + i) c.act fun l => nthD (f l) i 0).setLabel (k.val + i) c.act lbl) c.w = x at hx
    obtain ⟨h1, h2, _, h4, h5, hv, hl⟩ := hx
    constructor
    · intro i hi
      rw [theWave_putWave s c x h2]
      constructor
      · intro l hb
        rw [hv _ _ (bit_lt hb), if_pos ⟨by omega, by omega, hb⟩]
        congr 1
        omega
      · rw [hl, if_pos ⟨by omega, by omega⟩]
        rfl
    · refine putWave_frame _ n x h1 h2 ?_ ?_ ?_ ?_
      · intro m l hl32 hn hm
        rw [hv _ _ hl32, if_neg]
        intro h
        exact hn ⟨hm, ⟨h.1, h.2.1⟩, h.2.2⟩
      · intro m _ _
        unfold Wave.scalar
        rw [h4]
      · intro p l _ _
        unfold Wave.pred
        rw [h5]
      · intro code hc
        rw [hl, if_neg]
        exact hc
  | s k =>
    have hx := writeScalar_spec c.w k.val n c.low c.act f lbl
    simp only [writeDst, htw]
    generalize (List.range n).foldl (fun w i => (w.setScalar (k.val + i) (nthD (f c.low) i 0)).setLabel (256 + k.val + i) c.act lbl) c.w = x at hx
    obtain ⟨h1, h2, _, h4, h5, hv, hl⟩ := hx
    constructor
    · intro i hi
      rw [theWave_putWave s c x h2]
      constructor
      · rw [hv, if_pos ⟨by omega, by omega⟩]
        congr 1
        omega
      · rw [hl, if_pos ⟨by omega, by omega⟩]
        rfl
    · refine putWave_frame _ n x h1 h2 ?_ ?_ ?_ ?_
      · intro m l _ _ _
        unfold Wave.vec
        rw [h4]
      · intro m _ hn
        rw [hv, if_neg]
        intro h
        exact hn ⟨by simp only [Opr.code]; omega, by simp only [Opr.code]; omega⟩
      · intro p l _ _
        unfold Wave.pred
        rw [h5]
      · intro code hc
        rw [hl, if_neg]
        exact hc
  | p k =>
    simp only [writeDst, htw]
    have hset : ∀ g : Nat → Bool, (c.w.setPred k.val c.act g).rest = c.w.rest ∧ (c.w.setPred k.val c.act g).id = c.w.id ∧
        (c.w.setPred k.val c.act g).vregs = c.w.vregs ∧ (c.w.setPred k.val c.act g).sregs = c.w.sregs ∧
        (c.w.setPred k.val c.act g).labels = c.w.labels ∧ (k.val = 0 → c.w.setPred k.val c.act g = c.w) := by
      intro g
      unfold Wave.setPred
      split
      · exact ⟨rfl, rfl, rfl, rfl, rfl, fun _ => rfl⟩
      · exact ⟨rfl, rfl, rfl, rfl, rfl, fun h => absurd h ‹_›⟩
    obtain ⟨h1, h2, h3, h4, h5, h6⟩ := hset fun l => nthD (f l) 0 0 != 0
    have hp := pred_setPred c.w k.val c.act fun l => nthD (f l) 0 0 != 0
    generalize (c.w.setPred k.val c.act fun l => nthD (f l) 0 0 != 0) = y at h1 h2 h3 h4 h5 h6 hp
    have hyl : ∀ code, y.label code = c.w.label code := fun code => by unfold Wave.label; rw [h5]
    have hlab := label_setLabel y (320 + k.val) c.act lbl
    constructor
    · rw [Wrote, theWave_putWave s c _ (show (y.setLabel (320 + k.val) c.act lbl).id = c.w.id from h2)]
      constructor
      · intro l hb hk
        refine (hp k.val l (bit_lt hb) hk).trans ?_
        rw [if_pos ⟨rfl, hb⟩]
        simp [bne, BEq.beq]
      · rw [hlab, if_pos rfl]
        exact labelRule_congr (w := c.w) h1 (hyl _)
    · refine putWave_frame _ n _ h1 h2 ?_ ?_ ?_ ?_
      · intro m l _ _ _
        show y.vec m l = _
        unfold Wave.vec
        rw [h3]
      · intro m _ _
        show y.scalar m = _
        unfold Wave.scalar
        rw [h4]
      · intro q l _ hn
        show bit (y.pred q) l = _
        by_cases hk : k.val = 0
        · rw [h6 hk]
        · by_cases hl32 : l < 32
          · rw [hp q l hl32 hk, if_neg]
            intro h
            exact hn ⟨by show 320 + q = 320 + k.val; omega, h.2⟩
          · have h7 : ∀ m : Mask, bit m l = false := fun m => by
              cases hb : bit m l with
              | false => rfl
              | true => exact absurd (bit_lt hb) hl32
            rw [h7, h7]
      · intro code hc
        rw [hlab, if_neg]
        · exact hyl code
        · exact fun e => hc e
  | h k =>
    have hstate : writeDst s c (.h k) n f lbl = (lanesOf c.act).foldl (writeHeldLane c k.val n f lbl) s := rfl
    rw [hstate]
    obtain ⟨h1, h2⟩ := writeHeldLanes_frame c k.val n f lbl (lanesOf c.act) s
    have hv := fun (l id : Nat) (el : Elem) (a : l ∈ lanesOf c.act) b d e =>
      writeHeldLanes_value (id := id) (el := el) c k.val n f lbl (lanesOf c.act) s a b d e
    generalize (lanesOf c.act).foldl (writeHeldLane c k.val n f lbl) s = t at h1 h2 hv
    have hwaves : t.waves = s.waves := by have := congrArg State.waves h1; exact this
    have htw' : theWave t c = c.w := by
      unfold theWave
      rw [hwaves]
      exact htw
    constructor
    · intro i hi l id el p q hb hid hel hu hs hr
      obtain ⟨el', a, b⟩ := hv l id el (mem_lanesOf.mpr hb) hid hel (fun l' hl' h => hu l' (mem_lanesOf.mp hl') h)
      exact ⟨el', a, b i p q hi hs hr⟩
    · refine ⟨readLoc_congr ?_ ?_ ?_ ?_, ?_, ?_, ?_, ⟨c.w, ?_, rfl⟩, ?_, ?_, ?_, ?_, ?_, ?_⟩
      · have := congrArg State.mem h1; exact this
      · have := congrArg State.pod h1; exact this
      · have := congrArg State.host h1; exact this
      · have := congrArg State.scratch h1; exact this
      · have := congrArg State.rest h1; exact this
      · have h3 : t.soft = s.soft := by have := congrArg State.soft h1; exact this
        rw [h3]
        exact fun _ h => h
      · intro j _
        rw [hwaves]
      · rw [hwaves]
        exact hw
      all_goals (try rw [htw'])
      · exact fun _ _ _ _ _ => rfl
      · exact fun _ _ _ => rfl
      · exact fun _ _ _ _ => rfl
      · exact fun _ _ => rfl
      · intro hne
        exact absurd rfl (hne k)
      · intro id el hel
        obtain ⟨el', a, b, d⟩ := h2 id el hel
        refine ⟨el', a, b.1, fun m hm => b.2 m ?_, fun hne => d fun l hl => hne l (mem_lanesOf.mp hl)⟩
        intro hk
        exact hm ⟨by simp only [Opr.code]; omega, by simp only [Opr.code]; omega⟩
  | c k =>
    refine ⟨trivial, readLoc_congr rfl rfl rfl rfl, rfl, fun _ h => h, fun _ _ => rfl, ⟨c.w, hw, rfl⟩, ?_, ?_, ?_, ?_, fun _ => rfl, elem_refl s c _ n⟩
    all_goals
      simp only [writeDst, htw]
      intros
      trivial

/-! ## Advancing keeps what was written -/

theorem rest_of_data {w x : Wave} (h : x.data = w.data) : x.rest = w.rest := by
  unfold Wave.rest
  rw [h]

theorem advance_frame {s t : State} {c : Ctx} {d : Opr} {n : Nat} {f : Nat → List Word} {lbl : Label} (i : Instr) (b : Bool)
    (h : Wrote s t c d n f lbl ∧ RegFrame s t c d n) :
    Wrote s (advance (clearSoft t c i) c b) c d n f lbl ∧ RegFrame s (advance (clearSoft t c i) c b) c d n := by
  obtain ⟨hW, hF⟩ := h
  obtain ⟨w0, hw0, hr0⟩ := hF.wave
  obtain ⟨hs1, hs2⟩ := clearSoft_eq t c i
  have htw : theWave t c = w0 := mgetD_eq_of_mget? _ hw0
  have hcw : theWave (clearSoft t c i) c = w0 := by
    unfold theWave
    rw [clearSoft_waves]
    exact mgetD_eq_of_mget? _ hw0
  have hid : w0.id = c.w.id := by have := congrArg Wave.id hr0; exact this
  obtain ⟨x, hx1, hx2, hx3⟩ := advance_spec (clearSoft t c i) c b
  rw [hcw] at hx1 hx2 hx3
  have hu : ∃ u, advance (clearSoft t c i) c b = u ∧ u.rest = t.rest ∧ u.elems = t.elems ∧ (∀ m, m ∈ u.soft → m ∈ t.soft) ∧
      (∀ j, j ≠ c.w.id → mget? u.waves j = mget? t.waves j) ∧ mget? u.waves c.w.id = some x := by
    rcases hx3 with h | ⟨h, e⟩
    · refine ⟨_, h, ?_, ?_, ?_, ?_, ?_⟩
      · rw [hs1]
        rfl
      · rw [hs1]
        rfl
      · exact hs2
      · intro j hj
        rw [putWave_waves, mget?_mset_ne _ _ (by rw [hx2, hid]; exact hj), clearSoft_waves]
      · rw [putWave_waves, hx2, hid]
        exact mget?_mset_self _ _ _
    · refine ⟨_, h, ?_, ?_, hs2, ?_, ?_⟩
      · rw [hs1]
        rfl
      · rw [hs1]
      · intro j _
        rw [clearSoft_waves]
      · rw [clearSoft_waves, e]
        exact hw0
  obtain ⟨u, he, hu1, hu2, hu3, hu4, hu5⟩ := hu
  rw [he]
  clear he hx3 hs1 hs2 hcw
  have huw : theWave u c = x := mgetD_eq_of_mget? _ hu5
  have hvec : ∀ m l, (theWave u c).vec m l = (theWave t c).vec m l := by
    intro m l
    rw [huw, htw]
    have h : x.vregs = w0.vregs := by have := congrArg Wave.vregs hx1; exact this
    unfold Wave.vec
    rw [h]
  have hsc : ∀ m, (theWave u c).scalar m = (theWave t c).scalar m := by
    intro m
    rw [huw, htw]
    have h : x.sregs = w0.sregs := by have := congrArg Wave.sregs hx1; exact this
    unfold Wave.scalar
    rw [h]
  have hpr : ∀ m, (theWave u c).pred m = (theWave t c).pred m := by
    intro m
    rw [huw, htw]
    have h : x.preds = w0.preds := by have := congrArg Wave.preds hx1; exact this
    unfold Wave.pred
    rw [h]
  have hlb : ∀ m, (theWave u c).label m = (theWave t c).label m := by
    intro m
    rw [huw, htw]
    have h : x.labels = w0.labels := by have := congrArg Wave.labels hx1; exact this
    unfold Wave.label
    rw [h]
  constructor
  · cases d with
    | v k =>
      intro i hi
      have := hW i hi
      rw [hlb]
      exact ⟨fun l hb => (hvec _ _).trans (this.1 l hb), this.2⟩
    | s k =>
      intro i hi
      rw [hlb, hsc]
      exact hW i hi
    | p k =>
      have h := hW
      simp only [Wrote] at h ⊢
      rw [hlb, hpr]
      exact h
    | h k =>
      intro i hi l id el p q a1 a2 a3 a4 a5 a6
      rw [hu2]
      exact hW i hi l id el p q a1 a2 a3 a4 a5 a6
    | c k => trivial
  · refine ⟨fun l => (readLoc_of_rest hu1 l).trans (hF.memory l), hu1.trans hF.rest, fun m hm => hF.soft m (hu3 m hm),
      fun j hj => (hu4 j hj).trans (hF.others j hj), ⟨x, hu5, (rest_of_data hx1).trans hr0⟩, ?_, ?_, ?_, ?_, ?_, ?_⟩
    · exact fun m l a1 a2 a3 => (hvec m l).trans (hF.vec m l a1 a2 a3)
    · exact fun m a1 a2 => (hsc m).trans (hF.scalar m a1 a2)
    · intro p l a1 a2
      rw [hpr]
      exact hF.pred p l a1 a2
    · exact fun code a1 => (hlb code).trans (hF.label code a1)
    · exact fun hd => hu2.trans (hF.elems hd)
    · intro id el hel
      rw [hu2]
      exact hF.elem id el hel

/-! ## Instruction words that write registers -/

/-- What `runAlu` does where it runs: it completes, its destination holds its words and their label, and nothing else changes. -/
theorem runAlu_spec {i : Instr} {s : State} {c : Ctx} (h : Ready i s c) (d : Opr) (n : Nat) (f : Ctx → Nat → List Word) :
    ∃ t, runAlu i s d n f = .next t ∧ Wrote s t c d n (f c) (resultLabel s c i) ∧ RegFrame s t c d n := by
  refine ⟨_, runWord_ok h rfl, ?_⟩
  exact advance_frame i i.closes (writeDst_spec (ready_spec h).1 d n (f c) _)

/-- The same for any body whose effect is a write of a destination. -/
theorem runWord_spec {i : Instr} {s : State} {c : Ctx} (h : Ready i s c) {d : Opr} {n : Nat} {f : Nat → List Word} {lbl : Label}
    {body : Ctx → Except Halt State} (hb : body c = .ok (writeDst s c d n f lbl)) :
    ∃ t, runWord i s body = .next t ∧ Wrote s t c d n f lbl ∧ RegFrame s t c d n := by
  refine ⟨_, runWord_ok h hb, ?_⟩
  exact advance_frame i i.closes (writeDst_spec (ready_spec h).1 d n f _)

end Sys2Proof.Machine
end

