-- ==== Sys2Proof/Laws/Words.lean ====
section
/-! SUPPORT. What the common part of every instruction word leaves: the advance of its split, its completion, and the issue of a long-latency access. -/
namespace Sys2Proof.Machine

/-- A split that does not stand at its reconvergence address stays where it is. -/
theorem settle_stay (fuel : Nat) (w : Wave) (k : Nat) (sp : Split) (h : sp.pc.idx ≠ 0 ∨ sp.rcv ≠ some sp.pc.hdr) :
    settle fuel (w.setSplit k sp) k = w.setSplit k sp := by
  cases fuel with
  | zero => rfl
  | succ n =>
    unfold settle
    rw [show mget? (w.setSplit k sp).splits k = some sp from mget?_mset_self _ _ _]
    dsimp only
    rw [if_neg]
    rintro ⟨h1, h2, -⟩
    rcases h with h | h
    · exact h h1
    · exact h h2

theorem split_setSplit (w : Wave) (k : Nat) (sp : Split) : (w.setSplit k sp).split k = sp := by
  simp [Wave.split, Wave.setSplit, mgetD_mset]

@[simp] theorem regionAt_mask (w : Wave) (k : Nat) (sp : Split) (p : Pos) : (w.regionAt k sp p).mask = sp.mask := by
  unfold Wave.regionAt
  split <;> rfl

@[simp] theorem regionAt_rcv (w : Wave) (k : Nat) (sp : Split) (p : Pos) : (w.regionAt k sp p).rcv = sp.rcv := by
  unfold Wave.regionAt
  split <;> rfl

theorem upToPosition_refl (u : State) (c : Ctx) : UpToPosition u u c :=
  ⟨fun _ => rfl, rfl, rfl, fun _ h => h, fun _ _ => rfl, rfl⟩

theorem clearSoft_upTo (u : State) (c : Ctx) (i : Instr) : UpToPosition u (clearSoft u c i) c := by
  obtain ⟨h1, h2⟩ := clearSoft_eq u c i
  have hw : theWave (clearSoft u c i) c = theWave u c := by simp [theWave]
  refine ⟨fun l => ?_, ?_, ?_, h2, ?_, by rw [hw]⟩
  · rw [h1]
    exact readLoc_congr rfl rfl rfl rfl l
  · rw [h1]
    rfl
  · rw [h1]
  · intro j _
    rw [clearSoft_waves]

theorem upToPosition_trans {u v t : State} {c : Ctx} (h : UpToPosition u v c) (k : UpToPosition v t c) : UpToPosition u t c :=
  ⟨fun l => (k.memory l).trans (h.memory l), k.rest.trans h.rest, k.elems.trans h.elems, fun m hm => h.soft m (k.soft m hm),
    fun j hj => (k.others j hj).trans (h.others j hj), k.wave.trans h.wave⟩

/-- A wave put back that differs only in what reconvergence touches. -/
theorem putWave_upTo {u : State} {c : Ctx} {x : Wave} (hd : x.data = (theWave u c).data) (hid : x.id = c.w.id) :
    UpToPosition u (putWave u x) c := by
  refine ⟨fun l => readLoc_congr rfl rfl rfl rfl l, rfl, rfl, fun _ h => h, ?_, ?_⟩
  · intro j hj
    exact mget?_mset_ne _ _ (hid ▸ hj)
  · rw [theWave_putWave _ _ _ hid, hd]

theorem data_id {w x : Wave} (h : x.data = w.data) : x.id = w.id := by
  have := congrArg Wave.id h
  exact this

theorem advance_upTo (u : State) (c : Ctx) (b : Bool) (hid : (theWave u c).id = c.w.id) :
    UpToPosition u (advance u c b) c ∧ Stands u (advance u c b) c (nextPos c.pos c.hdr) := by
  unfold advance
  dsimp only
  split
  · rename_i h
    refine ⟨upToPosition_refl u c, ?_⟩
    intro sp hsp
    rw [h] at hsp
    cases hsp
  · rename_i sp hsp
    have hd := settle_data settleFuel ((theWave u c).setSplit c.k
      ((if b then (theWave u c).regionAt c.k sp (nextPos c.pos c.hdr) else sp).goto (nextPos c.pos c.hdr))) c.k
    rw [setSplit_data] at hd
    refine ⟨putWave_upTo hd ((data_id hd).trans hid), ?_⟩
    intro sp' hsp' hp
    rw [hsp] at hsp'
    cases hsp'
    rw [theWave_putWave _ _ _ ((data_id hd).trans hid)]
    have hs : settle settleFuel ((theWave u c).setSplit c.k
        ((if b then (theWave u c).regionAt c.k sp (nextPos c.pos c.hdr) else sp).goto (nextPos c.pos c.hdr))) c.k = _ :=
      settle_stay settleFuel (theWave u c) c.k _ (by
        cases b <;> simpa [Split.goto] using hp)
    rw [hs, split_setSplit]
    constructor
    · rfl
    · cases b <;> simp [Split.goto]

theorem runWord_does {i : Instr} {s u : State} {c : Ctx} {body : Ctx → Except Halt State} (h : Ready i s c) (hb : body c = .ok u)
    (hid : (theWave u c).id = c.w.id) :
    ∃ t, runWord i s body = .next t ∧ UpToPosition u t c ∧ Stands u t c (nextPos c.pos c.hdr) := by
  refine ⟨_, runWord_ok h hb, ?_⟩
  have hc := clearSoft_upTo u c i
  have hw : theWave (clearSoft u c i) c = theWave u c := by simp [theWave]
  obtain ⟨h1, h2⟩ := advance_upTo (clearSoft u c i) c i.closes (by rw [hw]; exact hid)
  refine ⟨upToPosition_trans hc h1, ?_⟩
  intro sp hsp
  exact h2 sp (by rw [hw]; exact hsp)

/-- An instruction word whose body gives an explicit wave. -/
theorem runWord_wave {i : Instr} {s s' : State} {c : Ctx} {body : Ctx → Except Halt State} {w : Wave} (h : Ready i s c)
    (hb : body c = .ok (putWave s' w)) (hid : w.id = c.w.id) :
    ∃ t, runWord i s body = .next t ∧ UpToPosition (putWave s' w) t c ∧ Stands (putWave s' w) t c (nextPos c.pos c.hdr) :=
  runWord_does h hb (by rw [theWave_putWave _ _ _ hid, hid])

theorem runWord_self {i : Instr} {s : State} {c : Ctx} {body : Ctx → Except Halt State} (h : Ready i s c) (hb : body c = .ok s) :
    ∃ t, runWord i s body = .next t ∧ UpToPosition s t c ∧ Stands s t c (nextPos c.pos c.hdr) :=
  runWord_does h hb (by rw [theWave_ready h])

/-! ## Moves -/

theorem moveSplit_data (w : Wave) (k : Nat) (p : Pos) : (moveSplit w k p).data = w.data := by
  unfold moveSplit
  rw [settle_data, setSplit_data]

theorem moveSplit_stands {w : Wave} {k : Nat} {p : Pos} (h : p.idx ≠ 0 ∨ (w.split k).rcv ≠ some p.hdr) :
    moveSplit w k p = w.setSplit k ((w.split k).goto p) := settle_stay _ _ _ _ h

theorem move_ends {s : State} {c : Ctx} {p : Pos} (hid : (theWave s c).id = c.w.id) :
    UpToPosition s (putWave s (moveSplit (theWave s c) c.k p)) c ∧ Stands s (putWave s (moveSplit (theWave s c) c.k p)) c p := by
  have hd := moveSplit_data (theWave s c) c.k p
  refine ⟨putWave_upTo hd ((data_id hd).trans hid), ?_⟩
  intro sp hsp hp
  rw [theWave_putWave _ _ _ ((data_id hd).trans hid)]
  have hs : (theWave s c).split c.k = sp := by simp [Wave.split, mgetD, hsp]
  rw [moveSplit_stands (by rw [hs]; exact hp), split_setSplit, hs]
  exact ⟨rfl, rfl⟩

/-! ## Stage 4 -/

theorem stage4_places (c : Ctx) (ls : List Nat) (t : Nat → Target) (place : Nat → Loc) (page : Nat → PageAttr) (a b : Label)
    (h : ∀ l ∈ ls, t l = .at (place l) (page l)) :
    stage4 c (ls.map fun l => (l, t l)) a b = .ok (ls.map fun l => (l, place l, page l)) := by
  have e : (ls.map fun l => (l, t l)) = ls.map fun l => (l, Target.at (place l) (page l)) :=
    List.map_congr_left fun l hl => by rw [h l hl]
  rw [e]
  unfold stage4
  simp [List.filterMap_map, minBy?]

/-! ## Issue of an access -/

theorem accessIssued_upTo {s u t : State} {c : Ctx} {es : List Entry} {o : LongOp} (h : AccessIssued s u c es o) (k : UpToPosition u t c) :
    AccessIssued s t c es o := by
  have hm : t.markers = u.markers := by have := congrArg State.markers k.rest; exact this
  have hs : t.scrLabels = u.scrLabels := by have := congrArg State.scrLabels k.rest; exact this
  have hp : (theWave t c).podSent = (theWave u c).podSent := by have := congrArg Wave.podSent k.wave; exact this
  refine ⟨fun l => (k.memory l).trans (h.memory l), ?_, k.elems.trans h.elems, fun j hj => (k.others j hj).trans (h.others j hj), ?_⟩
  · rw [k.rest, hm, hs]
    exact h.rest
  · rw [k.wave, hp]
    exact h.wave

theorem granuleOr_fields (s : State) (l : Loc) (lbl : Label) :
    granuleOr s l lbl = { s with scrLabels := (granuleOr s l lbl).scrLabels } := by
  unfold granuleOr
  split <;> rfl

theorem granules_fields (ls : List Nat) (place : Nat → Loc) (lbl : Label) (s : State) :
    ls.foldl (fun s l => granuleOr s (place l) lbl) s =
      { s with scrLabels := (ls.foldl (fun s l => granuleOr s (place l) lbl) s).scrLabels } := by
  induction ls generalizing s with
  | nil => rfl
  | cons x xs ih =>
    rw [List.foldl_cons, ih, granuleOr_fields]

/-- A wave with an entry at the end of its pending queue (R112). -/
def Wave.queued (w : Wave) (e : Entry) (ps : List Nat) : Wave :=
  { w with pending := w.pending ++ [e], nextEntry := w.nextEntry + 2, podSent := ps }

/-- The wave of an issued entry and the markers that it sends. -/
theorem submit_form {s : State} {c : Ctx} (hw : theWave s c = c.w) (kind : EntKind) (order : Order) (scope : Scope) (hint : Hint)
    (dst : Option Dst) (lbl al : Label) (accs : List Access) (recs : List SpawnRec) :
    ∃ mk ps, submit s c kind order scope hint dst lbl al accs recs = putWave { s with markers := mk }
      (c.w.queued { accessEntry c ⟨.p 0, .p 0, 0, order, scope, hint⟩ kind dst lbl al accs with recs := recs } ps) := by
  unfold submit
  rw [hw]
  dsimp only
  generalize ((order == .rel || order == .acqrel) && ((if c.inTx then txScope c.w.tx.scope else scope) == Scope.pod)) = far
  cases far
  · exact ⟨s.markers, _, rfl⟩
  · exact ⟨_, _, rfl⟩

/-- A wave with a long-latency instruction outstanding (R32). -/
def Wave.started (w : Wave) (f : Nat) (o : LongOp) : Wave :=
  { w with flags := mput 0 w.flags f (mgetD w.flags f 0 + 1), long := w.long ++ [o] }

theorem startLong_form {s : State} {c : Ctx} {w : Wave} (hw : theWave s c = w) (closes uni : Bool) (what : LongWhat) :
    startLong s c closes uni what = putWave { s with issued := s.issued + 1 }
      (w.started c.flag { longOp s c closes uni what with serial := (w.split c.k).serial }) := by
  unfold startLong
  rw [hw]
  rfl

/-- An entry submitted and its operation started. -/
theorem submit_startLong {s s' : State} {c : Ctx} (hw : theWave s c = c.w) (hsp : mget? c.w.splits c.k = some c.sp)
    (hs : s' = { s with scrLabels := s'.scrLabels })
    (m : MemArg) (kind : EntKind) (dst : Option Dst) (lbl al : Label) (accs : List Access) (closes uni : Bool) (what : LongWhat) :
    ∃ u, startLong (submit s' c kind m.order m.scope m.hint dst lbl al accs []) c closes uni what = u ∧
      AccessIssued s u c [accessEntry c m kind dst lbl al accs] (longOp s c closes uni what) ∧
      u.scrLabels = s'.scrLabels ∧ (theWave u c).id = c.w.id := by
  have hw' : theWave s' c = c.w := by
    rw [hs]
    exact hw
  have hsplit : (c.w.split c.k).serial = c.sp.serial := by simp [Wave.split, mgetD, hsp]
  obtain ⟨mk, ps, h1⟩ := submit_form hw' kind m.order m.scope m.hint dst lbl al accs []
  have e2 : s'.issued = s.issued := by rw [hs]
  have e3 : s'.waves = s.waves := by rw [hs]
  have e4 : { longOp (submit s' c kind m.order m.scope m.hint dst lbl al accs []) c closes uni what with
      serial := ((c.w.queued (accessEntry c m kind dst lbl al accs) ps).split c.k).serial } = longOp s c closes uni what := by
    rw [h1]
    show LongOp.mk s'.issued c.flag c.k (c.w.split c.k).serial _ _ _ _ _ = LongOp.mk s.issued c.flag c.k c.sp.serial _ _ _ _ _
    rw [e2, hsplit]
    rfl
  have hq : theWave (submit s' c kind m.order m.scope m.hint dst lbl al accs []) c = c.w.queued (accessEntry c m kind dst lbl al accs) ps := by
    rw [h1]
    exact theWave_putWave _ c _ rfl
  rw [startLong_form hq, e4, h1]
  generalize hu : putWave { putWave { s' with markers := mk } (c.w.queued (accessEntry c m kind dst lbl al accs) ps) with issued := s'.issued + 1 }
    ((c.w.queued (accessEntry c m kind dst lbl al accs) ps).started c.flag (longOp s c closes uni what)) = u
  have tw : theWave u c = (c.w.queued (accessEntry c m kind dst lbl al accs) ps).started c.flag (longOp s c closes uni what) :=
    hu ▸ theWave_putWave _ c _ rfl
  have hp : (theWave u c).podSent = ps := by
    rw [tw]
    rfl
  refine ⟨u, hu, ⟨fun l => ?_, ?_, ?_, ?_, ?_⟩, ?_, by rw [tw]; rfl⟩
  · rw [← hu, hs]
    exact readLoc_congr rfl rfl rfl rfl l
  · rw [← hu, hs]
    rfl
  · rw [← hu, hs]
    rfl
  · intro j hj
    have e1 := mget?_mset_ne s'.waves (c.w.queued (accessEntry c m kind dst lbl al accs) ps) hj
    rw [← hu]
    exact (mget?_mset_ne (mset s'.waves c.w.id (c.w.queued (accessEntry c m kind dst lbl al accs) ps)) _ hj).trans (e3 ▸ e1)
  · rw [hp, tw]
    rfl
  · rw [← hu]
    rfl

/-- An instruction that reads no marked register reads no marked label field. -/
theorem softLabel_none {s : State} {n : Nat} {i : Instr} (h : softHit s n i = false) : softLabel s n i = 0 := by
  unfold softHit at h
  unfold softLabel
  rw [List.any_eq_false] at h
  rw [if_neg]
  intro hh
  obtain ⟨k, hk, hm⟩ := List.any_eq_true.mp hh
  exact h k hk (by simp [of_decide_eq_true hm])

/-- What an access of the active lanes issues, where every lane's address may be accessed. -/
theorem accessMem_spec {i : Instr} {s : State} {c : Ctx} (h : Ready i s c) (d : Opr) (m : MemArg) (global : Bool) (bytes : Nat) (need : Need)
    (kind : EntKind) (dst : Option (Nat × Bool)) (dataLbl : Ctx → Label) (data exp : Ctx → Nat → List Byte)
    (place : Nat → Loc) (page : Nat → PageAttr)
    (ht : ∀ l ∈ accessLanes c (uniformUse d m),
      (if global then globTarget s c (if global then globalAddr s c m l else scrAddr s c m l) bytes need (addrLabels s c m global ||| c.ctx ||| dataLbl c)
        else scrTarget s c.w (if global then globalAddr s c m l else scrAddr s c m l) bytes (need == .write || need == .both)) = .at (place l) (page l))
    (hg : need ≠ .write → ∀ l ∈ accessLanes c (uniformUse d m), softGranule s (place l) = false) :
    let lbl := addrLabels s c m global ||| c.ctx ||| dataLbl c
    let acc := fun l => newAccess l (place l) (if global then globalAddr s c m l else scrAddr s c m l) bytes (data c l) (exp c l) lbl (page l)
    let entry := accessEntry c m kind (dst.map fun x => ⟨d.code, x.1, x.2, c.act⟩) lbl (addrLabels s c m global) ((accessLanes c (uniformUse d m)).map acc)
    ∃ t, accessMem i s d m global bytes need kind dst dataLbl data exp = .next t ∧
      AccessIssued s t c [entry] (longOp s c i.closes (uniformUse d m) (.access c.w.nextEntry)) ∧
      t.scrLabels = (if (need == .write || need == .both) && !global && !c.inTx then
        (accessLanes c (uniformUse d m)).foldl (fun s l => granuleOr s (place l) lbl) s else s).scrLabels := by
  have hw := theWave_ready h
  have hsp := (ready_spec h).2.2.2.1
  have hst := stage4_places c (accessLanes c (uniformUse d m)) _ place page (addrLabels s c m global) (operandLabels s c i) ht
  have hsoft : (need != .write && ((accessLanes c (uniformUse d m)).map fun l => (l, place l, page l)).any fun p => softGranule s p.2.1) = false := by
    by_cases hn : need = .write
    · simp [hn]
    · rw [Bool.and_eq_false_iff]
      right
      rw [List.any_eq_false]
      intro p hp
      obtain ⟨l, hl, rfl⟩ := List.mem_map.mp hp
      simp [hg hn l hl]
  intro lbl acc entry
  let s' : State := if (need == .write || need == .both) && !global && !c.inTx then
    (accessLanes c (uniformUse d m)).foldl (fun s l => granuleOr s (place l) lbl) s else s
  have hs : s' = { s with scrLabels := s'.scrLabels } := by
    show (if (need == .write || need == .both) && !global && !c.inTx then _ else s) = _
    by_cases hb : ((need == .write || need == .both) && !global && !c.inTx) = true
    · simp only [s', hb, if_true]
      exact granules_fields _ _ _ _
    · simp only [s', hb]
      rfl
  obtain ⟨u, hu, h1, h2, h3⟩ := submit_startLong hw hsp hs m kind (dst.map fun x => ⟨d.code, x.1, x.2, c.act⟩) lbl
    (addrLabels s c m global) ((accessLanes c (uniformUse d m)).map acc) i.closes (uniformUse d m) (.access c.w.nextEntry)
  have key : ∃ t, accessMem i s d m global bytes need kind dst dataLbl data exp = .next t ∧ UpToPosition u t c ∧
      Stands u t c (nextPos c.pos c.hdr) := by
    unfold accessMem
    refine runWord_does h ?_ h3
    dsimp only
    have z : ∀ x : Label, x ||| (0 : Label) = x := fun x => BitVec.or_zero
    rw [softLabel_none h.2.2]
    simp only [z]
    rw [hst]
    dsimp only
    rw [hsoft]
    simp only [Bool.false_eq_true, if_false, List.foldl_map, List.map_map, Function.comp_def, Ctx.nextId, hw]
    rw [← hu]
  obtain ⟨t, e1, e2, -⟩ := key
  refine ⟨t, e1, accessIssued_upTo h1 e2, ?_⟩
  have := congrArg State.scrLabels e2.rest
  exact (show t.scrLabels = u.scrLabels from this).trans h2

end Sys2Proof.Machine
end

