-- ==== Sys2Proof/Tests/Slice0.lean ====
section
/-! SUPPORT. Tests of this slice: words that the spec writes out, ill-formed instructions, small steps with results worked out from the rules, and states that meet the hypotheses of each statement. -/
namespace Sys2Proof.Tests
open Sys2Proof Sys2Proof.Machine

set_option maxRecDepth 100000
set_option Elab.async false

/-! ## States for one step -/

/-- The state that an instruction runs at: the module brought up, its word fetched. -/
def at? (s : State) : Option State :=
  match issue s 0 0 with
  | .run _ u => some u
  | .nothing _ => none

/-- The module brought up with one word to run. -/
def loaded (i : Instr) : State := State.reset.withFetchWord 64 i.word.toNat

/-- The state at which a wave of the module brought up runs its first word. -/
def atFirst : State := (at? (loaded (.nop ⟨.fine, false, 0, false⟩))).getD State.reset

/-- That state, with its wave changed, for the word named; the word's meaning reads the issuing position and not the fetched bytes. -/
def running (_ : Instr) (f : Wave → Wave) : State := { atFirst with waves := mmodify atFirst.waves 0 f }

/-- Whether a decoded word runs at a state, in a context that meets a condition. -/
def runsWith (s : State) (i : Instr) (p : Ctx → Bool) : Bool :=
  match prelude i s with
  | .ok c => decide (c.act ≠ 0) && !softHit s c.w.id i && p c
  | .error _ => false

theorem ready_of {s : State} {i : Instr} {p : Ctx → Bool} (h : runsWith s i p = true) : ∃ c, Ready i s c ∧ p c = true := by
  unfold runsWith at h
  cases hp : prelude i s with
  | error e => simp [hp] at h
  | ok c =>
    simp only [hp, Bool.and_eq_true, decide_eq_true_eq, Bool.not_eq_true'] at h
    exact ⟨c, ⟨hp, h.1.1, h.1.2⟩, h.2⟩

/-- Whether a word decodes to an instruction. -/
def decodesTo (w : DWord) (i : Instr) : Bool :=
  match decode w with
  | .ok j => decide (j = i)
  | .error _ => false

/-- Whether every word of a list decodes to its instruction and runs after reset. -/
def allRun (is : List Instr) : Bool := is.all fun i => decodesTo i.word i && runsWith (running i id) i fun _ => true

theorem ready_of_allRun {is : List Instr} (h : allRun is = true) : ∀ i ∈ is, ∃ s c, Ready i s c := by
  intro i hi
  have := List.all_eq_true.mp h i hi
  simp only [Bool.and_eq_true] at this
  obtain ⟨c, hc, -⟩ := ready_of this.2
  exact ⟨_, c, hc⟩

/-- Common fields: rate FINE, flag A, no guard. -/
def h0 : Ctl := ⟨.fine, false, 0, false⟩

/-- An operand that names virtual address or register pair `s` with no index. -/
def m0 : MemArg := ⟨.s 2, .c .zero, 0, .rlx, .wave, .dflt⟩

/-- Whether a word passes its checks at a state, in a context that meets a condition; its guard may leave no lane active. -/
def passes (s : State) (i : Instr) (p : Ctx → Bool) : Bool :=
  match prelude i s with
  | .ok c => (decide (c.act = 0) || !softHit s c.w.id i) && p c
  | .error _ => false

/-- The issuing context of a word at a state, meeting a condition. -/
def issues (s : State) (i : Instr) (p : Ctx → Bool) : Bool :=
  match issuerOf i s with
  | some c => p c
  | none => false

/-- The state after a step's meaning, where it gives one. -/
def next (o : Host.Outcome State Fault Refusal) (s : State) : State :=
  match o with
  | .next t => t
  | _ => s

/-- The state that a word runs at, with the walk of the page at 0 done. -/
def mapped (i : Instr) (f : Wave → Wave) : State := installWalk (running i f) 0 0 0

/-- A vector pair with one 64-bit value in every lane. -/
def pairs (n v : Nat) (w : Wave) : Wave :=
  (w.setVec n allLanes fun _ => BitVec.ofNat 32 v).setVec (n + 1) allLanes fun _ => BitVec.ofNat 32 (v / 2 ^ 32)

/-- Whether a lane's access has a place. -/
def isAt : Target → Bool
  | .at _ _ => true
  | _ => false

/-- No line of the module has a shadow, and an access names the key that every line holds (R95, R145). -/
def homed (s : State) (a : Access) : Bool := s.bands.isEmpty && a.page.keyId == 0

/-- A write by lane 0 of the first entry reaches its slice in the order of its clock's writers (R117). -/
def turns (s : State) (w : Wave) (e : Entry) (a : Access) : Bool := !passed s w e a && !tieWaits s (sliceQueue s a.loc) ⟨0, 0, 0, s.clock⟩

/-- The first access of the first pending entry, ready to perform and meeting a condition. -/
def firstReady (s : State) (queued : Bool) (p : Wave → Entry → Access → Bool) : Bool :=
  match readyAccess s 0 0 0 queued with
  | some (w, e, a) => p w e a
  | none => false

/-! ## Words and the instructions that they are (R222 to R229 and the opcode of each entry) -/

def wordsControl : List (DWord × Instr) := [
  (0x0000_0000_0000_0000, .nop h0),
  (0x0040_0000_0000_0000, .region h0),
  (0x0080_3FFF_F400_0000, .bra h0 0xFFFFD),
  (0x00DB_C000_4400_0485, .brc ⟨.cluster, false, 7, true⟩ 17 18 5),
  (0x0100_0000_2820_0000, .brx h0 (.v 2) (.s 4)),
  (0x0140_0000_2400_0002, .call h0 9 2),
  (0x0180_00D0_8000_0000, .callx h0 (.v 6) (.s 8)),
  (0x01C0_0000_6000_0000, .ret h0 (.v 6)),
  (0x0200_8000_0000_0000, .exit ⟨.fine, false, 1, false⟩),
  (0x0240_0000_0123_4500, .trap h0 0x12345),
  (0x0280_0000_0000_0700, .bkpt h0 7)]
theorem test_words_control : wordsControl.all (fun x => decodesTo x.1 x.2 && x.2.word == x.1) = true := by decide +kernel

def wordsInteger : List (DWord × Instr) := [
  (0x1000_0020_2018_0001, .iadd h0 .w32 .ss (.v 1) (.v 2) (.reg (.v 3))),
  (0x10C0_2050_4FFF_FF02, .iadd h0 .w64 .us (.s 2) (.s 4) (.imm 0xFFFFF)),
  (0x1140_0040_4030_0000, .isub h0 .w64 .wrap (.v 2) (.v 4) (.v 6)),
  (0x11C0_0040_4030_0000, .iaddw h0 false (.v 2) (.v 4) (.v 6)),
  (0x1240_2270_4C00_3000, .imul h0 .w32 (.s 19) (.s 4) (.imm 0xC0030)),
  (0x1300_0020_2018_0000, .imulhi h0 true (.v 1) (.v 2) (.v 3)),
  (0x1400_0020_2018_1000, .imad h0 .i32ss (.v 1) (.v 2) (.v 3) (.v 4)),
  (0x14C0_0040_5038_2000, .imadw h0 false (.v 2) (.v 5) (.v 7) (.v 8)),
  (0x1580_0040_4030_0000, .idiv h0 .w64 true (.v 2) (.v 4) (.v 6)),
  (0x1640_0020_2018_0000, .irem h0 .w32 false (.v 1) (.v 2) (.v 3)),
  (0x1740_0020_2018_0000, .imin h0 .w32 false (.v 1) (.v 2) (.v 3)),
  (0x1880_0040_4030_0000, .imax h0 .w64 true (.v 2) (.v 4) (.v 6)),
  (0x1900_0020_2000_0001, .iabs h0 .w32 true (.v 1) (.v 2))]
theorem test_words_integer : wordsInteger.all (fun x => decodesTo x.1 x.2 && x.2.word == x.1) = true := by decide +kernel

def wordsLogic : List (DWord × Instr) := [
  (0x2040_0040_0000_1F00, .and h0 .w32 (.v 2) (.v 0) (.imm 31)),
  (0x2180_0040_4A60_0000, .or h0 .w64 (.v 2) (.v 4) (.reg (.c .minusOne))),
  (0x22C0_0040_4FFF_FE00, .xor h0 .w64 (.v 2) (.v 4) (.imm 0xFFFFE)),
  (0x2300_00A0_1010_0C21, .bcond h0 .w32 .or .and (.v 5) (.v 1) (.v 2) (.v 3)),
  (0x2380_0020_2A58_0000, .shl h0 .w32 (.v 1) (.v 2) (.reg (.c .four))),
  (0x24C0_0020_2000_2800, .shr h0 .w32 (.v 1) (.v 2) (.imm 40)),
  (0x2640_0100_8000_3F00, .sar h0 .w64 (.v 8) (.v 8) (.imm 63)),
  (0x2700_0040_4030_0000, .rotl h0 .w64 (.v 2) (.v 4) (.reg (.v 6))),
  (0x27C0_0080_9A58_2800, .bfe h0 .w32 true (.v 4) (.v 9) (.c .four) (.v 10)),
  (0x28C0_0040_4030_2000, .bfi h0 .w64 (.v 2) (.v 4) (.v 6) (.v 8)),
  (0x2940_0060_4000_0000, .popc h0 .w64 (.v 3) (.v 4)),
  (0x2980_0060_4000_0000, .clz h0 .w32 (.v 3) (.v 4)),
  (0x2A40_0040_4000_0000, .brev h0 .w64 (.v 2) (.v 4))]
theorem test_words_logic : wordsLogic.all (fun x => decodesTo x.1 x.2 && x.2.word == x.1) = true := by decide +kernel

def wordsSelect : List (DWord × Instr) := [
  (0x3080_2820_201D_100D, .icmp h0 .n32 .ge .and (.p 1) (.v 2) (.reg (.v 3)) (.p 4)),
  (0x3240_0020_2FFF_F902, .icmp h0 .i16 .lt .none (.v 1) (.v 2) (.imm 0xFFFF9) (.v 0)),
  (0x3300_0020_201D_0400, .sel h0 .w32 (.v 1) (.v 2) (.v 3) (.p 1)),
  (0x33C0_0050_4000_0000, .mov h0 .w64 (.v 2) (.s 4)),
  (0x3400_0050_0000_0001, .movi h0 true (.v 2) 0x80000000),
  (0x3440_2140_0400_2000, .movhi h0 (.s 10) 0x40020),
  (0x3480_2040_0000_0800, .addpc h0 (.s 2) 8)]
theorem test_words_select : wordsSelect.all (fun x => decodesTo x.1 x.2 && x.2.word == x.1) = true := by decide +kernel

def wordsFloat : List (DWord × Instr) := [
  (0x4080_00A0_7A70_0C0D, .fadd h0 .bf16x2 .sr true (.v 5) (.v 7) (.c .fOne) (.v 3)),
  (0x40C0_00A0_7030_0001, .fmul h0 .f32 .rz false (.v 5) (.v 7) (.v 6) (.v 0)),
  (0x41C0_00A0_7030_0C04, .ffma h0 .f16x2 .rna false (.v 5) (.v 7) (.v 6) (.v 3)),
  (0x4540_00A0_7030_000A, .fscale h0 .f32 .ru true (.v 5) (.v 7) (.v 6) (.v 0)),
  (0x4280_00A0_7030_0000, .fmin h0 .f16x2 (.v 5) (.v 7) (.v 6)),
  (0x4300_0060_3A40_0000, .fmax h0 .f32 (.v 3) (.v 3) (.c .zero)),
  (0x43C0_2840_1025_0812, .fcmp h0 .f32 .lt .or .lo (.p 2) (.v 1) (.v 4) (.p 2)),
  (0x4400_2820_1020_0046, .fcmp h0 .f16x2 .un .none .both (.p 1) (.v 1) (.v 4) (.v 0)),
  (0x4480_2860_7000_0108, .fclass h0 .f32 0x108 false (.p 3) (.v 7)),
  (0x4640_00A0_7000_0003, .frnd h0 .f32 .rd (.v 5) (.v 7)),
  (0x4600_00A0_7000_0000, .ffrac h0 (.v 5) (.v 7)),
  (0x4740_00A0_7030_0C01, .fdot2 h0 true true (.v 5) (.v 7) (.v 6) (.v 3)),
  (0x4780_00E0_4045_2000, .fdot4 h0 false false (.v 7) (.v 4) (.v 8) (.c .zero))]
theorem test_words_float : wordsFloat.all (fun x => decodesTo x.1 x.2 && x.2.word == x.1) = true := by decide +kernel

def wordsConvert : List (DWord × Instr) := [
  (0x5000_00A0_7000_0000, .frcp h0 .rne (.v 5) (.v 7)),
  (0x5040_00A0_7000_0001, .frsq h0 .rz (.v 5) (.v 7)),
  (0x5080_00A0_7000_0002, .fsqrt h0 .ru (.v 5) (.v 7)),
  (0x50C0_00A0_7000_0003, .fexp2 h0 .rd (.v 5) (.v 7)),
  (0x5100_00A0_7000_0004, .flog2 h0 .rna (.v 5) (.v 7)),
  (0x5140_00A0_7000_0000, .fsinpi h0 .rne (.v 5) (.v 7)),
  (0x5180_00A0_7000_0001, .fcospi h0 .rz (.v 5) (.v 7)),
  (0x5380_00A0_7000_0001, .f2i h0 .n8 .rz (.v 5) (.v 7)),
  (0x5440_00A0_6000_0002, .i2f h0 .i64 .ru (.v 5) (.v 6) (.v 0)),
  (0x5600_0140_B060_0005, .fcvt h0 .f32bf16 .sr false (.v 10) (.v 11) (.v 12)),
  (0x5800_0020_2000_0000, .fcvt h0 .e2m1f32 .rne false (.v 1) (.v 2) (.v 0)),
  (0x5A80_0080_5030_0018, .pack h0 .e5m2 .rne true true (.v 4) (.v 5) (.v 6) (.v 0)),
  (0x5B40_0080_5000_0003, .unpack h0 .e4m3 3 (.v 4) (.v 5)),
  (0x5C00_00A0_7030_0C4B, .gqdec h0 true 3 .rz true (.v 5) (.v 7) (.v 6) (.v 3))]
theorem test_words_convert : wordsConvert.all (fun x => decodesTo x.1 x.2 && x.2.word == x.1) = true := by decide +kernel

def wordsLane : List (DWord × Instr) := [
  (0x60C0_00C0_5A48_0002, .lperm h0 .xmask 2 (.v 6) (.v 5) (.c .one)),
  (0x6100_2834_2000_0003, .pgathCnt h0 .notevery (.p 1) (.p 2)),
  (0x6140_0034_2000_0000, .pgathRank h0 (.v 1) (.p 2)),
  (0x6180_20D4_1000_0000, .pgathMask h0 (.s 6) (.p 1)),
  (0x61C0_2820_0000_0000, .lfirst h0 (.p 1)),
  (0x6740_0040_2000_0000, .lkin h0 .w64 (.v 2) (.v 2)),
  (0x6680_2020_2818_0000, .lread h0 .w32 (.s 1) (.v 2) (.s 3)),
  (0x6280_2040_2000_0003, .srd h0 .maxN32 (.s 2) (.v 2)),
  (0x63C0_20A0_1000_0000, .dred h0 .addI32 (.s 5) (.v 1)),
  (0x6600_0060_1000_0000, .scan h0 .minF32Incl (.v 3) (.v 1)),
  (0x6780_2874_1A15_20BB, .pcond h0 .bic .bic (.p 3) (.p 1) (.p 2) (.c .zero)),
  (0x67C0_0020_0000_0000, .pmovGet h0 (.v 1)),
  (0x6800_0000_1000_00FE, .pmovSet h0 0xFE (.v 1))]
theorem test_words_lane : wordsLane.all (fun x => decodesTo x.1 x.2 && x.2.word == x.1) = true := by decide +kernel

def wordsMemory : List (DWord × Instr) := [
  (0x7180_0090_201C_0037, .ld h0 .b128 (.v 4) ⟨.s 2, .v 3, 0x800, .acq, .pod, .keep⟩),
  (0x7200_0090_601B_FFC5, .st h0 .b16 (.v 4) ⟨.s 6, .v 3, 0x7FF, .rel, .core, .strm⟩),
  (0x7380_0090_1018_0824, .lds h0 .i16 (.v 4) ⟨.s 1, .v 3, 0x10, .acq, .core, .dflt⟩),
  (0x75C0_0080_3A41_0000, .sts h0 .b128 (.v 4) ⟨.v 3, .c .zero, 0x200, .rlx, .wave, .dflt⟩),
  (0x76C0_0090_2018_0200, .ldc h0 .n16 (.v 4) ⟨.s 2, .v 3, 0x4, .rlx, .wave, .dflt⟩),
  (0x7700_0010_2018_0001, .pref h0 ⟨.s 2, .v 3, 0x0, .rlx, .wave, .strm⟩),
  (0x7740_0010_2018_4000, .cinv h0 ⟨.s 2, .v 3, 0x80, .rlx, .wave, .dflt⟩)]
theorem test_words_memory : wordsMemory.all (fun x => decodesTo x.1 x.2 && x.2.word == x.1) = true := by decide +kernel

def wordsAtomics : List (DWord × Instr) := [
  (0x8340_0090_2018_0478, .atom h0 (.int .maxN .w64) (.v 4) ⟨.s 2, .v 3, 0x8, .acqrel, .sys, .dflt⟩),
  (0x85C0_0090_2018_0410, .atom h0 .incN32 (.v 4) ⟨.s 2, .v 3, 0x8, .rlx, .pkg, .dflt⟩),
  (0x88C0_0090_1018_0000, .atoms h0 .cas (.v 4) ⟨.s 1, .v 3, 0x0, .rlx, .wave, .dflt⟩),
  (0x8980_0090_2018_0030, .cas h0 .b32nr (.v 4) ⟨.s 2, .v 3, 0x0, .acq, .pkg, .dflt⟩),
  (0x89C0_2210_2A40_0070, .casx h0 (.s 16) ⟨.s 2, .c .zero, 0x0, .acqrel, .pkg, .dflt⟩),
  (0x8CC0_0090_2018_004C, .red h0 .addE5m2 (.v 4) ⟨.s 2, .v 3, 0x0, .rel, .die, .dflt⟩),
  (0x8D80_0000_0000_0078, .fence h0 .acqrel .sys),
  (0x8DC0_0000_0000_0000, .fencex h0)]
theorem test_words_atomics : wordsAtomics.all (fun x => decodesTo x.1 x.2 && x.2.word == x.1) = true := by decide +kernel

def wordsCopies : List (DWord × Instr) := [
  (0x9080_2190_8834_2800, .cpy h0 .s2g (.s 12) (.s 8) (.s 6) (.s 10)),
  (0x9140_2290_2845_2C00, .cpyp h0 true (.s 20) (.s 2) (.s 8) (.c .four)),
  (0x9180_21D1_08F5_2000, .cpyc h0 (.s 14) (.s 16) (.s 30) (.c .zero)),
  (0x91C0_2311_C854_7801, .cpysig h0 true (.s 24) (.s 28) (.s 10) (.s 30)),
  (0x9200_21E0_0000_0000, .cseal h0 (.s 15)),
  (0x9240_0010_F000_0000, .cwait h0 (.s 15)),
  (0x9280_23F1_E000_0000, .cwaitSt h0 (.s 31) (.s 30)),
  (0x92C0_2830_DA48_0000, .ctest h0 (.p 1) (.s 13) (.c .one))]
theorem test_words_copies : wordsCopies.all (fun x => decodesTo x.1 x.2 && x.2.word == x.1) = true := by decide +kernel

def wordsWaiting : List (DWord × Instr) := [
  (0xA000_3FFF_F000_0005, .txb h0 (some 0xFFFFC) .pkg),
  (0xA000_0000_0000_0000, .txb h0 none .core),
  (0xA040_0000_0000_0000, .txe h0),
  (0xA081_0000_0000_0000, .retry ⟨.fine, false, 2, false⟩),
  (0xA0C0_0000_0000_0000, .txx h0),
  (0xA100_0014_8000_0012, .bar h0 .quad 2 (.c .zero)),
  (0xA140_0010_7000_0004, .bara h0 .pkg 0 (.s 7)),
  (0xA180_0000_0000_007D, .barw h0 .pod 15),
  (0xA240_20D0_4A40_082C, .waitc h0 .geN32 (.s 6) ⟨.s 4, .c .zero, 0x10, .acq, .die, .dflt⟩),
  (0xA340_0000_4010_00FF, .spawn h0 0xFF (.v 4) (.v 2)),
  (0xA380_0010_4A40_0800, .join h0 ⟨.s 4, .c .zero, 0x10, .rlx, .wave, .dflt⟩),
  (0xA3C0_0000_0000_0000, .spfl h0)]
theorem test_words_waiting : wordsWaiting.all (fun x => decodesTo x.1 x.2 && x.2.word == x.1) = true := by decide +kernel

def wordsMatrix : List (DWord × Instr) := [
  (0xB000_0010_8000_0000, .bclaim h0 (.s 8)),
  (0xB040_0010_8000_0000, .brel h0 (.s 8)),
  (0xB080_0030_2018_2000, .bst h0 (.v 1) ⟨.s 2, .v 3, 0x40, .rlx, .wave, .dflt⟩),
  (0xB0C0_0034_8018_2000, .brd h0 (.v 1) ⟨.c .zero, .v 3, 0x40, .rlx, .wave, .dflt⟩),
  (0xB140_3FFD_8000_0000, .mma h0 true true true 7 31 30),
  (0xB100_0044_0000_0000, .mma h0 false false false 0 1 2),
  (0xB180_2800_0000_0000, .aclr h0 5),
  (0xB1C0_0200_0000_003B, .ard h0 false 3 7 .rne false (.v 16)),
  (0xB200_0200_0000_0253, .ard h0 true 3 2 .rz true (.v 16)),
  (0xB280_0000_8000_0011, .awr h0 true 1 2 (.v 8)),
  (0xB480_2020_2820_1000, .ast h0 .i16 (.s 1) ⟨.v 2, .s 4, 0x20, .rlx, .wave, .dflt⟩)]
theorem test_words_matrix : wordsMatrix.all (fun x => decodesTo x.1 x.2 && x.2.word == x.1) = true := by decide +kernel

def wordsDraw : List (DWord × Instr) := [
  (0xC008_000C_4000_0000, .hfree ⟨.coarse, false, 0, false⟩ (.h 4)),
  (0xC088_00CC_C000_0000, .ipa ⟨.coarse, false, 0, false⟩ .lin (.v 6) (.h 12)),
  (0xC118_0000_1000_0000, .emitv ⟨.cluster, false, 0, false⟩ (.v 1)),
  (0xC158_0000_1000_0000, .emitp ⟨.cluster, false, 0, false⟩ (.v 1)),
  (0xC1CC_0290_8020_1800, .tex ⟨.coarse, true, 0, false⟩ .bil (.v 20) (.s 8) (.v 4) (.v 6)),
  (0xC240_0290_8020_1800, .tld h0 (.v 20) (.s 8) (.v 4) (.v 6)),
  (0xC280_0000_8818_001A, .trace h0 2 true true (.v 8) (.s 3)),
  (0xC2F0_0000_4000_0000, .rret ⟨.ray, false, 0, false⟩ (.v 4)),
  (0xC300_0080_0000_2007, .mboxTry h0 7 (.v 4) (.v 8)),
  (0xC340_0080_0000_2001, .mboxWait h0 1 (.v 4) (.v 8)),
  (0xC380_0000_4000_0003, .outs h0 (.colour 3) (.v 4)),
  (0xC388_0000_4000_0007, .outs ⟨.coarse, false, 0, false⟩ .vis (.v 4)),
  (0xC3C0_0000_0000_0000, .kill h0)]
theorem test_words_draw : wordsDraw.all (fun x => decodesTo x.1 x.2 && x.2.word == x.1) = true := by decide +kernel

def wordsSystem : List (DWord × Instr) := [
  (0xD000_2120_5000_0000, .lblrd h0 (.s 9) (.v 5)),
  (0xD040_2290_4834_200B, .grel h0 true 5 (.s 20) (.s 4) (.s 6) (.s 8)),
  (0xE000_20A0_0003_F000, .csrr h0 (.s 5) 0x3F),
  (0xE040_0010_5001_2000, .csrw h0 0x12 (.s 5)),
  (0xE080_0010_5000_0002, .tret h0 .finish (.s 5))]
theorem test_words_system : wordsSystem.all (fun x => decodesTo x.1 x.2 && x.2.word == x.1) = true := by decide +kernel


/-- Words that the programs and examples of the spec write out, with their assembly. -/
def wordsSpec : List (DWord × Instr) := [
  (0x3000_2830_5A40_0000, .icmp h0 .i32 .eq .none (.p 1) (.s 5) (.reg (.c .zero)) (.v 0)), (0x3480_20C0_0000_0800, .addpc h0 (.s 6) 8),
  (0x10C0_20D0_6000_0000, .iadd h0 .w64 .wrap (.s 6) (.s 6) (.imm 0)), (0x10C0_2110_6001_0000, .iadd h0 .w64 .wrap (.s 8) (.s 6) (.imm 0x100)),
  (0x3400_2140_0000_2000, .movi h0 false (.s 10) 256), (0x23C0_0060_0000_0300, .shl h0 .w32 (.v 3) (.v 0) (.imm 3)),
  (0x7280_0090_6018_0004, .st h0 .b64 (.v 4) ⟨.s 6, .v 3, 0, .rlx, .core, .dflt⟩), (0x9200_21A0_0000_0000, .cseal h0 (.s 13)),
  (0x9240_0010_D000_0000, .cwait h0 (.s 13)), (0x2040_0040_0000_1F00, .and h0 .w32 (.v 2) (.v 0) (.imm 31)),
  (0x7140_00D0_8018_0004, .ld h0 .b64 (.v 6) ⟨.s 8, .v 3, 0, .rlx, .core, .dflt⟩), (0x0200_0000_0000_0000, .exit h0),
  (0x6080_0040_1A50_0000, .lperm h0 .fwd 0 (.v 2) (.v 1) (.c .two)), (0x6480_0060_1000_0000, .scan h0 .addI32Incl (.v 3) (.v 1)),
  (0x63C0_20A0_1000_0000, .dred h0 .addI32 (.s 5) (.v 1)), (0x6180_20D4_1000_0000, .pgathMask h0 (.s 6) (.p 1)),
  (0x5A40_0080_1010_0000, .pack h0 .e4m3 .rne false false (.v 4) (.v 1) (.v 2) (.v 0)), (0x5A40_0080_5030_0010, .pack h0 .e4m3 .rne false true (.v 4) (.v 5) (.v 6) (.v 0)),
  (0x4780_00E0_4045_2000, .fdot4 h0 false false (.v 7) (.v 4) (.v 8) (.c .zero)), (0x5600_0140_B060_0005, .fcvt h0 .f32bf16 .sr false (.v 10) (.v 11) (.v 12)),
  (0x3440_2140_0400_2000, .movhi h0 (.s 10) 0x40020), (0x9040_21B4_8854_3000, .cpy h0 .g2s (.s 13) (.c .zero) (.s 10) (.s 12)),
  (0x92C0_2830_DA48_0000, .ctest h0 (.p 1) (.s 13) (.c .one)), (0x7400_0080_3A41_0000, .lds h0 .b32 (.v 4) ⟨.v 3, .c .zero, 512, .rlx, .wave, .dflt⟩),
  (0x3400_2000_0002_0401, .movi h0 true (.s 0) 0x1020), (0xB000_0010_0000_0000, .bclaim h0 (.s 0)),
  (0xB080_0034_8A40_0000, .bst h0 (.v 1) ⟨.c .zero, .c .zero, 0, .rlx, .wave, .dflt⟩), (0xB240_0000_8000_0000, .awr h0 false 0 0 (.v 8)),
  (0xB100_0004_0000_0000, .mma h0 false false false 0 0 2), (0xB1C0_0200_0000_0000, .ard h0 false 0 0 .rne false (.v 16)),
  (0x7190_000C_4020_0000, .ld ⟨.vertex, false, 0, false⟩ .b128 (.v 0) ⟨.h 4, .v 4, 0, .rlx, .wave, .dflt⟩),
  (0x00D8_8000_4400_0440, .brc ⟨.cluster, false, 1, false⟩ 17 17 0), (0xC280_0000_8A48_0000, .trace h0 0 false false (.v 8) (.c .one)),
  (0x7270_1850_0060_0000, .st ⟨.ray, false, 0, false⟩ .b32 (.h 2) ⟨.s 0, .v 12, 0, .rlx, .wave, .dflt⟩),
  (0xA340_0000_4810_0001, .spawn h0 1 (.v 4) (.s 2)), (0xA000_0000_0000_0004, .txb h0 none .pkg), (0xA081_0000_0000_0000, .retry ⟨.fine, false, 2, false⟩),
  (0xA040_0000_0000_0000, .txe h0), (0x89C0_2210_2A40_0070, .casx h0 (.s 16) ⟨.s 2, .c .zero, 0, .acqrel, .pkg, .dflt⟩),
  (0x3180_2871_28B0_0002, .icmp h0 .n64 .lt .none (.p 3) (.s 18) (.reg (.s 22)) (.v 0)), (0x00C1_FFFF_EFFF_FEC0, .brc ⟨.fine, false, 3, true⟩ 0xFFFFB 0xFFFFB 0),
  (0x1240_2270_4C00_3000, .imul h0 .w32 (.s 19) (.s 4) (.imm 0xC0030)), (0x90C0_21D1_4894_6000, .cpy h0 .s2s (.s 14) (.s 20) (.s 18) (.s 24)),
  (0x9180_21D1_08F5_2000, .cpyc h0 (.s 14) (.s 16) (.s 30) (.c .zero)), (0xB100_0004_8000_0000, .mma h0 false false true 0 0 2)]
theorem test_words_spec : wordsSpec.all (fun x => decodesTo x.1 x.2 && x.2.word == x.1) = true := by decide +kernel

/-- Why a word has no instruction. -/
def refusedWord (w : DWord) (r : Reject) : Bool :=
  match decode w with
  | .ok _ => false
  | .error e => decide (e = r)

/-- The spec's table of refused words (R392): an index in no span, GUARD 0 with GNEG 1; and more. -/
theorem test_words_refused :
    (refusedWord 0x3C00_0000_0000_0000 .illegalOp && refusedWord 0x0000_4000_0000_0000 (.operand 7 8) && refusedWord 0xF000_0000_0000_0000 .illegalOp &&
      refusedWord (0x38 * 2 ^ 48) .illegalRate) = true := by decide +kernel

/-! ## Ill-formed instructions, one for each check -/

def badOperands : List Instr := [
  -- a predicate as a value, a constant as a destination, an odd pair, a register past the four or eight that a Quad or Octet takes (R228, R250, R296)
  .iadd h0 .w32 .wrap (.p 1) (.v 0) (.reg (.v 2)), .mov h0 .w32 (.c .one) (.v 0), .mov h0 .w64 (.v 3) (.v 4), .mov h0 .w64 (.v 2) (.v 5),
  .ld h0 .b128 (.v 190) m0, .rret ⟨.ray, false, 0, false⟩ (.v 189), .trace h0 0 false false (.v 185) (.s 3), .sel h0 .w32 (.v 1) (.v 2) (.v 3) (.v 1),
  -- p0 as a destination, a vector where a scalar is asked
  .lfirst h0 (.p 0), .cseal h0 (.v 1), .lread h0 .w32 (.s 1) (.v 2) (.v 3), .cpy h0 .g2g (.s 12) (.v 8) (.s 6) (.s 10)]
theorem test_ill_operands : badOperands.all (fun i => !WellFormed i) = true := by decide +kernel

def badFields : List Instr := [
  -- fields that a form does not read (R227), codes that it marks reserved
  .i2f h0 .i64 .rne (.v 5) (.v 6) (.v 3), .fadd h0 .f32 .rne false (.v 5) (.v 7) (.v 6) (.v 3), .ffma h0 .f32 .sr false (.v 5) (.v 7) (.v 6) (.v 3),
  .frcp h0 .sr (.v 5) (.v 7), .f2i h0 .i32 .sr (.v 5) (.v 7), .fcvt h0 .f32e2m1 .rne true (.v 5) (.v 7) (.v 0), .icmp h0 .i32 .ge .and (.p 1) (.v 1) (.imm 20) (.v 0),
  .ard h0 true 0 4 .rne false (.v 8), .awr h0 true 0 4 (.v 8), .gqdec h0 true 4 .rne false (.v 5) (.v 7) (.v 6) (.v 3), .unpack h0 .f16 2 (.v 4) (.v 5),
  .pack h0 .f16 .rne false true (.v 4) (.v 5) (.v 6) (.v 0), .pmovSet h0 1 (.v 1), .callx h0 (.s 4) (.v 2)]
theorem test_ill_fields : badFields.all (fun i => !WellFormed i) = true := by decide +kernel

def badMemory : List Instr := [
  -- orders, scopes and hints that a form does not list (R298), a scratchpad base that is a constant (R225)
  .ld h0 .b32 (.v 4) { m0 with order := .rel }, .st h0 .b32 (.v 4) { m0 with order := .acq }, .pref h0 { m0 with hint := .byp }, .ldc h0 .b32 (.v 4) { m0 with scope := .die },
  .join h0 { m0 with order := .acq }, .waitc h0 .eqB32 (.c .zero) { m0 with order := .rel }, .lds h0 .b32 (.v 4) ⟨.c .zero, .v 3, 0, .rlx, .wave, .dflt⟩,
  .cas h0 .b32 (.v 4) { m0 with base := .s 3 }]
theorem test_ill_memory : badMemory.all (fun i => !WellFormed i) = true := by decide +kernel

def badGuards : List Instr := [
  -- GUARD 0 with GNEG 1 (R223), a guard on a form that takes none (R254), a vector source of a scalar destination (R251)
  .nop ⟨.fine, false, 0, true⟩, .bra ⟨.fine, false, 1, false⟩ 2, .txe ⟨.fine, false, 2, false⟩, .txb ⟨.fine, false, 2, false⟩ none .core,
  .iadd h0 .w32 .wrap (.s 1) (.v 0) (.reg (.s 2))]
theorem test_ill_guards : badGuards.all (fun i => !WellFormed i) = true := by decide +kernel

/-! ## One step, with a result that the spec's examples or rules give -/

/-- The wave after one step of an instruction at a wave. -/
def after (i : Instr) (f : Wave → Wave) : Wave := (mget? (next (exec i (running i f)) State.reset).waves 0).getD Wave.blank
/-- One value in every lane of a vector register. -/
def vall (n : Nat) (v : Word) (w : Wave) : Wave := w.setVec n allLanes fun _ => v
/-- The wave of the lane example: two splits of four lanes, v1 = 10 l in lanes 0 to 7 with label 4. -/
def twoSplits (w : Wave) : Wave :=
  ({ w with splits := mset (mmodify w.splits 0 fun sp => { sp with mask := 0xF }) 1 { Split.blank with mask := 0xF0, pc := ⟨0x10100, 0⟩ } }.setVec 1 0xFF fun l =>
    BitVec.ofNat 32 (10 * l)).setLabel 1 allLanes 16
theorem test_icmp_example :
    let w := after (.icmp h0 .i32 .ge .none (.p 1) (.v 1) (.imm 20) (.v 0)) twoSplits
    (w.pred 1 == 0xC && w.label 321 == 16) = true := by decide +kernel
theorem test_lperm_example : [0, 1, 2, 3].map (fun l => (after (.lperm h0 .fwd 0 (.v 2) (.v 1) (.c .two)) twoSplits).vec 2 l) = [20, 30, 40, 50] := by decide +kernel
theorem test_scan_example : [0, 1, 2, 3, 4].map (fun l => (after (.scan h0 .addI32Incl (.v 3) (.v 1)) twoSplits).vec 3 l) = [0, 10, 30, 60, 0] := by decide +kernel
theorem test_dred_example : ((after (.dred h0 .addI32 (.s 5) (.v 1)) twoSplits).scalar 5, (after (.dred h0 .addI32 (.s 5) (.v 1)) twoSplits).label 261) = (60, 16) := by decide +kernel
theorem test_pgath_example : (after (.pgathMask h0 (.s 6) (.p 1)) fun w => { twoSplits w with preds := [(1, 0xC)] }).scalar 6 = 0xC := by decide +kernel
theorem test_lread_example : (after (.lread h0 .w32 (.s 7) (.v 1) (.c .four)) twoSplits).scalar 7 = 40 := by decide +kernel

theorem test_pack_example : (after (.pack h0 .e4m3 .rne false false (.v 4) (.v 1) (.v 2) (.v 0)) fun w => vall 1 0x43960000 (vall 2 0xC0200000 w)).vec 4 0 = 0xC279 := by
  decide +kernel
theorem test_pack_high : (after (.pack h0 .e4m3 .rne false true (.v 4) (.v 5) (.v 6) (.v 0)) fun w =>
    vall 5 0x3F800000 (vall 6 0x43E00000 (vall 4 0xC279 w))).vec 4 1 = 0x7E38C279 := by decide +kernel
theorem test_fdot4_example : (after (.fdot4 h0 false false (.v 7) (.v 4) (.v 8) (.c .zero)) fun w => vall 4 0x7E38C279 (vall 8 0x38383838 w)).vec 7 0 = 0x4437A000 := by
  decide +kernel
theorem test_fcvt_stochastic :
    let w := after (.fcvt h0 .f32bf16 .sr false (.v 10) (.v 11) (.v 12)) fun w => (vall 11 0x3F801800 w).setVec 12 allLanes fun l => if l = 0 then 232 else 231
    (w.vec 10 0, w.vec 10 1) = (0x3F81, 0x3F80) := by decide +kernel

/-- Clamped and wrapped sums at the ends of the range (R264). -/
theorem test_iadd_ends : ([Sat.wrap, .ss, .us].map fun s => (after (.iadd h0 .w32 s (.v 1) (.v 2) (.imm 1)) (vall 2 0x7FFFFFFF)).vec 1 31) = [0x80000000, 0x7FFFFFFF, 0x80000000] ∧
    ([Sat.wrap, .ss, .us].map fun s => (after (.iadd h0 .w32 s (.v 1) (.v 2) (.imm 1)) (vall 2 0xFFFFFFFF)).vec 1 31) = [0, 0, 0xFFFFFFFF] := by decide +kernel
/-- Division by 0 and the quotient −2^31 / −1 (R264). -/
theorem test_idiv_corners : ([(5, 0), (0x80000000, 0xFFFFFFFF), (0xFFFFFFF9, 2)].map fun x : Word × Word =>
    ((after (.idiv h0 .w32 true (.v 1) (.v 2) (.v 3)) fun w => vall 2 x.1 (vall 3 x.2 w)).vec 1 0,
      (after (.irem h0 .w32 true (.v 1) (.v 2) (.v 3)) fun w => vall 2 x.1 (vall 3 x.2 w)).vec 1 0)) =
    [(0xFFFFFFFF, 5), (0x80000000, 0), (0xFFFFFFFD, 0xFFFFFFFF)] := by decide +kernel
/-- Shifts by the width and more (R266). -/
theorem test_shift_ends : ([32, 33].map fun k : Word => let f := fun w => vall 2 0x80000001 (vall 3 k w)
    ((after (.shl h0 .w32 (.v 1) (.v 2) (.reg (.v 3))) f).vec 1 0, (after (.shr h0 .w32 (.v 1) (.v 2) (.reg (.v 3))) f).vec 1 0,
      (after (.sar h0 .w32 (.v 1) (.v 2) (.reg (.v 3))) f).vec 1 0, (after (.rotl h0 .w32 (.v 1) (.v 2) (.reg (.v 3))) f).vec 1 0)) =
    [(0, 0, 0xFFFFFFFF, 0x80000001), (0, 0, 0xFFFFFFFF, 3)] := by decide +kernel
theorem test_bcond_majority : (after (.bcond h0 .w32 .or .and (.v 5) (.v 1) (.v 2) (.v 3)) fun w => vall 1 0xF0 (vall 2 0xCC (vall 3 0xAA w))).vec 5 0 = 0xE8 := by decide +kernel
/-- FMAX clamps −0 at +0; FRND under rz of −0.75 is −0 (R285, R288). -/
theorem test_float_signs : (after (.fmax h0 .f32 (.v 3) (.v 3) (.c .zero)) (vall 3 0x80000000)).vec 3 0 = 0 ∧
    (after (.frnd h0 .f32 .rz (.v 5) (.v 7)) (vall 7 0xBF400000)).vec 5 0 = 0x80000000 := by decide +kernel
/-- 2^127 doubled under rne, rz and with SAT (R137, R139). -/
theorem test_float_overflow : ([(Rm.rne, false), (.rz, false), (.ru, false), (.rd, false), (.rne, true)].map fun x =>
    (after (.fadd h0 .f32 x.1 x.2 (.v 5) (.v 7) (.v 7) (.v 0)) (vall 7 0x7F000000)).vec 5 0) = [0x7F800000, 0x7F7FFFFF, 0x7F800000, 0x7F7FFFFF, 0x7F7FFFFF] := by decide +kernel
/-- f2i clamps, and a NaN gives 0 (R139, R292). -/
theorem test_f2i : ([0x4F800000, 0xC0200000, 0x7FC00000].map fun v : Word => (after (.f2i h0 .i32 .rne (.v 5) (.v 7)) (vall 7 v)).vec 5 0) = [0x7FFFFFFF, 0xFFFFFFFE, 0] := by decide +kernel
/-- The square root of 2 and 1 / 3, each the nearest f32 (R134, R290). -/
theorem test_special : (after (.fsqrt h0 .rne (.v 5) (.v 7)) (vall 7 0x40000000)).vec 5 0 = 0x3FB504F3 ∧ (after (.frcp h0 .rne (.v 5) (.v 7)) (vall 7 0x40400000)).vec 5 0 = 0x3EAAAAAB := by
  decide +kernel
/-- MOVI with `.w` sign-extends into the pair (R269); MOVHI scales by 4,096 (R270). -/
theorem test_moves : (let w := after (.movi h0 true (.s 2) 0x80000000) id; (w.scalar 2, w.scalar 3)) = (0x80000000, 0xFFFFFFFF) ∧
    (let w := after (.movhi h0 (.s 10) 0x40020) id; (w.scalar 10, w.scalar 11)) = (0x40020000, 0) := by decide +kernel
/-- A guard keeps the lanes that it leaves inactive (R251). -/
theorem test_guard : (let w := after (.mov ⟨.fine, false, 1, true⟩ .w32 (.v 1) (.c .four)) fun w => vall 1 7 { w with preds := [(1, 2)] }; (w.vec 1 0, w.vec 1 1)) = (4, 7) := by
  decide +kernel

/-- FIPS 197, C.3, and the first block of vector 10 of IEEE 1619: the cipher that R98 names. -/
theorem test_aes : aesEncrypt (aesKeys (List.range 32)) ((List.range 16).map fun i => 17 * i) = block16 0x8960494b9049fceabf456751cab7a28e ∧
    (hbmEncrypt (((block16 0x26357174286053234590452818281827 ++ block16 0x27769666495759996993702457774962) ++
      (block16 0x95278333646284239397585326594131 ++ block16 0x92459474098205513799931697418802)).map fun n => BitVec.ofNat 8 n) 0xFF
      ((List.range 128).map fun i => BitVec.ofNat 8 i)).take 16 = (block16 0x9bcf70e3996c83e48603772f103a3b1c).map fun n => BitVec.ofNat 8 n := by decide +kernel

theorem test_reset : State.reset.waves = [] ∧ State.reset.mem = [] ∧ State.reset.bootStep = 0 := by decide
/-- The host's word runs as the first instruction. -/
theorem test_first_step : (mget? (next (step (loaded (.movi h0 false (.s 9) 77))) State.reset).waves 0).map (fun w => w.scalar 9) = some 77 := by decide +kernel
/-- The worked translation of the spec (R97 to R99), its three table entries in memory. -/
theorem test_walk_example :
    let m := [(0x200000028, 0x0000000200002001), (0x200002918, 0x0000000200004001), (0x200005538, 0x0000006002000017)].foldl
      (fun m x => Memory.writeN m x.1 (leBytes 8 x.2)) State.reset.mem
    let s := { State.reset with mem := m, parts := [(0, { partOf State.reset 0 with xlroot := 0x200000000 })] }
    (match translateNow s 0 0xA91D4EF81ABC .read with | .ok (.dev pa, _) => pa == 0x6002F81ABC | _ => false) = true := by decide +kernel

/-! ## Instructions that run on a state of the module brought up -/

def w1 : List Instr := [
  .iadd h0 .w32 .wrap (.v 1) (.v 0) (.reg (.v 2)), .isub h0 .w64 .ss (.v 2) (.v 4) (.v 6), .iaddw h0 true (.v 2) (.v 4) (.v 6),
  .imul h0 .w32 (.v 1) (.v 0) (.imm 5), .imulhi h0 true (.v 1) (.v 0) (.v 3), .imad h0 .b64 (.v 2) (.v 4) (.v 6) (.v 8),
  .imadw h0 false (.v 2) (.v 4) (.v 6) (.v 8), .idiv h0 .w32 true (.v 1) (.v 0) (.v 3), .irem h0 .w64 false (.v 2) (.v 4) (.v 6),
  .imin h0 .w32 true (.v 1) (.v 0) (.v 3), .imax h0 .w32 false (.s 1) (.s 0) (.s 3), .iabs h0 .w32 true (.v 1) (.v 0),
  .iadd h0 .w64 .us (.s 62) (.s 0) (.imm 0x80000), .imul h0 .w64 (.v 190) (.v 188) (.reg (.c .minusOne)), .iabs h0 .w64 false (.v 2) (.v 190)]
def w2 : List Instr := [
  .and h0 .w32 (.v 1) (.v 0) (.reg (.v 3)), .or h0 .w64 (.v 2) (.v 4) (.imm 0xFFFFF), .xor h0 .w32 (.s 1) (.s 0) (.reg (.c .one)),
  .bcond h0 .w32 .or .and (.v 5) (.v 1) (.v 2) (.v 3), .shl h0 .w64 (.v 2) (.v 4) (.imm 63), .shr h0 .w32 (.v 1) (.v 0) (.reg (.v 3)),
  .sar h0 .w64 (.v 8) (.v 8) (.imm 63), .rotl h0 .w32 (.v 1) (.v 0) (.imm 33), .bfe h0 .w32 true (.v 4) (.v 9) (.c .four) (.v 10),
  .bfi h0 .w64 (.v 2) (.v 4) (.v 6) (.v 8), .popc h0 .w64 (.v 1) (.v 2), .clz h0 .w32 (.v 1) (.v 0), .brev h0 .w32 (.v 1) (.v 0),
  .bcond h0 .w64 .zero .one (.v 190) (.v 2) (.v 4) (.v 6), .bfe h0 .w64 false (.v 2) (.v 4) (.c .zero) (.v 10), .rotl h0 .w64 (.s 62) (.s 0) (.imm 0xFFFFF)]
def w3 : List Instr := [
  .icmp h0 .i32 .ge .none (.p 1) (.v 1) (.imm 20) (.v 0), .icmp h0 .n32 .ge .and (.p 1) (.v 2) (.reg (.v 3)) (.p 4),
  .sel h0 .w32 (.v 1) (.v 2) (.v 3) (.p 1), .mov h0 .w64 (.v 2) (.s 4), .movi h0 false (.v 9) 0x3FC00000, .movi h0 true (.v 8) 0x80000000,
  .movhi h0 (.s 2) 0x80000, .addpc h0 (.v 2) 1]
def w4 : List Instr := [
  .fadd h0 .f32 .rne false (.v 5) (.v 7) (.c .fOne) (.v 0), .fmul h0 .f16x2 .rz true (.v 5) (.v 7) (.v 6) (.v 0),
  .ffma h0 .bf16x2 .ru false (.v 5) (.v 7) (.v 6) (.v 3), .fscale h0 .f32 .sr false (.v 5) (.v 7) (.v 6) (.v 3), .fmin h0 .f32 (.v 5) (.v 7) (.v 6),
  .fmax h0 .f16x2 (.v 5) (.v 7) (.v 6), .fdot2 h0 true true (.v 5) (.v 7) (.v 6) (.v 3), .fdot4 h0 false false (.v 5) (.v 7) (.v 6) (.v 3),
  .icmp h0 .i64 .lt .xor (.v 191) (.v 2) (.reg (.v 4)) (.p 7), .sel h0 .w64 (.v 190) (.v 2) (.v 4) (.c .minusOne), .movi h0 true (.s 62) 0xFFFFFFFF, .addpc h0 (.s 62) 0x80000]
def w5 : List Instr := [
  .fcmp h0 .f32 .lt .none .lo (.p 1) (.v 7) (.v 6) (.v 0), .fcmp h0 .f16x2 .un .none .both (.p 1) (.v 7) (.v 6) (.v 0),
  .fclass h0 .f32 0x1FF false (.p 1) (.v 7), .frnd h0 .f32 .rne (.v 5) (.v 7), .ffrac h0 (.v 5) (.v 7),
  .fadd h0 .bf16x2 .rd true (.v 191) (.c .fNan) (.c .fInf) (.v 0), .fdot4 h0 true true (.s 63) (.s 7) (.c .fOne) (.s 3),
  .fcmp h0 .bf16x2 .ord .and .lo (.v 191) (.v 7) (.v 6) (.p 3), .fclass h0 .f16x2 0 false (.v 5) (.v 7), .fclass h0 .bf16x2 0x1FF true (.p 7) (.v 7)]
def w6 : List Instr := [
  .frcp h0 .rne (.v 5) (.v 7), .frsq h0 .rz (.v 5) (.v 7), .fsqrt h0 .ru (.v 5) (.v 7), .fexp2 h0 .rd (.v 5) (.v 7),
  .flog2 h0 .rna (.v 5) (.v 7), .fsinpi h0 .rne (.v 5) (.v 7), .fcospi h0 .rne (.v 5) (.v 7),
  .fcospi h0 .rna (.v 191) (.c .fHalf), .frcp h0 .rna (.s 63) (.s 0)]
def w7 : List Instr := [
  .f2i h0 .n8 .rz (.v 5) (.v 7), .i2f h0 .i64 .rne (.v 5) (.v 6) (.v 0), .fcvt h0 .f32e4m3 .rne true (.v 5) (.v 7) (.v 0),
  .pack h0 .e4m3 .rne false true (.v 5) (.v 7) (.v 6) (.v 0), .unpack h0 .e5m2 3 (.v 5) (.v 7), .gqdec h0 true 3 .rne false (.v 5) (.v 7) (.v 6) (.v 3),
  .f2i h0 .i64 .rna (.v 190) (.v 7), .i2f h0 .n8 .sr (.v 5) (.v 6) (.v 3), .fcvt h0 .e8m0f32 .rne false (.v 5) (.v 7) (.v 0), .pack h0 .bf16 .sr true false (.v 5) (.v 7) (.v 6) (.v 3), .gqdec h0 false 7 .sr true (.v 5) (.v 7) (.v 6) (.v 3), .unpack h0 .f16 1 (.v 5) (.v 7)]
def w8 : List Instr := [
  .lperm h0 .fwd 5 (.v 2) (.v 1) (.c .two), .pgathCnt h0 .every (.p 1) (.p 2), .pgathRank h0 (.v 1) (.p 2), .pgathMask h0 (.s 1) (.p 2),
  .lfirst h0 (.p 1), .lkin h0 .w64 (.v 2) (.v 2), .lread h0 .w32 (.s 1) (.v 2) (.s 3),
  .lperm h0 .xmask 0 (.v 191) (.v 1) (.v 3), .pgathCnt h0 .some (.s 63) (.p 0), .pgathCnt h0 .some (.v 3) (.p 7), .lfirst h0 (.s 63), .lkin h0 .w32 (.v 1) (.v 1), .lread h0 .w64 (.s 62) (.v 190) (.c .minusOne)]
def w9 : List Instr := [
  .srd h0 .addB64 (.s 2) (.v 2), .dred h0 .addI32 (.s 5) (.v 1), .scan h0 .addI32Incl (.v 3) (.v 1), .pcond h0 .and .or (.p 1) (.p 2) (.p 3) (.p 4),
  .pmovGet h0 (.v 1), .pmovSet h0 0xFE (.v 1),
  .srd h0 .minN32 (.s 63) (.v 191), .dred h0 .maxF32 (.s 63) (.v 0), .scan h0 .addF32Excl (.v 191) (.v 191), .pcond h0 .zero .one (.p 7) (.c .zero) (.c .minusOne) (.p 0), .pmovSet h0 0 (.v 191)]
def w10 : List Instr := [.nop h0, .region h0, .bra h0 2, .call h0 2 4]

/-! ## States that meet the hypotheses: words that read and write registers -/

theorem wit_IntegerArithmetic : allRun w1 = true := by decide +kernel
theorem wit_BitAndLogic : allRun w2 = true := by decide +kernel
theorem wit_CompareSelectMove : allRun w3 = true := by decide +kernel
theorem wit_FloatArithmetic : allRun w4 = true := by decide +kernel
theorem wit_FloatCompare : allRun w5 = true := by decide +kernel
theorem wit_SpecialFunctions : allRun w6 = true := by decide +kernel
theorem wit_Conversions : allRun w7 = true := by decide +kernel
theorem wit_LaneForms : allRun w8 = true := by decide +kernel
theorem wit_ReductionsAndPredicates : allRun w9 = true := by decide +kernel

/-! ## States that meet the hypotheses: positions, branches and exceptions -/

theorem wit_PositionWords : allRun w10 = true := by decide +kernel
theorem wit_PositionWords_region : passes { running (.region h0) id with cur := ⟨0, 0, 0x10000, 2 ^ 61, 0⟩ } (.region h0)
    (fun c => !c.inTx && decide ((nextPos c.pos c.hdr).idx ≠ 0)) = true := by decide +kernel

/-- A BRC on p1 whose guard holds in the lanes of a mask. -/
def iBrc : Instr := .brc ⟨.fine, false, 1, false⟩ 2 4 0
def sBrc (m : Mask) (f : Wave → Wave) : State := running iBrc fun w => f { w with preds := [(1, m)] }

/-- The whole split goes on: no lane taken, and every lane taken. -/
theorem wit_ConditionalBranch_whole : ([0, allLanes].all fun m => passes (sBrc m id) iBrc fun c =>
    let dest := if guardMask c = 0 then nextHeader c.pos.hdr c.hdr else c.pos.hdr + 16
    (guardMask c == 0 || guardMask c == c.sp.mask) && decide (dest ≠ c.pos.hdr + 32) && decide (c.sp.rcv ≠ some dest) && (mfree c.w.sers 16).isSome) = true := by
  decide +kernel

/-- One lane taken, with a free split and a free join record. -/
theorem wit_ConditionalBranch_splits : passes (sBrc 1 id) iBrc (fun c =>
    guardMask c != 0 && guardMask c != c.sp.mask && !c.inTx && nextHeader c.pos.hdr c.hdr != c.pos.hdr + 32 &&
      (freeSplit (putWave (sBrc 1 id) c.w) c.w).isSome && (mfree c.w.joins 3).isSome) = true := by decide +kernel

/-- A wave with all four split entries taken. -/
def fourSplits (w : Wave) : Wave :=
  { w with splits := (0, { Split.blank with pc := (w.split 0).pc, mask := 0xF, begun := true }) ::
      [1, 2, 3].map fun k => (k, { Split.blank with pc := ⟨0x10100, 0⟩, mask := BitVec.ofNat 32 (0xF0 * 2 ^ (4 * k)) }) }

theorem wit_ConditionalBranch_serial : passes (sBrc 1 fourSplits) iBrc (fun c =>
    guardMask c != 0 && guardMask c != c.sp.mask && decide (freeSplit (putWave (sBrc 1 fourSplits) c.w) c.w = none) && (mfree c.w.sers 16).isSome) = true := by
  decide +kernel

/-- A landing header at 0x10000, where an indirect branch may go. -/
def iBrx : Instr := .brx ⟨.fine, false, 1, false⟩ (.v 2) (.s 2)
def iRet : Instr := .ret ⟨.fine, false, 1, false⟩ (.v 2)
def iCallx : Instr := .callx ⟨.fine, false, 1, false⟩ (.v 4) (.v 2)
def sInd (i : Instr) (m : Mask) : State := mapped i fun w => pairs 2 0x10000 { w with preds := [(1, m)] }

theorem wit_IndirectBranch_inactive : ([iBrx, iRet, iCallx].all fun i => passes (sInd i 0) i fun c => c.act == 0) = true := by decide +kernel
theorem wit_IndirectBranch_moves : ([iBrx, iRet, iCallx].all fun i => runsWith (sInd i allLanes) i fun c =>
    c.act == c.sp.mask && (lanesOf c.act).all (fun l => src64 (sInd i allLanes) c (.v 2) l == 0x10000) && goodTarget (sInd i allLanes) c 0x10000 true &&
      goodTarget (sInd i allLanes) c 0x10000 false) = true := by
  decide +kernel
theorem wit_IndirectBranch_diverges : runsWith (sInd iBrx 1) iBrx (fun c =>
    c.act != c.sp.mask && !c.inTx && (freeSplit (putWave (sInd iBrx 1) c.w) c.w).isSome && (mfree c.w.joins 3).isSome &&
      src64 (sInd iBrx 1) c (.s 2) c.low != c.pos.hdr.toNat && src64 (sInd iBrx 1) c (.s 2) c.low != (nextHeader c.pos.hdr c.hdr).toNat) = true := by
  decide +kernel

def iExit : Instr := .exit ⟨.fine, false, 1, false⟩
def sExit (m : Mask) (f : Wave → Wave) : State := running iExit fun w => f { w with preds := [(1, m)] }
theorem wit_ExitWord_inactive : passes (sExit 0 id) iExit (fun c => c.act == 0) = true := by decide +kernel
theorem wit_ExitWord_lane : runsWith (sExit 1 id) iExit (fun c =>
    c.w.role == .lane && c.w.elems == [] && (sExit 1 id).elems.isEmpty && c.w.tx.depth == 0 && c.w.lanes &&& ~~~(c.w.exited ||| c.act) != 0) = true := by
  decide +kernel
/-- A wave of one launch whose lane 0 has an element record. -/
theorem wit_ExitWord_elems :
    let s := { sExit 1 fun w => { w with elems := [(0, 0)] } with elems := [(0, { Elem.blank with state := .running })], nextElem := 1 }
    runsWith s iExit (fun c => c.w.role != .trap && c.w.role != .task && (s.elems.all fun e => decide (e.1 < s.nextElem)) &&
      (s.bands.all fun b => b.2.shadow.isNone) && s.waves.length == 1 && bit c.act 0 && mget? c.w.elems 0 == some 0) = true := by decide +kernel
/-- A task's lanes: one names a join counter in the mapped page, the others none. -/
theorem wit_ExitWord_task :
    let s := mapped iExit fun w => { w with preds := [(1, allLanes)], role := .task, joinAddrs := [(31, 0x100)] }
    runsWith s iExit (fun c => c.w.role == .task && (match translate s c.core c.w.part 0x100 .both with | .place _ _ => true | _ => false)) = true := by
  decide +kernel

theorem wit_TrapWords_inactive : ([Instr.trap ⟨.fine, false, 1, false⟩ 0xFFFFF, .bkpt ⟨.fine, false, 1, false⟩ 0].all fun i =>
    passes (running i id) i fun c => c.act == 0) = true := by decide +kernel
theorem wit_TrapWords : ([Instr.trap h0 0xFFFFF, .bkpt h0 0].all fun i => runsWith (running i id) i fun c =>
    c.sp.rcv == none) = true := by decide +kernel
theorem wit_ExceptionEntry : mget? (loaded (.nop h0)).waves 0 = some loadWave ∧ loadWave.id = 0 := by decide +kernel
/-- v192 names no vector register of the footprint of 16 registers. -/
theorem wit_FailedCheckTraps :
    let s := running (.mov h0 .w32 (.v 17) (.v 0)) id
    let s := { s with objects := mmodify s.objects 0 fun o => { o with entries := [{ loadEntry with vregs := 16 }] } }
    (issues s (.mov h0 .w32 (.v 17) (.v 0)) (fun _ => true) &&
      (match prelude (.mov h0 .w32 (.v 17) (.v 0)) s with | .error (.raise f) => f.code == 3 | _ => false)) = true := by decide +kernel
theorem wit_InactiveWord : passes (running (.iadd ⟨.fine, false, 7, false⟩ .w32 .wrap (.v 1) (.v 0) (.imm 1)) id)
    (.iadd ⟨.fine, false, 7, false⟩ .w32 .wrap (.v 1) (.v 0) (.imm 1)) (fun c => c.act == 0) = true := by decide +kernel
theorem wit_FullFlagHolds_full :
    let s := mapped (.ld h0 .b32 (.v 4) m0) fun w => { w with flags := [(0, 63)] }
    issues s (.ld h0 .b32 (.v 4) m0) (fun c => decide (stage3 s c (.ld h0 .b32 (.v 4) m0) = none) && c.act != 0 && decide (63 ≤ mgetD c.w.flags c.flag 0)) = true := by
  decide +kernel
/-- The header names no flag B. -/
theorem wit_FullFlagHolds_invalid :
    let i : Instr := .ld ⟨.fine, true, 0, false⟩ .b32 (.v 4) m0
    let s := { mapped i id with cur := ⟨0, 0, 0x10000, 2 ^ 48, 0⟩ }
    issues s i (fun c => c.h.fsel && decide (hdrB c.hdr = none) && rateLegal c.obj.draw c.h.rate && i.rateOk c.obj.draw && !(c.inTx && i.txForbidden) &&
      (match i.parts with
       | some (op, _, body) => (lowestErr (fieldErrs (some (footprintOf c.obj c.ent)) op i c.h body ++ mmaSatErr c i ++ valueErrs s c i)).isNone
       | none => false)) = true := by decide +kernel

/-! ## States that meet the hypotheses: accesses -/

/-- Global accesses of every form, at address 0 and its lane's index, and at the last byte places of the mapped page. -/
def globals : List Instr :=
  let m : MemArg := ⟨.s 2, .v 0, 0x7F0, .rlx, .wave, .dflt⟩
  [.ld h0 .b128 (.v 4) m0, .ld h0 .n8 (.v 4) m, .st h0 .b64 (.v 4) m0, .st h0 .b8 (.v 4) m, .atom h0 (.int .add .w64) (.v 4) m0, .cas h0 .b64 (.v 4) m0,
    .cas h0 .b32nr (.v 4) m0, .casx h0 (.v 8) m0, .red h0 .addF32 (.v 4) m0]
theorem wit_GlobalAccessIssue : (globals.all fun i => runsWith (mapped i id) i fun c =>
    match i.dataRule with
    | some (d, m, _) => (accessLanes c (uniformUse d m)).all fun l =>
      isAt (globTarget (mapped i id) c (globalAddr (mapped i id) c m l) 1 .both 0) && softGranule (mapped i id) (.dev 0) == false
    | none => false) = true := by decide +kernel

/-- Scratchpad accesses of every form, at the first and the last word of the wave's 4 KiB. -/
def scratches : List (Instr × MemArg × Word) :=
  [((0 : BitVec 12), (0 : Word)), (0xFFC, 0x1000)].flatMap fun x =>
    let m : MemArg := ⟨.s 2, .c .zero, x.1, .rlx, .wave, .dflt⟩
    [(.lds h0 .b32 (.v 4) m, m, x.2), (.sts h0 .b32 (.v 4) m, m, x.2), (.atoms h0 (.int .maxI) (.v 4) m, m, x.2), (.atoms h0 .cas (.v 4) m, m, x.2)]
theorem wit_ScratchpadAccessIssue : (scratches.all fun x =>
    let s := running x.1 fun w => w.setScalar 2 x.2.2
    runsWith s x.1 fun c => (lanesOf c.act).all fun l => isAt (scrTarget s c.w (scrAddr s c x.2.1 l) 4 true)) = true := by
  decide +kernel

/-- A constant window of one line at 0x8000. -/
theorem wit_ConstantsCachesFences_ldc :
    let i : Instr := .ldc h0 .b32 (.v 4) m0
    let s := mapped i fun w => w.setScalar 2 0x807C
    let s := { s with launches := mmodify s.launches 0 fun l => { l with constBase := 0x8000, constSize := 128 } }
    runsWith s i (fun c => (accessLanes c (uniformUse (.v 4) m0)).all fun l => decide (globalAddr s c m0 l % 4 = 0 ∧ c.launch.constBase.toNat ≤ globalAddr s c m0 l ∧
      globalAddr s c m0 l + 4 ≤ c.launch.constBase.toNat + c.launch.constSize) && isAt (globTarget s c (globalAddr s c m0 l) 4 .read 0)) = true := by
  decide +kernel
theorem wit_ConstantsCachesFences_lines : ([Instr.pref h0 m0, .cinv h0 m0].all fun i => runsWith (mapped i id) i fun c =>
    (lanesOf c.act).all fun l => match translate (mapped i id) c.core c.w.part (globalAddr (mapped i id) c m0 l) .read with
      | .place (.dev pa) k => (mapped i id).bands.isEmpty && (bandOf (mapped i id) (pa / 128)).keyId == k.keyId
      | _ => false) = true := by decide +kernel
theorem wit_ConstantsCachesFences_fence : allRun [.fence h0 .rlx .wave, .fence h0 .acqrel .sys, .fencex h0] = true := by decide +kernel

/-- The state after the issue of an access. -/
def issued (i : Instr) (f : Wave → Wave) : State := next (exec i (mapped i f)) (mapped i f)

theorem wit_StorePerforms : firstReady (issued (.st h0 .b64 (.v 4) m0) id) false (fun w e a =>
    e.kind == .store && e.tx == 0 && turns (issued (.st h0 .b64 (.v 4) m0) id) w e a && homed (issued (.st h0 .b64 (.v 4) m0) id) a && a.loc.isDev) = true := by
  decide +kernel
theorem wit_LoadPerforms : firstReady (issued (.ld h0 .i8 (.v 191) m0) id) false (fun w e a =>
    e.kind == .load && e.tx == 0 && !e.dead && w.id == 0 && (match e.dst with | some d => decide (d.code + d.regs ≤ 192) | none => false) &&
      (faultyLanes (issued (.ld h0 .i8 (.v 191) m0) id) w e).isEmpty && homed (issued (.ld h0 .i8 (.v 191) m0) id) a && a.loc.isDev) = true := by decide +kernel
/-- Address pair s2 at die scope. -/
def mDie : MemArg := { m0 with scope := .die }
theorem wit_AtomicPerforms : ([Instr.atom h0 (.int .add .w64) (.v 4) mDie, .cas h0 .b64 (.v 4) mDie, .casx h0 (.v 8) mDie, .red h0 .maxI32 (.v 4) mDie].all fun i =>
    firstReady (issued i id) false fun w e a => e.tx == 0 && decide (0 < a.bytes) && !inL1 e a && (faultyLanes (issued i id) w e).isEmpty &&
      turns (issued i id) w e a && homed (issued i id) a &&
      (match e.kind with | .atomAcc _ => true | .cas _ => true | .red v => !v.isFloatAdd | _ => false) &&
      (match a.loc with | .dev pa => decide (pa / 128 = (pa + a.bytes - 1) / 128) | _ => false)) = true := by
  decide +kernel
theorem wit_AcquireDropsL1 : (Scope.sys ≠ .wave ∧ Scope.sys ≠ .core) ∧ (Scope.quad ≠ .wave ∧ Scope.quad ≠ .core) := by decide
theorem wit_FencePerforms :
    let s := issued (.fence h0 .acqrel .die) id
    (match mget? s.waves 0 with
     | some w => w.id == 0 && (match findEntry w 0 with
       | some e => e.kind == .fence && e.accs != [] && e.accs.all fun a => mayPerform s w e a
       | none => false)
     | none => false) = true := by decide +kernel
theorem wit_QueueSteps_enqueue : firstReady (issued (.st h0 .b32 (.v 4) m0) id) false (fun w e a =>
    e.tx == 0 && !inL1 e a && !passed (issued (.st h0 .b32 (.v 4) m0) id) w e a && decide (0 < a.bytes) && e.kind != .fence && a.loc == .dev 0) = true := by decide +kernel
theorem wit_QueueSteps_apply :
    let s := issued (.st h0 .b32 (.v 4) m0) id
    let s := next (exec (.homeQueueEnqueue 0 0 0) s) s
    ((match (mgetD s.homeQ (homeOf 0) [])[0]? with
      | some q => !tieWaits s (mgetD s.homeQ (homeOf 0) []) q && q.wave == 0 && q.entry == 0 && q.lane == 0
      | none => false) && homeOf 0 != fabricQueue &&
      firstReady s true fun _ e a => e.kind == .store && e.tx == 0 && a.loc == .dev 0 && homed s a) = true := by decide +kernel
/-- A marker of the wave, sent a timeout ago. -/
def sMarker : State := { loaded (.nop h0) with markers := [⟨0, 0, 143, 35, false, 0⟩], clock := markerLimit }
theorem wit_QueueSteps_markers :
    ((mget? sMarker.waves 0).isSome && sMarker.markers.all fun m => m.wave == 0 && !m.gathered && decide (m.sent + markerLimit ≤ sMarker.clock)) = true := by
  decide +kernel

/-! ## States that meet the hypotheses: copies, transactions, barriers, waits, tasks -/

def noCopies (s : State) (core : Nat) : Bool := (inFlight s core).isEmpty

/-- A copy of 16 bytes, and one of 32,768, the least and the greatest length. -/
def iCpy : Instr := .cpy h0 .g2g (.s 12) (.s 8) (.s 6) (.s 10)
theorem wit_CopiesStart_cpy : ([16, 32768].all fun n =>
    let s := running iCpy fun w => (w.setScalar 10 n).setScalar 8 0x10
    runsWith s iCpy fun c => noCopies s c.core && decide (src s c (.s 10) c.low % 16 = 0 ∧ 16 ≤ src s c (.s 10) c.low ∧ src s c (.s 10) c.low ≤ 32768 ∧
      src64 s c (.s 8) c.low % 16 = 0 ∧ src64 s c (.s 6) c.low % 16 = 0)) = true := by decide +kernel
theorem wit_CopiesStart_length : ([8, 0, 32784].all fun n =>
    runsWith (running iCpy fun w => w.setScalar 10 n) iCpy fun c =>
      let k := src (running iCpy fun w => w.setScalar 10 n) c (.s 10) c.low
      decide (k % 16 ≠ 0 ∨ k < 16 ∨ 32768 < k)) = true := by decide +kernel
/-- A claim of slots 0 to 3, role A, e4m3, block size 32. -/
def claim0 : Claim := ⟨0, 4, 2, false, 0, 0, 0⟩
def claimed (w : Wave) : Wave := { w with bench := { w.bench with claims := [claim0] } }
theorem wit_CopiesStart_plates : ([Instr.cpyp h0 false (.s 12) (.s 8) (.s 16) (.s 10), .cpyp h0 true (.s 12) (.s 8) (.s 16) (.s 10),
    .cpyc h0 (.s 12) (.s 8) (.s 16) (.s 10)].all fun i => runsWith (running i claimed) i fun c =>
      noCopies (running i claimed) c.core && decide (src (running i claimed) c (.s 10) c.low % 16 = 0)) = true := by decide +kernel
theorem wit_CopiesStart_signal :
    let i : Instr := .cpysig h0 true (.s 12) (.s 16) (.s 8) (.s 10)
    let s := running i fun w => w.setScalar 10 16
    runsWith s i (fun c => noCopies s c.core && decide ((nthD (srcs s c (.s 10) 2 c.low) 0 0).toNat = 16 ∧ src64 s c (.s 8) c.low % 16 = 0 ∧
      ofWords ((srcs s c (.s 16) 4 c.low).take 2) % 16 = 0 ∧ ofWords ((srcs s c (.s 16) 4 c.low).drop 2) % 8 = 0)) = true := by decide +kernel

/-- A wave with one batch of one copy. -/
def batched (w : Wave) : Wave := { w with batches := [⟨0, [0]⟩], batchNext := 1 }
def copy0 (i : Instr) (done : Bool) (faults : List (Nat × Nat × DWord)) : Copy :=
  { id := 0, wave := 0, part := 0, launch := 0, core := 0, centry := 3, seq := 0, plan := .raw (.glob 0) (.glob 0) 16, planned := true, units := [],
    chunks := 1, bits := 0, after := 0, label := 0, alabel := 0, ctx := 0, plat := [], platLabel := 0, faults := faults, refusal := 0, sigDone := false, done := done && i.parts.isSome }
def sBatch (i : Instr) (done : Bool) (faults : List (Nat × Nat × DWord)) : State := { running i batched with copies := [(0, copy0 i done faults)] }
def iWait : Instr := .cwait h0 (.c .zero)
def iWaitSt : Instr := .cwaitSt h0 (.s 1) (.c .zero)
theorem wit_CopyBatches_seal : runsWith (running (.cseal h0 (.s 63)) id) (.cseal h0 (.s 63)) (fun c => c.w.batches.isEmpty && c.sp.reseal.isEmpty) = true := by decide +kernel
/-- A split that is to seal batch 3 again. -/
theorem wit_CopyBatches_again :
    let i : Instr := .cseal h0 (.s 63)
    runsWith (running i fun w => { w with splits := mmodify w.splits 0 fun sp => { sp with reseal := [⟨3, [0]⟩] } }) i (fun c =>
      c.sp.reseal == [⟨3, [0]⟩] && c.w.batches.isEmpty) = true := by decide +kernel
/-- Sixteen batches, none done. -/
theorem wit_CopyBatches_full :
    let s := { sBatch (.cseal h0 (.s 1)) false [] with
      waves := mmodify (sBatch (.cseal h0 (.s 1)) false []).waves 0 fun w => { w with batches := (List.range 16).map fun n => ⟨n, [0]⟩, batchNext := 16 } }
    runsWith s (.cseal h0 (.s 1)) (fun c => decide (16 ≤ (c.w.batches.filter fun b => !batchDone s c.w b.num).length)) = true := by decide +kernel
theorem wit_CopyBatches_done : ([iWait, iWaitSt].all fun i => runsWith (sBatch i true []) i fun c =>
    !c.inTx && (batchCopies (sBatch i true []) c.w (src (sBatch i true []) c (.c .zero) c.low)).length == 1 &&
      (batchCopies (sBatch i true []) c.w 0).all fun cp => cp.done && cp.first.isNone) = true := by decide +kernel
theorem wit_CopyBatches_open : runsWith (sBatch iWait false []) iWait (fun c =>
    !c.inTx && (batchCopies (sBatch iWait false []) c.w (src (sBatch iWait false []) c (.c .zero) c.low)).any fun cp => !cp.done && cp.bits != 2 ^ cp.chunks - 1) = true := by decide +kernel
theorem wit_CopyBatches_fault : ([iWait, iWaitSt].all fun i => runsWith (sBatch i true [(0, 6, 0)]) i fun c =>
    !c.inTx && batchDone (sBatch i true [(0, 6, 0)]) c.w 0 && (batchFault (sBatch i true [(0, 6, 0)]) c.w 0).isSome) = true := by decide +kernel
theorem wit_CopyBatches_ctest :
    let i : Instr := .ctest h0 (.p 1) (.c .zero) (.s 2)
    runsWith (running i id) i (fun _ => true) = true := by decide +kernel

/-- A wave in a transaction of a depth whose split 0 owns it. -/
def inTx (depth : Nat) (f : Tx → Tx) (w : Wave) : Wave :=
  { w with tx := f { Tx.closed with depth := depth, scope := .die, origin := ⟨0x10000, 0⟩, alts := List.replicate depth none } }
theorem wit_TransactionLevels_open : ([Instr.txb h0 none .core, .txb h0 (some 2) .pkg].all fun i => runsWith (running i id) i fun c =>
    c.w.tx.depth == 0 && c.w.tx.aborts != 16 && !c.w.tx.wantToken) = true := by decide +kernel
/-- The serial mode: 16 aborts, with and without the token. -/
def sSerial (i : Instr) (token : Option Nat) : State := { running i (fun w => { w with tx := { w.tx with aborts := 16 } }) with token := token }
theorem wit_TransactionLevels_serial : ([some 0, none].all fun token => runsWith (sSerial (.txb h0 none .core) token) (.txb h0 none .core) fun c =>
    c.w.tx.depth == 0 && c.w.tx.aborts == 16 && !c.w.tx.wantToken && decide (c.w.id ∉ (sSerial (.txb h0 none .core) token).tokenQ)) = true := by decide +kernel
theorem wit_TransactionLevels_nest : ([1, 3].all fun n => runsWith (running (.txb h0 none .die) (inTx n id)) (.txb h0 none .die) fun c => c.inTx) = true := by
  decide +kernel
theorem wit_TransactionLevels_inner : ([2, 4].all fun n => runsWith (running (.txe h0) (inTx n id)) (.txe h0) fun c => decide (1 < c.w.tx.depth)) = true := by
  decide +kernel
/-- A transaction with one buffered byte and one line read. -/
def txWrites (conflict : Bool) (t : Tx) : Tx :=
  { t with writes := [⟨.dev 0x8000, PageAttr.plain, 0x8000, 1, 5, 0, 0, .dflt⟩], reads := [⟨.dev 0x100, 0x8000, 0, 1, true, conflict, conflict⟩] }
theorem wit_TransactionCommit : ([false, true].all fun b => runsWith (running (.txe h0) (inTx 1 (txWrites b))) (.txe h0) fun c =>
    let s := running (.txe h0) (inTx 1 (txWrites b))
    c.w.tx.depth == 1 && c.inTx && txQuiet c.w && releaseReady s c.w (txScope c.w.tx.scope) && !c.w.tx.serial && !((txLines c.w).any fun l => lockedByOther s c.w.id l) &&
      (c.w.tx.writes.all fun x => writeAllowed s c.w.part x.label x.loc 1) && (c.w.tx.reads.all fun r => r.live && r.conflict == b) && s.poisoned.isEmpty &&
      s.bands.isEmpty && (c.w.tx.writes.all fun x => x.page.keyId == 0)) = true := by decide +kernel
theorem wit_TransactionRetry : ([some (0x10040 : DWord), none].all fun a => runsWith (running (.retry h0) (inTx 1 fun t => { txWrites false t with alts := [a] })) (.retry h0)
    fun c => c.w.tx.depth == 1 && c.inTx && txQuiet c.w && nthD c.w.tx.alts 0 none == a && c.w.tx.reads.all fun r => !r.written) = true := by decide +kernel
/-- An inner level with an alternative. -/
theorem wit_TransactionRetry_inner :
    let s := running (.retry h0) (inTx 2 fun t => { txWrites false t with alts := [none, some 0x10040] })
    runsWith s (.retry h0) (fun c => c.w.tx.depth == 2 && c.inTx && txQuiet c.w && nthD c.w.tx.alts 1 none == some 0x10040 && c.sp.rcv != some 0x10040) = true := by
  decide +kernel
theorem wit_TransactionExit : runsWith (running (.txx h0) (inTx 4 (txWrites false))) (.txx h0) (fun c => c.inTx && txQuiet c.w && c.sp.rcv.isNone) = true := by
  decide +kernel

theorem wit_BarrierWords_arrive : ([BarScope.core, .quad, .die, .pkg, .pod].all fun sc =>
    [Instr.bara h0 sc 15 (.c .two), .bar h0 sc 15 (.c .two)].all fun i => runsWith (running i id) i fun c =>
      !c.sp.arrived && c.w.podSent.isEmpty && releaseReady (running i id) c.w (barOrder sc) && (makeBar (running i id) c.w sc 15).2.arrived == 0) = true := by
  decide +kernel
/-- The wave has arrived in phase 0 of barrier 2 of its block, which stands in phase 1 or still in phase 0. -/
def sBar (i : Instr) (phase : Word) : State :=
  { running i (fun w => { w with barLast := [(0, 0)], barHere := [0], splits := mmodify w.splits 0 fun sp => { sp with arrived := true } }) with
    nextBar := 1, barriers := [(0, { (makeBar (running i id) loadWave .core 2).2 with phase := phase, count := 2 })] }
theorem wit_BarrierWords_wait : ([Instr.bar h0 .core 2 (.c .zero), .barw h0 .core 2].all fun i => [(0 : Word), 1].all fun p =>
    runsWith (sBar i p) i fun c => c.sp.arrived && !c.inTx && barPassed c.w (makeBar (sBar i p) c.w .core 2).2 == (p == 1)) = true := by decide +kernel
theorem wit_BarrierWords_phase :
    let b := (makeBar (running (.barw h0 .core 2) id) loadWave .core 2).2
    ((mget? (running (.barw h0 .core 2) id).waves loadWave.id).isSome && loadWave.barHere.isEmpty && decide (b.arrived + 1 ≠ 2) && decide (b.arrived + 1 = 1)) = true := by
  decide +kernel

/-- The word at address 0x8000 holds 0; waits on it that hold, and waits that do not. -/
def m8 : MemArg := ⟨.s 2, .c .zero, 0, .acq, .die, .dflt⟩
def sWord (i : Instr) (v : Word) : State :=
  let s := mapped i fun w => w.setScalar 2 0x8000
  { s with mem := Memory.writeN s.mem 0x8000 (leBytes 4 v.toNat) }
theorem wit_WordWaits : ([(Instr.waitc h0 .eqB32 (.c .zero) m8, (0 : Word)), (.waitc h0 .neB32 (.c .zero) m8, 1), (.waitc h0 .geN32 (.c .one) m8, 1),
    (.waitc h0 .ltN32 (.c .one) m8, 0), (.waitc h0 .eqB64 (.c .zero) m8, 0), (.waitc h0 .neB64 (.c .zero) m8, 1), (.waitc h0 .eqB32 (.c .zero) m8, 1),
    (.waitc h0 .geN32 (.c .one) m8, 0), (.join h0 { m8 with order := .rlx, scope := .wave }, 0), (.join h0 { m8 with order := .rlx, scope := .wave }, 1)].all fun x =>
    let s := sWord x.1 x.2
    runsWith s x.1 fun c => (match globTarget s c (globalAddr s c m8 c.low) 8 .read 0 with | .at (.dev pa) page => pa == 0x8000 && page.keyId == 0 | _ => false) && !c.inTx &&
      readNow s c (.dev 0x8000) 8 && !isPoisoned s (.dev 0x8000) && s.bands.isEmpty && leNat (readBytes s (.dev 0x8000) 8) == x.2.toNat) = true := by
  decide +kernel

/-- An object whose entry 1 is a task entry. -/
def withTask (s : State) : State := { s with objects := mmodify s.objects 0 fun o => { o with entries := o.entries ++ [{ loadEntry with kind := 2 }] } }
def iSpawn : Instr := .spawn ⟨.fine, false, 1, false⟩ 1 (.v 4) (.v 2)
def sSpawn (m : Mask) : State := withTask (mapped iSpawn fun w => pairs 2 0x8000 { w with preds := [(1, m)] })
theorem wit_SpawnWords : runsWith (sSpawn 1) iSpawn (fun c => (lanesOf c.act).all (fun l => isAt (joinTarget (sSpawn 1) c (src64 (sSpawn 1) c (.v 2) l) 1)) &&
    decide (inTransit (sSpawn 1) c.core + (lanesOf c.act).length ≤ queueRoom (sSpawn 1) c.core + overflowRoom (sSpawn 1) c.w.launch (dieOfCore c.core))) = true := by
  decide +kernel
theorem wit_SpawnWords_inactive : passes (sSpawn 0) iSpawn (fun c => c.act == 0) = true := by decide +kernel
theorem wit_SpawnWords_seal : allRun [.spfl h0] = true := by decide +kernel

/-! ## States that meet the hypotheses: bench, matrix unit, draws, textures, rays, system -/

/-- The descriptor of slots 28 to 31, format 2 (R336), in s2 and s3. -/
def iClaim : Instr := .bclaim h0 (.s 2)
def sClaim : State := running iClaim fun w => w.setScalar 2 (28 + 4 * 32 + 2 * 2048)
theorem wit_BenchWords_claim : runsWith sClaim iClaim (fun c => matrixIdle sClaim c.w.quad && c.w.bench.claims.isEmpty && c.ent.bench == 32 &&
    (match claimOf (src64 sClaim c (.s 2) c.low) with | some cl => cl.first == 28 && cl.count == 4 | none => false)) = true := by decide +kernel
/-- A range that takes a claim in whole, and one that takes none. -/
theorem wit_BenchWords_release : ([(4 : Nat), 0].all fun n =>
    let s := running (.brel h0 (.s 2)) fun w => (claimed w).setScalar 2 (BitVec.ofNat 32 (32 * n))
    runsWith s (.brel h0 (.s 2)) fun c => matrixIdle s c.w.quad && s.copies.isEmpty && src s c (.s 2) c.low / 32 % 64 == n && c.w.bench.claims.length == 1) = true := by
  decide +kernel
/-- Lane l names word l of slot 0; the last word of slot 3. -/
theorem wit_BenchWords_words : ([(0 : Word), 8188].all fun off => [Instr.bst h0 (.v 1) ⟨.s 2, .c .zero, 0, .rlx, .wave, .dflt⟩,
    .brd h0 (.v 1) ⟨.s 2, .c .zero, 0, .rlx, .wave, .dflt⟩].all fun i =>
    let s := running i fun w => (claimed w).setScalar 2 off
    runsWith s i fun c => s.soft.isEmpty && (lanesOf c.act).all fun l =>
      let a := benchAddr s c ⟨.s 2, .c .zero, 0, .rlx, .wave, .dflt⟩ l
      decide (a % 4 = 0 ∧ a < 65536) && (claimAt c.w.bench (a / 2048)).isSome) = true := by decide +kernel

/-- Claims of slots 0 to 3 as role A and 4 to 7 as role B, in one format. -/
def claims2 (f : Nat) (w : Wave) : Wave := { w with bench := { w.bench with claims := [⟨0, 4, f, false, 0, 0, 0⟩, ⟨4, 4, f, true, 0, 0, 0⟩] } }
theorem wit_MatrixWords : ([Instr.mma h0 false true true 7 0 4, .mma h0 true false false 0 0 4, .ard h0 true 7 3 .rz true (.v 8), .awr h0 false 0 7 (.v 8),
    .aclr h0 7].all fun i => runsWith (running i (claims2 1)) i fun c => (running i (claims2 1)).soft.isEmpty && matrixIdle (running i (claims2 1)) c.w.quad) = true := by
  decide +kernel
/-- Rows 32 bytes apart in the mapped page, and in the scratchpad. -/
theorem wit_MatrixWords_ast : ([(0 : Word), 8].all fun ctl => [AstV.i8, .b32].all fun v =>
    let i : Instr := .ast h0 v (.s 1) ⟨.v 2, .s 4, 0, .rlx, .wave, .dflt⟩
    let s := mapped i fun w => (w.setScalar 1 ctl).setScalar 4 32
    runsWith s i fun c => matrixIdle s c.w.quad && astControlOk v (src s c (.s 1) c.low) && s.soft.isEmpty && (lanesOf c.act).all fun r => [0, 63].all fun k =>
      let a := r * 32 + k * astBytes v
      isAt (if ctl = 8 then scrTarget s c.w a (astBytes v) true else globTarget s c a (astBytes v) .write 0)) = true := by decide +kernel

/-- The wave after a matrix word, whose operation stands first in the unit. -/
def sMat (i : Instr) : State := next (exec i (running i (claims2 1))) State.reset
theorem wit_MatrixResults : ([Instr.mma h0 false true true 7 0 4, .ard h0 true 7 3 .rz true (.v 184), .awr h0 false 0 7 (.v 8),
    .bst h0 (.v 1) ⟨.s 2, .v 10, 0, .rlx, .wave, .dflt⟩, .brd h0 (.v 191) ⟨.s 2, .v 10, 0, .rlx, .wave, .dflt⟩].all fun i =>
    match mget? (sMat i).waves 0 with
    | some w => w.id == 0 && (w.lanes &&& ~~~w.exited) != 0 && (match w.long with
      | [o] => findLong w o.id == some o && !o.dead && matrixFirst (sMat i) w.quad o.id && (match o.what with
        | .matrix (.mma _ _ _ _ a b _) => (claimAt w.bench a).isSome && (claimAt w.bench b).isSome
        | .matrix (.ard _ _ _ _ _ d _) => decide (d + 8 ≤ 192)
        | .matrix (.awr _ _ g rows _) => decide ((rows.map fun x => x.1).Nodup) && decide (g < 8) && rows.all fun x => decide (x.2.length ≤ 8)
        | .matrix (.bst ws _) => ws.all fun x => x.1 % 4 == 0
        | .matrix (.brd d offs _) => decide (d < 192) && decide ((offs.map fun x => x.1).Nodup) && offs.all fun y => decide (y.1 < 32)
        | _ => false)
      | _ => false)
    | none => false) = true := by decide +kernel
/-- BST names words: one active lane names one word. -/
theorem wit_MatrixResults_bst :
    let i : Instr := .bst ⟨.fine, false, 1, false⟩ (.v 1) ⟨.s 2, .v 10, 0, .rlx, .wave, .dflt⟩
    (match mget? (next (exec i (running i fun w => claims2 1 { w with preds := [(1, 1)] })) State.reset).waves 0 with
     | some w => (match w.long with
       | [o] => (match o.what with | .matrix (.bst ws _) => decide ((ws.map fun x => x.1).Nodup) && ws.length == 1 | _ => false)
       | _ => false)
     | none => false) = true := by decide +kernel

/-- A draw of no target. -/
def draw0 : Draw :=
  { width := 64, height := 64, samples := 1, cull := 0, depthCmp := 0, reproj := false, tol := 0, visPrev := 0, visCur := 0, depthT := 0, targets := [],
    objs := [], cands := [], depth0 := [] }
/-- A wave of a draw program at a rate, one lane, with the element of that lane and three VERTEX elements that it interpolates. -/
def sDraw (rate : Rate) : State :=
  let s := running (.nop h0) fun w => { w with rate := rate, lanes := 1, elems := [(0, 0)], splits := mmodify w.splits 0 fun sp => { sp with mask := 1 } }
  { s with
    objects := mmodify s.objects 0 fun o => { o with draw := true, entries := [{ loadEntry with kind := 1, held := [(0, 2, 1), (1, 1, 0)] }] }
    launches := mmodify s.launches 0 fun l => { l with draw := some draw0 }
    elems := (0, { Elem.blank with rate := rate, interp := [1, 2, 3] }) :: [1, 2, 3].map fun k => (k, { Elem.blank with id := k, rate := .vertex }) }
def hc : Ctl := ⟨.coarse, false, 0, false⟩
def hk : Ctl := ⟨.cluster, false, 0, false⟩
def hv : Ctl := ⟨.vertex, false, 0, false⟩
theorem wit_DrawWords_coarse : ([Instr.hfree hc (.h 1), .ipa hc .persp (.v 2) (.h 0), .kill hc, .outs hc (.colour 3) (.v 4), .outs hc .vis (.v 4)].all fun i =>
    decodesTo i.word i && runsWith (sDraw .coarse) i fun c => (sectionOf c.ent 1).isSome && c.launch.draw.isSome && (lanesOf c.act).all fun l =>
      (match mget? c.w.elems l with
       | some id => (match mget? (sDraw .coarse).elems id with
         | some el => (outPlaces (sDraw .coarse) c.w.part draw0 (.colour 3) el).isEmpty && !platAway (sDraw .coarse) c.w.part (OutT.plat draw0 (.colour 3)) && !platAway (sDraw .coarse) c.w.part (OutT.plat draw0 .vis)
         | none => false)
       | none => false)) = true := by decide +kernel
theorem wit_DrawWords_cluster : ([(0 : Word), 128].all fun n => [Instr.emitv hk (.v 1), .emitp hk (.v 2)].all fun i =>
    let s := { sDraw .cluster with waves := mmodify (sDraw .cluster).waves 0 fun w => w.setVec 1 1 fun _ => n }
    runsWith s i fun c => (lanesOf c.act).all fun l => decide ((emitOf c.w l).verts + src s c (.v 1) l ≤ 128 ∧
      readReg s c (.v 2) 0 l &&& ~~~0x007F7F7F = 0 ∧ (emitOf c.w l).tris.length < 128)) = true := by decide +kernel

theorem wit_TextureRayWords_texture : allRun [.tex h0 .tri (.v 4) (.v 2) (.v 8) (.v 1), .tex h0 .near (.s 4) (.s 8) (.s 12) (.s 1), .tld h0 (.v 4) (.v 2) (.v 8) (.v 1)] = true := by
  decide +kernel
/-- No hit entry: code 0xFF in v1. -/
theorem wit_TextureRayWords_trace :
    let i : Instr := .trace h0 7 true false (.v 8) (.v 1)
    let s := running i fun w => w.setVec 1 allLanes fun _ => 0xFF
    runsWith s i (fun c => !takesUnits s c.launch && mget? s.launches c.launch.id == some c.launch && (lanesOf c.act).all fun l => hitEntryOk c (src s c (.v 1) l % 256) && (c.w.slotOf l 7).st == .free) = true := by
  decide +kernel
def hr : Ctl := ⟨.ray, false, 0, false⟩
theorem wit_TextureRayWords_rret : runsWith (sDraw .ray) (.rret hr (.v 4)) (fun _ => true) = true := by decide +kernel
def slots (st : MboxState) (w : Wave) : Wave := { w with mbox := [(mboxKey 0 7, ⟨st, [1, 2, 3, 4], [0, 0, 0, 0]⟩)] }
theorem wit_TextureRayWords_mbox : ([Instr.mboxTry h0 7 (.v 4) (.v 8), .mboxWait h0 7 (.v 4) (.v 8)].all fun i => runsWith (running i (slots .full)) i fun c =>
    (running i (slots .full)).soft.isEmpty && !c.inTx && bit c.act 0 && (c.w.slotOf 0 7).st == .full && (lanesOf c.act).all fun l => (c.w.slotOf l 7).st != .pending) = true := by
  decide +kernel
theorem wit_TextureRayWords_pending : runsWith (running (.mboxWait h0 7 (.v 4) (.v 8)) (slots .pending)) (.mboxWait h0 7 (.v 4) (.v 8)) (fun c =>
    (running (.mboxWait h0 7 (.v 4) (.v 8)) (slots .pending)).soft.isEmpty && !c.inTx && (lanesOf c.act).any fun l => (c.w.slotOf l 7).st == .pending) = true := by
  decide +kernel
theorem wit_TextureRayWords_deliver :
    let s := running (.nop h0) (slots .pending)
    (match mget? s.waves 0 with | some w => w.id == 0 && (w.slotOf 0 7).st == .pending && (w.slotOf 1 7).st != .pending && !bit w.exited 0 && s.soft.isEmpty | none => false) = true := by
  decide +kernel

theorem wit_SystemWords_words : allRun [.lblrd h0 (.s 63) (.p 7), .lblrd h0 (.s 0) (.v 191), .csrr h0 (.s 62) 0, .csrr h0 (.v 1) 0x10, .csrr h0 (.s 1) 0x3F, .csrr h0 (.s 1) 0x20,
    .csrw h0 0x12 (.s 63)] = true := by decide +kernel
theorem wit_SystemWords_grel : ([(16 : Word), 0x1000000].all fun n => [false, true].all fun scr =>
    let i : Instr := .grel h0 scr 7 (.s 63) (.s 2) (.s 4) (.s 6)
    let s := running i fun w => w.setScalar 4 n
    runsWith s i fun c => noCopies s c.core && decide (src s c (.s 4) c.low % 16 = 0 ∧ 16 ≤ src s c (.s 4) c.low ∧ src s c (.s 4) c.low ≤ 2 ^ 24 ∧
      (readReg s c (.s 4) 1 c.low).toNat % 16 = 0 ∧ src64 s c (.s 2) c.low % 16 = 0 ∧ (src s c (.s 2) c.low).testBit 20 = false)) = true := by decide +kernel
theorem wit_SystemWords_tret : ([TretV.replay, .next, .finish].all fun m => runsWith (running (.tret h0 m (.s 1)) fun w => { w with role := .trap }) (.tret h0 m (.s 1)) fun c =>
    (findHandle (running (.tret h0 m (.s 1)) fun w => { w with role := .trap }) c.w.part 0).isNone) = true := by decide +kernel
theorem wit_SystemWords_outside : issues (running (.tret h0 .next (.s 1)) id) (.tret h0 .next (.s 1)) (fun c => c.w.role != .trap) = true := by decide +kernel

/-! ## States that meet the hypotheses: commands, launches, placement, ordering -/

/-- Queue 0 of partition 0: a ring of 8 words at 0x9000, HEAD 0, TAIL 4. -/
def queue0 : Queue := { ringBase := 0x9000, ringSize := 8, head := 0, tailIdx := 4, weight := 1, wait := .none, loops := [], deficit := [], net := [] }
/-- A module whose only launch, 0, is none of queue 0, with a queue and words of its ring. -/
def sQueue (x : Queue) (ws : List DWord) : State :=
  let s := loaded (.nop h0)
  { s with
    curQueue := (0, 0), launches := mmodify s.launches 0 fun l => { l with queue := 1 }
    parts := mmodify s.parts 0 fun p => { p with queues := [(0, x)] }
    mem := Memory.writeN s.mem 0x9000 (ws.flatMap fun w => leBytes 8 w.toNat) }
def queueAt (s : State) (f : Partition → Queue → Bool) : Bool :=
  match mget? s.parts 0 with
  | some p => decide (s.curQueue = (0, 0)) && (match mget? p.queues 0 with | some x => f p x | none => false)
  | none => false
theorem wit_CommandFlow_tail : queueAt (sQueue { queue0 with wait := .stopped } []) (fun p _ => p.vfEnabled) = true := by decide +kernel
/-- A launch of queue 0 that has not ended: a command with FENCE waits. -/
theorem wit_CommandFlow_fence :
    let s := { sQueue queue0 [] with launches := (loaded (.nop h0)).launches }
    (queueAt s (fun _ _ => true) && (Instr.signal true false 0 0).fenced && !queueIdle s 0 0) = true := by decide +kernel
theorem wit_CommandFlow_words : queueAt (sQueue queue0 [cmdHeader 0 31 true 0]) (fun _ x =>
    queueIdle (sQueue queue0 [cmdHeader 0 31 true 0]) 0 0 && (ringWord (sQueue queue0 [cmdHeader 0 31 true 0]) 0 x x.head).isSome && x.loops.isEmpty &&
      (commandWord (sQueue queue0 []) 0 0xA000).isSome && x.ringSize != 0) = true := by decide +kernel
/-- Three loops open, a fourth may open inside; four open, a fifth may not. -/
theorem wit_CommandFlow_loops : ([(3 : Nat), 4].all fun n => queueAt (sQueue { queue0 with loops := List.replicate n ⟨1, 7, 2⟩ } []) fun _ x =>
    decide (x.loops.length = n) && x.loops.all fun f => decide (1 ≤ x.span (x.head + 1) f.stop)) = true := by decide +kernel
theorem wit_CommandFlow_wake : ([false, true].all fun b => queueAt (sQueue { queue0 with wait := .word (.line (.dev 0x140)) b } []) fun _ x =>
    x.wait == .word (.line (.dev 0x140)) b) = true := by decide +kernel
/-- A word beyond the mapped pages cannot be read. -/
theorem wit_CommandFlow_unread : (commandWord (sQueue queue0 []) 0 0x2000000000).isNone = true := by decide +kernel

theorem wit_CommandMemory_signal : ([Need.both, .write].all fun need => queueAt (sQueue queue0 []) fun _ _ => queueIdle (sQueue queue0 []) 0 0 &&
    (match translateAs (sQueue queue0 []) .command 0 0xA000 need with
     | .ok (l, f) => l == .dev 0xA000 && hostReady (sQueue queue0 []) l && !poisonHit (sQueue queue0 []) l && (sQueue queue0 []).bands.isEmpty &&
       f.page.keyId == 0 && !lineHeld (sQueue queue0 []) l
     | .error _ => false)) = true := by decide +kernel
/-- The pages of host memory, whose link has failed. -/
theorem wit_CommandMemory_discard :
    let s := sQueue queue0 []
    let s := { s with link := .failed, mem := Memory.writeN s.mem 0x4000 (leBytes 8 (0x1F + 2 * 2 ^ 54)) }
    (match translateAs s .command 0 0xA000 .write with
     | .ok (l, _) => !l.isDev && hostReady s l && poisonHit s l && !lineHeld s l && queueIdle s 0 0
     | .error _ => false) = true := by decide +kernel
theorem wit_CommandMemory_busy : queueIdle { sQueue queue0 [] with launches := (loaded (.nop h0)).launches } 0 0 = false := by decide +kernel
theorem wit_CommandMemory_invxl :
    let s := sQueue { queue0 with wait := .invxl } []
    let s := { s with parts := mmodify s.parts 0 fun p => { p with invals := [(0, 0, 0x8000)] } }
    (queueAt s (fun p _ => p.invals.find? (fun x => x.1 == 0) == some (0, 0, 0x8000)) && s.waves.all fun w => !translatedIn w.2 0 0x8000) = true := by decide +kernel

/-- A launch record at 0xB000: code 0x10000, entry 0, no trap entry, 32 lanes to a block. -/
def launchRec (heldWays : Nat) : Nat := 0x10000 + 0xFF * 2 ^ 218 + 31 * 2 ^ 226 + heldWays * 2 ^ 206
def sLaunch (heldWays trap : Nat) (l2ways : BitVec 64) : State :=
  let s := sQueue queue0 [cmdHeader 1 1 false 0, 0xB000]
  { s with
    mem := Memory.writeN s.mem 0xB000 (leBytes 128 (launchRec heldWays - trap))
    parts := mmodify s.parts 0 fun p => { p with l2ways := BitVec.setWidth _ l2ways } }
def checked (s : State) (f : Partition → Launch → Bool) (g : Word → Bool) : Bool :=
  queueAt s fun p _ => match checkLaunch s p 0 0 0xB000 (recordBytes s 0 0xB000 128) none with
    | .ok l => f p l
    | .error i => g i
theorem wit_LaunchCommands_starts : checked (sLaunch 8 0 0xFFFF) (fun p l => !drawAway (sLaunch 8 0 0xFFFF) l && decide (l.heldWays + 1 ≤ (freeWays (sLaunch 8 0 0xFFFF) p l.part).length)) (fun _ => false) = true := by
  decide +kernel
/-- Fifteen of sixteen ways are held by the launch that runs. -/
theorem wit_LaunchCommands_waits :
    let s := sLaunch 1 0 0xFFFF
    let s := { s with launches := mmodify s.launches 0 fun l => { l with ways := 0xFFFE } }
    checked s (fun p l => !drawAway s l && decide ((freeWays s p l.part).length < l.heldWays + 1)) (fun _ => false) = true := by decide +kernel
/-- Trap entry 0xFE stands in no table. -/
theorem wit_LaunchCommands_refused : checked (sLaunch 0 (2 ^ 218) 0xFFFF) (fun _ _ => false) (fun i => i == BitVec.ofNat 32 (2 ^ 31 + 3)) = true := by decide +kernel
/-- Counts at 0xC000: (1, 1, 1), and (0, 1, 1). -/
theorem wit_LaunchCommands_indirect : ([(1 : Nat), 0].all fun a =>
    let s := { sLaunch 0 0 0xFFFF with mem := Memory.writeN (sLaunch 0 0 0xFFFF).mem 0xC000 (leBytes 4 a ++ leBytes 4 1 ++ leBytes 4 1) }
    queueAt s fun p _ => (match checkLaunch s p 0 0 0xB000 (recordBytes s 0 0xB000 128) (some (some (a, 1, 1))) with
      | .ok l => !drawAway s l && decide (l.heldWays + 1 ≤ (freeWays s p l.part).length)
      | .error _ => false) && (match recordBytes s 0 0xC000 12 with | some bs => leNat bs % 2 ^ 32 == a | none => false)) = true := by decide +kernel
/-- A launch that waits for ways at the command at HEAD. -/
theorem wit_LaunchCommands_ways :
    let s := sQueue { queue0 with wait := .ways 1 } [cmdHeader 1 1 false 0, 0xB000]
    let s := { s with launches := s.launches ++ [(1, { loadLaunch with id := 1, state := .waitWays })] }
    queueAt s (fun p x => x.wait == .ways 1 && p.state == .running && (match mget? s.launches 1 with
      | some l => !drawAway s l && decide (l.heldWays + 1 ≤ (freeWays s p 0).length) && (ringWord (beginLaunch s p l) 0 { x with wait := .none } x.head).isSome
      | none => false)) = true := by decide +kernel
/-- The launch's wave has ended, its list is empty and its cluster retired. -/
theorem wit_LaunchCommands_end :
    let s := loaded (.nop h0)
    let s := { s with waves := [], clusters := [] }
    (match mget? s.launches 0 with | some l => l.id == 0 && l.state == .running && !l.terminated && launchDone s l && l.draw.isNone | none => false) = true := by decide +kernel
def tenant0 : Tenant := { key := List.replicate 32 0, part := 0, rateLimit := 1, lastSeq := some 4, identities := [zero32] }
def netRec : List Byte := leBytes 128 (launchRec 0)
theorem wit_LaunchCommands_network :
    (∃ tag, tagOk tenant0 0 5 netRec tag = true) ∧ netRec.length = 128 ∧ (objectAt (sQueue queue0 []) 0 (leNat netRec % 2 ^ 64)).isSome = true ∧
      (recentLaunches (sQueue queue0 []) 0).length < tenant0.rateLimit ∧ (∃ tag, tagOk tenant0 0 4 netRec tag = true) := by
  refine ⟨⟨_, beq_self_eq_true _⟩, by decide +kernel, by decide +kernel, by decide +kernel, ⟨_, beq_self_eq_true _⟩⟩

/-- Launch 0 with one cluster left for die 0, in queue 0. -/
def sPlace : State :=
  let s := sQueue queue0 []
  { s with
    waves := [], clusters := [], launches := [(0, { loadLaunch with lists := [(0, [0])] })]
    objects := mmodify s.objects 0 fun o => { o with entries := [{ loadEntry with vregs := 32 }, { loadEntry with kind := 2, vregs := 32 }] } }
/-- The same with an empty queue 1 beside it, a deficit of queue 0, and the queue that the next visit takes. -/
def sVisit (deficit : Int) (next : Nat) : State :=
  { sPlace with
    bankRR := [(roundKey 0 0, next)]
    parts := mmodify sPlace.parts 0 fun p => { p with queues := [(0, { queue0 with deficit := [(0, deficit)] }), (1, queue0)] } }
/-- The visited queue waits with a positive deficit and a head that fits, waits without, and does not wait. -/
theorem wit_Placement_cluster : ([((1 : Int), 0), (-65536, 0), (1, 1)].all fun x =>
    let s := sVisit x.1 x.2
    queueAt s fun p _ => p.state == .running && (p.queues.any fun y => (headFit s p 0 y.1 0).isSome) &&
      ((p.queues.find? fun y => decide (mgetD s.bankRR (roundKey 0 0) 0 ≤ y.1)).map fun y => y.1) == some x.2 && queueWaiting s 0 x.2 0 == (x.2 == 0) &&
      (x.2 == 1 || (headFit s p 0 0 0).isSome && (match mget? p.queues 0 with
        | some y => decide (0 < mgetD y.deficit 0 0 + (y.weight * 65536 : Nat)) == (x.1 == 1)
        | none => false))) = true := by decide +kernel
/-- Gathers of die 0: a full one, an old one, one that may still grow, and a sealed one. -/
def gather0 (n last : Nat) (sealed : Bool) : Gather := { die := 0, launch := 0, rate := .fine, label := 0, hitEntry := 0, elems := List.range n, last := last, isSealed := sealed }
def sGather : State := { sPlace with clock := 1000, gathers := [gather0 32 1000 false, gather0 1 488 false, gather0 31 489 false, gather0 3 0 true],
                                       elems := [0, 1, 2].map fun k => (k, { Elem.blank with id := k }) }
theorem wit_Placement_seal : ([(0, true), (1, true), (2, false)].all fun x => match (sGather.gathers.filter fun y => y.die == 0 && !y.isSealed)[x.1]? with
    | some g => decide (32 ≤ g.elems.length ∨ g.last + 512 ≤ sGather.clock) == x.2
    | none => false) = true := by decide +kernel
theorem wit_Placement_gather :
    (match sGather.gathers.find? (fun g => g.isSealed && g.die == 0 && (match mget? sGather.launches g.launch with | some l => places sGather l.part | none => false)) with
     | some g => (match mget? sGather.launches g.launch with
       | some l => (match mget? sGather.parts l.part, entryOf sGather l (g.entry l) with
         | some p, some (_, e) => (rateQuad sGather p l e 0).isSome && (rateQuad sGather p l e 1).isNone && decide g.elems.Nodup &&
           g.elems.all fun id => (mget? sGather.elems id).isSome
         | _, _ => false)
       | none => false)
     | none => false) = true := by decide +kernel
/-- A creation that waits for a record, of a launch with one held way; and one of a launch with none. -/
def sHeld (ways : Nat) : State :=
  { sPlace with
    clock := 110000
    launches := [(0, { loadLaunch with heldWays := ways, holdSince := [(0, 0)] })], elems := [(0, { Elem.blank with state := .waiting })]
    objects := mmodify sPlace.objects 0 fun o => { o with entries := [{ loadEntry with held := [(1, 1, 0)] }] } }
theorem wit_Placement_record : ([(1 : Nat), 0].all fun n => (sHeld n).launches.all fun x => match firstWaiter (sHeld n) x.2 0 with
    | some (_, runs, some id) => (findRoom (sHeld n) x.2 0 runs).isSome == (n == 1) && id == 0 && (mget? (sHeld n).elems id).isSome
    | _ => false) = true := by decide +kernel
theorem wit_Placement_exhausted : (match mget? (sHeld 0).launches 0 with
    | some l => l.id == 0 && mget? l.holdSince 0 == some 0 && l.state == .running && !l.terminated && (mget? (sHeld 0).parts l.part).isSome &&
      decide (0 + 100 * Config.clocksPerMicrosecond ≤ (sHeld 0).clock) && (firstWaiter (sHeld 0) l 0).isSome
    | none => false) = true := by decide +kernel
/-- A launch whose hold was marked, and nothing waits. -/
theorem wit_Placement_unheld :
    let s := { sHeld 0 with elems := [] }
    (match mget? s.launches 0 with
     | some l => mget? l.holdSince 0 == some 0 && l.state == .running && !l.terminated && decide (0 + 100 * Config.clocksPerMicrosecond ≤ s.clock) && (firstWaiter s l 0).isNone
     | none => false) = true := by decide +kernel
def slot0 (n last : Nat) : GatherSlot :=
  { launch := 0, part := 0, entry := 1, label := 0, depth := 1, recs := List.replicate n ⟨0, 0, 0, 0, 1, 1, 0, [0, 0, 0, 0], 0⟩, last := last, isSealed := false, order := 0 }
theorem wit_Placement_slot : ([slot0 32 1000, slot0 1 488].all fun g => !g.isSealed && !g.recs.isEmpty && decide (32 ≤ g.recs.length ∨ g.last + 512 ≤ 1000)) = true := by
  decide +kernel
theorem wit_Placement_task :
    let s := { sPlace with gatherSlots := [(0, { slot0 32 0 with isSealed := true })] }
    (match ((sealedHeads s 0).filter fun e => places s e.2.part).find? (fun e => (findTaskQuad s e.2.part e.2.launch e.2.entry (e.1 / 8)).isSome) with
     | some (k, g) => (findTaskQuad s g.part g.launch g.entry (k / 8)).isSome && (match mget? s.launches g.launch with
       | some l => l.part == g.part && (entryOf s l g.entry).isSome && (mget? s.parts g.part).isSome
       | none => false) && g.recs.all fun r => r.pay.length == 4
     | none => false) = true := by decide +kernel
theorem wit_Placement_overflow :
    let s := { sPlace with overflow := [(0, [(1, ⟨0, 0, 0, 0, 1, 1, 0, [], 0⟩), (0, ⟨1, 1, 0, 0, 1, 1, 0, [], 0⟩), (0, ⟨2, 2, 0, 0, 1, 1, 0, [], 0⟩)])] }
    (((overflowOf s 0).map fun x => (x.1, x.2.order)) == [(0, 1), (0, 2)] && decide (queueLength s 0 < 2048) && (overflowOf sPlace 0).isEmpty) = true := by decide +kernel
/-- A wave that sleeps in no JOIN stands at a join, and a sealed slot whose entry is absent. -/
def sDead : State :=
  let s := running (.nop h0) fun w => { w with splits := mmodify w.splits 0 fun sp => { sp with state := .atJoin } }
  { s with clock := 20000, gatherSlots := [(0, { slot0 1 0 with isSealed := true, entry := 9 })] }
theorem wit_Placement_deadlock : (deadNow sDead 0 0 && !deadNow sPlace 0 0 && (mget? sDead.launches 0).isSome) = true := by decide +kernel
/-- The same for 10 µs, the wave asleep in JOIN and already spilled. -/
def sJoined : State :=
  let s := loaded (.join h0 m8)
  { s with
    clock := 20000, gatherSlots := sDead.gatherSlots, launches := mmodify s.launches 0 fun l => { l with deadSince := [(0, 0)] }
    waves := mmodify s.waves 0 fun w => { w with splits := mmodify w.splits 0 fun sp => { sp with state := .sleeping }, place := .spilled } }
theorem wit_Placement_deadlocked : (deadNow sJoined 0 0 && decide (max 0 (lastIssue sJoined 0 0) + 10 * Config.clocksPerMicrosecond ≤ sJoined.clock) &&
    (mget? sJoined.parts 0).isSome && ((dieWaves sJoined 0 0).all fun w => w.part == 0) && (dieWaves sJoined 0 0).any fun w => w.splits.any fun e => inJoin sJoined w e.2) = true := by
  decide +kernel
/-- A wave whose one split sleeps, and the same wave spilled with a wake. -/
def sAsleep (place : Residence) (wakes : List Nat) : State :=
  running (.nop h0) fun w => { w with splits := mmodify w.splits 0 fun sp => { sp with state := .sleeping }, place := place, pendingWake := wakes }
theorem wit_Placement_spill : (match mget? (sAsleep .resident []).waves 0 with
    | some w => asleep w && w.pendingWake.isEmpty && mayLeave w && canGo (sAsleep .resident []) w
    | none => false) = true := by decide +kernel
theorem wit_Placement_return : (match mget? (sAsleep .spilled [0]).waves 0 with
    | some w => w.place == .spilled && places (sAsleep .spilled [0]) w.part && !w.pendingWake.isEmpty && fitsAgain (sAsleep .spilled [0]) w
    | none => false) = true := by decide +kernel

/-- A long-latency operation on flag 0 that writes registers at its completion. -/
def op0 (what : LongWhat) : LongOp := { id := 0, flag := 0, split := 0, serial := 0, closing := false, act := allLanes, uniform := false, what := what, dead := false }
theorem wit_OrderingSteps_regs :
    let ws : List RegWrite := [⟨0, 0, 7, 0⟩, ⟨191, 31, 9, 0⟩]
    (match mget? (running (.nop h0) fun w => { w with long := [op0 (.regs ws)] }).waves 0 with
     | some w => w.id == 0 && findLong w 0 == some (op0 (.regs ws)) && (w.lanes &&& ~~~w.exited) != 0 && ws.all fun x => decide (x.code < 192 ∧ x.lane < 32)
     | none => false) = true := by decide +kernel
theorem wit_OrderingSteps_scalar :
    (match mget? (running (.nop h0) fun w => { w with long := [op0 (.regs [⟨319, 0, 7, 0⟩])] }).waves 0 with
     | some w => findLong w 0 == some (op0 (.regs [⟨319, 0, 7, 0⟩]))
     | none => false) = true := by decide +kernel
/-- An access that has performed and one that has not. -/
theorem wit_OrderingSteps_access :
    let s := issued (.st h0 .b32 (.v 4) m0) id
    (match mget? s.waves 0 with
     | some w => w.id == 0 && (match w.long with
       | [o] => (match o.what with
         | .access id => findLong w o.id == some o && (match findEntry w id with | some e => !e.doneAll | none => false) && hostDone s 0 id
         | _ => false)
       | _ => false)
     | none => false) = true := by decide +kernel
theorem wit_OrderingSteps_performed :
    let s := issued (.st h0 .b32 (.v 4) m0) id
    let s := next (exec (.storePerform 0 0 0) s) s
    (match mget? s.waves 0 with | some w => (match findEntry w 0 with | some e => e.doneAll && hostDone s 0 0 | none => false) | none => false) = true := by decide +kernel
/-- A load of one lane into a vector register, and a uniform one into a scalar register, that have performed. -/
theorem wit_OrderingSteps_loaded : ([Instr.ld ⟨.fine, false, 1, false⟩ .b32 (.v 191) m0, .ld h0 .b32 (.s 63) m0].all fun i =>
    let s := issued i fun w => { w with preds := [(1, 1)] }
    let s := next (exec (.loadPerform 0 0 0 false) s) s
    match mget? s.waves 0 with
    | some w => w.id == 0 && (w.lanes &&& ~~~w.exited) != 0 && (match w.long, findEntry w 0 with
      | [o], some e => findLong w o.id == some o && (match o.what with | .access n => n == 0 | _ => false) && e.doneAll && hostDone s 0 0 && !e.dead && !o.dead && (match e.dst, e.accs with
        | some d, [a] => a.res.length == 1 && decide (d.code + 1 ≤ 320) && a.lane == 0
        | _, _ => false)
      | _, _ => false)
    | none => false) = true := by decide +kernel
theorem wit_OrderingSteps_walk :
    (match mget? (running (.nop h0) fun w => { w with splits := mmodify w.splits 0 fun sp => { sp with state := .parked, walks := [0] } }).waves 0 with
     | some w => w.id == 0 && w.stop.isNone && (match mget? w.splits 0 with | some sp => sp.state == .parked && !sp.walks.isEmpty | none => false)
     | none => false) = true := by decide +kernel
theorem wit_OrderingSteps_wake : (match mget? (sAsleep .resident [0]).waves 0 with
    | some w => w.id == 0 && decide (0 ∈ w.pendingWake) && w.stop.isNone && (match mget? w.splits 0 with | some sp => sp.state == .sleeping | none => false)
    | none => false) = true := by decide +kernel
theorem wit_OrderingSteps_lines : ([none, some 0].all fun k =>
    let s := { loaded (.nop h0) with l1 := [{ core := 0, line := 5, way := 0, data := [], constant := k }] }
    match l1Find s 0 5 with | some x => x.constant == k | none => false) = true := by decide +kernel
theorem wit_OrderingSteps_abort : ([false, true].all fun b =>
    match mget? (running (.nop h0) (inTx 1 fun t => { txWrites true t with serial := b })).waves 0 with
    | some w => w.id == 0 && w.tx.depth != 0 && w.tx.serial == b && w.tx.reads.any fun r => r.live && r.conflict
    | none => false) = true := by decide +kernel
theorem wit_OrderingSteps_token :
    let s := { State.reset with tokenQ := [3, 4] }
    (s.token = none ∧ s.tokenQ = [3, 4]) ∧ ({ s with token := some 3 } : State).token = some 3 := by decide +kernel

/-! ## States that meet the hypotheses: engines, faults, partitions, host, security, fabric, power -/

/-- After a copy of 16 bytes from 0x8000 to 0x9000 has started. -/
def sCopy : State :=
  let s := mapped iCpy fun w => ((w.setScalar 10 16).setScalar 8 0x9000).setScalar 6 0x8000
  next (exec iCpy s) s
def copyUnit (s : State) (p : Copy → CopyUnit → Bool) : Bool :=
  match mget? s.copies 0 with
  | some c => c.id == 0 && !c.done && c.planned && (match c.units[0]? with | some u => !u.done && !c.faulted u.chunk && p c u | none => false)
  | none => false
theorem wit_EngineSteps_read : copyUnit sCopy (fun c u => fencePassed sCopy c && sCopy.bands.isEmpty && (match c.plan with | .gate .. => false | _ => true) && (match u.pieces with
    | [p] => p.val.isNone && p.src.block.isSome && refReady sCopy c.part p.src .read && (match refPlace sCopy c.part p.src .read with
      | .ok (.dev pa, page) => c.reads (.dev pa) && page.keyId == 0
      | _ => false)
    | _ => false)) = true := by decide +kernel
theorem wit_EngineSteps_write :
    let s := next (exec (.copyRead 0 0) sCopy) sCopy
    copyUnit s (fun c u => u.pieces.all (fun p => p.val.isSome) && s.txLocks.isEmpty && (s.bands.all fun b => b.2.shadow.isNone && b.2.keyId == 0) && (match u.dst with
      | .glob va => refReady s c.part (.glob va) .write && (match refPlace s c.part (.glob va) .write with
        | .ok (.dev pa, page) => engineMay s c.part (chunkLabel s c u.chunk) (.dev pa) 16 && page.keyId == 0
        | _ => false)
      | _ => false)) = true := by decide +kernel
/-- A release of 16 bytes at 0x8000 to window 0 with the labels that s6 names, and a policy for label 0 and for principal 0. -/
def iGrel : Instr := .grel h0 false 0 (.s 1) (.s 2) (.s 4) (.s 6)
def window0 : Window := ⟨3, 0, 0, 4096, 0⟩
def policy0 (l : Label) : Policy := { codeId := zero32, windows := [window0], budget := 16, period := 1000, lmask := l, serial := 1, nwin := 1, spent := 0, installed := 0, periodNo := 0 }
def sGate (ctx : Label) : State :=
  let s := mapped iGrel fun w => { ((w.setScalar 4 16).setScalar 2 0x8000).setScalar 6 1 with splits := mmodify w.splits 0 fun sp => { sp with ctx := ctx } }
  { next (exec iGrel s) s with policies := [policy0 1] }
/-- The GREL at the gate, and its copy, meet a condition. -/
def atGate (s : State) (p : GateWork → Copy → CopyRef → Nat → Nat → Nat → Label → Bool) : Bool :=
  match s.gate with
  | some g => (match mget? s.copies g.copy with
    | some c => c.id == g.copy && !c.done && gateHas s c.id && fencePassed s c && (s.bands.all fun b => b.2.shadow.isNone && b.2.keyId == 0) && (match c.plan with
      | .gate src len win off want => p g c src len win off want
      | _ => false)
    | none => false)
  | none => false
theorem wit_EngineSteps_accept : ((sGate 0).gate.isNone && (match (sGate 0).gateQ with
    | id :: _ => (match (mget? (sGate 0).copies id).map Copy.plan with | some (.gate ..) => true | _ => false)
    | [] => false)) = true := by decide +kernel
/-- The same accepted, its read taken, then debited, then written. -/
def sGateIn (ctx : Label) : State := next (exec .gateAccept (sGate ctx)) State.reset
theorem wit_EngineSteps_gateRead : atGate (sGateIn 0) (fun _ c src len _ _ want => decide (0 < len / 16) && (mget? c.plat 0).isNone && (match src with
    | .glob va => refReady (sGateIn 0) c.part (.glob (va + BitVec.ofNat 64 (16 * 0))) .read
    | _ => false) && (match gatePart (sGateIn 0) c src 0 with
    | .ok (.dev pa, page) => subset (locLabel (sGateIn 0) c.part (.dev pa)) want && page.keyId == 0
    | _ => false)) = true := by decide +kernel
def sGateRead (ctx : Label) (ps : List Policy) : State :=
  let s := next (exec (.copyRead 0 0) (sGateIn ctx)) State.reset
  { s with policies := ps, gate := s.gate.map fun g => { g with policy := none } }
/-- What `gateDebit` asks of a policy, up to a check. -/
def gateAsks (s : State) (n : Nat) : Bool := atGate s fun g c _ len win off want =>
  g.debit.isNone && decide (len / 16 ≤ c.plat.length) && (match (policyFor s want).orElse fun _ => g.policy with
    | none => n == 0x31
    | some pol =>
      if pol.codeId ≠ zero32 ∧ pol.codeId ≠ codeIdOf s c.launch then n == 0x32
      else match (if pol.nwin ≤ win then none else pol.windows[win]?) with
        | none => n == 0x33
        | some w => if w.size < off + len ∨ (w.kind = 2 ∧ off ≠ 0) then n == 0x33
          else if pol.budget < (pol.roll s.pkgTime).spent + len then n == 0x34
          else n == 0 && decide (s.logSeq < s.logAck + 65536)) &&
    subset (c.label ||| c.ctx ||| c.platLabel) want == (n != 0x30)
theorem wit_EngineSteps_debit : gateAsks (sGateRead 0 [policy0 1]) 0 = true := by decide +kernel
theorem wit_EngineSteps_refused : (atGate (sGateRead 2 [policy0 1]) (fun _ c _ _ _ _ want => !subset (c.label ||| c.ctx ||| c.platLabel) want) &&
    gateAsks (sGateRead 0 []) 0x31 && gateAsks (sGateRead 0 [{ policy0 1 with codeId := [1] }]) 0x32 && gateAsks (sGateRead 0 [{ policy0 1 with nwin := 0 }]) 0x33 &&
    gateAsks (sGateRead 0 [{ policy0 1 with windows := [{ window0 with size := 15 }] }]) 0x33 && gateAsks (sGateRead 0 [{ policy0 1 with budget := 15 }]) 0x34) = true := by
  decide +kernel
def sDebited (w : Window) (written : Nat) : State :=
  let s := sGateRead 0 [policy0 1]
  { s with gate := s.gate.map fun g => { g with debit := some ({ policy0 1 with windows := [w] }, 0), written := written } }
def debited (s : State) (f : GateWork → Window → Nat → Nat → Bool) : Bool := atGate s fun g _ _ len win off _ => match g.debit with
  | some (pol, _) => (match pol.windows[win]? with | some w => f g w len off | none => false)
  | none => false
/-- A window of another package, of a virtual function's host memory, and of a message. -/
theorem wit_EngineSteps_window : ([window0, ⟨1, 0, 0x100000, 4096, 0⟩, ⟨2, 1, 0, 4096, 0⟩].all fun w => debited (sDebited w 0) fun g w len off =>
    decide (g.written < len) && windowOpen (sDebited w 0) w && !windowWaits (sDebited w 0) w (off + g.written)) = true := by decide +kernel
theorem wit_EngineSteps_wait :
    let s := { sDebited ⟨1, 0, 0x100000, 4096, 0⟩ 0 with link := .down 0 }
    debited s (fun g w len off => decide (g.written < len) && windowOpen s w && windowWaits s w (off + g.written)) = true := by decide +kernel
/-- Written in whole; and a window that has closed before. -/
theorem wit_EngineSteps_append : (debited (sDebited window0 16) (fun g _ len _ => decide (len ≤ g.written)) &&
    debited { sDebited window0 0 with retired := List.range 36 } (fun g w len _ => decide (g.written < len) && !windowOpen { sDebited window0 0 with retired := List.range 36 } w)) = true := by
  decide +kernel
/-- The copy with its bytes read, to granule 0 of the scratchpad and to slot 31 of the bench. -/
def sCopyTo (dst : CopyRef) : State :=
  let s := next (exec (.copyRead 0 0) sCopy) sCopy
  { s with copies := mmodify s.copies 0 fun c => { c with units := c.units.map fun u => { u with dst := dst } } }
theorem wit_EngineSteps_stores : ([CopyRef.scr 0 0, .scr 0 (2 ^ 18 - 16), .bench (31 * 2048)].all fun d => copyUnit (sCopyTo d) fun c u =>
    u.dst == d && u.pieces.all (fun p => p.val.isSome) && (match c.plan with | .sig .. => false | _ => true) &&
      !lineHeld (sCopyTo d) (.scr 0 0) && !isPoisoned (sCopyTo d) (.scr 0 0) && (match mget? (sCopyTo d).waves c.wave with | some w => w.id == c.wave | none => false)) = true := by
  decide +kernel
/-- A ray of launch 0 with a stack; parcels at 0x8000, or beyond the mapped pages. -/
def ray0 (st : List StackEnt) (root : Option (Nat × Nat)) (sub : Option (Nat × List StackEnt)) (o : Option RayOver) : Ray :=
  { id := 0, launch := 0, part := 0, elem := 0, die := 0, wave := 0, lane := 0, slot := 0, org := [0, 0, 0], dir := [0, 0, 0], tmin := 0, tmax := 0x3F800000,
    tmax0 := 0x3F800000, label := 0, hitEntry := 0xFF, cullback := false, first := false, backface := false, visits := 0, hit := false, hitTri := 0, hitClu := 0,
    hitObj := 0, hitDie := 0, hitU := 0, hitV := 0, stack := st, root := root, sub := sub, subAt := none, outer := [], num := 7, got := [], overBy := o, accepted := true,
    after := 0, stall := none }
def sRay (parcels : DWord) (r : Ray) : State :=
  let s := running (.nop h0) fun w => { w with mbox := [(mboxKey 0 0, ⟨.pending, [0, 0, 0, 0], [0, 0, 0, 0]⟩)] }
  { s with launches := mmodify s.launches 0 fun l => { l with parcels := parcels, parcelCnt := 2 }, rays := [(0, r)], nextRay := 1 }
def rayAt (s : State) (p : Ray → Launch → Bool) : Bool :=
  match mget? s.rays 0, mget? s.launches 0 with
  | some r, some l => rayReady s r && r.id == 0 && (mget? s.copies 7).isNone && (texOf s 7).isNone && (s.rays.find? fun x => x.2.num == 7) == some (0, r) && p r l
  | _, _ => false
/-- The table entry of parcel 0, at 0x8000 or beyond the mapped pages; the root node of parcel 0. -/
theorem wit_EngineSteps_rayRead : ([((0x8000 : DWord), (none : Option (Nat × Nat))), (0x8000, some (0x8000, 4))].all fun x => rayAt (sRay x.1 (ray0 [⟨0, 0⟩] x.2 none none)) fun r l =>
    (sRay x.1 (ray0 [⟨0, 0⟩] x.2 none none)).bands.isEmpty && (match (r.needs l).find? fun y => y.1 == 0 with
    | some (_, va) => (match engineRead (sRay x.1 (ray0 [⟨0, 0⟩] x.2 none none)) l.part va with | .at (.dev _) page => page.keyId == 0 | _ => false)
    | none => false)) = true := by decide +kernel
theorem wit_EngineSteps_miss : rayAt (sRay 0x2000000000 (ray0 [⟨0, 0⟩] none none none)) (fun r l => match (r.needs l).find? fun y => y.1 == 0 with
    | some (_, va) => (match engineRead (sRay 0x2000000000 (ray0 [⟨0, 0⟩] none none none)) l.part va with | .miss _ => true | _ => false)
    | none => false) = true := by decide +kernel
theorem wit_EngineSteps_over : ([some RayOver.done, some .bound, some .malformed, none].all fun o => rayAt (sRay 0x8000 (ray0 [] none none o)) fun r l =>
    r.sub.isNone && r.overBy == o && (r.over l).isSome && !r.hit && r.place.stack.isEmpty && !r.malformed l && (match mget? (sRay 0x8000 (ray0 [] none none o)).waves r.wave with
    | some w => w.id == 0 && (w.slotOf 0 0).st == .pending && !bit w.exited 0 && (sRay 0x8000 (ray0 [] none none o)).soft.isEmpty
    | none => false)) = true := by decide +kernel
theorem wit_EngineSteps_link : rayAt (sRay 0x8000 (ray0 [⟨2 * 2 ^ 30 + 1, 0⟩] (some (0x8000, 4)) none none)) (fun r l => r.overBy.isNone && r.sub.isNone &&
    !r.malformed l && (match r.place.stack with | e :: _ => e.ref / 2 ^ 30 % 4 == 2 | [] => false)) = true := by decide +kernel
theorem wit_EngineSteps_back : ([(none : Option RayOver), some .bound].all fun o => rayAt (sRay 0x8000 (ray0 [] (some (0x8000, 4)) (some (1, [])) o)) fun r l =>
    r.sub.isSome && (r.place.stack.isEmpty || (r.over l).isSome)) = true := by decide +kernel

/-- A link met in parcel 0 that a linked traversal reached, and the way back from it. -/
theorem wit_EngineSteps_nested :
    let r := { ray0 [] (some (0x8000, 4)) (some (0, [⟨2 * 2 ^ 30 + 1, 0⟩])) none with subAt := some (0x8000, 4, 0) }
    let b := { ray0 [] (some (0x8000, 4)) (some (1, [])) none with outer := [((0, []), some (0x8000, 4, 0))] }
    (rayAt (sRay 0x8000 r) (fun r l => r.sub.isSome && (r.over l).isNone && r.subAt.isSome && (match r.place.stack with | e :: _ => e.ref / 2 ^ 30 % 4 == 2 | [] => false)) &&
      rayAt (sRay 0x8000 b) fun r _ => r.sub.isSome && r.place.stack.isEmpty && !r.outer.isEmpty) = true := by decide +kernel

/-- A partition with a fault queue of 64 records at 0x10000 (R374), and a record that waits. -/
def sRecord (prod : Word) (r : Record) : State :=
  let s := loaded (.nop h0)
  { s with parts := mmodify s.parts 0 fun p => { p with faultq := 0x10006, fqprod := prod, records := [r] } }
theorem wit_FaultSteps_write : ((match mget? (sRecord 63 (eventRecord 0 0x12 0 0)).parts 0 with
    | some p => p.state != .disabled && (match p.records with | [r] => recordReady (sRecord 63 (eventRecord 0 0x12 0 0)) r | _ => false) &&
      (match recordPlace (sRecord 63 (eventRecord 0 0x12 0 0)) 0 p with
       | some (some (.dev _, page)) => (sRecord 63 (eventRecord 0 0x12 0 0)).bands.isEmpty && page.keyId == 0
       | _ => false)
    | none => false)) = true := by decide +kernel
theorem wit_FaultSteps_full : (match mget? (sRecord 64 (eventRecord 0 0x12 0 0)).parts 0 with | some p => fqSet p && !fqRoom p | none => false) = true := by decide +kernel
/-- A trapped record of launch 0, whose trap entry is entry 1. -/
def sTrap : State :=
  let s := loaded (.nop h0)
  { s with
    objects := mmodify s.objects 0 fun o => { o with entries := [loadEntry, { loadEntry with kind := 4, vregs := 32, bench := 0 }] }
    waves := [], launches := mmodify s.launches 0 fun l => { l with trapEntry := 1 }
    parts := mmodify s.parts 0 fun p => { p with trapQueue := [{ eventRecord 0 0x13 0 0 with trapped := true }] } }
theorem wit_FaultSteps_trap : (match mget? sTrap.parts 0 with
    | some p => places sTrap 0 && (p.trapQueue.all fun x => match mget? sTrap.launches x.launch with | some y => !y.terminated && y.state != .ended | none => false) &&
      (match (trapHeads sTrap p).findSome? (fun r => (trapQuad sTrap 0 r).map fun x => (r, x)) with
       | some (_, l, _) => (entryOf sTrap l l.trapEntry).isSome
       | none => false)
    | none => false) = true := by decide +kernel
theorem wit_FaultSteps_watchdog :
    let s := { loaded (.nop h0) with clock := 2 * Config.clocksPerMillisecond, parts := mmodify (loaded (.nop h0)).parts 0 fun p => { p with wdlim := 1 } }
    (match mget? s.launches 0, mget? s.parts 0 with
     | some l, some p => p.wdlim != 0 && l.state == .running && !l.terminated && decide (l.start + p.wdlim.toNat * Config.clocksPerMillisecond < s.clock)
     | _, _ => false) = true := by decide +kernel
/-- A wave stopped by TRAP at its split 0, with handle 0; and one stopped by an illegal opcode. -/
def sStopped (code : Nat) (atPc : Bool) : State := running (.nop h0) fun w => { w with
  stop := some ⟨code, 0, atPc, true, [], none⟩, splits := mmodify w.splits 0 fun sp => { sp with state := .parked } }
def stoppedAt (s : State) (f : Wave → Nat → Stop → Bool) : Bool := match findHandle s 0 0 with
  | some (w, k) => (match w.stop with | some st => f w k st && w.place != .saved && w.place != .saving && w.late.isEmpty | none => false)
  | none => false
theorem wit_FaultSteps_resolve : ([(0x13, false), (0x01, false), (0x14, true)].all fun x => stoppedAt (sStopped x.1 x.2) fun w k st =>
    st.rerun.isEmpty && st.atPc == x.2 && (keepsPc st.code == (x.1 != 1)) && (w.split k).walks.isEmpty && !w.inTx k && w.splits.map (fun e => e.1) == [k] &&
      (w.split k).rcv != some (w.split k).region.hdr && (w.split k).state == .parked) = true := by decide +kernel
theorem wit_FaultSteps_end : stoppedAt (sStopped 0x13 true) (fun w k _ =>
    let s := sStopped 0x13 true
    w.role != .trap && mget? s.waves w.id == some w && s.elems.isEmpty && (s.bands.all fun b => b.2.shadow.isNone) && s.waves.length == 1 && bit (w.split k).mask 31) = true := by
  decide +kernel
/-- A wave in a step of its split 0, before and after the instruction. -/
theorem wit_FaultSteps_stepped :
    let b := running (.nop h0) fun w => { w with step := 17 }
    let s := running (.nop h0) fun w => { w with step := 17, splits := mmodify w.splits 0 fun sp => { sp with pc := ⟨0x10000, 1⟩, begun := true } }
    (match mget? b.waves 0, mget? s.waves 0 with
     | some x, some w => w.id == 0 && w.step == 17 * 2 ^ 0 && w.stop.isNone && hasIssued x w 0 && (mget? w.splits 0).isSome
     | _, _ => false) = true := by decide +kernel
theorem wit_FaultSteps_terminate :
    let s := loaded (.nop h0)
    ((match mget? s.launches 0 with | some l => !l.terminated && l.state != .ended | none => false) && (s.waves.all fun e => e.2.id == e.1) &&
      decide ((s.waves.map fun e => e.1).Nodup) && s.waves.any fun e => e.2.launch == 0 && e.2.place != .ended) = true := by decide +kernel
theorem wit_FaultSteps_illegal :
    ((issuer (running (.nop h0) id) (ctlOf 0) fun c => c.sp.mask).isSome && headerErr 0 == none && headerErr 1 == some 0 && (build (wOp (0x3FF * 2 ^ 54)) (ctlOf 0) 0).isNone &&
      (issuer (running (.nop h0) id) (ctlOf (0x3FF * 2 ^ 54)) (wordMask (BitVec.ofNat 64 (0x3FF * 2 ^ 54)))).isSome) = true := by decide +kernel

/-- A partition in a state. -/
def sPart (st : PartState) (f : Partition → Partition) : State :=
  let s := loaded (.nop h0)
  { s with waves := [], launches := [], clusters := [], parts := mmodify s.parts 0 fun p => f { p with state := st } }
def partAt (s : State) (f : Partition → Bool) : Bool :=
  match mget? s.parts 0 with
  | some p => f p
  | none => false
theorem wit_PartitionSteps_states : (([PartState.running, .draining, .suspended, .disabled].all fun st => partAt (sPart st id) fun p => p.state == st) &&
    partAt (sPart .draining fun p => { p with preempt := true }) (fun p => p.preempt) && drained (sPart .draining id) 0 && (wavesOf (sPart .draining id) 0).isEmpty && (sPart .draining id).copies.isEmpty) = true := by
  decide +kernel
/-- A resident wave keeps its partition from having drained; its limit has passed. -/
theorem wit_PartitionSteps_limit :
    let s := { loaded (.nop h0) with clock := 20000 * Config.clocksPerMicrosecond }
    (!drained s 0 && partAt s fun p => !p.preempt && decide (p.drainSince + p.drainlim.toNat * Config.clocksPerMicrosecond ≤ s.clock)) = true := by decide +kernel
/-- Waves as their keys name them. -/
def named (s : State) : Bool := (s.waves.all fun e => e.2.id == e.1) && decide ((s.waves.map fun e => e.1).Nodup)
/-- A resident wave that runs, and one that has stopped, in a running partition. -/
theorem wit_PartitionSteps_preempt : (named (loaded (.nop h0)) && partAt (loaded (.nop h0)) (fun p => p.state == .running) &&
    ((loaded (.nop h0)).waves.all fun e => e.2.part == 0 && e.2.place == .resident && e.2.stop.isNone && e.2.splits.all fun x => x.2.state != .parked) &&
    (sStopped 0x13 true).waves.all fun e => e.2.place == .resident && e.2.stop.isSome) = true := by decide +kernel
/-- A wave whose issued work is complete, and the context region of its partition. -/
theorem wit_PartitionSteps_save :
    let s := running (.nop h0) fun w => { w with place := .saving }
    let s := { s with parts := mmodify s.parts 0 fun p => { p with ctxBase := 0x100000 } }
    (s.waves.all fun e => e.2.long.isEmpty && e.2.place == .saving && partAt s (fun p =>
        let area := p.ctxBase.toNat + blockBytes * e.2.lquad + 0x20000 * e.2.slot
        p.ctxBase != 0 && p.ctxBase.toNat % 2 ^ 16 == 0 && decide (area + 0x20000 ≤ 2 ^ 40) && decide (area % 2 ^ 37 + 0x20000 ≤ 0x1FBC000000))) = true ∧
    s.copies = [] ∧ (s.bands.all fun b => b.2.shadow.isNone && b.2.keyId == 0) = true := by decide +kernel
/-- A suspended partition with a saved wave that has a range of one granule away, and one that has stopped. -/
theorem wit_PartitionSteps_restore : ([false, true].all fun stops =>
    let s := running (.nop h0) fun w => { w with
      place := .saved, cluster := none, scrSize := 1, splits := mmodify w.splits 0 (fun sp => { sp with state := .parked })
      stop := if stops then some ⟨0x13, 0, true, true, [], none⟩ else none }
    let s := { s with
      parts := mmodify s.parts 0 fun p => { p with state := .suspended }
      savedScr := [{ cluster := false, owner := 0, pos := 0, first := 0, count := 1, bytes := [(1023, 5)], labels := [] }] }
    named s && partAt s fun p => p.state == .suspended && (resumeErr s 0 p).isNone && (match planRanges s p (savedOf s 0) [] with | some [(_, _, _)] => true | _ => false) &&
      (savedOf s 0).all (fun r => decide ((r.bytes.map fun b => b.1).Nodup) && r.bytes.all fun b => decide (b.1 < r.count * 1024)) &&
      s.waves.all fun e => e.2.part == 0 && !e.2.splits.isEmpty && e.2.step == 0 && e.2.splits.all fun x => x.2.rcv.isNone && x.2.state == .parked) = true := by
  decide +kernel
theorem wit_PartitionSteps_resume :
    let s := sPart .suspended id
    (partAt s fun p => (resumeErr s 0 p).isNone && (planRanges s p (savedOf s 0) []).isSome && s.waves.isEmpty) = true := by decide +kernel
/-- Two logical quadrants on physical quadrant 0. -/
theorem wit_PartitionSteps_resumeErr :
    let s := sPart .suspended fun p => { p with qmap := [(0, 0x80000000), (1, 0x80000000)] }
    (partAt s fun p => (resumeErr s 0 p).isSome) = true := by decide +kernel
theorem wit_PartitionSteps_registers : (partAt (sPart .running id) (fun p => p.vfEnabled) && !(partOf State.reset 31).vfEnabled &&
    decide (6 ≤ (sPart .disabled id).bootStep) && !(sPart .disabled id).bootStat.msb && partAt (sPart .disabled id) fun p => !p.wipe && decide (validEntries p ≠ [])) = true := by
  decide +kernel

theorem wit_LinkRetrains : ({ State.reset with link := .down 5 } : State).link = .down 5 ∧ ({ State.reset with link := .up } : State).link = .up := by decide
/-- An access of the host's memory by a mapped page would wait; one of device memory is ready. -/
theorem wit_LinkRetrains_access : firstReady { issued (.st h0 .b32 (.v 4) m0) id with link := .down 0 } false (fun _ _ _ => true) = true := by decide +kernel
def sHost : State := { loaded (.nop h0) with link := .up }
theorem wit_HostSteps_read : (decodes sHost 0 false 0 1 && decodes sHost 0 false 0x8000 256 && !decodes sHost 0 false 0x1FBC000000 1 && !decodes sHost 5 false 0 1 &&
    subset (runLabel sHost 0x8000 256) (boundOf sHost 0) && !runPoisoned sHost 0x8000 256 && sHost.bands.isEmpty) = true := by decide +kernel
theorem wit_HostSteps_write : (!lineLocked sHost 0x8000 16 && decodes sHost 0 true 0x8000 16 && subset (boundOf sHost 0) (frameLabel sHost 1)) = true := by decide +kernel
/-- Partition 0's bound mask holds principal 3, which frame 1's label does not. -/
theorem wit_HostSteps_label :
    let s := { sHost with parts := mmodify sHost.parts 0 fun p => { p with boundMask := 8 } }
    (decodes s 1 true 0x8000 16 && !subset (boundOf s 1) (frameLabel s 1) && !lineLocked s 0x8000 16) = true := by decide +kernel
theorem wit_HostSteps_beyond : 2 ^ 40 < (2 ^ 40 : Nat) + 1 ∧ 2 ^ 40 < (2 ^ 40 - 1 : Nat) + 2 := by decide
theorem wit_HostSteps_link : (∃ s : State, s.link = .down 0 ∧ s.clock < 0 + linkLimit ∧ 6 ≤ s.bootStep) ∧ (∃ s : State, s.link = .down 0 ∧ 0 + linkLimit ≤ s.clock ∧ 6 ≤ s.bootStep) ∧
    ∃ s : State, s.link = .failed :=
  ⟨⟨{ State.reset with link := .down 0, bootStep := 6 }, by decide⟩, ⟨{ State.reset with link := .down 0, bootStep := 6, clock := linkLimit }, by decide⟩,
    ⟨{ State.reset with link := .failed }, by decide⟩⟩

theorem wit_SecuritySteps_tables : ((0 : Nat) < 32 ∧ 31 < 32 ∧ 32 ≤ 32) ∧ (window0.kind = 3 ∧ window0.target < 144) ∧
    (tenant0.part < 32 ∧ tenant0.identities.length ≤ 4) ∧ ({ window0 with kind := 0 } : Window).kind = 0 := by decide
/-- A policy body for principal 0: CODEID 0, one window of 4 KiB of host memory, a budget, a period, serial 1. -/
def body0 : List Byte := leBytes 256 (1 * 2 ^ 560 + 1 * 2 ^ 568 + 1 * 2 ^ 608 + 1000 * 2 ^ 640 + 4096 * 2 ^ 704)
theorem wit_SecuritySteps_withdraw (sig key : List Byte) (h : xmssVerify key (digest (leBytes 4 1)) sig = true) :
    ∃ s : State, bit 1 0 = true ∧ mget? s.principals 0 = some key ∧ xmssVerify key (digest (leBytes 4 (1 : Label).toNat)) sig = true ∧ (policyFor s 1).isSome = true :=
  ⟨{ State.reset with principals := [(0, key)], policies := [policy0 1] }, by decide, rfl, h, by simp [policyFor, policy0]⟩
theorem wit_SecuritySteps_unsigned : signedByAll State.reset 1 [] [] = false ∧ bit 1 31 = false := by decide +kernel
theorem wit_SecuritySteps_log : 0 < ({ State.reset with logSeq := 1 } : State).logSeq ∧ (List.replicate 32 (0 : Byte)).length = 32 := by decide
theorem wit_SecuritySteps_peer : peerKeys [] = State.reset.principals ∧ (143 : Nat) < 144 ∧ 143 ≠ State.reset.pkgNum ∧ 143 ∉ State.reset.domain ∧ peerKeys [(0, [1])] ≠ State.reset.principals := by
  decide +kernel
theorem wit_SecuritySteps_frame : (!frameBusy (loaded (.nop h0)) 0 && decide (0 < frameCount) && (loaded (.nop h0)).bands.isEmpty &&
    frameBusy (issued (.st h0 .b32 (.v 4) m0) id) 0) = true := by decide +kernel
/-- A code object file: a header, one section of no bytes, one compute entry of 8 registers, no relocation. -/
def file0 : List Byte :=
  leBytes 128 (0x534C5254 + 2 ^ 32 + 128 * 2 ^ 480 + 192 * 2 ^ 512 + 2 ^ 544 + 2 ^ 552 + 0x8000 * 2 ^ 672 + 0x40000000 * 2 ^ 704) ++
    leBytes 64 (0x8000 * 2 ^ 128) ++ leBytes 64 ((2 ^ 384 - 1) * 2 ^ 128 + 2 ^ 56)
theorem wit_SecuritySteps_object : ((objFileOf file0).good file0 && baseGood (loaded (.nop h0)) 0 0x2000000000 (objFileOf file0).header &&
    (match relocateAll 0x2000000000 (objFileOf file0).relocs 0 ((objFileOf file0).sects.map (stage file0)) with | .ok _ => true | .error _ => false) &&
    !(objFileOf []).good []) = true := by decide +kernel

def packet0 : Packet := ⟨1, 35, 0, 0, 0x8000, .write [1, 2, 3]⟩
theorem wit_FabricPowerSteps_packet :
    (!lineLocked sHost 0x8000 3 && sHost.barred.isEmpty && mgetD sHost.rxSeq (seqKey 1 35) 0 == 0 && runOpen sHost .network true 0x8000 3 && decide (6 ≤ sHost.bootStep) && sHost.pkgNum != 1 && sHost.bands.isEmpty &&
      subset packet0.label (frameLabel sHost 1) && packetBytes packet0 == 3) = true := by decide +kernel
theorem wit_FabricPowerSteps_barred : packet0.src ∈ ({ State.reset with barred := [1] } : State).barred ∧ packet0.seq < mgetD [(seqKey 1 35, 1)] (seqKey packet0.src packet0.plane) 0 := by
  decide +kernel
theorem wit_FabricPowerSteps_planes : (35 ∉ State.reset.retired ∧ mgetD State.reset.flitFails 35 0 + 1 ≤ retryLimit) ∧
    retryLimit < mgetD ([(35, 64)] : Map Nat) 35 0 + 1 := by decide +kernel
theorem wit_FabricPowerSteps_power : (mayEnter { sPart .running id with clock := 10000000 } .quadrantGate 95 && !mayEnter (loaded (.nop h0)) .quadrantGate 0) = true := by
  decide +kernel
def start0 (step : Nat) (ok : Bool) : StartArg := ⟨step, ok, 0, ⟨[], [], 0, 0, 0, []⟩, [], [], [], [], [], []⟩
theorem wit_FabricPowerSteps_record (r : ConfigRecord) (h : recordGood r = true) : stepSucceeds { start0 1 false with record := r } = true ∧ State.reset.bootStep + 1 = 1 := ⟨h, rfl⟩
theorem wit_FabricPowerSteps_start : ([2, 3, 5, 6].all fun n => stepSucceeds (start0 n true) && !stepSucceeds (start0 n false) && (start0 n true).step == ({ State.reset with bootStep := n - 1 } : State).bootStep + 1 &&
    !({ State.reset with bootStep := n - 1 } : State).bootStat.msb) = true ∧ (start0 2 true).step ≠ State.reset.bootStep + 1 ∧ (start0 1 false).step = State.reset.bootStep + 1 ∧ State.reset.bootStat.msb = false := by
  decide +kernel
theorem wit_FabricPowerSteps_late : ([(4, 15), (5, 0), (6, 7)].all fun x => let a : StartArg := { start0 x.1 false with unit := x.2 }
    a.step == ({ State.reset with bootStep := x.1 - 1 } : State).bootStep + 1 && !stepSucceeds a && unitThere a.step a.unit && decide (a.step = 6 → a.unit < celideUnit)) = true := by
  decide +kernel

/-! ## States that meet the hypotheses: encoding, steps -/

theorem wit_RoundTrip : WellFormed (.nop h0) = true ∧ Instr.word (.nop h0) = 0 ∧ (Instr.launch true 0xB000).command = [cmdHeader 1 1 true 0, 0xB000] := by decide +kernel
theorem wit_MemoryCanonical : Memory.wf (loaded (.nop h0)).mem = true ∧ Memory.wf (loaded (.nop h0)).host = true ∧ Memory.wf (loaded (.nop h0)).pod = true ∧
    Memory.wf (loaded (.nop h0)).scratch = true ∧ ∃ t, step (loaded (.nop h0)) = .next t :=
  ⟨by decide +kernel, by decide +kernel, by decide +kernel, by decide +kernel, ⟨next (step (loaded (.nop h0))) State.reset, by rfl⟩⟩
/-- The loaded word is the next to issue: the agenda, the wave, the header and the word are as the clause asks. -/
theorem wit_StepRuns_issue :
    let s := loaded (.movi h0 false (.s 9) 77)
    ((match s.agenda with | .issue 0 0 :: _ => true | _ => false) && (match mget? s.waves 0 with
     | some w => w.id == 0 && w.place == .resident && w.stop.isNone && w.step == 0 && (match mget? w.splits 0, mget? s.launches w.launch, (mget? s.launches w.launch).bind fun l => entryOf s l w.entry with
       | some sp, some _, some (o, _) => sp.state == .ready && (match fetchWord s w sp.pc.hdr.toNat with
         | .ok hdr => decide (headerErr hdr = none) && (sp.begun || waitClear w hdr) && (match fetchWord s w (sp.pc.hdr + 8).toNat with
           | .ok word => decodesTo (BitVec.ofNat 64 word) (.movi h0 false (.s 9) 77) && rateLegal o.draw .fine && treat o.draw w.rate (.movi h0 false (.s 9) 77) sp.pc hdr == .execute &&
             !withheld { s with cur := ⟨0, 0, sp.pc.hdr, BitVec.ofNat 64 hdr, sp.pc.idx⟩ } w.quad (word / 2 ^ 60) (.movi h0 false (.s 9) 77)
           | .error _ => false)
         | .error _ => false)
       | _, _, _ => false)
     | none => false)) = true := by decide +kernel
theorem wit_StepRuns_command : queueAt (sQueue queue0 [cmdHeader 0 1 false 0]) (fun p x => p.state == .running && x.wait == .none &&
    (match commandWords (sQueue queue0 [cmdHeader 0 1 false 0]) 0 x with | some ws => decodeCommand ws == .cmdNop false | none => false)) = true := by decide +kernel
theorem wit_StepRuns_events : isEvent (.loadPerform 0 0 0 false) = true ∧ isEvent (.fabricPacket packet0) = true ∧ isEvent (.nop h0) = false := by decide
theorem wit_StepRuns_clock : nextAct (passClock State.reset) = none ∧ State.reset.agenda = [] ∧ (nextAct (passClock { issued (.st h0 .b32 (.v 4) m0) id with agenda := [] })).isSome = true := by
  decide +kernel

end Sys2Proof.Tests
end

section
/-! PROOFS. What an acquire drops from its core's L1 (R114). -/
namespace Sys2Proof.Machine

/-- The scopes narrower than `.quad`, at which an acquire drops nothing (R114). -/
theorem scope_num_lt_two_iff (sc : Scope) : sc.num < 2 ↔ sc = .wave ∨ sc = .core := by
  cases sc <;> decide

theorem acquire_of_num_lt_two (s : State) (core : Nat) {sc : Scope} (h : sc.num < 2) : acquire s core sc = s :=
  if_pos h

theorem acquire_of_two_le_num (s : State) (core : Nat) {sc : Scope} (h : 2 ≤ sc.num) :
    acquire s core sc = { s with l1 := s.l1.filter fun x => x.core != core || x.constant.isSome } :=
  if_neg (Nat.not_lt.mpr h)

/-- The lines that an acquire at `.quad` or wider keeps: those of another core and the constant ones (R114). -/
theorem mem_acquire_l1_iff (s : State) (core : Nat) {sc : Scope} (h : 2 ≤ sc.num) (x : L1Line) :
    x ∈ (acquire s core sc).l1 ↔ x ∈ s.l1 ∧ (x.core ≠ core ∨ x.constant.isSome = true) := by
  rw [acquire_of_two_le_num s core h, List.mem_filter, Bool.or_eq_true, bne_iff_ne]

/-- An acquire changes no part of the state but L1. -/
theorem acquire_eq_with_l1 (s : State) (core : Nat) (sc : Scope) :
    acquire s core sc = { s with l1 := (acquire s core sc).l1 } := by
  rcases Nat.lt_or_ge sc.num 2 with narrow | wide
  · rw [acquire_of_num_lt_two s core narrow]
  · rw [acquire_of_two_le_num s core wide]

/-- Settles O26, by the two cases of the scope: narrower than `.quad`, and `.quad` or wider. -/
theorem acquireDropsL1 : Obligations.AcquireDropsL1 := by
  refine ⟨fun s core sc narrow => ?_, fun s core sc x notWave notCore => ?_, acquire_eq_with_l1⟩
  · exact acquire_of_num_lt_two s core ((scope_num_lt_two_iff sc).mpr narrow)
  · have wide : 2 ≤ sc.num := Nat.not_lt.mp fun h => ((scope_num_lt_two_iff sc).mp h).elim notWave notCore
    exact mem_acquire_l1_iff s core wide x

end Sys2Proof.Machine
end

section
/-! PROOFS. The words of integer results: what of a number they keep, the range of a sign extension, and the readings of the integer forms. -/
namespace Sys2Proof.Machine

/-- A word that runs as `runAlu` writes what its body lists. -/
theorem writes_runAlu {i : Instr} {d : Opr} {n : Nat} {f : State → Ctx → Nat → List Word}
    (runs : ∀ s, exec i s = runAlu i s d n (f s)) : Writes i d n f := by
  intro s c ready
  rw [runs s]
  exact runAlu_spec ready d n (f s)

/-- The same where the words are stated by another formula than the body's. -/
theorem writes_runAlu_congr {i : Instr} {d : Opr} {n : Nat} {g f : State → Ctx → Nat → List Word}
    (runs : ∀ s, exec i s = runAlu i s d n (g s)) (same : ∀ s c l, g s c l = f s c l) : Writes i d n f := by
  have words : g = f := by
    funext s c l
    exact same s c l
  subst words
  exact writes_runAlu runs

/-! ## Register words of a number -/

theorem regs_mul_32 (w : Width) : 32 * w.regs = wbits w := by cases w <;> rfl

theorem wbits_pos (w : Width) : 0 < wbits w := by cases w <;> decide

/-- `n` register words keep the low `32 * n` bits of a number. -/
theorem toWords_mod (n v : Nat) : toWords n (v % 2 ^ (32 * n)) = toWords n v := by
  induction n generalizing v with
  | zero => rfl
  | succ n ih =>
    have power : 2 ^ (32 * (n + 1)) = 2 ^ 32 * 2 ^ (32 * n) := by rw [← pow_add, Nat.mul_succ, Nat.add_comm]
    have low : BitVec.ofNat 32 (v % 2 ^ (32 * (n + 1))) = BitVec.ofNat 32 v := by
      apply BitVec.eq_of_toNat_eq
      rw [power, BitVec.toNat_ofNat, BitVec.toNat_ofNat, Nat.mod_mul_right_mod]
    have high : v % 2 ^ (32 * (n + 1)) / 2 ^ 32 = v / 2 ^ 32 % 2 ^ (32 * n) := by
      rw [power, Nat.mod_mul_right_div_self]
    rw [toWords, toWords, low, high, ih]

theorem intWords_natCast (n v : Nat) : intWords n (v : Int) = toWords n v := by
  rw [intWords, ← Int.natCast_emod, Int.toNat_natCast, toWords_mod]

/-- The high word of a 64-bit result is the word of its quotient by 2^32. -/
theorem intWords_two_drop_one (x : Int) : (intWords 2 x).drop 1 = intWords 1 (x / 2 ^ 32) := by
  have high : (x % (2 ^ 64 : Nat)).toNat / 2 ^ 32 = (x / 2 ^ 32 % (2 ^ 32 : Nat)).toNat := by omega
  exact congrArg (toWords 1) high

/-- A wrapping product does not depend on how its operands are read (R264). -/
theorem arith_mul_wrap (w : Width) (a b : Nat) : arith (fun x y => x * y) .wrap w a b = toWords w.regs (a * b) := by
  have unsigned : arith (fun x y => x * y) .wrap w a b = intWords w.regs ((a % 2 ^ wbits w * (b % 2 ^ wbits w) : Nat) : Int) := rfl
  rw [unsigned, intWords_natCast, ← toWords_mod, regs_mul_32, ← Nat.mul_mod, ← regs_mul_32, toWords_mod]

/-! ## Sign extension -/

/-- An `n`-bit number read as signed lies in the signed range of `n` bits. -/
theorem sextN_bounds {n : Nat} (pos : 0 < n) (v : Nat) :
    -((2 ^ (n - 1) : Nat) : Int) ≤ sextN n v ∧ sextN n v < ((2 ^ (n - 1) : Nat) : Int) := by
  have double := mul_pow_sub_one pos.ne' 2
  have below : v % 2 ^ n < 2 ^ n := Nat.mod_lt v (Nat.two_pow_pos n)
  unfold sextN
  split <;> omega

/-- A magnitude leaves the signed range only at its greatest value, 2^(n-1) (R264). -/
theorem fitInt_ss_natCast {n m : Nat} (le : m ≤ 2 ^ (n - 1)) :
    fitInt .ss n (m : Int) = ((if m = 2 ^ (n - 1) then 2 ^ (n - 1) - 1 else m : Nat) : Int) := by
  have pos := Nat.two_pow_pos (n - 1)
  unfold fitInt clampInt
  dsimp only
  split_ifs <;> omega

/-- IABS: the magnitude, with the least value's clamped under `.ss` (R264). -/
theorem iabs_words (w : Width) (ss : Bool) (v : Nat) :
    let m := (sextN (wbits w) v).natAbs
    intWords w.regs (if ss then fitInt .ss (wbits w) (m : Nat) else (m : Nat)) =
      toWords w.regs (if ss && m == 2 ^ (wbits w - 1) then 2 ^ (wbits w - 1) - 1 else m) := by
  intro m
  have bounds := sextN_bounds (wbits_pos w) v
  have le : m ≤ 2 ^ (wbits w - 1) := by omega
  cases ss with
  | false => exact intWords_natCast w.regs m
  | true =>
    rw [if_pos rfl, fitInt_ss_natCast le, intWords_natCast]
    simp only [Bool.true_and, beq_iff_eq]

/-- An arithmetic right shift by the width or more leaves copies of the sign (R266). -/
theorem sextN_fdiv_min {w : Nat} (pos : 0 < w) (v k : Nat) :
    Int.fdiv (sextN w v) (2 ^ min k w : Nat) =
      if w ≤ k then (if sextN w v < 0 then -1 else 0) else sextN w v / 2 ^ k := by
  rw [Int.fdiv_eq_ediv_of_nonneg _ (Int.natCast_nonneg _)]
  by_cases whole : w ≤ k
  · rw [if_pos whole, Nat.min_eq_right whole]
    obtain ⟨least, greatest⟩ := sextN_bounds pos v
    have double := mul_pow_sub_one pos.ne' 2
    split
    · exact Int.ediv_eq_neg_one_of_neg_of_le ‹_› (by omega)
    · exact Int.ediv_eq_zero_of_lt (by omega) (by omega)
  · rw [if_neg whole, Nat.min_eq_left (by omega), Nat.cast_pow, Nat.cast_ofNat]

/-! ## Bits and fields -/

theorem tb_eq_testBit (v i : Nat) : tb v i = v.testBit i := by
  rw [tb, Nat.testBit_eq_decide_div_mod_eq]
  rfl

/-- A source of either width holds the register that the operand names in its low 32 bits. -/
theorem srcW_mod_two_pow_32 (s : State) (c : Ctx) (w : Width) (o : Opr) (l : Nat) : srcW s c w o l % 2 ^ 32 = src s c o l := by
  have lt : src s c o l < 2 ^ 32 := (readReg s c o 0 l).isLt
  cases w with
  | w32 => exact Nat.mod_eq_of_lt lt
  | w64 => exact (Nat.add_mul_mod_self_left _ _ _).trans (Nat.mod_eq_of_lt lt)

/-- The byte that BFE and BFI take a position or a length from (R266). -/
theorem srcW_byte0 (s : State) (c : Ctx) (w : Width) (o : Opr) (l : Nat) : srcW s c w o l % 256 = src s c o l % 256 := by
  have low := srcW_mod_two_pow_32 s c w o l
  omega

/-- The byte that BFI takes its length from (R266). -/
theorem srcW_byte1 (s : State) (c : Ctx) (w : Width) (o : Opr) (l : Nat) : srcW s c w o l / 256 % 256 = src s c o l / 256 % 256 := by
  have low := srcW_mod_two_pow_32 s c w o l
  omega

end Sys2Proof.Machine
end

section
/-! PROOFS. The integer, bit and logic forms (R263 to R267). -/
namespace Sys2Proof.Machine

/-- Settles O1: each form is a `runAlu` word; where its body is not the rule's formula as it stands, the two agree as numbers. -/
theorem integerArithmetic : Obligations.IntegerArithmetic := by
  refine ⟨?iadd, ?isub, ?iaddw, ?imul, ?imulhi, ?imad, ?imadw, ?idiv, ?irem, ?imin, ?imax, ?iabs⟩
  case iadd => exact fun h w sat d a b => writes_runAlu fun _ => rfl
  case isub => exact fun h w sat d a b => writes_runAlu fun _ => rfl
  case iaddw => exact fun h sg d a b => writes_runAlu fun _ => rfl
  case imul => exact fun h w d a b => writes_runAlu_congr (fun _ => rfl) fun _ _ _ => arith_mul_wrap w _ _
  case imulhi => exact fun h sg d a b => writes_runAlu_congr (fun _ => rfl) fun _ _ _ => intWords_two_drop_one _
  case imad =>
    refine fun h v d a b c => writes_runAlu_congr (fun _ => rfl) fun s x l => ?_
    cases v <;> rfl
  case imadw => exact fun h sg d a b c => writes_runAlu fun _ => rfl
  case idiv =>
    refine fun h w sg d a b => writes_runAlu_congr (fun _ => rfl) fun s c l => ?_
    simp only [divInt, Nat.cast_pow, Nat.cast_ofNat]
  case irem =>
    refine fun h w sg d a b => writes_runAlu_congr (fun _ => rfl) fun s c l => ?_
    simp only [remInt, Int.tmod_def]
  case imin => exact fun h w sg d a b => writes_runAlu fun _ => rfl
  case imax => exact fun h w sg d a b => writes_runAlu fun _ => rfl
  case iabs => exact fun h w ss d a => writes_runAlu_congr (fun _ => rfl) fun _ _ _ => iabs_words w ss _

/-- Settles O2, in the same way. -/
theorem bitAndLogic : Obligations.BitAndLogic := by
  refine ⟨?and, ?or, ?xor, ?bcond, ?shl, ?shr, ?sar, ?rotl, ?bfe, ?bfi, ?popc, ?clz, ?brev⟩
  case and => exact fun h w d a b => writes_runAlu fun _ => rfl
  case or => exact fun h w d a b => writes_runAlu fun _ => rfl
  case xor => exact fun h w d a b => writes_runAlu fun _ => rfl
  case bcond =>
    refine fun h w g1 g0 d a b c => writes_runAlu_congr (fun _ => rfl) fun s x l => ?_
    simp only [tb_eq_testBit, apply_ite Fn2.eval, ite_apply]
  case shl => exact fun h w d a b => writes_runAlu fun _ => rfl
  case shr => exact fun h w d a b => writes_runAlu fun _ => rfl
  case sar =>
    refine fun h w d a b => writes_runAlu_congr (fun _ => rfl) fun s c l => ?_
    exact congrArg (intWords w.regs) (sextN_fdiv_min (wbits_pos w) _ _)
  case rotl => exact fun h w d a b => writes_runAlu fun _ => rfl
  case bfe =>
    refine fun h w sg d a b c => writes_runAlu_congr (fun _ => rfl) fun s x l => ?_
    simp only [srcW_byte0, ge_iff_le]
  case bfi =>
    refine fun h w d a b c => writes_runAlu_congr (fun _ => rfl) fun s x l => ?_
    simp only [srcW_byte0, srcW_byte1, tb_eq_testBit, ge_iff_le]
  case popc =>
    refine fun h w d a => writes_runAlu_congr (fun _ => rfl) fun s c l => ?_
    simp only [ones, tb_eq_testBit]
  case clz => exact fun h w d a => writes_runAlu fun _ => rfl
  case brev =>
    refine fun h w d a => writes_runAlu_congr (fun _ => rfl) fun s c l => ?_
    simp only [tb_eq_testBit]

end Sys2Proof.Machine
end
